-- ==== Sys2Proof/Word.lean ====
section
/-! DEFINITION. The widths the manual counts in: bytes, 32-bit words, 40-bit array addresses, and the
numbers of the tables (tags, partitions, regions, request table entries). -/

namespace Sys2Proof

/-- One byte, as it crosses a port or lies in a journal slot or a window address. -/
abbrev Byte := BitVec 8

/-- A 32-bit value: a sequence, a lap, an epoch, a generation, a tick stamp, a transaction number. -/
abbrev Word := BitVec 32

/-- A 40-bit byte address of the array (00_scope.md section 4.5). -/
abbrev Addr := BitVec 40

/-- A run of bytes, the one at the lowest address first. -/
abbrev Bytes := List Byte

/-- A tag that names a group, 1 to 15 (R1), held as the tag's number less one: `Tag.number` gives the
manual's number. Tag 0 is no `Tag`. -/
abbrev Tag := Fin 15

/-- A partition's number, 0 to 3 (R44). -/
abbrev PartId := Fin 4

/-- A region map entry's number, 0 to 7 (R78). -/
abbrev RegionId := Fin 8

/-- A request table entry's number, 0 to 31 (R86). -/
abbrev EntryId := Fin 32

end Sys2Proof
end

