-- ==== Sys2Proof/Syntax.lean ====
section
/-! DEFINITION. The commands of spec/opcode_table.json, one constructor per row, with the operands the
rules give each: what the host, the array, the management master and the pins bring to the part. -/

namespace Sys2Proof

/-- The kind of an access (R76, R159). -/
inductive Kind where
  | read
  | write
deriving DecidableEq, Repr

/-- A request at the host port, field by field as R76 lists them. `tag` 0 is untagged; `intent` is the
code on the sideband (0 PLAIN, 1 COMMIT, 2 ABORT; 3 names no intent). -/
structure HostRequest where
  hostId  : Byte
  kind    : Kind
  address : Addr
  length  : Nat
  data    : Bytes
  tag     : BitVec 4
  intent  : BitVec 2
deriving DecidableEq, Repr

/-- The result an array response carries (R159): OKAY, with data for a READ, or ERROR. -/
inductive ArrayResult where
  | okay (data : Bytes)
  | error
deriving DecidableEq, Repr

/-- Which piece of a frame a row brings, or the whole of it: `opens` where MSEL has just fallen; `edges`, how many of
the rising edges of MCLK of the byte in progress have come when the piece is over; `rises` where MSEL then rises
(R172, R173). -/
structure Piece where
  opens : Bool
  edges : Fin 8
  rises : Bool
deriving DecidableEq, Repr

/-- The commands. A `number` is the transaction number of an array response or of an outstanding record
(R161, R162). A frame comes whole or in pieces: a piece is the bytes it completes on MDI, the first of which an earlier
piece may have begun, and the edges of the byte in progress; with `opens` it begins with the fall of MSEL, and otherwise
it continues the frame in progress; with `rises` it ends with the rise of MSEL, and otherwise MSEL stays low (R172,
R173).
`pfw` is the level of the power-fail warning line in the event that tests it (R158), `mselLow` the level of
MSEL (R184). -/
inductive Instr where
  /-- HOST_REQUEST (R80). -/
  | hostRequest (request : HostRequest)
  /-- HELD_REQUEST_RETAKEN (R81). -/
  | heldRequestRetaken
  /-- LEAVE_ORDERED (R88): the entry of this number. -/
  | leaveOrdered (entry : EntryId)
  /-- HOST_READ_DONE (R89). -/
  | hostReadDone (number : Word) (result : ArrayResult)
  /-- CAPTURE_READ_DONE (R91). -/
  | captureReadDone (number : Word) (result : ArrayResult)
  /-- HOME_WRITE_DONE (R92). -/
  | homeWriteDone (number : Word) (result : ArrayResult)
  /-- DRAIN_COMPLETE (R12): the group of this tag. -/
  | drainComplete (tag : Tag)
  /-- SLOT_ISSUE (R61): the READY run of this partition. -/
  | slotIssue (partition : PartId)
  /-- SLOT_WRITE_DONE (R62). -/
  | slotWriteDone (number : Word) (result : ArrayResult)
  /-- HEADER_WRITE_DONE (R68). -/
  | headerWriteDone (number : Word) (result : ArrayResult)
  /-- UNWIND_TAKE_GROUP (R103). -/
  | unwindTakeGroup
  /-- GROUP_SETTLED (R104). -/
  | groupSettled
  /-- STORES_CLEARED (R106). -/
  | storesCleared
  /-- UNWIND_READ_DONE (R107). -/
  | unwindReadDone (number : Word) (result : ArrayResult)
  /-- RESTORE_WRITE_DONE (R108). -/
  | restoreWriteDone (number : Word) (result : ArrayResult)
  /-- TICK (R186). -/
  | tick
  /-- AGE_EXPIRY (R8): the group of this tag. -/
  | ageExpiry (tag : Tag)
  /-- ARRAY_TIMEOUT (R165): the record of this number. -/
  | arrayTimeout (number : Word)
  /-- LATE_RESPONSE (R162). -/
  | lateResponse (number : Word) (result : ArrayResult)
  /-- HEADER_READ_DONE (R123). -/
  | headerReadDone (number : Word) (result : ArrayResult)
  /-- SCAN_READ_DONE (R126). -/
  | scanReadDone (number : Word) (result : ArrayResult)
  /-- VOID_READ_DONE (R131). -/
  | voidReadDone (number : Word) (result : ArrayResult)
  /-- VOID_WRITE_DONE (R131). -/
  | voidWriteDone (number : Word) (result : ArrayResult)
  /-- RECOVERY_READ_DONE (R132). -/
  | recoveryReadDone (number : Word) (result : ArrayResult)
  /-- RECOVERY_WRITE_DONE (R132). -/
  | recoveryWriteDone (number : Word) (result : ArrayResult)
  /-- HEADER_REWRITE_DONE (R134). -/
  | headerRewriteDone (number : Word) (result : ArrayResult)
  /-- FORMAT_WRITE_DONE (R141). -/
  | formatWriteDone (number : Word) (result : ArrayResult)
  /-- QUIET_CONDITION (R151). -/
  | quietCondition
  /-- READ_FRAME (R176): the bytes after the kind byte 0x3C, with which a piece that opens the frame begins. -/
  | readFrame (rest : Bytes) (piece : Piece)
  /-- WRITE_FRAME (R180): the bytes after the kind byte 0xC3, with which a piece that opens the frame begins. -/
  | writeFrame (rest : Bytes) (piece : Piece) (pfw : Bool)
  /-- START (R148). -/
  | start
  /-- FORMAT (R140): its operand is the operand register (R145). -/
  | format
  /-- QUIESCE (R150). -/
  | quiesce
  /-- RESUME (R152). -/
  | resume
  /-- STOP (R153). -/
  | stop
  /-- FORCE_UNWIND (R19): its operand is the operand register (R145). -/
  | forceUnwind
  /-- RETRY_UNWIND (R117): its operand is the operand register (R145). -/
  | retryUnwind
  /-- CLEAR_INCIDENTS (R193). -/
  | clearIncidents
  /-- SOFT_RESET (R157). -/
  | softReset (pfw : Bool)
  /-- UNKNOWN_COMMAND (R147): the code written to the command register. -/
  | unknownCommand (code : Byte)
  /-- PFW_ASSERT (R154). -/
  | pfwAssert
  /-- RESET_LINE_ASSERT (R156). -/
  | resetLineAssert (mselLow : Bool)
  /-- RESET_LINE_RELEASE (R158). -/
  | resetLineRelease (pfw : Bool) (mselLow : Bool)
  /-- DISCARDED_FRAME_ENDS (R184). -/
  | discardedFrameEnds
  /-- BAD_KIND_FRAME (R175): all its bytes. -/
  | badKindFrame (bytes : Bytes) (piece : Piece)
  /-- REQUEST_HANDED_OVER (R161). -/
  | requestHandedOver
deriving DecidableEq, Repr

end Sys2Proof
end

