-- ==== Sys2Proof/Decode.lean ====
section
/-! DEFINITION. The table of commands gives no row any bits (98_reader.md: no row has fixed bits), so no
word spells a command; commands arrive as events at the ports. -/

namespace Sys2Proof

/-- The command that the `nbits` bits of `w` spell: none, since no row of the table has an encoding. -/
def decodeTableWord (_nbits _w : Nat) : Option Instr :=
  none

end Sys2Proof
end

