-- ==== Sys2Proof/Config.lean ====
section
/-! DEFINITION. The sizes the manual fixes for every J416: tables, slots, limits. It leaves no value to
an implementation and gives no result an open value, so there is no free value here. -/

namespace Sys2Proof.Config

/-- Entries of the request table (R86). -/
def requestEntries : Nat := 32
/-- Entries of the claim table, and of the recovery list in its storage (R29, R43). -/
def claimEntries : Nat := 1024
/-- Entries of a partition's span list (R52). -/
def spanEntries : Nat := 64
/-- Entries of the incident list (R190). -/
def incidentEntries : Nat := 8
/-- The largest undo count of a group (R5). -/
def undoLimit : Nat := 1024
/-- Bytes of a line and of a slot (00_scope.md section 4.5). -/
def lineBytes : Nat := 64
/-- Bytes of a unit (00_scope.md section 4.5). -/
def unitBytes : Nat := 4096
/-- Slots of a unit (00_scope.md section 4.5). -/
def unitSlots : Nat := 64
/-- The tick divider after the reset line (R185). -/
def resetDivider : BitVec 16 := 25000
/-- The largest age (R7). -/
def ageTop : Nat := 65535
/-- The sequence counter stops after fewer steps than this (R2). -/
def sequenceSteps : Nat := 272

end Sys2Proof.Config
end

