-- ==== Sys2Proof/Machine/State.lean ====
section
/-! DEFINITION. Everything the manual gives the J416 to hold, as plain data, and the part right after the
reset line has been released. Each structure cites the rule whose table it copies. -/

namespace Sys2Proof.Machine

/-- The block raises no fault: whatever goes wrong is a response status, an incident, an attention flag or
a command status of its own, and the part goes on. So this inductive has no constructor. -/
inductive Fault : Type
deriving DecidableEq, Repr

/-- Why a command has no next state. -/
inductive Refusal where
  /-- Raised by `exec`'s arm of a command without a meaning; no arm raises it now. Safe: the run stops. -/
  | notModelled (mnemonic : String)
  /-- Raised by HOST_REQUEST for a request that R76 does not give: a length of 0 or a number of data bytes
  that is not the one its kind and length call for. Safe: the run stops and no host can send such a
  request over the port. -/
  | malformedRequest
deriving DecidableEq, Repr

/-! ### The controller (R143, R146) -/

/-- The controller state (R143). -/
inductive CtrlState where
  | config
  | recovering
  | active
  | quiescing
  | quiet
  | shutdown
deriving DecidableEq, Repr

/-- The commands that the command register names (R200). -/
inductive Command where
  | start
  | format
  | quiesce
  | resume
  | stop
  | forceUnwind
  | retryUnwind
  | clearIncidents
  | softReset
deriving DecidableEq, Repr

/-- The outcome of the last command taken (R146). -/
inductive CmdOutcome where
  | idle
  | running
  | done
  | refused
  | failed
deriving DecidableEq, Repr

/-- The reasons of REFUSED and FAILED (R146, R200). -/
inductive Reason where
  | unknown
  | shutdown
  | state
  | operand
  | configInvalid
  | noPartition
  | partitionOverlap
  | regionOverlap
  | partitionFault
  | headerInvalid
  | geometry
  | journalInconsistent
  | arrayError
  | restore
deriving DecidableEq, Repr

/-- The configuration check of START that failed (R146, R148). -/
inductive OverlapCheck where
  | partitionOverlap
  | regionOverlap
deriving DecidableEq, Repr

/-- The command status (R146). `second` is a partition or a region index. -/
structure CommandStatus where
  outcome     : CmdOutcome
  reason      : Option Reason
  check       : Option OverlapCheck
  first       : Option PartId
  second      : Option Nat
  echo        : Option Command
  operandEcho : Option Byte
deriving DecidableEq, Repr

/-- A FORMAT that is RUNNING (R141): the partition, base, size and epoch it was accepted with, the header
slot being written (1, then 0) and the attempt. -/
structure FormatJob where
  partition : PartId
  base      : Word
  size      : BitVec 16
  epoch     : Word
  copySlot  : Nat
  attempt   : Nat
deriving DecidableEq, Repr

/-! ### Configuration (R44, R78) -/

/-- The mode of a region (R78). -/
inductive RegionMode where
  | guarded
  | shared
deriving DecidableEq, Repr

/-- An entry of the region map, base and size in units (R78). -/
structure Region where
  base    : Word
  size    : Word
  mode    : RegionMode
  enabled : Bool
deriving DecidableEq, Repr

/-- The base and size of a partition, in units (R44). -/
structure Geometry where
  base : Word
  size : BitVec 16
deriving DecidableEq, Repr

/-! ### The group table (R1) -/

/-- The state of a group entry (R1); `opened` is the manual's OPEN. -/
inductive GroupState where
  | free
  | opened
  | draining
  | sealing
  | unwinding
  | halted
  | broken
deriving DecidableEq, Repr

/-- Why a group was revoked (R16). -/
inductive RevokeCause where
  | age
  | array
  | partitionFault
  | forced
deriving DecidableEq, Repr

/-- Who started an unwind (R1). -/
inductive UnwindOrigin where
  | host
  | revoke
deriving DecidableEq, Repr

/-- An entry of the group table (R1). -/
structure Group where
  state         : GroupState
  sequence      : Option Word
  partition     : Option PartId
  claimsHeld    : Nat
  undoCount     : Option Nat
  age           : Nat
  revokeCause   : Option RevokeCause
  unwindOrigin  : Option UnwindOrigin
  commitRequest : Option EntryId
  parkedAbort   : Option EntryId
deriving DecidableEq, Repr

/-- An entry of the claim table (R29). -/
structure Claim where
  line     : Addr
  tag      : Tag
  logged   : Bool
  index    : Nat
  undoSlot : Nat
deriving DecidableEq, Repr

/-! ### Journal partitions (R46, R47, R51, R52) -/

/-- The state of a partition (R46). -/
inductive PartState where
  | off
  | scanning
  | restoring
  | ready
  | faulted
deriving DecidableEq, Repr

/-- A position in a ring: a slot together with a lap (R48). -/
structure Pos where
  slot : Nat
  lap  : Word
deriving DecidableEq, Repr

/-- An entry of the span list (R52). -/
structure Span where
  sequence : Option Word
  count    : Nat
deriving DecidableEq, Repr

/-- What a slot will hold (R51); a PAD's first slot knows the PAD's length. -/
inductive SlotKind where
  | unknown
  | undoHeader
  | undoData
  | commit
  | unwound
  | padFirst (length : Nat)
  | padSecond
deriving DecidableEq, Repr

/-- How far the write of a slot has gone (R51). -/
inductive Progress where
  | waiting
  | ready
  | inFlight
  | acknowledged
  | failed
deriving DecidableEq, Repr

/-- What identifies the record a slot belongs to: the group's tag and sequence, the record index of an
UNDO record or the undo count of a closing record, and the home line of an UNDO record. -/
structure RecordInfo where
  tag      : Tag
  sequence : Word
  index    : Nat
  line     : Option Addr
deriving DecidableEq, Repr

/-- The mark of a slot (R51), with the attempt its write has reached (R62), the contents decided for it
and the record it belongs to. -/
structure Mark where
  kind     : SlotKind
  progress : Progress
  attempt  : Nat
  contents : Bytes
  record   : Option RecordInfo
deriving DecidableEq, Repr

/-- A header write in flight (R47, R67): the tail, lap and generation it carries, its attempt and its bytes. -/
structure HeaderWrite where
  tail       : Pos
  generation : Word
  attempt    : Nat
  contents   : Bytes
deriving DecidableEq, Repr

/-- The state and run state of a partition (R46, R47). The marks stand in ring order, the first at the
durable tail; the acknowledged front is `Partition.front`. -/
structure Partition where
  state       : PartState
  head        : Pos
  workingTail : Pos
  durableTail : Pos
  reserved    : Nat
  spans       : List Span
  marks       : List Mark
  generation  : Word
  epoch       : Word
  headerWrite : Option HeaderWrite
deriving DecidableEq, Repr

/-! ### The request table (R85, R86) -/

/-- The response statuses (R85). -/
inductive Status where
  | okay
  | committed
  | unwound
  | released
  | empty
  | span
  | intent
  | notReady
  | powerDown
  | quiescing
  | untagged
  | conflict
  | claimLimit
  | claimsFull
  | journalFull
  | noJournal
  | journalFault
  | closing
  | busy
  | revoked
  | broken
  | arrayError
  | abandoned
deriving DecidableEq, Repr

/-- A response at the host port (R76). -/
structure Response where
  hostId : Byte
  status : Status
  data   : Bytes
deriving DecidableEq, Repr

/-- The path of an entry (R86). -/
inductive Path where
  | read
  | unjournaled
  | newClaim
  | ownClaim
  | abort
deriving DecidableEq, Repr

/-- The phase of an entry (R86). -/
inductive Phase where
  | ordered
  | waitUnwind
  | loading
  | capturing
  | logging
  | storing
  | awaitOutcome
deriving DecidableEq, Repr

/-- An entry's UNDO allocation (R86). -/
structure UndoRef where
  partition : PartId
  slot      : Nat
deriving DecidableEq, Repr

/-- The group an entry was admitted to, kept for the incidents that name it after the entry's `group` has
become absent (R94). -/
structure Member where
  tag       : Tag
  sequence  : Word
  partition : PartId
deriving DecidableEq, Repr

/-- An entry of the request table (R86). -/
structure Entry where
  index    : EntryId
  request  : HostRequest
  line     : Addr
  path     : Path
  phase    : Phase
  group    : Option Tag
  undo     : Option UndoRef
  answered : Bool
  readData : Option Bytes
  member   : Option Member
deriving DecidableEq, Repr

/-! ### The unwind engine (R101) -/

/-- The engine state (R101). -/
inductive EngineState where
  | idle
  | settling
  | restoring
  | closing
  | stopped
deriving DecidableEq, Repr

/-- How far the restore of the current line has gone (R101). -/
inductive LineStep where
  | waitStores
  | reading (attempt : Nat)
  | writing (attempt : Nat)
deriving DecidableEq, Repr

/-- The unwind engine (R101). `restoreSet` holds the claims still to restore, in descending record index,
as the set is fixed by R105. -/
structure Engine where
  state       : EngineState
  waiting     : List Tag
  current     : Option Tag
  currentLine : Option Claim
  lineStep    : LineStep
  restoreData : Option Bytes
  failedLines : Nat
  firstFailed : Option Addr
  retryTag    : Option Tag
  restoreSet  : List Claim
deriving DecidableEq, Repr

/-! ### The recovery scanner (R121) -/

/-- The stage of the scanner (R121). -/
inductive Stage where
  | headers
  | scan
  | void
  | restore
  | rewrite
deriving DecidableEq, Repr

/-- The header copy chosen (R121, R124). -/
structure ChosenHeader where
  epoch      : Word
  generation : Word
  tail       : Pos
  size       : Nat
deriving DecidableEq, Repr

/-- An entry of the recovery list (R121, R128). -/
structure RecoveryEntry where
  sequence : Word
  tag      : Tag
  undoSlot : Nat
  line     : Addr
deriving DecidableEq, Repr

/-- How far the restore of a recovery list entry has gone (R121). -/
inductive RestoreStep where
  | reading
  | writing
deriving DecidableEq, Repr

/-- The recovery scanner (R121). The manual implies the rest: the two header copies as they return and
their attempts (R123), the UNDO header slot held while its data slot is read (R126), the entries still to
restore, the next one first (R132), and the bytes a restore or a rewrite may have to write again. -/
structure Scanner where
  current      : Option PartId
  stage        : Option Stage
  chosen       : Option ChosenHeader
  position     : Option Pos
  attempt      : Nat
  scanEnd      : Option Pos
  list         : List RecoveryEntry
  restoreEntry : Option RecoveryEntry
  restoreStep  : Option RestoreStep
  copy0        : Option Bytes
  copy1        : Option Bytes
  attempt0     : Nat
  attempt1     : Nat
  heldHeader   : Option Bytes
  toRestore    : List RecoveryEntry
  writeData    : Option Bytes
deriving DecidableEq, Repr

/-! ### The array port (R160, R161) -/

/-- The purpose of a request at the array port (R160). -/
inductive Purpose where
  | hostRead
  | captureRead
  | homeWrite
  | slotWrite
  | headerWrite
  | unwindRead
  | restoreWrite
  | headerRead
  | scanRead
  | voidRead
  | voidWrite
  | recoveryRead
  | recoveryWrite
  | headerRewrite
  | formatWrite
deriving DecidableEq, Repr

/-- The issuer's reference of an outstanding record (R161). -/
inductive Ref where
  | entry (index : EntryId)
  | slot (partition : PartId) (slot : Nat)
  | header (partition : PartId) (copySlot : Nat)
  | unwindLine
  | scanner (partition : PartId) (slot : Nat)
  | restoreEntry
  | format (partition : PartId) (copySlot : Nat)
deriving DecidableEq, Repr

/-- A record of the outstanding set (R161); `data` is what a WRITE carries to the array (R159). The issuer
and the kind follow from the purpose (R160). -/
structure PortRecord where
  number  : Word
  purpose : Purpose
  ref     : Ref
  address : Addr
  length  : Nat
  data    : Bytes
  passed  : Bool
  ticks   : Nat
  limit   : Nat
deriving DecidableEq, Repr

/-! ### The management link (R173, R183) -/

/-- The frame state (R173). -/
inductive FrameState where
  | idle
  | header
  | data
  | trailing
  | discarding
deriving DecidableEq, Repr

/-- The last-frame status (R183). -/
inductive FrameStatus where
  | ok
  | headerCheck
  | badKind
  | badLength
  | badAddress
  | short
  | long
  | dataCheck
  | locked
  | readOnly
  | commandBusy
deriving DecidableEq, Repr

/-- The management link (R173). `header` holds the header bytes as received, `buffer` the data bytes of a
write frame and then their data check. -/
structure Link where
  frame     : FrameState
  bitCount  : Nat
  header    : Bytes
  decided   : Option FrameStatus
  snapshot  : Option Bytes
  buffer    : Bytes
  lastFrame : FrameStatus
deriving DecidableEq, Repr

/-! ### Attention and incidents (R187, R190) -/

/-- The attention causes, in priority order (R187). -/
inductive Cause where
  | powerWarning
  | partitionFault
  | groupBroken
  | commandFailed
  | groupRevoked
  | incidentLost
  | linkError
  | commandEnded
  | quietReached
deriving DecidableEq, Repr

/-- The kinds of incident (R190). -/
inductive IncidentKind where
  | slotRetried
  | partitionFaulted
  | homeWriteFailed
  | captureFailed
  | restoreFailed
  | groupRevoked
  | headerWriteFailed
  | arrayTimeout
  | recoveryUnwound
  | startFailed
deriving DecidableEq, Repr

/-- An entry of the incident list (R190). -/
structure Incident where
  kind      : IncidentKind
  stamp     : Word
  tag       : Option Tag
  sequence  : Option Word
  partition : Option PartId
  line      : Option Addr
  detail    : Option Nat
deriving DecidableEq, Repr

/-! ### The whole part -/

/-- The state of the J416. The last four fields are the model's own: what the part sent in the event last
taken (`responses` at the host port, `mdo` on the link, one level for each rising edge of MCLK), how many groups
have joined the waiting order in that event (`joined`, which R102's order among them needs), and the queue of
the commands that wait. -/
structure State where
  resetLine     : Bool
  pfwLine       : Bool
  controller    : CtrlState
  cmdStatus     : CommandStatus
  operand       : Byte
  formatJob     : Option FormatJob
  regions       : Vector Region 8
  geometry      : Vector Geometry 4
  tagMap        : Vector PartId 15
  claimLimit    : BitVec 16
  ageLimit      : BitVec 16
  arrayTimeout  : BitVec 8
  tickDivider   : BitVec 16
  formatEpoch   : Word
  groups        : Vector Group 15
  seqCounter    : Word
  claims        : List Claim
  partitions    : Vector Partition 4
  requests      : List Entry
  held          : Option HostRequest
  engine        : Engine
  scanner       : Scanner
  outstanding   : List PortRecord
  issueCounter  : Word
  link          : Link
  flags         : BitVec 9
  mask          : BitVec 9
  incidents     : List Incident
  dropped       : Nat
  tickCounter   : Word
  divisionCount : Nat
  responses     : List Response
  mdo           : List Bool
  joined        : Nat
  pending       : List Instr
deriving DecidableEq, Repr

/-- A FREE entry: every optional field absent, every count 0 (R1). -/
def Group.cleared : Group where
  state := .free
  sequence := none
  partition := none
  claimsHeld := 0
  undoCount := none
  age := 0
  revokeCause := none
  unwindOrigin := none
  commitRequest := none
  parkedAbort := none

/-- A partition in OFF, its run state cleared (R47). -/
def Partition.cleared : Partition where
  state := .off
  head := ⟨0, 0⟩
  workingTail := ⟨0, 0⟩
  durableTail := ⟨0, 0⟩
  reserved := 0
  spans := []
  marks := []
  generation := 0
  epoch := 0
  headerWrite := none

/-- The engine after a reset (R120). -/
def Engine.cleared : Engine where
  state := .idle
  waiting := []
  current := none
  currentLine := none
  lineStep := .waitStores
  restoreData := none
  failedLines := 0
  firstFailed := none
  retryTag := none
  restoreSet := []

/-- The scanner after a reset and whenever no recovery runs (R121). -/
def Scanner.cleared : Scanner where
  current := none
  stage := none
  chosen := none
  position := none
  attempt := 1
  scanEnd := none
  list := []
  restoreEntry := none
  restoreStep := none
  copy0 := none
  copy1 := none
  attempt0 := 1
  attempt1 := 1
  heldHeader := none
  toRestore := []
  writeData := none

/-- The link after a reset with MSEL high (R173). -/
def Link.cleared : Link where
  frame := .idle
  bitCount := 0
  header := []
  decided := none
  snapshot := none
  buffer := []
  lastFrame := .ok

/-- The command status after the reset line (R146). -/
def CommandStatus.cleared : CommandStatus where
  outcome := .idle
  reason := none
  check := none
  first := none
  second := none
  echo := none
  operandEcho := none

/-- A region map entry after the reset line (R78). -/
def Region.cleared : Region where
  base := 0
  size := 0
  mode := .guarded
  enabled := false

/-- The part after power-up and the release of the reset line, with the power-fail warning line inactive
and MSEL high: every field at the value its chapter gives for the reset line (R27, R43, R44, R45, R74, R78,
R86, R120, R121, R139, R145, R146, R156, R161, R164, R170, R173, R185, R186, R188, R189, R190), the issue
counter at its power-up value 0 (R161), nothing sent and no command waiting. -/
def State.reset : State where
  resetLine := false
  pfwLine := false
  controller := .config
  cmdStatus := .cleared
  operand := 0
  formatJob := none
  regions := Vector.replicate 8 .cleared
  geometry := Vector.replicate 4 ⟨0, 0⟩
  tagMap := Vector.replicate 15 0
  claimLimit := 1024
  ageLimit := 0
  arrayTimeout := 0
  tickDivider := Config.resetDivider
  formatEpoch := 0
  groups := Vector.replicate 15 .cleared
  seqCounter := 1
  claims := []
  partitions := Vector.replicate 4 .cleared
  requests := []
  held := none
  engine := .cleared
  scanner := .cleared
  outstanding := []
  issueCounter := 0
  link := .cleared
  flags := 0
  mask := 0
  incidents := []
  dropped := 0
  tickCounter := 0
  divisionCount := 0
  responses := []
  mdo := []
  joined := 0
  pending := []

end Sys2Proof.Machine
end

