-- ==== Sys2Proof/Machine/Ops.lean ====
section
/-! DEFINITION. The named operations over the tables: reading and writing an entry of each, answering the
host, and issuing, matching and forgetting requests at the array port. A block whose table it is calls
nothing else to change it. -/

namespace Sys2Proof.Machine

/-! ### Lines and addresses -/

/-- The line that holds a byte: its address with the low six bits clear (00_scope.md section 4.5). -/
def lineOf (a : Addr) : Addr :=
  BitVec.ofNat 40 (a.toNat - a.toNat % Config.lineBytes)

/-- Ring capacity of a partition of `size` units: 64·S − 2 slots (R44). -/
def ringCapacity (size : Nat) : Nat :=
  Config.unitSlots * size - 2

/-- The last ring slot of a partition of `size` units: 64·S − 1 (R44). -/
def lastRingSlot (size : Nat) : Nat :=
  Config.unitSlots * size - 1

/-- The position `n` slots further on in a ring of capacity `cap` (R48, R49). -/
def Pos.advance (cap n : Nat) (p : Pos) : Pos :=
  ⟨2 + (p.slot - 2 + n) % cap, p.lap + BitVec.ofNat 32 ((p.slot - 2 + n) / cap)⟩

/-- The distance from `a` to the later position `b`, in slots (R48). -/
def Pos.dist (cap : Nat) (a b : Pos) : Nat :=
  (b.lap - a.lap).toNat * cap + b.slot - a.slot

/-! ### Partitions -/

/-- The size of a partition in units. -/
def State.size (s : State) (p : PartId) : Nat :=
  (s.geometry[p]).size.toNat

/-- The ring capacity of a partition (R44). -/
def State.capacity (s : State) (p : PartId) : Nat :=
  ringCapacity (s.size p)

/-- A partition of size 0 is disabled (R44). -/
def State.enabled (s : State) (p : PartId) : Bool :=
  decide (s.size p ≠ 0)

/-- The array address of a slot: base·4096 + 64·k (R44). -/
def Geometry.slotAddr (g : Geometry) (slot : Nat) : Addr :=
  BitVec.ofNat 40 (g.base.toNat * Config.unitBytes + Config.lineBytes * slot)

/-- The array address of slot `slot` of partition `p` (R44). -/
def State.slotAddr (s : State) (p : PartId) (slot : Nat) : Addr :=
  (s.geometry[p]).slotAddr slot

/-- The state and run state of a partition. -/
def State.part (s : State) (p : PartId) : Partition :=
  s.partitions[p]

/-- Write a partition. -/
def State.setPart (p : PartId) (x : Partition) (s : State) : State :=
  { s with partitions := s.partitions.set p x }

/-- Change a partition. -/
def State.modPart (p : PartId) (f : Partition → Partition) (s : State) : State :=
  s.setPart p (f (s.part p))

/-- The four partitions in ascending order. -/
def allPartitions : List PartId :=
  List.finRange 4

/-- The number of slots that the acknowledged front has passed, from the durable tail (R51). -/
def frontCount (marks : List Mark) : Nat :=
  (marks.takeWhile (fun m => m.progress == .acknowledged)).length

/-- The acknowledged front (R51); with no slot passed it is the durable tail, which in OFF reads 0 (R47). -/
def Partition.front (cap : Nat) (part : Partition) : Pos :=
  match frontCount part.marks with
  | 0 => part.durableTail
  | n => part.durableTail.advance cap n

/-- The occupancy: the distance from the durable tail to the head (R50). -/
def Partition.occupancy (cap : Nat) (part : Partition) : Nat :=
  part.durableTail.dist cap part.head

/-- Where the mark of a slot stands in the list of marks. -/
def Partition.markIndex (cap : Nat) (part : Partition) (slot : Nat) : Nat :=
  (slot + cap - part.durableTail.slot) % cap

/-- The journal engine begins work in a partition only while it is READY and the controller is not in
SHUTDOWN (R46, R65, R71). -/
def State.journalRuns (s : State) (p : PartId) : Bool :=
  decide ((s.part p).state = .ready) && decide (s.controller ≠ .shutdown)

/-! ### Groups -/

/-- A group table entry. -/
def State.group (s : State) (t : Tag) : Group :=
  s.groups[t]

/-- Write a group table entry. -/
def State.setGroup (t : Tag) (g : Group) (s : State) : State :=
  { s with groups := s.groups.set t g }

/-- Change a group table entry. -/
def State.modGroup (t : Tag) (f : Group → Group) (s : State) : State :=
  s.setGroup t (f (s.group t))

/-- The fifteen tags in ascending order. -/
def allTags : List Tag :=
  List.finRange 15

/-- The state of a tag's group. -/
def State.groupState (s : State) (t : Tag) : GroupState :=
  (s.group t).state

/-- An entry returns to FREE: every field cleared (R1). -/
def State.freeGroup (t : Tag) (s : State) : State :=
  s.setGroup t .cleared

/-! ### Claims -/

/-- The claim of a line, if there is one (R30). -/
def State.claimOf (s : State) (line : Addr) : Option Claim :=
  s.claims.find? (fun c => c.line == line)

/-- The claims of a group. -/
def State.claimsOf (s : State) (t : Tag) : List Claim :=
  s.claims.filter (fun c => c.tag == t)

/-- The claim of a line leaves the table (R37). -/
def State.dropClaim (line : Addr) (s : State) : State :=
  { s with claims := s.claims.filter (fun c => c.line != line) }

/-! ### The request table and the host port -/

/-- The entry of a number, if it is occupied. -/
def State.entry (s : State) (i : EntryId) : Option Entry :=
  s.requests.find? (fun e => e.index == i)

/-- Change the entry of a number. -/
def State.modEntry (i : EntryId) (f : Entry → Entry) (s : State) : State :=
  { s with requests := s.requests.map (fun e => if e.index = i then f e else e) }

/-- The entry of a number leaves the table. -/
def State.dropEntry (i : EntryId) (s : State) : State :=
  { s with requests := s.requests.filter (fun e => e.index != i) }

/-- The lowest-numbered free entry (R86). -/
def State.freeEntry (s : State) : Option EntryId :=
  (List.finRange 32).find? (fun i => !s.requests.any (fun e => e.index == i))

/-- Send a response from the host port (R76). -/
def State.respond (hostId : Byte) (status : Status) (data : Bytes) (s : State) : State :=
  { s with responses := s.responses ++ [⟨hostId, status, data⟩] }

/-- Answer an entry. -/
def State.answer (e : Entry) (status : Status) (data : Bytes) (s : State) : State :=
  s.respond e.request.hostId status data

/-- Answer an entry and let it leave the table. -/
def State.finishEntry (e : Entry) (status : Status) (data : Bytes) (s : State) : State :=
  (s.answer e status data).dropEntry e.index

/-- Answer an entry whose array access is still outstanding: it stays, answered (R94). -/
def State.answerEarly (e : Entry) (status : Status) (s : State) : State :=
  (s.answer e status []).modEntry e.index (fun x => { x with answered := true })

/-- An entry's access is incomplete until it has completed or failed (R88): every phase but AWAIT_OUTCOME. -/
def Entry.incomplete (e : Entry) : Bool :=
  decide (e.phase ≠ .awaitOutcome)

/-! ### The array port -/

/-- Whether a purpose reads or writes (R160). -/
def Purpose.kind : Purpose → Kind
  | .hostRead | .captureRead | .unwindRead | .headerRead | .scanRead | .voidRead | .recoveryRead => .read
  | .homeWrite | .slotWrite | .headerWrite | .restoreWrite | .voidWrite | .recoveryWrite | .headerRewrite
  | .formatWrite => .write

/-- The requests that the recovery scanner issues (R160). -/
def Purpose.ofScanner : Purpose → Bool
  | .headerRead | .scanRead | .voidRead | .voidWrite | .recoveryRead | .recoveryWrite | .headerRewrite => true
  | .hostRead | .captureRead | .homeWrite | .slotWrite | .headerWrite | .unwindRead | .restoreWrite
  | .formatWrite => false

/-- The first number at or after `v` that is not `used`, looking at most `fuel` numbers ahead. -/
def skipUsed (used : List Word) : Nat → Word → Word
  | 0, v => v
  | fuel + 1, v => if v ∈ used then skipUsed used fuel (v + 1) else v

/-- Issue a request (R161): it takes the issue counter's value as its number, with tick count 0 and the
array timeout as its limit (R164), and the counter steps on past the numbers in the set. -/
def State.issue (purpose : Purpose) (ref : Ref) (address : Addr) (length : Nat) (data : Bytes) (s : State) :
    State :=
  let outstanding := s.outstanding ++
    [⟨s.issueCounter, purpose, ref, address, length, data, false, 0, s.arrayTimeout.toNat⟩]
  { s with
    outstanding := outstanding
    issueCounter := skipUsed (outstanding.map (·.number)) outstanding.length (s.issueCounter + 1) }

/-- The outstanding record of a number (R162). -/
def State.recordOf (s : State) (number : Word) : Option PortRecord :=
  s.outstanding.find? (fun r => r.number == number)

/-- The record of a number leaves the outstanding set. -/
def State.forget (number : Word) (s : State) : State :=
  { s with outstanding := s.outstanding.filter (fun r => r.number != number) }

/-- Every record of the recovery scanner is forgotten (R168). -/
def State.forgetScanner (s : State) : State :=
  { s with outstanding := s.outstanding.filter (fun r => !r.purpose.ofScanner) }

/-- The first record not yet handed over is marked passed (R161). -/
def handFirst : List PortRecord → List PortRecord
  | [] => []
  | r :: rest => if r.passed then r :: handFirst rest else { r with passed := true } :: rest

/-- What the port reports to an issuer (R167). -/
inductive PortOutcome where
  | okay (data : Bytes)
  | failed
deriving DecidableEq, Repr

/-- The outcome of a response: a READ delivers the first bytes up to its length, a WRITE none (R162). -/
def PortRecord.outcome (r : PortRecord) : ArrayResult → PortOutcome
  | .error => .failed
  | .okay data =>
    match r.purpose.kind with
    | .read => .okay (data.take r.length)
    | .write => .okay []

end Sys2Proof.Machine
end

