-- ==== Sys2Proof/WellFormed.lean ====
section
/-! DEFINITION. Which terms of `Instr` are commands the part's ports can carry: the ranges that the
operand types leave open. -/

namespace Sys2Proof

/-- R76: the length is 1 to 64, and a WRITE carries as many data bytes as its length, a READ none. -/
def HostRequest.wellFormed (r : HostRequest) : Bool :=
  decide (1 ≤ r.length) && decide (r.length ≤ 64) &&
    match r.kind with
    | .read => r.data.isEmpty
    | .write => decide (r.data.length = r.length)

/-- R159: a response brings at most the 64 bytes of one line. -/
def ArrayResult.wellFormed : ArrayResult → Bool
  | .okay data => decide (data.length ≤ 64)
  | .error => true

/-- R175: the first byte of a frame that is neither a read nor a write frame. -/
def badKind : Bytes → Bool
  | [] => true
  | k :: _ => k != 0x3C#8 && k != 0xC3#8

/-- The operands are such as the row of the table admits. -/
def Instr.wellFormed : Instr → Bool
  | .hostRequest r => r.wellFormed
  | .hostReadDone _ a | .captureReadDone _ a | .homeWriteDone _ a | .slotWriteDone _ a
  | .headerWriteDone _ a | .unwindReadDone _ a | .restoreWriteDone _ a | .lateResponse _ a
  | .headerReadDone _ a | .scanReadDone _ a | .voidReadDone _ a | .voidWriteDone _ a
  | .recoveryReadDone _ a | .recoveryWriteDone _ a | .headerRewriteDone _ a
  | .formatWriteDone _ a => a.wellFormed
  | .unknownCommand code => decide (10 ≤ code.toNat)
  | .badKindFrame bytes piece => !piece.opens || badKind bytes
  | .heldRequestRetaken | .leaveOrdered _ | .drainComplete _ | .slotIssue _ | .unwindTakeGroup
  | .groupSettled | .storesCleared | .tick | .ageExpiry _ | .arrayTimeout _ | .quietCondition
  | .readFrame _ _ | .writeFrame _ _ _ | .start | .format | .quiesce | .resume | .stop
  | .forceUnwind | .retryUnwind | .clearIncidents | .softReset _ | .pfwAssert
  | .resetLineAssert _ | .resetLineRelease _ _ | .discardedFrameEnds | .requestHandedOver => true

end Sys2Proof
end

