-- ==== Sys2Proof/Machine/Operands.lean ====
section
/-! DEFINITION. What a host request's fields say, and where its line lies: tag, intent, span, the region map
and the areas of the partitions (R76 to R80, R148). -/

namespace Sys2Proof.Machine

/-- The intents (R76). -/
inductive Intent where
  | plain
  | commit
  | abort
deriving DecidableEq, Repr

/-- The intent a code names; code 3 names none (R76). -/
def intentOf (code : BitVec 2) : Option Intent :=
  match code.toNat with
  | 0 => some .plain
  | 1 => some .commit
  | 2 => some .abort
  | _ => none

/-- The group a tag names; tag 0 names none (R1). -/
def tagOf (tag : BitVec 4) : Option Tag :=
  if h : tag.toNat = 0 then none else some ⟨tag.toNat - 1, by have := tag.isLt; omega⟩

/-- Check 1 of intake: the intent code is 0, 1 or 2, and an untagged request is PLAIN (R80). -/
def intentOk (r : HostRequest) : Bool :=
  match intentOf r.intent with
  | none => false
  | some .plain => true
  | some _ => (tagOf r.tag).isSome

/-- Check 2 of intake: the span lies within the line (R80). -/
def spanOk (r : HostRequest) : Bool :=
  decide (r.address.toNat % Config.lineBytes + r.length ≤ Config.lineBytes)

/-! ### Areas of the array -/

/-- The array bytes from `first` up to, but not including, `limit`. -/
structure Area where
  first : Nat
  limit : Nat
deriving DecidableEq, Repr

/-- An area holds a byte. -/
def Area.holds (a : Area) (byte : Nat) : Bool :=
  decide (a.first ≤ byte) && decide (byte < a.limit)

/-- Two areas overlap when some byte lies in both (R148). -/
def Area.overlaps (a b : Area) : Bool :=
  decide (max a.first b.first < min a.limit b.limit)

/-- The area of a region entry, cut off at the end of the address space; a disabled entry covers no byte
(R78, R148). -/
def Region.area (r : Region) : Area :=
  if r.enabled then
    ⟨r.base.toNat * Config.unitBytes, min ((r.base.toNat + r.size.toNat) * Config.unitBytes) (2 ^ 40)⟩
  else ⟨0, 0⟩

/-- The area of a partition; a partition of size 0 covers no byte (R44, R148). -/
def Geometry.area (g : Geometry) : Area :=
  ⟨g.base.toNat * Config.unitBytes, (g.base.toNat + g.size.toNat) * Config.unitBytes⟩

/-- The region of a line: the lowest-numbered enabled entry that covers it (R79). -/
def State.regionOf (s : State) (line : Addr) : Option Region :=
  s.regions.toList.find? (fun r => r.area.holds line.toNat)

/-- A line is protected when an enabled region covers it (R79). -/
def State.protectedLine (s : State) (line : Addr) : Bool :=
  (s.regionOf line).isSome

/-- A line lies inside the area of an enabled journal partition (R128). -/
def State.inPartition (s : State) (line : Addr) : Bool :=
  s.geometry.toList.any (fun g => g.area.holds line.toNat)

/-- The pairs of partitions (p, q) with p below q, in ascending order of p and then of q (R148). -/
def partitionPairs : List (PartId × PartId) :=
  allPartitions.flatMap (fun p => (allPartitions.filter (fun q => decide (p < q))).map (fun q => (p, q)))

/-- The pairs of a partition and a region, in ascending order of the partition and then of the region (R148). -/
def regionPairs : List (PartId × RegionId) :=
  allPartitions.flatMap (fun p => (List.finRange 8).map (fun r => (p, r)))

/-- Two partitions overlap (R148). -/
def State.partitionsOverlap (s : State) (p q : PartId) : Bool :=
  (s.geometry[p]).area.overlaps (s.geometry[q]).area

/-- A partition and a region overlap (R148). -/
def State.regionOverlaps (s : State) (p : PartId) (r : RegionId) : Bool :=
  (s.geometry[p]).area.overlaps (s.regions[r]).area

end Sys2Proof.Machine
end

