-- ==== Sys2Proof/Machine/Flags.lean ====
section
/-! DEFINITION. The attention flags, line and code, the incident list, and the command status: what a block
reports of an event (10_attention_incidents_and_time_base.md, R146, R147). -/

namespace Sys2Proof.Machine

/-- The bit of a cause: priority less one (R200). -/
def Cause.bit : Cause → Nat
  | .powerWarning => 0
  | .partitionFault => 1
  | .groupBroken => 2
  | .commandFailed => 3
  | .groupRevoked => 4
  | .incidentLost => 5
  | .linkError => 6
  | .commandEnded => 7
  | .quietReached => 8

/-- Raise an attention cause: its flag becomes pending (R187). -/
def State.raise (c : Cause) (s : State) : State :=
  { s with flags := s.flags ||| (1#9 <<< c.bit) }

/-- Clear the pending flags whose bits are one (R188). -/
def State.clearFlags (ones : BitVec 9) (s : State) : State :=
  { s with flags := s.flags &&& ~~~ones }

/-- The causes both pending and enabled (R189). -/
def State.attention (s : State) : BitVec 9 :=
  s.flags &&& s.mask

/-- The attention line, ATTN (R189). -/
def State.attnLine (s : State) : Bool :=
  decide (s.attention ≠ 0)

/-- The attention code: the lowest priority number both pending and enabled, or 0 (R189). -/
def State.attnCode (s : State) : Nat :=
  match (List.range 9).find? (fun i => s.attention.getLsbD i) with
  | some i => i + 1
  | none => 0

/-- Log an incident: it is stamped and inserted at index 0; a full list loses its oldest entry, which the
dropped count and INCIDENT_LOST report (R192). -/
def State.log (i : Incident) (s : State) : State :=
  let stamped := { i with stamp := s.tickCounter }
  if s.incidents.length < Config.incidentEntries then
    { s with incidents := stamped :: s.incidents }
  else
    State.raise .incidentLost
      { s with
        incidents := stamped :: s.incidents.take (Config.incidentEntries - 1)
        dropped := min 255 (s.dropped + 1) }

/-- An incident of a kind with no field present; `State.log` gives the stamp. -/
def Incident.bare (kind : IncidentKind) : Incident :=
  ⟨kind, 0, none, none, none, none, none⟩

/-- An incident about a group: its tag, sequence and partition (R191). -/
def Incident.ofMember (kind : IncidentKind) (m : Member) : Incident :=
  { Incident.bare kind with tag := some m.tag, sequence := some m.sequence, partition := some m.partition }

/-- An incident about a slot of a partition, with what its record carries (R62, R70, R191). -/
def Incident.ofSlot (kind : IncidentKind) (p : PartId) (slot : Nat) (record : Option RecordInfo) : Incident :=
  { Incident.bare kind with
    tag := record.map (·.tag)
    sequence := record.map (·.sequence)
    partition := some p
    line := record.bind (·.line)
    detail := some slot }

/-- The controller takes a state (R143, R144). -/
def State.enter (c : CtrlState) (s : State) : State :=
  { s with controller := c }

/-! ### The codes that details and windows carry -/

/-- The code of a revoke cause (R200). -/
def RevokeCause.code : RevokeCause → Nat
  | .age => 1
  | .array => 2
  | .partitionFault => 3
  | .forced => 4

/-- The code of a reason (R200). -/
def Reason.code : Reason → Nat
  | .unknown => 1
  | .shutdown => 2
  | .state => 3
  | .operand => 4
  | .configInvalid => 5
  | .noPartition => 6
  | .partitionOverlap => 7
  | .regionOverlap => 8
  | .partitionFault => 9
  | .headerInvalid => 10
  | .geometry => 11
  | .journalInconsistent => 12
  | .arrayError => 13
  | .restore => 14

/-- The code of a purpose, in the order of R160 (R201). -/
def Purpose.code : Purpose → Nat
  | .hostRead => 1
  | .captureRead => 2
  | .homeWrite => 3
  | .slotWrite => 4
  | .headerWrite => 5
  | .unwindRead => 6
  | .restoreWrite => 7
  | .headerRead => 8
  | .scanRead => 9
  | .voidRead => 10
  | .voidWrite => 11
  | .recoveryRead => 12
  | .recoveryWrite => 13
  | .headerRewrite => 14
  | .formatWrite => 15

/-- The code of a response status (R85). -/
def Status.code : Status → Nat
  | .okay => 0
  | .committed => 1
  | .unwound => 2
  | .released => 3
  | .empty => 4
  | .span => 5
  | .intent => 6
  | .notReady => 7
  | .powerDown => 8
  | .quiescing => 9
  | .untagged => 10
  | .conflict => 11
  | .claimLimit => 12
  | .claimsFull => 13
  | .journalFull => 14
  | .noJournal => 15
  | .journalFault => 16
  | .closing => 17
  | .busy => 18
  | .revoked => 19
  | .broken => 20
  | .arrayError => 21
  | .abandoned => 22

/-! ### The command status -/

/-- A command is taken: its status replaces the whole of the last one, with its echo and the operand it was
taken with, and it is RUNNING until it ends (R146, R147). -/
def State.takeStatus (echo : Option Command) (s : State) : State :=
  { s with cmdStatus := { CommandStatus.cleared with
      outcome := .running, echo := echo, operandEcho := some s.operand } }

/-- The command whose status stands ends DONE (R147). -/
def State.endDone (s : State) : State :=
  State.raise .commandEnded { s with cmdStatus := { s.cmdStatus with outcome := .done, reason := none } }

/-- The command whose status stands ends REFUSED (R147). -/
def State.endRefused (reason : Reason) (s : State) : State :=
  State.raise .commandFailed
    { s with cmdStatus := { s.cmdStatus with outcome := .refused, reason := some reason } }

/-- The command whose status stands ends REFUSED with the areas that overlap (R140, R146, R148). -/
def State.endOverlap (reason : Reason) (check : Option OverlapCheck) (first : PartId) (second : Nat) (s : State) :
    State :=
  State.raise .commandFailed
    { s with cmdStatus := { s.cmdStatus with
      outcome := .refused, reason := some reason, check := check, first := some first, second := some second } }

/-- The command whose status stands ends FAILED; a START names the partition that was current (R146). -/
def State.endFailed (reason : Reason) (first : Option PartId) (s : State) : State :=
  State.raise .commandFailed
    { s with cmdStatus := { s.cmdStatus with outcome := .failed, reason := some reason, first := first } }

/-- A command's status is RUNNING (R147). -/
def State.running (s : State) : Bool :=
  decide (s.cmdStatus.outcome = .running)

/-- The operand register as a tag, where it is one (R19, R117). -/
def State.operandTag (s : State) : Option Tag :=
  if h : 1 ≤ s.operand.toNat ∧ s.operand.toNat ≤ 15 then some ⟨s.operand.toNat - 1, by omega⟩ else none

/-- The operand register as a partition index, where it is one (R140). -/
def State.operandPartition (s : State) : Option PartId :=
  if h : s.operand.toNat < 4 then some ⟨s.operand.toNat, h⟩ else none

end Sys2Proof.Machine
end

