-- ==== Sys2Proof/Machine/Formats.lean ====
section
/-! DEFINITION. The byte layouts of the array and of the link: byte order, the two check values, header
copies and ring records, written and read (11_formats_and_register_window.md). -/

namespace Sys2Proof.Machine

/-- The `n` low bytes of `v`, least significant first (R194). -/
def leBytes : Nat → Nat → Bytes
  | 0, _ => []
  | n + 1, v => BitVec.ofNat 8 v :: leBytes n (v / 256)

/-- The value of bytes stored least significant first (R194). -/
def leNat : Bytes → Nat
  | [] => 0
  | b :: bs => b.toNat + 256 * leNat bs

/-- The `n`-byte field at an offset of a slot. -/
def slotField (off n : Nat) (bytes : Bytes) : Nat :=
  leNat ((bytes.drop off).take n)

/-- `n` zero bytes. -/
def zeroBytes (n : Nat) : Bytes :=
  List.replicate n 0

/-- The bits of a run of bytes as the link carries them, the most significant bit of each byte first (R172). -/
def bitsOf (bytes : Bytes) : List Bool :=
  bytes.flatMap (fun b => (List.range 8).map (fun i => b.getMsbD i))

/-- `n` rising edges of MCLK with MDO low. -/
def lowBits (n : Nat) : List Bool :=
  List.replicate n false

/-! ### The check values -/

/-- One bit of the journal check, reflected (R197: polynomial 0x1EDC6F41, 0x82F63B78 reflected). -/
def journalCheckBit (crc : Word) : Word :=
  if crc.getLsbD 0 then (crc >>> 1) ^^^ 0x82F63B78#32 else crc >>> 1

/-- One byte of the journal check. -/
def journalCheckByte (crc : Word) (b : Byte) : Word :=
  Nat.repeat journalCheckBit 8 (crc ^^^ b.setWidth 32)

/-- The journal check value over a run of bytes (R197). -/
def journalCheck (bytes : Bytes) : Word :=
  bytes.foldl journalCheckByte 0xFFFFFFFF#32 ^^^ 0xFFFFFFFF#32

/-- One bit of the link check: polynomial x⁸ + x² + x + 1, not reflected (R198). -/
def linkCheckBit (crc : Byte) : Byte :=
  if crc.getLsbD 7 then (crc <<< 1) ^^^ 0x07#8 else crc <<< 1

/-- The CRC-8 over a run of bytes (R198). -/
def linkCheck (bytes : Bytes) : Byte :=
  bytes.foldl (fun crc b => Nat.repeat linkCheckBit 8 (crc ^^^ b)) 0#8

/-! ### Slots -/

/-- The kind codes of a slot (11_formats section 11.2). -/
def kindUndo : Byte := 0xA1
/-- COMMIT. -/
def kindCommit : Byte := 0xA2
/-- UNWOUND. -/
def kindUnwound : Byte := 0xA3
/-- PAD. -/
def kindPad : Byte := 0xA4
/-- HEADER. -/
def kindHeader : Byte := 0xA8

/-- A slot whose first 60 bytes are `body`, with the check value over it and over `more`, the data slot
that follows an UNDO header (R197). -/
def sealSlot (body more : Bytes) : Bytes :=
  body ++ leBytes 4 (journalCheck (body ++ zeroBytes 4 ++ more)).toNat

/-- The check value of a slot is correct, over it and over `more` (R197). -/
def slotCheckOk (slot more : Bytes) : Bool :=
  decide (slotField 60 4 slot = (journalCheck (slot.take 60 ++ zeroBytes 4 ++ more)).toNat)

/-- A header copy (R195). -/
def headerCopy (size : Nat) (epoch generation : Word) (tail : Pos) : Bytes :=
  sealSlot
    ([kindHeader, 0#8] ++ leBytes 2 size ++ leBytes 4 epoch.toNat ++ leBytes 4 generation.toNat ++
      leBytes 4 tail.slot ++ leBytes 4 tail.lap.toNat ++ zeroBytes 40) []

/-- The first 60 bytes of a record header slot (R196). -/
def recordBody (kind : Byte) (padLength tag : Nat) (epoch lap : Word) (sequence index undoCount line : Nat) :
    Bytes :=
  [kind, BitVec.ofNat 8 padLength, BitVec.ofNat 8 tag, 0#8] ++ leBytes 4 epoch.toNat ++ leBytes 4 lap.toNat ++
    leBytes 4 sequence ++ leBytes 2 index ++ leBytes 2 undoCount ++ zeroBytes 4 ++ leBytes 5 line ++ zeroBytes 31

/-- The number the manual gives a tag. -/
def tagNumber (t : Tag) : Nat :=
  t.val + 1

/-- The header slot of an UNDO record whose data slot holds `old` (R59, R196). -/
def undoSlotBytes (epoch lap : Word) (info : RecordInfo) (old : Bytes) : Bytes :=
  sealSlot
    (recordBody kindUndo 0 (tagNumber info.tag) epoch lap info.sequence.toNat info.index 0
      ((info.line.getD 0).toNat)) old

/-- A closing record (R58, R196): `info.index` is the group's undo count. -/
def closingSlotBytes (kind : Byte) (epoch lap : Word) (info : RecordInfo) : Bytes :=
  sealSlot (recordBody kind 0 (tagNumber info.tag) epoch lap info.sequence.toNat 0 info.index 0) []

/-- The first slot of a PAD (R60, R196). -/
def padSlotBytes (length : Nat) (epoch lap : Word) : Bytes :=
  sealSlot (recordBody kindPad length 0 epoch lap 0 0 0 0) []

/-- The kind byte of a slot. -/
def slotKindByte (slot : Bytes) : Byte :=
  slot.headD 0

/-- The partition's size in a header copy (R195). -/
def headerSize (slot : Bytes) : Nat :=
  slotField 2 2 slot

/-- The epoch of a header copy or of a record (R195, R196: both at offset 4). -/
def slotEpoch (slot : Bytes) : Word :=
  BitVec.ofNat 32 (slotField 4 4 slot)

/-- The generation of a header copy (R195). -/
def headerGeneration (slot : Bytes) : Word :=
  BitVec.ofNat 32 (slotField 8 4 slot)

/-- The tail of a header copy (R195). -/
def headerTail (slot : Bytes) : Pos :=
  ⟨slotField 12 4 slot, BitVec.ofNat 32 (slotField 16 4 slot)⟩

/-- The lap of a record (R196). -/
def slotLap (slot : Bytes) : Word :=
  BitVec.ofNat 32 (slotField 8 4 slot)

/-- The PAD length of a record (R196). -/
def slotPadLength (slot : Bytes) : Nat :=
  slotField 1 1 slot

/-- The tag of a record (R196). -/
def slotTag (slot : Bytes) : Nat :=
  slotField 2 1 slot

/-- The sequence of a record (R196). -/
def slotSequence (slot : Bytes) : Nat :=
  slotField 12 4 slot

/-- The record index of an UNDO record (R196). -/
def slotIndex (slot : Bytes) : Nat :=
  slotField 16 2 slot

/-- The undo count of a closing record (R196). -/
def slotUndoCount (slot : Bytes) : Nat :=
  slotField 18 2 slot

/-- The home line address of an UNDO record (R196). -/
def slotLine (slot : Bytes) : Nat :=
  slotField 24 5 slot

/-- The header copy read from header slot `copySlot` is well-formed (R124). -/
def headerWellFormed (copySlot : Nat) (slot : Bytes) : Bool :=
  (slotKindByte slot == kindHeader) && slotCheckOk slot [] &&
    decide ((headerGeneration slot).toNat % 2 = copySlot % 2) &&
    decide (1 ≤ headerSize slot) && decide (headerSize slot ≤ 4096) &&
    decide (2 ≤ (headerTail slot).slot) && decide ((headerTail slot).slot ≤ 64 * headerSize slot - 1)

/-- Generation `a` is newer than generation `b` (R124). -/
def newerGeneration (a b : Word) : Bool :=
  decide (1 ≤ (a - b).toNat) && decide ((a - b).toNat ≤ 2 ^ 31 - 1)

/-- The slots a record of this header takes: two for an UNDO and for a PAD of length 2 (R126). -/
def recordLength (slot : Bytes) : Nat :=
  if slotKindByte slot = kindUndo then 2
  else if slotKindByte slot = kindPad then slotPadLength slot
  else 1

/-- The fields of a record header lie in the ranges of its kind (R127). -/
def recordRangesOk (slot : Bytes) : Bool :=
  if slotKindByte slot = kindUndo then
    decide (1 ≤ slotSequence slot) && decide (1 ≤ slotTag slot) && decide (slotTag slot ≤ 15) &&
      decide (1 ≤ slotIndex slot) && decide (slotIndex slot ≤ 1024) && decide (slotLine slot % 64 = 0)
  else if slotKindByte slot = kindCommit ∨ slotKindByte slot = kindUnwound then
    decide (1 ≤ slotSequence slot) && decide (1 ≤ slotTag slot) && decide (slotTag slot ≤ 15) &&
      decide (1 ≤ slotUndoCount slot) && decide (slotUndoCount slot ≤ 1024)
  else if slotKindByte slot = kindPad then
    decide (slotSequence slot = 0) && decide (slotTag slot = 0) &&
      decide (1 ≤ slotPadLength slot) && decide (slotPadLength slot ≤ 2)
  else false

/-- The record whose header slot is `slot` and, for an UNDO, whose data slot is `data`, is valid at a
position of a ring whose last slot is `lastSlot`, under the chosen epoch (R127). -/
def recordValid (epoch : Word) (pos : Pos) (lastSlot : Nat) (slot data : Bytes) : Bool :=
  recordRangesOk slot && (slotEpoch slot == epoch) && (slotLap slot == pos.lap) &&
    !(decide (recordLength slot = 2) && decide (pos.slot = lastSlot)) &&
    (if slotKindByte slot = kindUndo then slotCheckOk slot data else slotCheckOk slot [])

end Sys2Proof.Machine
end

