-- ==== Sys2Proof/Machine/Journal.lean ====
section
/-! DEFINITION. The journal engine's own operations: allocation, the decision of slot contents, the issue of
slot writes, closing records, retirement and header writes (03_journal_partitions.md). -/

namespace Sys2Proof.Machine

/-! ### Spans and allocation -/

/-- An entry joins the end of the span list. The list's storage holds 64 entries (R52); that no entry ever meets a
full one is R56's law (log 41). -/
def addSpan (x : Span) (spans : List Span) : List Span :=
  if spans.length < Config.spanEntries then spans ++ [x] else spans

/-- A placement of `n` slots by a group's sequence extends the last span when it carries that sequence, and
otherwise adds one (R52). -/
def extendSpans (sequence : Word) (n : Nat) (spans : List Span) : List Span :=
  match spans.getLast? with
  | some last =>
    if last.sequence = some sequence then spans.dropLast ++ [⟨some sequence, last.count + n⟩]
    else addSpan ⟨some sequence, n⟩ spans
  | none => addSpan ⟨some sequence, n⟩ spans

/-- One slot remains from the head to the end of the ring, so an UNDO record needs a PAD before it (R54). -/
def Partition.padNeeded (size : Nat) (part : Partition) : Bool :=
  decide (part.head.slot = lastRingSlot size)

/-- The slots an UNDO allocation places (R54). -/
def Partition.undoSlots (size : Nat) (part : Partition) : Nat :=
  if part.padNeeded size then 3 else 2

/-- The span entries an UNDO allocation adds (R54). -/
def Partition.undoSpans (size : Nat) (sequence : Word) (part : Partition) : Nat :=
  if part.padNeeded size then 2
  else
    match part.spans.getLast? with
    | some last => if last.sequence = some sequence then 0 else 1
    | none => 1

/-- The space check and the span check of R55. -/
def Partition.hasRoom (size : Nat) (sequence : Word) (opens : Bool) (part : Partition) : Bool :=
  decide (part.occupancy (ringCapacity size) + part.undoSlots size + part.reserved + (if opens then 1 else 0)
      ≤ ringCapacity size) &&
    decide (part.spans.length + part.undoSpans size sequence + part.reserved + (if opens then 1 else 0)
      ≤ Config.spanEntries)

/-- The one-slot PAD at the ring end: READY at once, in a span of its own without a sequence (R54, R60). -/
def Partition.placePad (size : Nat) (part : Partition) : Partition :=
  { part with
    marks := part.marks ++ [⟨.padFirst 1, .ready, 1, padSlotBytes 1 part.epoch part.head.lap, none⟩]
    spans := addSpan ⟨none, 1⟩ part.spans
    head := part.head.advance (ringCapacity size) 1 }

/-- The two WAITING slots of an UNDO record at the head (R54). -/
def Partition.placeUndo (size : Nat) (info : RecordInfo) (part : Partition) : Partition :=
  { part with
    marks := part.marks ++
      [⟨.unknown, .waiting, 1, [], some info⟩, ⟨.unknown, .waiting, 1, [], some info⟩]
    spans := extendSpans info.sequence 2 part.spans
    head := part.head.advance (ringCapacity size) 2 }

/-- The partition as the UNDO record finds it: behind the PAD where one is needed (R54). -/
def Partition.readyForUndo (size : Nat) (part : Partition) : Partition :=
  if part.padNeeded size then part.placePad size else part

/-- An UNDO allocation (R54); its first slot is `Partition.undoSlot`. -/
def Partition.allocateUndo (size : Nat) (info : RecordInfo) (part : Partition) : Partition :=
  (part.readyForUndo size).placeUndo size info

/-- The first slot an UNDO allocation will take (R35, R54). -/
def Partition.undoSlot (size : Nat) (part : Partition) : Nat :=
  (part.readyForUndo size).head.slot

/-! ### Deciding contents -/

/-- Change the mark of a slot. -/
def Partition.modMark (cap slot : Nat) (f : Mark → Mark) (part : Partition) : Partition :=
  { part with marks := part.marks.modify (part.markIndex cap slot) f }

/-- The mark of a slot. -/
def Partition.mark (cap slot : Nat) (part : Partition) : Option Mark :=
  part.marks[part.markIndex cap slot]?

/-- The lap at which a marked slot lies (R49). -/
def Partition.lapOf (cap slot : Nat) (part : Partition) : Word :=
  (part.durableTail.advance cap (part.markIndex cap slot)).lap

/-- The contents of a slot are decided: it becomes READY. -/
def Mark.decided (kind : SlotKind) (contents : Bytes) (record : Option RecordInfo) (m : Mark) : Mark :=
  { m with kind := kind, progress := .ready, contents := contents, record := record }

/-- The capture read returned: both slots of the UNDO record are decided (R59), unless the controller is in
SHUTDOWN or the partition FAULTED (R65, R71). -/
def State.decideUndo (u : UndoRef) (old : Bytes) (s : State) : State :=
  if s.journalRuns u.partition then
    s.modPart u.partition fun part =>
      let cap := s.capacity u.partition
      let info := (part.mark cap u.slot).bind (·.record)
      let header := match info with
        | some i => undoSlotBytes part.epoch (part.lapOf cap u.slot) i old
        | none => []
      (part.modMark cap u.slot (Mark.decided .undoHeader header info)).modMark cap (u.slot + 1)
        (Mark.decided .undoData old info)
  else s

/-- The slots of an UNDO allocation are given PAD contents (R60), under the same two conditions. -/
def State.padUndo (u : UndoRef) (s : State) : State :=
  if s.journalRuns u.partition then
    s.modPart u.partition fun part =>
      let cap := s.capacity u.partition
      let header := padSlotBytes 2 part.epoch (part.lapOf cap u.slot)
      (part.modMark cap u.slot (Mark.decided (.padFirst 2) header none)).modMark cap (u.slot + 1)
        (Mark.decided .padSecond (zeroBytes Config.lineBytes) none)
  else s

/-! ### Issuing slot writes -/

/-- The slots that can be issued: each READY slot before which no slot is WAITING, as an index from the
durable tail with its contents (R61). -/
def readyRun : Nat → List Mark → List (Nat × Bytes)
  | _, [] => []
  | i, m :: rest =>
    match m.progress with
    | .waiting => []
    | .ready => (i, m.contents) :: readyRun (i + 1) rest
    | .inFlight | .acknowledged | .failed => readyRun (i + 1) rest

/-- Those slots become IN_FLIGHT (R61). -/
def issueMarks : List Mark → List Mark
  | [] => []
  | m :: rest =>
    match m.progress with
    | .waiting => m :: rest
    | .ready => { m with progress := .inFlight, attempt := 1 } :: issueMarks rest
    | .inFlight | .acknowledged | .failed => m :: issueMarks rest

/-- Issue the write of a slot (R61, R160). -/
def State.issueSlot (p : PartId) (slot : Nat) (contents : Bytes) (s : State) : State :=
  s.issue .slotWrite (.slot p slot) (s.slotAddr p slot) Config.lineBytes contents

/-- Issue the READY run of a partition, in ring order (R61). -/
def State.issueSlots (p : PartId) (s : State) : State :=
  if s.journalRuns p then
    let part := s.part p
    let cap := s.capacity p
    (readyRun 0 part.marks).foldl
      (fun s x => s.issueSlot p (part.durableTail.advance cap x.1).slot x.2)
      (s.setPart p { part with marks := issueMarks part.marks })
  else s

/-! ### Closing records -/

/-- A closing record at the head, from the group's reservation (R58). -/
def Partition.placeClosing (size : Nat) (kind : SlotKind) (code : Byte) (info : RecordInfo) (part : Partition) :
    Partition :=
  { part with
    marks := part.marks ++
      [⟨kind, .ready, 1, closingSlotBytes code part.epoch part.head.lap info, some info⟩]
    spans := extendSpans info.sequence 1 part.spans
    head := part.head.advance (ringCapacity size) 1
    reserved := part.reserved - 1 }

/-- What a closing record of a group carries: tag, sequence and undo count (R58). -/
def Group.closingInfo (t : Tag) (g : Group) : RecordInfo :=
  ⟨t, g.sequence.getD 0, g.undoCount.getD 0, none⟩

/-- Place a group's closing record, unless its partition is FAULTED or the controller in SHUTDOWN (R58). -/
def State.placeClosing (t : Tag) (kind : SlotKind) (code : Byte) (s : State) : State :=
  match (s.group t).partition with
  | none => s
  | some p =>
    if s.journalRuns p then
      s.modPart p (fun part => part.placeClosing (s.size p) kind code ((s.group t).closingInfo t))
    else s

/-- A group gives its reservation back without a closing record (R53, R6). -/
def State.releaseReservation (p : PartId) (s : State) : State :=
  s.modPart p (fun part => { part with reserved := part.reserved - 1 })

/-! ### Retirement and header writes -/

/-- A group's sequence holds its spans in the ring in these states (R66). -/
def GroupState.holdsSpans : GroupState → Bool
  | .opened | .draining | .sealing | .unwinding | .broken => true
  | .free | .halted => false

/-- A sequence is carried by a group that holds its spans (R66). -/
def State.sequenceHeld (s : State) (v : Word) : Bool :=
  s.groups.toList.any (fun g => g.state.holdsSpans && decide (g.sequence = some v))

/-- A span is retirable (R66). -/
def State.retirable (s : State) (span : Span) : Bool :=
  match span.sequence with
  | none => true
  | some v => !s.sequenceHeld v

/-- The number of slots that retirement gives back: those of the spans at the front of the list that are
retirable and wholly passed by the front, which stands `avail` slots from the working tail (R66). -/
def retiredSlots (retirable : Span → Bool) : Nat → List Span → Nat
  | _, [] => 0
  | avail, span :: rest =>
    if retirable span && decide (span.count ≤ avail) then
      span.count + retiredSlots retirable (avail - span.count) rest
    else 0

/-- The spans that retirement leaves (R66). -/
def keptSpans (retirable : Span → Bool) : Nat → List Span → List Span
  | _, [] => []
  | avail, span :: rest =>
    if retirable span && decide (span.count ≤ avail) then keptSpans retirable (avail - span.count) rest
    else span :: rest

/-- The header slot a generation goes to (R67). -/
def headerSlotOf (generation : Word) : Nat :=
  generation.toNat % 2

/-- Issue an attempt of the header write in flight (R67, R68). -/
def State.issueHeader (p : PartId) (w : HeaderWrite) (s : State) : State :=
  s.issue .headerWrite (.header p (headerSlotOf w.generation)) (s.slotAddr p (headerSlotOf w.generation))
    Config.lineBytes w.contents

/-- Issue a header write when the working tail is ahead of the durable tail and none is in flight (R67). -/
def State.considerHeader (p : PartId) (s : State) : State :=
  let part := s.part p
  if s.journalRuns p && decide (part.workingTail ≠ part.durableTail) && part.headerWrite.isNone then
    let generation := part.generation + 1
    let w : HeaderWrite :=
      ⟨part.workingTail, generation, 1, headerCopy (s.size p) part.epoch generation part.workingTail⟩
    (s.setPart p { part with headerWrite := some w }).issueHeader p w
  else s

/-- A retirement run (R66, R67). -/
def State.retire (p : PartId) (s : State) : State :=
  if s.journalRuns p then
    let part := s.part p
    let cap := s.capacity p
    let avail := frontCount part.marks - part.durableTail.dist cap part.workingTail
    State.considerHeader p
      (s.setPart p
        { part with
          spans := keptSpans s.retirable avail part.spans
          workingTail := part.workingTail.advance cap (retiredSlots s.retirable avail part.spans) })
  else s

/-- A READY partition is settled when head, working tail and durable tail stand at one position (R73). -/
def Partition.settled (part : Partition) : Bool :=
  decide (part.state = .ready) && decide (part.head = part.workingTail) &&
    decide (part.workingTail = part.durableTail)

end Sys2Proof.Machine
end

