-- ==== Sys2Proof/Machine/Groups.lean ====
section
/-! DEFINITION. The group table's transitions that other blocks bring about: revocation and its fates,
release of claims, completion, and the two outcomes of an unwind (01_write_groups.md, R39, R95, R112, R115). -/

namespace Sys2Proof.Machine

/-- The group's identity as its incidents carry it (R191). -/
def State.memberOf (s : State) (t : Tag) : Member :=
  ⟨t, (s.group t).sequence.getD 0, (s.group t).partition.getD 0⟩

/-! ### The sequence counter (R2) -/

/-- The value after `v`: it wraps from 0xFFFFFFFF to 1 (R2). -/
def nextSequence (v : Word) : Word :=
  if v = 0xFFFFFFFF#32 then 1 else v + 1

/-- Step past the values that are carried, at most `fuel` of them (R2). -/
def skipCarried (carried : Word → Bool) : Nat → Word → Word
  | 0, v => v
  | fuel + 1, v => if carried v then skipCarried carried fuel (nextSequence v) else v

/-- A sequence is carried by a group entry that is not FREE or by a span (R2). -/
def State.sequenceCarried (s : State) (v : Word) : Bool :=
  s.groups.toList.any (fun g => decide (g.state ≠ .free) && decide (g.sequence = some v)) ||
    s.partitions.toList.any (fun part => part.spans.any (fun sp => decide (sp.sequence = some v)))

/-- The counter advances (R2). -/
def State.advanceSequence (s : State) : State :=
  { s with seqCounter := skipCarried s.sequenceCarried Config.sequenceSteps (nextSequence s.seqCounter) }

/-! ### Revocation and abort -/

/-- Insert a tag into a list of tags in ascending order (R102). -/
def insertTag (t : Tag) : List Tag → List Tag
  | [] => [t]
  | u :: rest => if t ≤ u then t :: u :: rest else u :: insertTag t rest

/-- A tag joins the end of the waiting order; behind the tags that stood there before the event, the `joined` ones
of this event stand in ascending order (R102). -/
def State.joinWaiting (t : Tag) (s : State) : State :=
  let before := s.engine.waiting.length - s.joined
  { s with
    engine := { s.engine with
      waiting := s.engine.waiting.take before ++ insertTag t (s.engine.waiting.drop before) }
    joined := s.joined + 1 }

/-- What revocation does to one member entry, by its phase (R95). -/
def State.revokeFate (s : State) (e : Entry) : State :=
  match e.phase with
  | .ordered =>
    let answered := s.finishEntry e .revoked []
    match e.path, e.undo with
    | .newClaim, some u => answered.padUndo u
    | _, _ => answered
  | .waitUnwind | .logging | .awaitOutcome => s.finishEntry e .revoked []
  | .capturing | .storing | .loading =>
    (s.answerEarly e .revoked).modEntry e.index (fun x => { x with group := none })

/-- The entries that belong to a group (R12). -/
def State.members (s : State) (t : Tag) : List Entry :=
  s.requests.filter (fun e => e.group == some t)

/-- The group leaves for UNWINDING, its members meet their fates and it joins the waiting order (R14, R16). -/
def State.startUnwind (t : Tag) (origin : UnwindOrigin) (cause : Option RevokeCause) (s : State) : State :=
  let entered := s.modGroup t fun g =>
    { g with state := .unwinding, unwindOrigin := some origin, revokeCause := cause, commitRequest := none }
  ((s.members t).foldl State.revokeFate entered).joinWaiting t

/-- The states a cause applies to (R16). -/
def RevokeCause.appliesTo : RevokeCause → GroupState → Bool
  | .age, .opened | .forced, .opened => true
  | .array, .opened | .array, .draining | .array, .sealing => true
  | .partitionFault, .opened | .partitionFault, .draining | .partitionFault, .sealing => true
  | _, _ => false

/-- A group is revoked, where the cause applies to its state; in SHUTDOWN no cause revokes (R16, R26). -/
def State.revoke (t : Tag) (cause : RevokeCause) (s : State) : State :=
  if decide (s.controller ≠ .shutdown) && cause.appliesTo (s.groupState t) then
    State.raise .groupRevoked
      (State.log { Incident.ofMember .groupRevoked (s.memberOf t) with detail := some cause.code }
        (s.startUnwind t .revoke (some cause)))
  else s

/-! ### Release of claims -/

/-- Every claim of a group leaves the table, and the reads that wait on the released lines enter ORDERED
(R39, R41). -/
def State.releaseClaims (t : Tag) (s : State) : State :=
  let lines := (s.claimsOf t).map (·.line)
  State.modGroup t (fun g => { g with claimsHeld := 0 })
    { s with
      claims := s.claims.filter (fun c => c.tag != t)
      requests := s.requests.map fun e =>
        if e.phase = .waitUnwind ∧ e.line ∈ lines then { e with phase := .ordered } else e }

/-- The front has passed a SEALING group's COMMIT record: the group is complete (R13). -/
def State.completeGroup (t : Tag) (s : State) : State :=
  let released := s.releaseClaims t
  let answered := match (s.group t).commitRequest.bind s.entry with
    | some e => released.finishEntry e .committed (e.readData.getD [])
    | none => released
  answered.freeGroup t

/-! ### The end of an unwind -/

/-- The parked abort is answered and becomes absent (R21). -/
def State.answerParked (t : Tag) (status : Status) (s : State) : State :=
  let answered := match (s.group t).parkedAbort.bind s.entry with
    | some e => s.finishEntry e status []
    | none => s
  answered.modGroup t (fun g => { g with parkedAbort := none })

/-- The engine has no current group (R103, R112, R115). -/
def State.engineIdle (s : State) : State :=
  { s with engine := { s.engine with
      state := .idle, current := none, currentLine := none, lineStep := .waitStores, restoreData := none
      failedLines := 0, firstFailed := none, restoreSet := [] } }

/-- A RETRY_UNWIND of this group that is RUNNING ends (R118). -/
def State.endRetry (t : Tag) (ending : State → State) (s : State) : State :=
  if s.engine.retryTag = some t then
    ending { s with engine := { s.engine with retryTag := none } }
  else s

/-- The group table takes the outcome RESTORED (R21). -/
def State.takeRestored (t : Tag) (s : State) : State :=
  if (s.group t).unwindOrigin = some .host ∨ (s.group t).parkedAbort.isSome then
    (s.answerParked t .unwound).freeGroup t
  else s.modGroup t (fun g => { g with state := .halted })

/-- The front has handed the current group's UNWOUND record to the engine (R112). -/
def State.reportRestored (t : Tag) (s : State) : State :=
  (((s.releaseClaims t).takeRestored t).endRetry t State.endDone).engineIdle

/-- A read that waits on a line of a group that ends BROKEN is answered BROKEN (R41). -/
def State.answerBrokenRead (s : State) (e : Entry) : State :=
  s.finishEntry e .broken []

/-- A group whose commit request is one of the `reads` answered BROKEN loses its commit with it and is revoked with
cause ARRAY (R41). -/
def State.breakCommit (reads : List Entry) (s : State) (t : Tag) : State :=
  if reads.any (fun e => e.group == some t) then
    (s.modGroup t (fun g => { g with commitRequest := none })).revoke t .array
  else s

/-- The reads that wait on lines of a group (R41). -/
def State.waitingReads (s : State) (t : Tag) : List Entry :=
  s.requests.filter fun e =>
    decide (e.phase = .waitUnwind) && decide (e.line ∈ (s.claimsOf t).map (·.line))

/-- The engine reports FAILED for its current group (R115, R21). The reads that waited are answered in the order
of admission; the groups that lose their commit with them are revoked in ascending order of tag (R102). -/
def State.reportFailed (t : Tag) (s : State) : State :=
  let failed := s.engine.failedLines
  let broken := (s.modGroup t (fun g => { g with state := .broken })).answerParked t .broken
  let reads := broken.waitingReads t
  let answered := reads.foldl State.answerBrokenRead broken
  let revoked := allTags.foldl (State.breakCommit reads) answered
  let logged := State.raise .groupBroken
    (State.log
      { Incident.ofMember .restoreFailed (s.memberOf t) with
        line := s.engine.firstFailed, detail := some failed } revoked)
  (logged.endRetry t (State.endFailed (if failed = 0 then .partitionFault else .restore) none)).engineIdle

/-! ### Partition faults -/

/-- Every group of a FAULTED partition is named to the group table, in ascending order of tag (R18, R70). -/
def State.revokePartition (p : PartId) (s : State) : State :=
  (allTags.filter (fun t => (s.group t).partition == some p)).foldl
    (fun s t => s.revoke t .partitionFault) s

/-- The second attempt of a ring slot write has failed: the partition becomes FAULTED (R62, R70). -/
def State.faultPartition (p : PartId) (slot : Nat) (s : State) : State :=
  let cap := s.capacity p
  let record := ((s.part p).mark cap slot).bind (·.record)
  let faulted := s.modPart p fun part =>
    { part.modMark cap slot (fun m => { m with progress := .failed }) with state := .faulted }
  (State.raise .partitionFault
    (State.log (Incident.ofSlot .partitionFaulted p slot record) faulted)).revokePartition p

end Sys2Proof.Machine
end

