-- ==== Sys2Proof/Machine/Unwind.lean ====
section
/-! DEFINITION. The unwind engine: taking a group, settling, restoring its lines one by one and closing it
(05_unwinding.md). -/

namespace Sys2Proof.Machine

/-- Change the engine. -/
def State.modEngine (f : Engine → Engine) (s : State) : State :=
  { s with engine := f s.engine }

/-- The engine takes the first group of the waiting order (R103). -/
def State.takeGroup (t : Tag) (rest : List Tag) (s : State) : State :=
  s.modEngine fun e =>
    { e with
      state := .settling, waiting := rest, current := some t, currentLine := none, lineStep := .waitStores
      restoreData := none, failedLines := 0, firstFailed := none, restoreSet := [] }

/-! ### Settling -/

/-- The slots of a claim have been decided as PAD (R60, R104). -/
def State.claimPadded (s : State) (p : PartId) (c : Claim) : Bool :=
  match (s.part p).mark (s.capacity p) c.undoSlot with
  | some m => decide (m.kind = .padFirst 2)
  | none => false

/-- A claim of a group in partition `p` is settled (R104). -/
def State.claimSettled (s : State) (p : PartId) (c : Claim) : Bool :=
  c.logged || s.claimPadded p c || decide ((s.part p).state = .faulted)

/-- A group is settled when each of its claims is (R104). -/
def State.groupSettled (s : State) (t : Tag) : Bool :=
  match (s.group t).partition with
  | none => true
  | some p => (s.claimsOf t).all (s.claimSettled p)

/-- The marks from the working tail on: those of the slots whose spans have not been retired (R51, R52, R66). -/
def Partition.unretiredMarks (cap : Nat) (part : Partition) : List Mark :=
  part.marks.drop (part.durableTail.dist cap part.workingTail)

/-- A group has placed its COMMIT record, as a group revoked in SEALING has (R18, R105). The spans of a group that has
not closed are not retired (R66), so the record stands from the working tail on, where no other group's record carries
its sequence (R2). Behind the working tail the mark of an earlier group of that sequence can still stand. -/
def State.commitPlaced (s : State) (t : Tag) : Bool :=
  match (s.group t).partition with
  | none => false
  | some p => ((s.part p).unretiredMarks (s.capacity p)).any fun m =>
      decide (m.kind = .commit) && decide (m.record.map (·.sequence) = (s.group t).sequence)

/-- Insert a claim into a list kept in descending record index (R105). -/
def insertDescending (c : Claim) : List Claim → List Claim
  | [] => [c]
  | d :: rest => if d.index ≤ c.index then c :: d :: rest else d :: insertDescending c rest

/-- The claims to restore, in descending record index: the logged claims of the group, and none for a group
revoked in SEALING (R105). -/
def State.restoreSetOf (s : State) (t : Tag) : List Claim :=
  if s.commitPlaced t then []
  else ((s.claimsOf t).filter (·.logged)).foldr insertDescending []

/-! ### Restoring -/

/-- The restores are over: the UNWOUND record is placed, or the engine reports FAILED (R111). -/
def State.restoresOver (t : Tag) (s : State) : State :=
  let ready := match (s.group t).partition with
    | some p => decide ((s.part p).state = .ready)
    | none => false
  if decide (s.engine.failedLines = 0) && ready then
    (s.placeClosing t .unwound kindUnwound).modEngine fun e =>
      { e with state := .closing, currentLine := none, lineStep := .waitStores, restoreData := none }
  else s.reportFailed t

/-- The engine takes the next line of its set, or finds the restores over (R105). -/
def State.takeNextLine (s : State) : State :=
  match s.engine.current with
  | none => s
  | some t =>
    match s.engine.restoreSet with
    | [] => s.restoresOver t
    | c :: rest =>
      s.modEngine fun e =>
        { e with
          state := .restoring, currentLine := some c, lineStep := .waitStores, restoreData := none
          restoreSet := rest }

/-- The group is settled: the restore set is fixed and the first line taken (R104, R105). -/
def State.enterRestoring (t : Tag) (s : State) : State :=
  (s.modEngine fun e => { e with state := .restoring, restoreSet := s.restoreSetOf t }).takeNextLine

/-- No request table entry on a line is in STORING (R106). -/
def State.storesClear (s : State) (line : Addr) : Bool :=
  !s.requests.any (fun e => decide (e.line = line) && decide (e.phase = .storing))

/-- Issue the read of the UNDO data slot of a claim (R107). -/
def State.issueUnwindRead (c : Claim) (attempt : Nat) (s : State) : State :=
  match (s.group c.tag).partition with
  | none => s
  | some p =>
    (s.modEngine fun e => { e with lineStep := .reading attempt }).issue .unwindRead .unwindLine
      (s.slotAddr p (c.undoSlot + 1)) Config.lineBytes []

/-- Issue the write of the restore data to the current line (R108). -/
def State.issueRestoreWrite (c : Claim) (data : Bytes) (attempt : Nat) (s : State) : State :=
  (s.modEngine fun e => { e with lineStep := .writing attempt, restoreData := some data }).issue .restoreWrite
    .unwindLine c.line Config.lineBytes data

/-- The engine stops: it keeps its current group and waiting order (R119). -/
def State.stopEngine (s : State) : State :=
  s.modEngine fun e =>
    { e with state := .stopped, currentLine := none, lineStep := .waitStores, restoreData := none, restoreSet := [] }

/-- The current line has ended: the engine goes on to the next, or stops in SHUTDOWN (R105, R119). -/
def State.lineEnded (s : State) : State :=
  if s.controller = .shutdown then s.stopEngine else s.takeNextLine

/-- The restore of the current line has failed (R109). -/
def State.lineFailed (c : Claim) (s : State) : State :=
  (s.modEngine fun e =>
    { e with
      failedLines := e.failedLines + 1
      firstFailed := some (e.firstFailed.getD c.line)
      restoreData := none }).lineEnded

/-- The outcome of an unwind read (R107). -/
def State.unwindReadOutcome (o : PortOutcome) (s : State) : State :=
  match s.engine.currentLine, s.engine.lineStep with
  | some c, .reading attempt =>
    match o with
    | .okay data => s.issueRestoreWrite c data 1
    | .failed => if attempt = 1 then s.issueUnwindRead c 2 else s.lineFailed c
  | _, _ => s

/-- The outcome of a restore write (R108). -/
def State.restoreWriteOutcome (o : PortOutcome) (s : State) : State :=
  match s.engine.currentLine, s.engine.lineStep with
  | some c, .writing attempt =>
    match o with
    | .okay _ => (s.modEngine fun e => { e with restoreData := none }).lineEnded
    | .failed =>
      if attempt = 1 then s.issueRestoreWrite c (s.engine.restoreData.getD []) 2 else s.lineFailed c
  | _, _ => s

/-! ### What the engine does of itself -/

/-- The engine, IDLE, takes the first group of a waiting order that is not empty (R103). -/
def State.engineTakes (s : State) : Option State :=
  match s.engine.state, s.engine.waiting with
  | .idle, t :: rest => some (s.takeGroup t rest)
  | _, _ => none

/-- The engine, SETTLING, finds its group settled (R104). -/
def State.engineSettles (s : State) : Option State :=
  match s.engine.state, s.engine.current with
  | .settling, some t => if s.groupSettled t then some (s.enterRestoring t) else none
  | _, _ => none

/-- The engine, waiting for stores, finds none on its line and reads the UNDO data slot (R106). -/
def State.engineReads (s : State) : Option State :=
  match s.engine.state, s.engine.currentLine, s.engine.lineStep with
  | .restoring, some c, .waitStores => if s.storesClear c.line then some (s.issueUnwindRead c 1) else none
  | _, _, _ => none

/-- The engine, CLOSING, finds its group's partition FAULTED (R113). -/
def State.engineFails (s : State) : Option State :=
  match s.engine.state, s.engine.current with
  | .closing, some t =>
    match (s.group t).partition with
    | some p => if (s.part p).state = .faulted then some (s.reportFailed t) else none
    | none => none
  | _, _ => none

/-- The next thing the engine does of itself, if any; in SHUTDOWN nothing (R119). -/
def State.engineAdvance (s : State) : Option State :=
  if s.controller = .shutdown then none
  else s.engineFails <|> s.engineTakes <|> s.engineSettles <|> s.engineReads

end Sys2Proof.Machine
end

