-- ==== Sys2Proof/Machine/Requests.lean ====
section
/-! DEFINITION. The request table: entries leaving ORDERED, the outcomes of their accesses, the drain test of
their groups, and the settling of one event (04_requests_on_the_memory_path.md, R6, R11, R12, R37). -/

namespace Sys2Proof.Machine

/-! ### Leaving ORDERED -/

/-- An earlier entry on the same line has an incomplete access (R88). -/
def State.heldBack (s : State) (e : Entry) : Bool :=
  (s.requests.takeWhile (fun x => x.index != e.index)).any fun x =>
    decide (x.line = e.line) && x.incomplete

/-- Protected lines are closed to accesses in CONFIG and RECOVERING (R99). -/
def State.closedTo (s : State) (line : Addr) : Bool :=
  (decide (s.controller = .config) || decide (s.controller = .recovering)) && s.protectedLine line

/-- Issue the home write of an entry: it enters STORING (R90, R91). -/
def State.issueHomeWrite (e : Entry) (s : State) : State :=
  (s.modEntry e.index (fun x => { x with phase := .storing })).issue .homeWrite (.entry e.index)
    e.request.address e.request.length e.request.data

/-- The point of issue of an entry (R89, R90, R91, R99). -/
def State.issueAccess (e : Entry) (s : State) : State :=
  if s.closedTo e.line then s.finishEntry e .notReady []
  else
    match e.path with
    | .read =>
      (s.modEntry e.index (fun x => { x with phase := .loading })).issue .hostRead (.entry e.index)
        e.request.address e.request.length []
    | .unjournaled | .ownClaim => s.issueHomeWrite e
    | .newClaim =>
      (s.modEntry e.index (fun x => { x with phase := .capturing })).issue .captureRead (.entry e.index)
        e.line Config.lineBytes []
    | .abort => s

/-- The entry of a number leaves ORDERED if nothing holds it back (R88); in SHUTDOWN none does (R98). -/
def State.leaveOrdered (i : EntryId) (s : State) : State :=
  match s.entry i with
  | none => s
  | some e =>
    if decide (e.phase = .ordered) && !s.heldBack e && decide (s.controller ≠ .shutdown) then s.issueAccess e
    else s

/-- Every entry is tested, in the order of admission (R88). -/
def State.leaveAll (s : State) : State :=
  (s.requests.map (·.index)).foldl (fun s i => s.leaveOrdered i) s

/-! ### The drain test -/

/-- Every member entry of a group has completed its access or has left (R12). -/
def State.drained (s : State) (t : Tag) : Bool :=
  !(s.members t).any Entry.incomplete

/-- A DRAINING group that has drained enters SEALING and its COMMIT record is placed (R12). -/
def State.drain (t : Tag) (s : State) : State :=
  if decide (s.groupState t = .draining) && s.drained t && decide (s.controller ≠ .shutdown) then
    (s.modGroup t (fun g => { g with state := .sealing })).placeClosing t .commit kindCommit
  else s

/-- Every group is tested. -/
def State.drainAll (s : State) : State :=
  allTags.foldl (fun s t => s.drain t) s

/-! ### Settling one event -/

/-- Every partition issues its READY run (R61). -/
def State.issueAll (s : State) : State :=
  allPartitions.foldl (fun s p => s.issueSlots p) s

/-- More steps than the unwind engine can take of itself in one event: four for each of fifteen groups. -/
def settleFuel : Nat := 64

/-- One round of the tests that an event brings about: entries leave ORDERED, groups drain, and the engine takes
its next step, if it has one. -/
def State.settleRound (s : State) : State × Bool :=
  match s.leaveAll.drainAll.engineAdvance with
  | some advanced => (advanced, true)
  | none => (s.leaveAll.drainAll, false)

/-- Rounds, until the engine takes no step; then the READY runs are issued. -/
def State.settleLoop : Nat → State → State
  | 0, s => s.leaveAll.drainAll.issueAll
  | fuel + 1, s => if s.settleRound.2 then State.settleLoop fuel s.settleRound.1 else s.settleRound.1.issueAll

/-- The quiet condition (R151). -/
def State.quietHolds (s : State) : Bool :=
  s.groups.toList.all (fun g => decide (g.state = .free)) &&
    allPartitions.all (fun p => !s.enabled p || (s.part p).settled)

/-- While QUIESCING the quiet condition takes the controller to QUIET (R151). -/
def State.quietTest (s : State) : State :=
  if decide (s.controller = .quiescing) && s.quietHolds then
    (s.enter .quiet).raise .quietReached
  else s

/-- Everything that an event's own effect brings about in the same event. -/
def State.settle (s : State) : State :=
  (s.settleLoop settleFuel).quietTest

/-! ### The outcomes of accesses -/

/-- An entry's access has completed: it is answered by its intent and leaves, or as the commit request of a
group it waits for the outcome with its data (R89, R90, R92). -/
def State.completeAccess (e : Entry) (data : Bytes) (s : State) : State :=
  if e.answered then s.dropEntry e.index
  else if intentOf e.request.intent = some .commit then
    match e.group with
    | some _ => s.modEntry e.index fun x =>
        { x with phase := .awaitOutcome, readData := if e.path = .read then some data else none }
    | none => s.finishEntry e .empty data
  else s.finishEntry e .okay data

/-- An entry is the commit request of its group. -/
def State.isCommitRequest (s : State) (e : Entry) : Bool :=
  match e.group with
  | some t => (s.group t).commitRequest == some e.index
  | none => false

/-- The commit request of a group, its access failed, has been answered ARRAY_ERROR: it becomes absent (R11). -/
def State.dropCommit (t : Tag) (s : State) : State :=
  s.modGroup t (fun g => { g with commitRequest := none })

/-- A host read has failed (R93, R11). -/
def State.readFailed (e : Entry) (s : State) : State :=
  if e.answered then s.dropEntry e.index
  else
    let answered := s.finishEntry e .arrayError []
    match e.group with
    | some t => if s.isCommitRequest e then (answered.dropCommit t).revoke t .array else answered
    | none => answered

/-- The entry of a number, in the phase in which it waits for an outcome (R86, R89 to R91). -/
def State.waiting (s : State) (i : EntryId) (phase : Phase) : Option Entry :=
  (s.entry i).filter (fun e => decide (e.phase = phase))

/-- The outcome of a host read, for an entry in LOADING (R89, R93, R94). -/
def State.hostReadOutcome (i : EntryId) (o : PortOutcome) (s : State) : State :=
  match s.waiting i .loading with
  | none => s
  | some e =>
    match o with
    | .okay data => s.completeAccess e data
    | .failed => s.readFailed e

/-- The incident of a failed home write, for a member of a group (R92, R94). -/
def State.logHomeWrite (e : Entry) (s : State) : State :=
  match e.member with
  | some m => s.log { Incident.ofMember .homeWriteFailed m with line := some e.line }
  | none => s

/-- A home write has failed (R92, R94, R98, R17). -/
def State.homeWriteFailed (e : Entry) (s : State) : State :=
  if e.answered then (s.dropEntry e.index).logHomeWrite e
  else
    let answered := (s.finishEntry e .arrayError []).logHomeWrite e
    match e.group with
    | some t =>
      (if s.isCommitRequest e then answered.dropCommit t else answered).revoke t .array
    | none => answered

/-- The outcome of a home write, for an entry in STORING (R90, R92, R94). -/
def State.homeWriteOutcome (i : EntryId) (o : PortOutcome) (s : State) : State :=
  match s.waiting i .storing with
  | none => s
  | some e =>
    match o with
    | .okay _ => s.completeAccess e []
    | .failed => s.homeWriteFailed e

/-- The own-claim entries of a group on a line, which relied on the claim that a failed capture removes; they are all
in ORDERED (R37). -/
def State.relying (s : State) (t : Tag) (line : Addr) : List Entry :=
  (s.members t).filter fun x =>
    decide (x.line = line) && decide (x.path = .ownClaim) && decide (x.phase = .ordered)

/-- The claim that a group holds on a line leaves the table, and the group's claims held decreases by 1 (R37). -/
def State.removeClaim (t : Tag) (line : Addr) (s : State) : State :=
  match s.claimOf line with
  | some c =>
    if c.tag = t then (s.dropClaim line).modGroup t (fun g => { g with claimsHeld := g.claimsHeld - 1 }) else s
  | none => s

/-- A group looks at itself after a capture failure has removed one of its claims; `lost` says that its
commit request was refused with it (R6, R11). -/
def State.afterRemoval (t : Tag) (lost : Bool) (s : State) : State :=
  let g := s.group t
  if g.claimsHeld = 0 ∧ (g.state = .opened ∨ (g.state = .draining ∧ lost)) then
    match g.partition with
    | some p => (s.freeGroup t).releaseReservation p
    | none => s.freeGroup t
  else if lost then (s.dropCommit t).revoke t .array
  else s

/-- The capture read of an entry fails while its group `t` is alive (R37). -/
def State.captureRemoval (e : Entry) (t : Tag) (s : State) : State :=
  let refused := s.relying t e.line
  let lost := s.isCommitRequest e || refused.any s.isCommitRequest
  let answered := s.finishEntry e .arrayError []
  let logged := match e.member with
    | some m => answered.log { Incident.ofMember .captureFailed m with line := some e.line }
    | none => answered
  let padded := match e.undo with
    | some u => logged.padUndo u
    | none => logged
  (refused.foldl (fun s x => s.finishEntry x .arrayError []) (padded.removeClaim t e.line)).afterRemoval t lost

/-- A group is OPEN or DRAINING, neither revoked nor aborted (R37). -/
def GroupState.alive : GroupState → Bool
  | .opened | .draining => true
  | .free | .sealing | .unwinding | .halted | .broken => false

/-- The group for which the failed capture of an entry removes a claim: its own, while that is alive and the entry
unanswered (R37). -/
def State.aliveGroup (s : State) (e : Entry) : Option Tag :=
  e.group.filter (fun t => !e.answered && (s.groupState t).alive)

/-- The capture read of an entry fails (R37, or R38 after a revocation, an abort or the power-fail warning). -/
def State.captureFailed (e : Entry) (s : State) : State :=
  match s.aliveGroup e with
  | some t => s.captureRemoval e t
  | none => (e.undo.elim s (fun u => s.padUndo u)).dropEntry e.index

/-- The capture read of an entry returns its line (R59, R91, R94). -/
def State.captureReturned (e : Entry) (data : Bytes) (s : State) : State :=
  let decided := e.undo.elim s (fun u => s.decideUndo u data)
  if e.answered then decided.dropEntry e.index
  else decided.modEntry e.index (fun x => { x with phase := .logging })

/-- The outcome of a capture read, for an entry in CAPTURING (R91, R93). -/
def State.captureOutcome (i : EntryId) (o : PortOutcome) (s : State) : State :=
  match s.waiting i .capturing with
  | none => s
  | some e =>
    match o with
    | .okay data => s.captureReturned e data
    | .failed => s.captureFailed e

/-! ### What the front hands on -/

/-- The front has passed an UNDO record: its claim becomes logged, and the entry that waits for it enters
STORING (R36, R63). -/
def State.undoPassed (p : PartId) (slot : Nat) (info : RecordInfo) (s : State) : State :=
  let logged := { s with
    claims := s.claims.map fun c =>
      if c.tag = info.tag ∧ c.undoSlot = slot then { c with logged := true } else c }
  match s.requests.find? (fun e => decide (e.phase = .logging) && decide (e.undo = some ⟨p, slot⟩)) with
  | some e => logged.issueHomeWrite e
  | none => logged

/-- The group table takes a COMMIT record when its group is in SEALING (R63). -/
abbrev State.takesCommit (s : State) (info : RecordInfo) : Prop :=
  s.groupState info.tag = .sealing ∧ (s.group info.tag).sequence = some info.sequence

/-- The unwind engine takes an UNWOUND record of the group it closes, which is in UNWINDING (R63, R112). -/
abbrev State.takesUnwound (s : State) (info : RecordInfo) : Prop :=
  s.groupState info.tag = .unwinding ∧ (s.group info.tag).sequence = some info.sequence ∧
    s.engine.state = .closing ∧ s.engine.current = some info.tag

/-- The front has passed a COMMIT record (R63, R13). -/
def State.commitPassed (info : RecordInfo) (s : State) : State :=
  if s.takesCommit info then s.completeGroup info.tag else s

/-- The front has passed an UNWOUND record (R63, R112). -/
def State.unwoundPassed (info : RecordInfo) (s : State) : State :=
  if s.takesUnwound info then s.reportRestored info.tag else s

/-- A record whose last slot the front has newly passed is handed on, `slot` being that last slot; closing
records are not, in SHUTDOWN or in a FAULTED partition (R63, R64). -/
def State.handOn (p : PartId) (s : State) (passed : Nat × Mark) : State :=
  match passed.2.kind, passed.2.record with
  | .undoData, some info => s.undoPassed p (passed.1 - 1) info
  | .commit, some info => if s.journalRuns p then s.commitPassed info else s
  | .unwound, some info => if s.journalRuns p then s.unwoundPassed info else s
  | _, _ => s

/-- The passing of a slot is a trigger of retirement: of a closing record that is handed on, or of the last slot of a
PAD (R66). -/
def State.triggersRetirement (s : State) (m : Mark) : Bool :=
  match m.kind, m.record with
  | .commit, some info => decide (s.takesCommit info)
  | .unwound, some info => decide (s.takesUnwound info)
  | .padFirst length, _ => decide (length = 1)
  | .padSecond, _ => true
  | _, _ => false

/-- The slots that the front newly passes when it moves from `before` to `after` slots, with their marks. -/
def Partition.newlyPassed (cap before after : Nat) (part : Partition) : List (Nat × Mark) :=
  ((part.marks.take after).drop before).mapIdx
    (fun i m => ((part.durableTail.advance cap (before + i)).slot, m))

/-- A ring slot is acknowledged: the front is recomputed, the passed records are handed on, and retirement
runs once where a trigger was passed (R62, R63, R66). -/
def State.slotAcknowledged (p : PartId) (slot : Nat) (s : State) : State :=
  let cap := s.capacity p
  let before := frontCount (s.part p).marks
  let acked := s.modPart p fun part => part.modMark cap slot (fun m => { m with progress := .acknowledged })
  let after := frontCount (acked.part p).marks
  let passed := (acked.part p).newlyPassed cap before after
  let handed := passed.foldl (State.handOn p) acked
  if passed.any (fun x => acked.triggersRetirement x.2) then handed.retire p else handed

/-- The acknowledgement of a second attempt is logged (R62, R68). -/
def State.logRetried (p : PartId) (slot attempt : Nat) (record : Option RecordInfo) (s : State) : State :=
  if attempt = 2 then s.log (Incident.ofSlot .slotRetried p slot record) else s

/-- The outcome of a ring slot write (R62, R65, R71). SLOT_RETRIED stands in the list before any incident that what the
front then passes brings about, such as the RESTORE_FAILED of the unwind engine's next group: R192 gives no order for
the two (the model's choice, log 38). -/
def State.slotOutcome (p : PartId) (slot : Nat) (o : PortOutcome) (s : State) : State :=
  match (s.part p).mark (s.capacity p) slot with
  | none => s
  | some m =>
    match o with
    | .okay _ => (s.logRetried p slot m.attempt m.record).slotAcknowledged p slot
    | .failed =>
      if s.journalRuns p then
        if m.attempt = 1 then
          (s.modPart p fun part =>
            part.modMark (s.capacity p) slot (fun m => { m with attempt := 2 })).issueSlot p slot m.contents
        else s.faultPartition p slot
      else s

/-- A header write is acknowledged (R68). -/
def State.headerAcknowledged (p : PartId) (w : HeaderWrite) (s : State) : State :=
  let moved := s.modPart p fun part =>
    { part with
      marks := part.marks.drop (part.durableTail.dist (s.capacity p) w.tail)
      durableTail := w.tail, generation := w.generation, headerWrite := none }
  (moved.logRetried p (headerSlotOf w.generation) w.attempt none).considerHeader p

/-- An attempt of a header write fails (R65, R68, R69). -/
def State.headerFailed (p : PartId) (w : HeaderWrite) (s : State) : State :=
  let ended := s.modPart p (fun part => { part with headerWrite := none })
  if w.attempt = 1 then
    if s.controller = .shutdown then ended
    else
      (s.modPart p (fun part => { part with headerWrite := some { w with attempt := 2 } })).issueHeader p w
  else ended.log (Incident.ofSlot .headerWriteFailed p (headerSlotOf w.generation) none)

/-- The outcome of a header write (R68, R69). -/
def State.headerOutcome (p : PartId) (o : PortOutcome) (s : State) : State :=
  match (s.part p).headerWrite with
  | none => s
  | some w =>
    match o with
    | .okay _ => s.headerAcknowledged p w
    | .failed => s.headerFailed p w

end Sys2Proof.Machine
end

