-- ==== Sys2Proof/Machine/Intake.lean ====
section
/-! DEFINITION. Intake: the checks a host request meets in order, the access path, the three intents, and the
held request (R3, R4, R5, R9, R10, R14, R20, R23, R30 to R35, R80 to R84). -/

namespace Sys2Proof.Machine

/-- Refuse a request: the response is its only trace (R77). -/
def State.refuse (r : HostRequest) (status : Status) (s : State) : State :=
  s.respond r.hostId status []

/-- What check 3 answers in each controller state (R80). -/
def State.stateRefusal (s : State) (r : HostRequest) : Option Status :=
  match s.controller with
  | .shutdown => some .powerDown
  | .config | .recovering =>
    if s.protectedLine (lineOf r.address) || decide (intentOf r.intent ≠ some .plain) then some .notReady
    else none
  | .quiet =>
    if (decide (r.kind = .write) && s.protectedLine (lineOf r.address)) ||
        decide (intentOf r.intent ≠ some .plain) then some .quiescing
    else none
  | .active | .quiescing => none

/-- Checks 1 to 3 (R80). -/
def State.earlyRefusal (s : State) (r : HostRequest) : Option Status :=
  if !intentOk r then some .intent
  else if !spanOk r then some .span
  else s.stateRefusal r

/-! ### The access path -/

/-- What a PLAIN write of the journaled path meets in the group table (R3). -/
def GroupState.plainWrite : GroupState → Option Status
  | .free | .opened => none
  | .draining | .sealing => some .closing
  | .unwinding | .halted => some .revoked
  | .broken => some .broken

/-- What a COMMIT meets in the group table before its access (R3, R82). -/
def GroupState.commitCheck : GroupState → Option Status
  | .free | .opened => none
  | .draining | .sealing => some .busy
  | .unwinding | .halted => some .revoked
  | .broken => some .broken

/-- The group is at its claim limit; a FREE group never is (R34). -/
def State.atClaimLimit (s : State) (t : Tag) : Bool :=
  decide (s.groupState t ≠ .free) &&
    (decide ((s.group t).claimsHeld = s.claimLimit.toNat) ||
      decide ((s.group t).undoCount = some Config.undoLimit))

/-- The opening checks of a FREE group (R4). -/
def State.openingRefusal (s : State) (t : Tag) : Option Status :=
  if s.controller = .quiescing then some .quiescing
  else if !s.enabled s.tagMap[t] then some .noJournal
  else if (s.part s.tagMap[t]).state = .faulted then some .journalFault
  else none

/-- The partition a new claim's record goes to: the tag map's for a group that opens (R4, R45). -/
def State.claimPartition (s : State) (t : Tag) : PartId :=
  if s.groupState t = .free then s.tagMap[t] else (s.group t).partition.getD s.tagMap[t]

/-- The sequence a new claim's record carries: the counter's value for a group that opens (R2, R4). -/
def State.claimSequence (s : State) (t : Tag) : Word :=
  if s.groupState t = .free then s.seqCounter else (s.group t).sequence.getD s.seqCounter

/-- The checks of a new claim, in the order of R84: the opening checks, CLAIM_LIMIT, CLAIMS_FULL (R34) and
JOURNAL_FULL (R55). -/
def State.claimRefusal (s : State) (t : Tag) : Option Status :=
  let opening := if s.groupState t = .free then s.openingRefusal t else none
  match opening with
  | some status => some status
  | none =>
    if s.atClaimLimit t then some .claimLimit
    else if Config.claimEntries ≤ s.claims.length then some .claimsFull
    else if (s.part (s.claimPartition t)).hasRoom (s.size (s.claimPartition t)) (s.claimSequence t)
        (decide (s.groupState t = .free)) then none
    else some .journalFull

/-- Where a read goes (R83). -/
def State.readPath (s : State) (line : Addr) : Except Status (Path × Phase) :=
  match s.claimOf line with
  | none => .ok (.read, .ordered)
  | some c =>
    match s.groupState c.tag with
    | .broken => .error .broken
    | .unwinding => .ok (.read, .waitUnwind)
    | .free | .opened | .draining | .sealing | .halted => .ok (.read, .ordered)

/-- Where a tagged write to a protected line goes, its group state having passed (R84). -/
def State.journaledPath (s : State) (line : Addr) (t : Tag) : Except Status (Path × Phase) :=
  match s.claimOf line with
  | some c => if c.tag = t then .ok (.ownClaim, .ordered) else .error .conflict
  | none =>
    match s.claimRefusal t with
    | some status => .error status
    | none => .ok (.newClaim, .ordered)

/-- Where a write goes (R84); the group state is not checked again for one that a COMMIT carries. -/
def State.writePath (s : State) (line : Addr) (tag : Option Tag) (carried : Bool) :
    Except Status (Path × Phase) :=
  match s.regionOf line, tag with
  | none, _ => .ok (.unjournaled, .ordered)
  | some region, none =>
    match region.mode with
    | .guarded => .error .untagged
    | .shared => if (s.claimOf line).isSome then .error .conflict else .ok (.unjournaled, .ordered)
  | some _, some t =>
    match (if carried then none else (s.groupState t).plainWrite) with
    | some status => .error status
    | none => s.journaledPath line t

/-- The access path of a request (R83, R84). -/
def State.accessPath (s : State) (r : HostRequest) (carried : Bool) : Except Status (Path × Phase) :=
  match r.kind with
  | .read => s.readPath (lineOf r.address)
  | .write => s.writePath (lineOf r.address) (tagOf r.tag) carried

/-! ### Admission -/

/-- Insert a claim (R35). -/
def State.insertClaim (c : Claim) (s : State) : State :=
  { s with claims := s.claims ++ [c] }

/-- The group entry of a tag that takes a new claim: opened (R4) or grown (R5). -/
def State.grownGroup (s : State) (t : Tag) : Group :=
  let g := s.group t
  if g.state = .free then
    { Group.cleared with
      state := .opened, sequence := some s.seqCounter, partition := some s.tagMap[t]
      claimsHeld := 1, undoCount := some 1 }
  else { g with claimsHeld := g.claimsHeld + 1, undoCount := some (g.undoCount.getD 0 + 1) }

/-- A write takes a new claim: its group opens or grows, the claim is inserted, the UNDO slots are allocated,
and an opening takes a reservation and a sequence (R4, R5, R35, R53, R54). -/
def State.takeClaim (t : Tag) (line : Addr) (s : State) : State :=
  let p := s.claimPartition t
  let opens := decide (s.groupState t = .free)
  let g := s.grownGroup t
  let info : RecordInfo := ⟨t, g.sequence.getD 0, g.undoCount.getD 0, some line⟩
  let claim : Claim := ⟨line, t, false, g.undoCount.getD 0, (s.part p).undoSlot (s.size p)⟩
  let allocated := s.modPart p fun part =>
    let grown := part.allocateUndo (s.size p) info
    if opens then { grown with reserved := grown.reserved + 1 } else grown
  let claimed := (allocated.setGroup t g).insertClaim claim
  if opens then claimed.advanceSequence else claimed

/-- The UNDO allocation that the next new claim of a tag will receive (R84). -/
def State.nextUndo (s : State) (t : Tag) : UndoRef :=
  ⟨s.claimPartition t, (s.part (s.claimPartition t)).undoSlot (s.size (s.claimPartition t))⟩

/-- Add an entry at the end of the order of admission (R86). -/
def State.addEntry (e : Entry) (s : State) : State :=
  { s with requests := s.requests ++ [e] }

/-- The entry of an admitted request (R86). -/
def newEntry (i : EntryId) (r : HostRequest) (path : Path) (phase : Phase) : Entry where
  index := i
  request := r
  line := lineOf r.address
  path := path
  phase := phase
  group := none
  undo := none
  answered := false
  readData := none
  member := none

/-- A path whose write belongs to its group (R86). -/
def Path.journaled : Path → Bool
  | .newClaim | .ownClaim => true
  | .read | .unjournaled | .abort => false

/-- Admit an access (R87): a journaled write joins its group; a COMMIT whose group is OPEN then takes the group
to DRAINING as its commit request (R9, R10). -/
def State.admitAccess (i : EntryId) (r : HostRequest) (path : Path) (phase : Phase) (carried : Bool) (s : State) :
    State :=
  let e := newEntry i r path phase
  match tagOf r.tag with
  | none => s.addEntry e
  | some t =>
    let claimed := if path = .newClaim then s.takeClaim t (lineOf r.address) else s
    let commits := carried && decide (claimed.groupState t = .opened)
    let undo := if path = .newClaim then some (s.nextUndo t) else none
    let added :=
      if path.journaled || commits then
        claimed.addEntry { e with group := some t, undo := undo, member := some (claimed.memberOf t) }
      else claimed.addEntry e
    if commits then
      added.modGroup t (fun g => { g with state := .draining, commitRequest := some i })
    else added

/-- The entry of an ABORT, its carried access discarded (R82, R87). -/
def abortEntry (i : EntryId) (r : HostRequest) : Entry :=
  newEntry i { r with data := [] } .abort .awaitOutcome

/-- Park an ABORT (R14, R20). -/
def State.parkAbort (i : EntryId) (r : HostRequest) (t : Tag) (s : State) : State :=
  (s.addEntry (abortEntry i r)).modGroup t (fun g => { g with parkedAbort := some i })

/-- Check 5 for an ABORT (R82). -/
def State.takeAbort (i : EntryId) (r : HostRequest) (t : Tag) (s : State) : State :=
  match s.groupState t with
  | .opened => ((s.startUnwind t .host none).parkAbort i r t).settle
  | .unwinding =>
    if (s.group t).unwindOrigin = some .revoke ∧ (s.group t).parkedAbort = none then s.parkAbort i r t
    else s.refuse r .busy
  | .free => s.refuse r .empty
  | .halted => ((s.refuse r .released).freeGroup t).settle
  | .draining | .sealing => s.refuse r .closing
  | .broken => s.refuse r .broken

/-- Check 5 for an access, `carried` by a COMMIT or not (R82, R83, R84). -/
def State.takeAccess (i : EntryId) (r : HostRequest) (carried : Bool) (s : State) : State :=
  match s.accessPath r carried with
  | .error status => s.refuse r status
  | .ok (path, phase) => (s.admitAccess i r path phase carried).settle

/-- Check 5 (R82). -/
def State.takeIntent (i : EntryId) (r : HostRequest) (s : State) : State :=
  match intentOf r.intent, tagOf r.tag with
  | some .abort, some t => s.takeAbort i r t
  | some .commit, some t =>
    match (s.groupState t).commitCheck with
    | some status => s.refuse r status
    | none => s.takeAccess i r true
  | _, _ => s.takeAccess i r false

/-- Take a request at the host port (R77, R80, R81). -/
def State.intake (r : HostRequest) (s : State) : State :=
  match s.earlyRefusal r with
  | some status => s.refuse r status
  | none =>
    match s.freeEntry with
    | none => { s with held := some r }
    | some i => s.takeIntent i r

/-- Take the held request again, from check 1 (R81). -/
def State.retakeHeld (s : State) : State :=
  match s.held with
  | none => s
  | some r => State.intake r { s with held := none }

/-- The end of an event that began in controller state `before`: a held request is taken again when an entry
is free or the controller state has changed (R81). -/
def State.endEvent (before : CtrlState) (s : State) : State :=
  if s.freeEntry.isSome || decide (s.controller ≠ before) then s.retakeHeld else s

end Sys2Proof.Machine
end

