-- ==== Sys2Proof/Machine/Recovery.lean ====
section
/-! DEFINITION. The recovery scanner, from the choice of a header copy to the rewrite, the end of START, and the
two header writes of FORMAT (06_recovery.md). -/

namespace Sys2Proof.Machine

/-- Change the scanner. -/
def State.modScanner (f : Scanner → Scanner) (s : State) : State :=
  { s with scanner := f s.scanner }

/-- The scanner returns to the values of R121. -/
def State.clearScanner (s : State) : State :=
  { s with scanner := .cleared }

/-- Every partition becomes OFF with its run state cleared (R46, R47). -/
def State.partitionsOff (s : State) : State :=
  { s with partitions := Vector.replicate 4 .cleared }

/-! ### The ends of START -/

/-- START ends FAILED: the partitions become OFF, the scanner returns to its values and its requests are
forgotten, unless the power-fail warning ended it (R136, R137). -/
def State.startFailed (reason : Reason) (s : State) : State :=
  let logged := State.log
    { Incident.bare .startFailed with partition := some (s.scanner.current.getD 0), detail := some reason.code }
    (s.endFailed reason s.scanner.current)
  let off := logged.partitionsOff.clearScanner
  if reason = .shutdown then off.enter .shutdown else off.forgetScanner.enter .config

/-- Recovery succeeds (R135). -/
def State.recoverySucceeds (s : State) : State :=
  State.endDone { s with controller := .active, scanner := .cleared, claims := [], seqCounter := 1 }

/-! ### Header copies -/

/-- Issue a scanner request on a slot of its partition (R123, R126, R131). -/
def State.issueScanner (purpose : Purpose) (p : PartId) (slot : Nat) (data : Bytes) (s : State) : State :=
  s.issue purpose (.scanner p slot) (s.slotAddr p slot) Config.lineBytes data

/-- Issue the read of a header copy (R123). -/
def State.issueHeaderRead (p : PartId) (copySlot : Nat) (s : State) : State :=
  s.issue .headerRead (.header p copySlot) (s.slotAddr p copySlot) Config.lineBytes []

/-- The scanner takes a partition: it becomes SCANNING and both header reads are issued (R122, R123). -/
def State.takePartition (p : PartId) (s : State) : State :=
  ((State.modPart p (fun part => { part with state := .scanning })
    { s with scanner := { Scanner.cleared with current := some p, stage := some .headers } }).issueHeaderRead p
      0).issueHeaderRead p 1

/-- The scanner takes the first enabled partition that satisfies `later`, or recovery succeeds (R122). -/
def State.takeFirst (later : PartId → Bool) (s : State) : State :=
  match allPartitions.find? (fun p => s.enabled p && later p) with
  | some p => s.takePartition p
  | none => s.recoverySucceeds

/-- The copy to choose among the two that have returned (R124). -/
def chooseCopy (copy0 copy1 : Bytes) : Option Bytes :=
  match headerWellFormed 0 copy0, headerWellFormed 1 copy1 with
  | false, false => none
  | true, false => some copy0
  | false, true => some copy1
  | true, true =>
    if newerGeneration (headerGeneration copy0) (headerGeneration copy1) then some copy0 else some copy1

/-- Both header copies have returned (R124, R125). -/
def State.chooseHeader (p : PartId) (copy0 copy1 : Bytes) (s : State) : State :=
  match chooseCopy copy0 copy1 with
  | none => s.startFailed .headerInvalid
  | some copy =>
    if headerSize copy ≠ s.size p then s.startFailed .geometry
    else
      let chosen : ChosenHeader :=
        ⟨slotEpoch copy, headerGeneration copy, headerTail copy, headerSize copy⟩
      let shown := s.modPart p fun part => { part with epoch := chosen.epoch, generation := chosen.generation }
      (shown.modScanner fun sc =>
        { sc with
          chosen := some chosen, position := some chosen.tail, list := [], stage := some .scan, attempt := 1
          copy0 := none, copy1 := none }).issueScanner .scanRead p chosen.tail.slot []

/-- The outcome of a header read (R123). -/
def State.headerReadOutcome (p : PartId) (copySlot : Nat) (o : PortOutcome) (s : State) : State :=
  if s.scanner.current = some p ∧ s.scanner.stage = some .headers then
    match o with
    | .okay data =>
      let kept := s.modScanner fun sc =>
        if copySlot = 0 then { sc with copy0 := some data } else { sc with copy1 := some data }
      match kept.scanner.copy0, kept.scanner.copy1 with
      | some c0, some c1 => kept.chooseHeader p c0 c1
      | _, _ => kept
    | .failed =>
      if (if copySlot = 0 then s.scanner.attempt0 else s.scanner.attempt1) = 1 then
        (s.modScanner fun sc =>
          if copySlot = 0 then { sc with attempt0 := 2 } else { sc with attempt1 := 2 }).issueHeaderRead p
            copySlot
      else s.startFailed .arrayError
  else s

/-! ### Rewrite -/

/-- Issue the header rewrite (R134). -/
def State.issueRewrite (p : PartId) (generation : Word) (bytes : Bytes) (s : State) : State :=
  s.issue .headerRewrite (.header p (headerSlotOf generation)) (s.slotAddr p (headerSlotOf generation))
    Config.lineBytes bytes

/-- The sequences of a list, each once, in the order of their first entries (R133). -/
def distinctSequences : List RecoveryEntry → List Word
  | [] => []
  | e :: rest => e.sequence :: (distinctSequences rest).filter (fun v => v != e.sequence)

/-- One RECOVERY_UNWOUND incident for a sequence of the list (R133). -/
def State.logUnwound (p : PartId) (list : List RecoveryEntry) (s : State) (v : Word) : State :=
  let entries := list.filter (fun e => e.sequence == v)
  match entries with
  | [] => s
  | e :: _ =>
    s.log
      { Incident.bare .recoveryUnwound with
        tag := some e.tag, sequence := some v, partition := some p, line := some e.line
        detail := some entries.length }

/-- The restores of a partition are over: the incidents are logged and the rewrite issued (R133, R134). That the
restore entry and step are absent from here on, before the rewrite is acknowledged, is the model's choice (log 39). -/
def State.restoresDone (p : PartId) (s : State) : State :=
  match s.scanner.chosen, s.scanner.scanEnd with
  | some chosen, some scanEnd =>
    let logged := (distinctSequences s.scanner.list).foldl (State.logUnwound p s.scanner.list) s
    let generation := chosen.generation + 1
    let bytes := headerCopy (s.size p) chosen.epoch generation scanEnd
    (logged.modScanner fun sc =>
      { sc with
        list := [], stage := some .rewrite, attempt := 1, restoreEntry := none, restoreStep := none
        writeData := some bytes }).issueRewrite p generation bytes
  | _, _ => s

/-- A partition made READY by recovery (R47, R134). -/
def readyPartition (epoch generation : Word) (at_ : Pos) : Partition where
  state := .ready
  head := at_
  workingTail := at_
  durableTail := at_
  reserved := 0
  spans := []
  marks := []
  generation := generation
  epoch := epoch
  headerWrite := none

/-- The outcome of the header rewrite (R134). -/
def State.headerRewriteOutcome (o : PortOutcome) (s : State) : State :=
  match s.scanner.current, s.scanner.stage, s.scanner.chosen, s.scanner.scanEnd with
  | some p, some .rewrite, some chosen, some scanEnd =>
    match o with
    | .okay _ =>
      ((s.setPart p (readyPartition chosen.epoch (chosen.generation + 1) scanEnd)).clearScanner).takeFirst
        (fun q => decide (p < q))
    | .failed =>
      if s.scanner.attempt = 1 then
        (s.modScanner fun sc => { sc with attempt := 2 }).issueRewrite p (chosen.generation + 1)
          (s.scanner.writeData.getD [])
      else s.startFailed .arrayError
  | _, _, _, _ => s

/-! ### Restores -/

/-- Issue the read of a recovery list entry's data slot (R132). -/
def State.issueRecoveryRead (p : PartId) (e : RecoveryEntry) (s : State) : State :=
  s.issue .recoveryRead .restoreEntry (s.slotAddr p (e.undoSlot + 1)) Config.lineBytes []

/-- Issue the write of the restored contents to a recovery list entry's line (R132). -/
def State.issueRecoveryWrite (e : RecoveryEntry) (data : Bytes) (s : State) : State :=
  s.issue .recoveryWrite .restoreEntry e.line Config.lineBytes data

/-- The scanner takes the next entry to restore, newest first, or the restores are over (R132, R133). -/
def State.takeRestore (p : PartId) (s : State) : State :=
  match s.scanner.toRestore with
  | [] => s.restoresDone p
  | e :: rest =>
    (s.modScanner fun sc =>
      { sc with
        restoreEntry := some e, restoreStep := some .reading, attempt := 1, toRestore := rest
        writeData := none }).issueRecoveryRead p e

/-- The void pass is over, or there is none: the partition becomes RESTORING (R130, R131, R132). That the position is
absent in RESTORE and REWRITE is the model's choice: R134 makes it absent only at the acknowledgement, and no rule
gives it in those stages (log 39). -/
def State.enterRestore (p : PartId) (s : State) : State :=
  ((s.modPart p fun part => { part with state := .restoring }).modScanner fun sc =>
    { sc with stage := some .restore, position := none, toRestore := sc.list.reverse }).takeRestore p

/-- The outcome of a recovery read (R132). -/
def State.recoveryReadOutcome (o : PortOutcome) (s : State) : State :=
  match s.scanner.current, s.scanner.restoreEntry, s.scanner.restoreStep with
  | some p, some e, some .reading =>
    match o with
    | .okay data =>
      (s.modScanner fun sc =>
        { sc with restoreStep := some .writing, attempt := 1, writeData := some data }).issueRecoveryWrite e data
    | .failed =>
      if s.scanner.attempt = 1 then
        (s.modScanner fun sc => { sc with attempt := 2 }).issueRecoveryRead p e
      else s.startFailed .arrayError
  | _, _, _ => s

/-- The outcome of a recovery restore write (R132). -/
def State.recoveryWriteOutcome (o : PortOutcome) (s : State) : State :=
  match s.scanner.current, s.scanner.restoreEntry, s.scanner.restoreStep with
  | some p, some e, some .writing =>
    match o with
    | .okay _ =>
      (s.modScanner fun sc => { sc with restoreEntry := none, restoreStep := none }).takeRestore p
    | .failed =>
      if s.scanner.attempt = 1 then
        (s.modScanner fun sc => { sc with attempt := 2 }).issueRecoveryWrite e (s.scanner.writeData.getD [])
      else s.startFailed .arrayError
  | _, _, _ => s

/-! ### The void pass -/

/-- The scanner goes to the next position of the void pass, or the pass is over (R131). -/
def State.voidNext (p : PartId) (chosen : ChosenHeader) (pos : Pos) (s : State) : State :=
  let next := pos.advance (s.capacity p) 1
  if s.capacity p ≤ chosen.tail.dist (s.capacity p) next then s.enterRestore p
  else
    (s.modScanner fun sc => { sc with position := some next, attempt := 1 }).issueScanner .voidRead p next.slot []

/-- A slot is judged: one that carries the epoch and the lap of its position is cleared (R131). -/
def State.voidJudge (p : PartId) (chosen : ChosenHeader) (pos : Pos) (slot : Bytes) (s : State) : State :=
  if slotEpoch slot = chosen.epoch ∧ slotLap slot = pos.lap then
    (s.modScanner fun sc => { sc with position := some pos, attempt := 1 }).issueScanner .voidWrite p pos.slot
      (zeroBytes Config.lineBytes)
  else s.voidNext p chosen pos

/-- The outcome of a void-pass read (R131). -/
def State.voidReadOutcome (o : PortOutcome) (s : State) : State :=
  match s.scanner.current, s.scanner.stage, s.scanner.chosen, s.scanner.position with
  | some p, some .void, some chosen, some pos =>
    match o with
    | .okay data => s.voidJudge p chosen pos data
    | .failed =>
      if s.scanner.attempt = 1 then
        (s.modScanner fun sc => { sc with attempt := 2 }).issueScanner .voidRead p pos.slot []
      else s.startFailed .arrayError
  | _, _, _, _ => s

/-- The outcome of a void-pass write (R131). -/
def State.voidWriteOutcome (o : PortOutcome) (s : State) : State :=
  match s.scanner.current, s.scanner.stage, s.scanner.chosen, s.scanner.position with
  | some p, some .void, some chosen, some pos =>
    match o with
    | .okay _ => s.voidNext p chosen pos
    | .failed =>
      if s.scanner.attempt = 1 then
        (s.modScanner fun sc => { sc with attempt := 2 }).issueScanner .voidWrite p pos.slot
          (zeroBytes Config.lineBytes)
      else s.startFailed .arrayError
  | _, _, _, _ => s

/-! ### The forward scan -/

/-- The scan ends at a position whose record is invalid: the void pass begins with the slot just read (R130). -/
def State.endScan (p : PartId) (chosen : ChosenHeader) (pos : Pos) (slot : Bytes) (s : State) : State :=
  (s.modScanner fun sc => { sc with scanEnd := some pos, stage := some .void }).voidJudge p chosen pos slot

/-- The scan goes on past a valid record, or stops at the ring-capacity limit (R126, R130). -/
def State.advanceScan (p : PartId) (chosen : ChosenHeader) (pos : Pos) (length : Nat) (s : State) : State :=
  let next := pos.advance (s.capacity p) length
  if s.capacity p ≤ chosen.tail.dist (s.capacity p) next then
    (s.modScanner fun sc => { sc with scanEnd := some ⟨chosen.tail.slot, chosen.tail.lap + 1⟩ }).enterRestore p
  else
    (s.modScanner fun sc => { sc with position := some next, attempt := 1 }).issueScanner .scanRead p next.slot []

/-- The tag a record header names. -/
def slotTagOf (slot : Bytes) : Tag :=
  Fin.ofNat 15 (slotTag slot - 1)

/-- The recovery list entry of an UNDO record at a position (R128). -/
def recoveryEntryOf (pos : Pos) (slot : Bytes) : RecoveryEntry :=
  ⟨BitVec.ofNat 32 (slotSequence slot), slotTagOf slot, pos.slot, BitVec.ofNat 40 (slotLine slot)⟩

/-- A valid record is taken (R128, R129). -/
def State.takeRecord (p : PartId) (chosen : ChosenHeader) (pos : Pos) (slot : Bytes) (s : State) : State :=
  if slotKindByte slot = kindUndo then
    if Config.claimEntries ≤ s.scanner.list.length ∨ s.inPartition (BitVec.ofNat 40 (slotLine slot)) then
      s.startFailed .journalInconsistent
    else
      (s.modScanner fun sc => { sc with list := sc.list ++ [recoveryEntryOf pos slot] }).advanceScan p chosen pos 2
  else if slotKindByte slot = kindPad then s.advanceScan p chosen pos (recordLength slot)
  else
    (s.modScanner fun sc =>
      { sc with list := sc.list.filter (fun e => e.sequence != BitVec.ofNat 32 (slotSequence slot)) }).advanceScan p
        chosen pos 1

/-- The record at the scan position has been read whole: it is taken if it is valid and ends within the ring
capacity, and otherwise ends the scan (R126, R127, R130). -/
def State.scanDecide (p : PartId) (chosen : ChosenHeader) (pos : Pos) (slot data : Bytes) (s : State) : State :=
  if recordValid chosen.epoch pos (lastRingSlot (s.size p)) slot data ∧
      chosen.tail.dist (s.capacity p) pos + recordLength slot ≤ s.capacity p then
    s.takeRecord p chosen pos slot
  else s.endScan p chosen pos slot

/-- The slot the scanner reads next in SCAN: the data slot of a held UNDO header, or the position's own (R126). -/
def Scanner.scanSlot (sc : Scanner) (pos : Pos) : Nat :=
  if sc.heldHeader.isSome then pos.slot + 1 else pos.slot

/-- The outcome of a scan read (R126). -/
def State.scanReadOutcome (o : PortOutcome) (s : State) : State :=
  match s.scanner.current, s.scanner.stage, s.scanner.chosen, s.scanner.position with
  | some p, some .scan, some chosen, some pos =>
    match o with
    | .okay data =>
      match s.scanner.heldHeader with
      | some header => (s.modScanner fun sc => { sc with heldHeader := none }).scanDecide p chosen pos header data
      | none =>
        if slotKindByte data = kindUndo ∧ pos.slot ≠ lastRingSlot (s.size p) then
          (s.modScanner fun sc => { sc with heldHeader := some data, attempt := 1 }).issueScanner .scanRead p
            (pos.slot + 1) []
        else s.scanDecide p chosen pos data []
    | .failed =>
      if s.scanner.attempt = 1 then
        (s.modScanner fun sc => { sc with attempt := 2 }).issueScanner .scanRead p (s.scanner.scanSlot pos) []
      else s.startFailed .arrayError
  | _, _, _, _ => s

/-! ### FORMAT -/

/-- The header copy a FORMAT writes: generation 1 in slot 1, 2 in slot 0, tail slot 2 with lap 1 (R141). -/
def FormatJob.copy (j : FormatJob) : Bytes :=
  headerCopy j.size.toNat j.epoch (if j.copySlot = 1 then 1 else 2) ⟨2, 1⟩

/-- Issue a FORMAT header write, at the base the FORMAT was accepted with (R141). -/
def State.issueFormat (j : FormatJob) (s : State) : State :=
  State.issue .formatWrite (.format j.partition j.copySlot) ((Geometry.mk j.base j.size).slotAddr j.copySlot)
    Config.lineBytes j.copy { s with formatJob := some j }

/-- The outcome of a FORMAT header write (R141). -/
def State.formatOutcome (o : PortOutcome) (s : State) : State :=
  match s.formatJob with
  | none => s
  | some j =>
    match o with
    | .okay _ =>
      if j.copySlot = 1 then s.issueFormat { j with copySlot := 0, attempt := 1 }
      else State.endDone { s with formatJob := none }
    | .failed =>
      if j.attempt = 1 then s.issueFormat { j with attempt := 2 }
      else State.endFailed .arrayError none { s with formatJob := none }

end Sys2Proof.Machine
end

