-- ==== Sys2Proof/Machine/Controller.lean ====
section
/-! DEFINITION. The controller: taking a command in the order of R147, the nine commands, entry into SHUTDOWN
and the two resets (07_controller_states_and_power_fail.md). -/

namespace Sys2Proof.Machine

/-! ### The commands that R148 to R153 own -/

/-- The first pair of enabled partitions that overlaps (R148). -/
def State.partitionClash (s : State) : Option (PartId × PartId) :=
  partitionPairs.find? (fun x => s.partitionsOverlap x.1 x.2)

/-- The first pair of an enabled partition and an enabled region that overlaps (R148). -/
def State.regionClash (s : State) : Option (PartId × RegionId) :=
  regionPairs.find? (fun x => s.regionOverlaps x.1 x.2)

/-- START (R148): the two configuration checks, then recovery from its first partition. -/
def State.start (s : State) : State :=
  if s.controller ≠ .config then s.endRefused .state
  else
    match s.partitionClash with
    | some (p, q) => s.endOverlap .configInvalid (some .partitionOverlap) p q.val
    | none =>
      match s.regionClash with
      | some (p, r) => s.endOverlap .configInvalid (some .regionOverlap) p r.val
      | none => (s.enter .recovering).takeFirst (fun _ => true)

/-- The lowest-numbered other partition that overlaps a partition (R140, log 23). -/
def State.formatClash (s : State) (p : PartId) : Option PartId :=
  allPartitions.find? (fun q => decide (q ≠ p) && s.partitionsOverlap p q)

/-- The lowest-numbered enabled region that overlaps a partition (R140, log 23). -/
def State.formatRegionClash (s : State) (p : PartId) : Option RegionId :=
  (List.finRange 8).find? (fun r => s.regionOverlaps p r)

/-- What a FORMAT takes at its acceptance, about to write slot 1 (R141). -/
def State.newFormat (s : State) (p : PartId) : FormatJob :=
  ⟨p, (s.geometry[p]).base, (s.geometry[p]).size, s.formatEpoch, 1, 1⟩

/-- FORMAT (R140). -/
def State.format (s : State) : State :=
  match s.operandPartition with
  | none => s.endRefused .operand
  | some p =>
    if s.controller ≠ .config then s.endRefused .state
    else if !s.enabled p then s.endRefused .noPartition
    else
      match s.formatClash p with
      | some q => s.endOverlap .partitionOverlap none p q.val
      | none =>
        match s.formatRegionClash p with
        | some r => s.endOverlap .regionOverlap none p r.val
        | none => s.issueFormat (s.newFormat p)

/-- QUIESCE (R150). -/
def State.quiesce (s : State) : State :=
  if s.controller ≠ .active then s.endRefused .state
  else (s.enter .quiescing).endDone.quietTest

/-- RESUME (R152). -/
def State.resume (s : State) : State :=
  if s.controller = .quiescing ∨ s.controller = .quiet then (s.enter .active).endDone
  else s.endRefused .state

/-- The sequence counter is set to 1 (R2, R153). -/
def State.restartSequence (s : State) : State :=
  { s with seqCounter := 1 }

/-- STOP (R153). -/
def State.stop (s : State) : State :=
  if s.controller ≠ .quiet then s.endRefused .state
  else (s.partitionsOff.restartSequence.enter .config).endDone

/-! ### The commands that name a group, and CLEAR_INCIDENTS -/

/-- FORCE_UNWIND (R19). -/
def State.forceUnwind (s : State) : State :=
  match s.operandTag with
  | none => s.endRefused .operand
  | some t =>
    if s.groupState t = .opened then (State.endDone (s.revoke t .forced)).settle
    else s.endRefused .state

/-- The partition of a group is FAULTED. -/
def State.groupPartFaulted (s : State) (t : Tag) : Bool :=
  match (s.group t).partition with
  | some p => decide ((s.part p).state = .faulted)
  | none => false

/-- A BROKEN group is taken into UNWINDING again, for a RETRY_UNWIND that stays RUNNING (R25, R117). -/
def State.retryGroup (t : Tag) (s : State) : State :=
  State.modEngine (fun e => { e with retryTag := some t })
    ((s.modGroup t (fun g => { g with state := .unwinding })).joinWaiting t)

/-- RETRY_UNWIND (R117). -/
def State.retryUnwind (s : State) : State :=
  match s.operandTag with
  | none => s.endRefused .operand
  | some t =>
    if s.groupState t ≠ .broken then s.endRefused .state
    else if s.groupPartFaulted t then s.endRefused .partitionFault
    else (s.retryGroup t).settle

/-- CLEAR_INCIDENTS (R193). -/
def State.clearIncidents (s : State) : State :=
  State.endDone { s with incidents := [], dropped := 0 }

/-! ### Entry into SHUTDOWN -/

/-- A command that is RUNNING ends FAILED(SHUTDOWN): a START, a FORMAT or a RETRY_UNWIND (R137, R142, R119). -/
def State.endRunning (s : State) : State :=
  if s.controller = .recovering then s.startFailed .shutdown
  else if s.running then
    State.endFailed .shutdown none { s with formatJob := none, engine := { s.engine with retryTag := none } }
  else s

/-- An array access of an entry in this phase is outstanding (R86). -/
def Phase.outstanding : Phase → Bool
  | .loading | .capturing | .storing => true
  | .ordered | .waitUnwind | .logging | .awaitOutcome => false

/-- An entry is answered POWER_DOWN, and leaves unless its access is outstanding (R97). -/
def State.powerDown (s : State) (e : Entry) : State :=
  if e.phase.outstanding then s.answerEarly e .powerDown else s.finishEntry e .powerDown []

/-- An access that completes in SHUTDOWN as its path gives: a read or a home write under way (R97). -/
def Phase.completesInShutdown : Phase → Bool
  | .loading | .storing => true
  | .ordered | .waitUnwind | .capturing | .logging | .awaitOutcome => false

/-- What entry into SHUTDOWN does to one entry; `commit` says whether it is the commit request of a group
(R26, R97). -/
def State.shutdownFate (commit : Entry → Bool) (s : State) (e : Entry) : State :=
  if e.answered then s
  else if commit e || !e.phase.completesInShutdown then s.powerDown e
  else s

/-- The commit requests and parked aborts have been answered and become absent (R26). -/
def Group.dropRequests (g : Group) : Group :=
  { g with commitRequest := none, parkedAbort := none }

/-- Every group drops its requests (R26). -/
def State.dropRequests (s : State) : State :=
  { s with groups := s.groups.map Group.dropRequests }

/-- The line in progress, a read or a write of a restore, is completed in SHUTDOWN (R119). -/
def Engine.completesLine (e : Engine) : Bool :=
  match e.state, e.lineStep with
  | .restoring, .reading _ | .restoring, .writing _ => true
  | _, _ => false

/-- The unwind engine becomes STOPPED, at once or after its line in progress (R119). -/
def State.stopUnwinding (s : State) : State :=
  if s.engine.completesLine then s else s.stopEngine

/-- The controller enters SHUTDOWN, and every block acts by its rule (R154, R158, R26, R97, R119, R137). -/
def State.enterShutdown (s : State) : State :=
  let ended := (s.endRunning.enter .shutdown).raise .powerWarning
  (ended.requests.foldl (State.shutdownFate s.isCommitRequest) ended).dropRequests.stopUnwinding

/-- The power-fail warning line asserts (R154, R155). While the reset line is asserted it is not taken (R156). -/
def State.powerFail (s : State) : State :=
  let lowered := { s with pfwLine := true }
  if s.resetLine then lowered
  else if s.controller = .shutdown then lowered.raise .powerWarning
  else lowered.enterShutdown

/-- The level of the power-fail warning line is tested after a reset (R158). -/
def State.testPowerFail (pfw : Bool) (s : State) : State :=
  if pfw then State.enterShutdown { s with pfwLine := pfw } else { s with pfwLine := pfw }

/-! ### Resets -/

/-- The answers of SOFT_RESET: ABANDONED to every unanswered entry (R100). -/
def State.abandoned (s : State) : List Response :=
  (s.requests.filter (fun e => !e.answered)).map (fun e => ⟨e.request.hostId, .abandoned, []⟩)

/-- The run state of every block is reset and the configuration kept, as the table of R157 gives. -/
def State.clearRun (s : State) : State :=
  { s with
    controller := .config
    cmdStatus := .cleared
    formatJob := none
    groups := Vector.replicate 15 .cleared
    seqCounter := 1
    claims := []
    partitions := Vector.replicate 4 .cleared
    requests := []
    engine := .cleared
    scanner := .cleared
    outstanding := []
    link := .cleared
    flags := 0
    responses := s.responses ++ s.abandoned }

/-- SOFT_RESET, the power-fail warning line being at level `pfw` (R157, R158). -/
def State.softReset (pfw : Bool) (s : State) : State :=
  State.testPowerFail pfw (State.endDone (State.takeStatus (some .softReset) s.clearRun))

/-- The link's frame state after a reset with MSEL at this level (R184). -/
def Link.afterReset (mselLow : Bool) : Link :=
  { Link.cleared with frame := if mselLow then .discarding else .idle }

/-- The reset line asserts: every block returns to its reset values; the issue counter, the level of the
power-fail warning line and what waits in the queue are kept (R156, R161, R184). -/
def State.assertReset (mselLow : Bool) (s : State) : State :=
  { State.reset with
    resetLine := true
    pfwLine := s.pfwLine
    issueCounter := s.issueCounter
    link := .afterReset mselLow
    pending := s.pending }

/-- The reset line goes inactive (R158, R184). -/
def State.releaseReset (pfw mselLow : Bool) (s : State) : State :=
  if s.resetLine then
    State.testPowerFail pfw
      { s with
        resetLine := false
        link := { s.link with frame := (Link.afterReset mselLow).frame } }
  else s

/-! ### The command register -/

/-- The command a code of the command register names (R200); 0 is NONE. -/
def commandOf : Nat → Option Command
  | 1 => some .start
  | 2 => some .format
  | 3 => some .quiesce
  | 4 => some .resume
  | 5 => some .stop
  | 6 => some .forceUnwind
  | 7 => some .retryUnwind
  | 8 => some .clearIncidents
  | 9 => some .softReset
  | _ => none

/-- The code of a command (R200). -/
def Command.code : Command → Nat
  | .start => 1
  | .format => 2
  | .quiesce => 3
  | .resume => 4
  | .stop => 5
  | .forceUnwind => 6
  | .retryUnwind => 7
  | .clearIncidents => 8
  | .softReset => 9

/-- The command's own checks and effect (R147, check 4). -/
def State.runCommand (c : Command) (pfw : Bool) (s : State) : State :=
  match c with
  | .start => s.start
  | .format => s.format
  | .quiesce => s.quiesce
  | .resume => s.resume
  | .stop => s.stop
  | .forceUnwind => s.forceUnwind
  | .retryUnwind => s.retryUnwind
  | .clearIncidents => s.clearIncidents
  | .softReset => s.softReset pfw

/-- A command that is not busy is taken: its status replaces the last one, then SHUTDOWN refuses every command
but SOFT_RESET, then the command's own checks decide (R147). -/
def State.takeKnown (c : Command) (pfw : Bool) (s : State) : State :=
  let taken := s.takeStatus (some c)
  if s.controller = .shutdown ∧ c ≠ .softReset then taken.endRefused .shutdown else taken.runCommand c pfw

/-- A name other than NONE is written to the command register by a frame that is applied (R145, R147). -/
def State.takeCommand (code : Nat) (pfw : Bool) (s : State) : State :=
  match commandOf code with
  | some c => s.takeKnown c pfw
  | none => (s.takeStatus none).endRefused .unknown

end Sys2Proof.Machine
end

