-- ==== Sys2Proof/Machine/ArrayPort.lean ====
section
/-! DEFINITION. The array port's events: a response, a timeout, the hand-over of a request, and the tick that
reaches the port and then the group table (08_the_array_port.md, R7, R8, R186). -/

namespace Sys2Proof.Machine

/-- The port delivers an outcome to the record's issuer, which takes it by the rule R160 names (R167). -/
def State.deliver (r : PortRecord) (o : PortOutcome) (s : State) : State :=
  match r.purpose, r.ref with
  | .hostRead, .entry i => s.hostReadOutcome i o
  | .captureRead, .entry i => s.captureOutcome i o
  | .homeWrite, .entry i => s.homeWriteOutcome i o
  | .slotWrite, .slot p k => s.slotOutcome p k o
  | .headerWrite, .header p _ => s.headerOutcome p o
  | .unwindRead, .unwindLine => s.unwindReadOutcome o
  | .restoreWrite, .unwindLine => s.restoreWriteOutcome o
  | .headerRead, .header p k => s.headerReadOutcome p k o
  | .scanRead, .scanner _ _ => s.scanReadOutcome o
  | .voidRead, .scanner _ _ => s.voidReadOutcome o
  | .voidWrite, .scanner _ _ => s.voidWriteOutcome o
  | .recoveryRead, .restoreEntry => s.recoveryReadOutcome o
  | .recoveryWrite, .restoreEntry => s.recoveryWriteOutcome o
  | .headerRewrite, .header _ _ => s.headerRewriteOutcome o
  | .formatWrite, .format _ _ => s.formatOutcome o
  | _, _ => s

/-- The purposes of the memory path's issuers, after whose outcomes an event's conditions are tested; the recovery
scanner and FORMAT leave nothing of them to test (R160, log 3). -/
def Purpose.ofMemoryPath : Purpose → Bool
  | .hostRead | .captureRead | .homeWrite | .slotWrite | .headerWrite | .unwindRead | .restoreWrite => true
  | .headerRead | .scanRead | .voidRead | .voidWrite | .recoveryRead | .recoveryWrite | .headerRewrite
  | .formatWrite => false

/-- The port reports an outcome: it is delivered, and what it brings about is settled (R167). -/
def State.report (r : PortRecord) (o : PortOutcome) (s : State) : State :=
  if r.purpose.ofMemoryPath then (s.deliver r o).settle else s.deliver r o

/-- A response arrives: its record leaves the set and its outcome is reported; a response without a record is
discarded (R162). -/
def State.takeResponse (number : Word) (result : ArrayResult) (s : State) : State :=
  match s.recordOf number with
  | some r => (s.forget number).report r (r.outcome result)
  | none => s

/-- The partition that ARRAY_TIMEOUT names: that of a request to a slot, and none for a home line (R166). -/
def State.timeoutPartition (s : State) (r : PortRecord) : Option PartId :=
  match r.purpose, r.ref with
  | .slotWrite, .slot p _ | .headerWrite, .header p _ | .headerRead, .header p _ | .scanRead, .scanner p _
  | .voidRead, .scanner p _ | .voidWrite, .scanner p _ | .headerRewrite, .header p _
  | .formatWrite, .format p _ => some p
  | .unwindRead, _ => s.engine.current.bind (fun t => (s.group t).partition)
  | .recoveryRead, _ => s.scanner.current
  | _, _ => none

/-- The incident of a timeout (R166). -/
def State.timeoutIncident (s : State) (r : PortRecord) : Incident :=
  { Incident.bare .arrayTimeout with
    partition := s.timeoutPartition r, line := some (lineOf r.address), detail := some r.purpose.code }

/-- A record times out: it leaves the set, and ARRAY_TIMEOUT is logged unless the controller is in SHUTDOWN (R165,
R166). -/
def State.timeOut (r : PortRecord) (s : State) : State :=
  let left := s.forget r.number
  if s.controller = .shutdown then left else left.log (s.timeoutIncident r)

/-- A record's tick count has reached its limit (R165). -/
def PortRecord.expired (r : PortRecord) : Bool :=
  decide (r.limit ≠ 0) && decide (r.limit ≤ r.ticks)

/-- The record of a number, if it is in the set and its count has reached its limit (R165). -/
def State.expiredOf (s : State) (number : Word) : Option PortRecord :=
  (s.recordOf number).filter PortRecord.expired

/-- The record of a number times out if its count has reached its limit, and the failure is reported (R165). -/
def State.timeOutNumber (s : State) (number : Word) : State :=
  match s.expiredOf number with
  | some r => (s.timeOut r).report r .failed
  | none => s

/-- The port hands the first waiting request to the array (R161). -/
def State.handOver (s : State) : State :=
  { s with outstanding := handFirst s.outstanding }

/-! ### The tick -/

/-- One more tick for a record that has a limit (R165). -/
def PortRecord.tick (r : PortRecord) : PortRecord :=
  if r.limit = 0 then r else { r with ticks := r.ticks + 1 }

/-- What the unwind engine does of itself between two timeouts of a tick. A group that has joined the waiting order in
this tick waits for its end, since the tick can still bring a lower tag, which stands before it (R102, log 36). -/
def State.engineInTick (s : State) : Option State :=
  if s.engine.state = .idle ∧ s.engine.waiting.length ≤ s.joined then none else s.engineAdvance

/-- The unwind engine goes on until it waits. -/
def State.engineGoesOn : Nat → State → State
  | 0, s => s
  | fuel + 1, s =>
    match s.engineInTick with
    | some advanced => State.engineGoesOn fuel advanced
    | none => s

/-- The record of a number times out in a tick: the failure is delivered and the unwind engine goes on, so that the
incidents it logs stand before those of the next timeout and of the ages (R192); whatever else the timeout brings about
waits for the end of the tick (R165, R186, log 36). -/
def State.timeOutInTick (s : State) (number : Word) : State :=
  match s.expiredOf number with
  | some r => ((s.timeOut r).deliver r .failed).engineGoesOn settleFuel
  | none => s

/-- The port's part of a tick: every count advances, then those at their limit time out, in the order of their
issue (R165, R186). -/
def State.tickPort (s : State) : State :=
  let counted := { s with outstanding := s.outstanding.map PortRecord.tick }
  ((counted.outstanding.filter PortRecord.expired).map (·.number)).foldl State.timeOutInTick counted

/-- One more tick for a group: only OPEN groups age, up to 65535 (R7). -/
def Group.tick (g : Group) : Group :=
  if g.state = .opened then { g with age := min Config.ageTop (g.age + 1) } else g

/-- An OPEN group whose age equals a nonzero age limit is revoked with cause AGE (R8). -/
def State.expire (s : State) (t : Tag) : State :=
  if decide (s.groupState t = .opened) && decide (s.ageLimit ≠ 0) &&
      decide ((s.group t).age = s.ageLimit.toNat) then
    s.revoke t .age
  else s

/-- The group table takes one entry at a tick (R7, R8). -/
def State.tickGroup (s : State) (t : Tag) : State :=
  (s.modGroup t Group.tick).expire t

/-- The group table's part of a tick, in ascending order of tag; in SHUTDOWN it takes none (R26, R186). -/
def State.tickGroups (s : State) : State :=
  if s.controller = .shutdown then s else allTags.foldl State.tickGroup s

/-- A tick: the port's part, then the group table's, then what the two bring about (R185, R186, log 36). -/
def State.tick (s : State) : State :=
  (State.tickPort { s with tickCounter := s.tickCounter + 1, divisionCount := 0 }).tickGroups.settle

end Sys2Proof.Machine
end

