-- ==== Sys2Proof/Machine/Window.lean ====
section
/-! DEFINITION. The register window: which field each mapped byte belongs to, how a field reads, and what a write
of a value to it stores (R179, R181, R199, R200, R201). -/

namespace Sys2Proof.Machine

/-- The fields of a partition's entry (R199). -/
inductive PartField where
  | base
  | size
  | state
  | spans
  | headSlot
  | headLap
  | workingSlot
  | workingLap
  | durableSlot
  | durableLap
  | frontSlot
  | frontLap
  | occupancy
  | reserved
  | generation
  | epoch
deriving DecidableEq, Repr

/-- The fields of a region's entry (R199). -/
inductive RegionField where
  | base
  | size
  | mode
  | enable
deriving DecidableEq, Repr

/-- The fields of a group's entry (R199). -/
inductive GroupField where
  | state
  | partition
  | cause
  | origin
  | sequence
  | claims
  | undo
  | age
deriving DecidableEq, Repr

/-- The fields of an incident's entry (R201). -/
inductive IncidentField where
  | kind
  | presence
  | tag
  | partition
  | stamp
  | sequence
  | line
  | detail
deriving DecidableEq, Repr

/-- The fields of the window (R199). -/
inductive Field where
  | controllerState
  | lastFrame
  | operand
  | command
  | outcome
  | reason
  | check
  | firstIndex
  | secondIndex
  | echo
  | operandEcho
  | attentionCode
  | flags
  | mask
  | tickCounter
  | tickDivider
  | occupancy
  | formatEpoch
  | claimLimit
  | ageLimit
  | arrayTimeout
  | tagMap (t : Tag)
  | region (r : RegionId) (f : RegionField)
  | partition (p : PartId) (f : PartField)
  | group (t : Tag) (f : GroupField)
  | incident (i : Nat) (f : IncidentField)
  | dropped
deriving DecidableEq, Repr

/-- The access classes (R179). -/
inductive AccessClass where
  | configuration
  | control
  | clear
  | readOnly
deriving DecidableEq, Repr

/-- The class of each field (R179, R199). -/
def Field.accessClass : Field → AccessClass
  | .operand | .command | .mask => .control
  | .flags => .clear
  | .tickDivider | .formatEpoch | .claimLimit | .ageLimit | .arrayTimeout | .tagMap _ | .region _ _ => .configuration
  | .partition _ .base | .partition _ .size => .configuration
  | .partition _ _ | .controllerState | .lastFrame | .outcome | .reason | .check | .firstIndex | .secondIndex
  | .echo | .operandEcho | .attentionCode | .tickCounter | .occupancy | .group _ _ | .incident _ _
  | .dropped => .readOnly

/-- The bytes of each field (R199, R201). -/
def Field.width : Field → Nat
  | .controllerState | .lastFrame | .operand | .command | .outcome | .reason | .check | .firstIndex
  | .secondIndex | .echo | .operandEcho | .attentionCode | .arrayTimeout | .tagMap _ | .dropped => 1
  | .flags | .mask | .tickDivider | .occupancy | .claimLimit | .ageLimit => 2
  | .tickCounter | .formatEpoch => 4
  | .region _ .base | .region _ .size => 4
  | .region _ .mode | .region _ .enable => 1
  | .partition _ .size => 2
  | .partition _ .state | .partition _ .spans | .partition _ .reserved => 1
  | .partition _ _ => 4
  | .group _ .state | .group _ .partition | .group _ .cause | .group _ .origin => 1
  | .group _ .sequence => 4
  | .group _ .claims | .group _ .undo | .group _ .age => 2
  | .incident _ .kind | .incident _ .presence | .incident _ .tag | .incident _ .partition => 1
  | .incident _ .line => 8
  | .incident _ .stamp | .incident _ .sequence | .incident _ .detail => 4

/-! ### The map of addresses -/

/-- A row of the map: the address of a field's first byte, relative to its table, and the field. -/
abbrev MapRow := Nat × Field

/-- The single fields below 0x021 and the dropped count (R199). -/
def singleRows : List MapRow :=
  [(0x000, .controllerState), (0x001, .lastFrame), (0x002, .operand), (0x003, .command), (0x004, .outcome),
    (0x005, .reason), (0x006, .check), (0x007, .firstIndex), (0x008, .secondIndex), (0x009, .echo),
    (0x00A, .operandEcho), (0x00B, .attentionCode), (0x00C, .flags), (0x00E, .mask), (0x010, .tickCounter),
    (0x014, .tickDivider), (0x016, .occupancy), (0x018, .formatEpoch), (0x01C, .claimLimit), (0x01E, .ageLimit),
    (0x020, .arrayTimeout), (0x400, .dropped)]

/-- Region entry offsets (R199). -/
def regionRows (r : RegionId) : List MapRow :=
  [(0, .region r .base), (4, .region r .size), (8, .region r .mode), (9, .region r .enable)]

/-- Partition entry offsets (R199). -/
def partitionRows (p : PartId) : List MapRow :=
  [(0, .partition p .base), (4, .partition p .size), (6, .partition p .state), (7, .partition p .spans),
    (8, .partition p .headSlot), (12, .partition p .headLap), (16, .partition p .workingSlot),
    (20, .partition p .workingLap), (24, .partition p .durableSlot), (28, .partition p .durableLap),
    (32, .partition p .frontSlot), (36, .partition p .frontLap), (40, .partition p .occupancy),
    (44, .partition p .reserved), (48, .partition p .generation), (52, .partition p .epoch)]

/-- Group entry offsets (R199). -/
def groupRows (t : Tag) : List MapRow :=
  [(0, .group t .state), (1, .group t .partition), (2, .group t .cause), (3, .group t .origin),
    (4, .group t .sequence), (8, .group t .claims), (10, .group t .undo), (12, .group t .age)]

/-- Incident entry offsets (R201). -/
def incidentRows (i : Nat) : List MapRow :=
  [(0, .incident i .kind), (1, .incident i .presence), (2, .incident i .tag), (3, .incident i .partition),
    (4, .incident i .stamp), (8, .incident i .sequence), (12, .incident i .line), (20, .incident i .detail)]

/-- The field that holds an offset of a table, with the byte's place in it. -/
def rowAt (rows : List MapRow) (offset : Nat) : Option (Field × Nat) :=
  (rows.find? (fun x => decide (x.1 ≤ offset) && decide (offset < x.1 + x.2.width))).map
    (fun x => (x.2, offset - x.1))

/-- The field of a window address, with the byte's place in it; none where the byte is unmapped (R199). -/
def fieldAt (a : Nat) : Option (Field × Nat) :=
  if a < 0x030 then rowAt singleRows a
  else if h : a < 0x03F then some (.tagMap ⟨a - 0x030, by omega⟩, 0)
  else if a < 0x040 then none
  else if h : a < 0x0C0 then rowAt (regionRows ⟨(a - 0x040) / 16, by omega⟩) ((a - 0x040) % 16)
  else if a < 0x100 then none
  else if h : a < 0x200 then rowAt (partitionRows ⟨(a - 0x100) / 64, by omega⟩) ((a - 0x100) % 64)
  else if h : a < 0x2F0 then rowAt (groupRows ⟨(a - 0x200) / 16, by omega⟩) ((a - 0x200) % 16)
  else if a < 0x300 then none
  else if a < 0x400 then rowAt (incidentRows ((a - 0x300) / 32)) ((a - 0x300) % 32)
  else rowAt singleRows a

/-- A byte of the window is mapped (R174, R199). -/
def mapped (a : Nat) : Bool :=
  (fieldAt a).isSome

/-- The class of a window byte. -/
def classAt (a : Nat) : Option AccessClass :=
  (fieldAt a).map (fun x => x.1.accessClass)

/-! ### The codes of R200 and R201 -/

/-- The code of a controller state (R200). -/
def CtrlState.code : CtrlState → Nat
  | .config => 0
  | .recovering => 1
  | .active => 2
  | .quiescing => 3
  | .quiet => 4
  | .shutdown => 5

/-- The code of a partition state (R200). -/
def PartState.code : PartState → Nat
  | .off => 0
  | .scanning => 1
  | .restoring => 2
  | .ready => 3
  | .faulted => 4

/-- The code of a group state (R200). -/
def GroupState.code : GroupState → Nat
  | .free => 0
  | .opened => 1
  | .draining => 2
  | .sealing => 3
  | .unwinding => 4
  | .halted => 5
  | .broken => 6

/-- The code of an unwind origin (R200). -/
def UnwindOrigin.code : UnwindOrigin → Nat
  | .host => 1
  | .revoke => 2

/-- The code of an outcome (R200). -/
def CmdOutcome.code : CmdOutcome → Nat
  | .idle => 0
  | .running => 1
  | .done => 2
  | .refused => 3
  | .failed => 4

/-- The code of a configuration check (R200). -/
def OverlapCheck.code : OverlapCheck → Nat
  | .partitionOverlap => 1
  | .regionOverlap => 2

/-- The code of a last-frame status (R200). -/
def FrameStatus.code : FrameStatus → Nat
  | .ok => 0
  | .headerCheck => 1
  | .badKind => 2
  | .badLength => 3
  | .badAddress => 4
  | .short => 5
  | .long => 6
  | .dataCheck => 7
  | .locked => 8
  | .readOnly => 9
  | .commandBusy => 10

/-- The code of an incident kind (R201). -/
def IncidentKind.code : IncidentKind → Nat
  | .slotRetried => 1
  | .partitionFaulted => 2
  | .homeWriteFailed => 3
  | .captureFailed => 4
  | .restoreFailed => 5
  | .groupRevoked => 6
  | .headerWriteFailed => 7
  | .arrayTimeout => 8
  | .recoveryUnwound => 9
  | .startFailed => 10

/-- The code of a region mode (R199). -/
def RegionMode.code : RegionMode → Nat
  | .guarded => 0
  | .shared => 1

/-! ### Reading -/

/-- A bit that says whether a field is present (R201). -/
def presenceBit {α : Type} (bit : Nat) (x : Option α) : Nat :=
  if x.isSome then 2 ^ bit else 0

/-- A field of a region entry (R199). -/
def Region.read (r : Region) : RegionField → Nat
  | .base => r.base.toNat
  | .size => r.size.toNat
  | .mode => r.mode.code
  | .enable => r.enabled.toNat

/-- A run-state field of a partition, whose ring capacity is `cap` (R47, R199). -/
def Partition.read (cap : Nat) (part : Partition) : PartField → Nat
  | .base | .size => 0
  | .state => part.state.code
  | .spans => part.spans.length
  | .headSlot => part.head.slot
  | .headLap => part.head.lap.toNat
  | .workingSlot => part.workingTail.slot
  | .workingLap => part.workingTail.lap.toNat
  | .durableSlot => part.durableTail.slot
  | .durableLap => part.durableTail.lap.toNat
  | .frontSlot => (part.front cap).slot
  | .frontLap => (part.front cap).lap.toNat
  | .occupancy => part.occupancy cap
  | .reserved => part.reserved
  | .generation => part.generation.toNat
  | .epoch => part.epoch.toNat

/-- A field of a partition's entry: its geometry, or its run state, which reads 0 in OFF (R47, R199). -/
def State.readPartition (s : State) (p : PartId) (f : PartField) : Nat :=
  match f with
  | .base => (s.geometry[p]).base.toNat
  | .size => (s.geometry[p]).size.toNat
  | _ => if (s.part p).state = .off then 0 else (s.part p).read (s.capacity p) f

/-- A field of a group's entry; an absent one reads 0 (R1, R199). -/
def Group.read (g : Group) : GroupField → Nat
  | .state => g.state.code
  | .partition => (g.partition.map (·.val)).getD 0
  | .cause => (g.revokeCause.map (·.code)).getD 0
  | .origin => (g.unwindOrigin.map (·.code)).getD 0
  | .sequence => (g.sequence.map (·.toNat)).getD 0
  | .claims => g.claimsHeld
  | .undo => g.undoCount.getD 0
  | .age => g.age

/-- A field of an incident; an absent one reads 0 (R190, R201). -/
def Incident.read (i : Incident) : IncidentField → Nat
  | .kind => i.kind.code
  | .presence =>
    presenceBit 0 i.tag + presenceBit 1 i.sequence + presenceBit 2 i.partition + presenceBit 3 i.line +
      presenceBit 4 i.detail
  | .tag => (i.tag.map tagNumber).getD 0
  | .partition => (i.partition.map (·.val)).getD 0
  | .stamp => i.stamp.toNat
  | .sequence => (i.sequence.map (·.toNat)).getD 0
  | .line => (i.line.map (·.toNat)).getD 0
  | .detail => i.detail.getD 0

/-- The claim table occupancy; while RECOVERING it counts the recovery list (R29, R43). -/
def State.claimOccupancy (s : State) : Nat :=
  if s.controller = .recovering then s.scanner.list.length else s.claims.length

/-- What a field reads (R176, R199): the command register reads NONE, an absent field 0. -/
def State.readField (s : State) : Field → Nat
  | .controllerState => s.controller.code
  | .lastFrame => s.link.lastFrame.code
  | .operand => s.operand.toNat
  | .command => 0
  | .outcome => s.cmdStatus.outcome.code
  | .reason => (s.cmdStatus.reason.map (·.code)).getD 0
  | .check => (s.cmdStatus.check.map (·.code)).getD 0
  | .firstIndex => (s.cmdStatus.first.map (·.val)).getD 0
  | .secondIndex => s.cmdStatus.second.getD 0
  | .echo => (s.cmdStatus.echo.map (·.code)).getD 0
  | .operandEcho => (s.cmdStatus.operandEcho.map (·.toNat)).getD 0
  | .attentionCode => s.attnCode
  | .flags => s.flags.toNat
  | .mask => s.mask.toNat
  | .tickCounter => s.tickCounter.toNat
  | .tickDivider => s.tickDivider.toNat
  | .occupancy => s.claimOccupancy
  | .formatEpoch => s.formatEpoch.toNat
  | .claimLimit => s.claimLimit.toNat
  | .ageLimit => s.ageLimit.toNat
  | .arrayTimeout => s.arrayTimeout.toNat
  | .tagMap t => (s.tagMap[t]).val
  | .region r f => (s.regions[r]).read f
  | .partition p f => s.readPartition p f
  | .group t f => (s.group t).read f
  | .incident i f =>
    match s.incidents[i]? with
    | some x => x.read f
    | none => 0
  | .dropped => s.dropped

/-- Byte `k` of a value stored least significant byte first (R194). -/
def byteOf (v k : Nat) : Byte :=
  BitVec.ofNat 8 (v / 256 ^ k)

/-- The byte at a window address, as a read frame's snapshot takes it (R176). -/
def State.windowByte (s : State) (a : Nat) : Byte :=
  match fieldAt a with
  | some (f, k) => byteOf (s.readField f) k
  | none => 0

/-- The `n` window bytes from an address upward (R176). -/
def State.windowBytes (s : State) (a n : Nat) : Bytes :=
  (List.range n).map (fun k => s.windowByte (a + k))

/-! ### Writing -/

/-- Change a region entry. -/
def State.modRegion (r : RegionId) (f : Region → Region) (s : State) : State :=
  { s with regions := s.regions.set r (f s.regions[r]) }

/-- Change a partition's geometry. -/
def State.modGeometry (p : PartId) (f : Geometry → Geometry) (s : State) : State :=
  { s with geometry := s.geometry.set p (f s.geometry[p]) }

/-- The claim limit stores 1 for 0 and 1024 for values above 1024 (R34, R200). -/
def limitClaims (v : Nat) : BitVec 16 :=
  BitVec.ofNat 16 (max 1 (min Config.claimEntries v))

/-- The tick divider stores 1 for 0 (R185, R200). -/
def limitDivider (v : Nat) : BitVec 16 :=
  BitVec.ofNat 16 (max 1 v)

/-- A tag map byte above 3 stores 3 (R200). -/
def limitPart (v : Nat) : PartId :=
  ⟨min 3 v, by omega⟩

/-- The largest base and size of a region, in units (R78). -/
def regionBaseTop : Nat := 0x0FFFFFFF
/-- The largest size of a region (R78). -/
def regionSizeTop : Nat := 0x10000000
/-- The largest base of a partition (R44). -/
def partitionBaseTop : Nat := 0x0FFFF000
/-- The largest size of a partition (R44). -/
def partitionSizeTop : Nat := 4096

/-- The write of an assembled value to a region field (R78, R200). -/
def Region.write (f : RegionField) (v : Nat) (r : Region) : Region :=
  match f with
  | .base => { r with base := BitVec.ofNat 32 (min regionBaseTop v) }
  | .size => { r with size := BitVec.ofNat 32 (min regionSizeTop v) }
  | .mode => { r with mode := if v % 2 = 1 then .shared else .guarded }
  | .enable => { r with enabled := decide (v % 2 = 1) }

/-- The write of an assembled value to a field; a read-only field and the command register take none
(R181, R188, R189, R200). A new divider restarts the division count (R185). -/
def State.writeField (f : Field) (v : Nat) (s : State) : State :=
  match f with
  | .operand => { s with operand := BitVec.ofNat 8 v }
  | .flags => s.clearFlags (BitVec.ofNat 9 v)
  | .mask => { s with mask := BitVec.ofNat 9 v }
  | .tickDivider => { s with tickDivider := limitDivider v, divisionCount := 0 }
  | .formatEpoch => { s with formatEpoch := BitVec.ofNat 32 v }
  | .claimLimit => { s with claimLimit := limitClaims v }
  | .ageLimit => { s with ageLimit := BitVec.ofNat 16 v }
  | .arrayTimeout => { s with arrayTimeout := BitVec.ofNat 8 v }
  | .tagMap t => { s with tagMap := s.tagMap.set t (limitPart v) }
  | .region r x => s.modRegion r (Region.write x v)
  | .partition p .base =>
    s.modGeometry p (fun g => { g with base := BitVec.ofNat 32 (min partitionBaseTop v) })
  | .partition p .size =>
    s.modGeometry p (fun g => { g with size := BitVec.ofNat 16 (min partitionSizeTop v) })
  | .partition _ _ | .command | .controllerState | .lastFrame | .outcome | .reason | .check | .firstIndex
  | .secondIndex | .echo | .operandEcho | .attentionCode | .tickCounter | .occupancy | .group _ _
  | .incident _ _ | .dropped => s

/-- The byte a write frame brings to byte `a`, if its range covers it: the frame writes `data` from `first`. -/
def frameByte (first : Nat) (data : Bytes) (a : Nat) : Option Byte :=
  if first ≤ a then data[a - first]? else none

/-- A byte that a frame does not cover keeps its stored value; of the clear bytes an uncovered one writes
zeros, which leave their flags (R181, R188). -/
def State.keptByte (s : State) (f : Field) (k : Nat) : Byte :=
  if f.accessClass = .clear then 0 else byteOf (s.readField f) k

/-- The value assembled for the field whose first byte lies at `start` (R181). -/
def State.assembled (s : State) (f : Field) (start first : Nat) (data : Bytes) : Nat :=
  leNat ((List.range f.width).map (fun k => (frameByte first data (start + k)).getD (s.keptByte f k)))

/-- The step at byte `a` of the range: the field is written once, at the range's first byte of it (R181). -/
def State.writeByteStep (first : Nat) (data : Bytes) (s : State) (a : Nat) : State :=
  match fieldAt a with
  | some (f, k) =>
    if k = 0 ∨ a = first then s.writeField f (s.assembled f (a - k) first data) else s
  | none => s

/-- Step 1 of R181: every field of the range is written with its assembled value. -/
def State.writeRange (first : Nat) (data : Bytes) (s : State) : State :=
  ((List.range data.length).map (fun k => first + k)).foldl (State.writeByteStep first data) s

end Sys2Proof.Machine
end

