-- ==== Sys2Proof/Machine/Link.lean ====
section
/-! DEFINITION. The management link: the frame state machine byte by byte, the header checks, the snapshot, the
decision at the rising edge of MSEL and the application of a write frame (09_the_management_link.md). -/

namespace Sys2Proof.Machine

/-! ### The frame header -/

/-- The kind byte of a read frame (section 9.2). -/
def readKind : Byte := 0x3C
/-- The kind byte of a write frame (section 9.2). -/
def writeKind : Byte := 0xC3

/-- A byte of the header, 0 where it has not been received. -/
def Link.headerByte (l : Link) (i : Nat) : Byte :=
  l.header.getD i 0

/-- The 16-bit address field, upper byte first (R174). -/
def Link.addressField (l : Link) : Nat :=
  (l.headerByte 1).toNat * 256 + (l.headerByte 2).toNat

/-- The window address of the first byte (R174). -/
def Link.windowAddress (l : Link) : Nat :=
  l.addressField % 4096

/-- The length byte. -/
def Link.length (l : Link) : Nat :=
  (l.headerByte 3).toNat

/-- The header is whole. -/
def Link.headerWhole (l : Link) : Bool :=
  decide (l.header.length = 5)

/-- The addresses of the frame's range (R174). -/
def Link.range (l : Link) : List Nat :=
  (List.range l.length).map (fun k => l.windowAddress + k)

/-- The header checks at the fifth byte: the first that fails decides (R175). -/
def Link.headerFault (l : Link) : Option FrameStatus :=
  if l.headerByte 4 ≠ linkCheck (l.header.take 4) then some .headerCheck
  else if l.headerByte 0 ≠ readKind ∧ l.headerByte 0 ≠ writeKind then some .badKind
  else if l.length = 0 ∨ 16 < l.length then some .badLength
  else if 4096 ≤ l.addressField ∨ 4096 < l.windowAddress + l.length ∨ !l.range.all mapped then some .badAddress
  else none

/-- The header has passed its checks and is that of a read frame. -/
def Link.reads (l : Link) : Bool :=
  decide (l.headerByte 0 = readKind)

/-! ### The frame state machine (R173) -/

/-- MSEL falls: a frame begins; while a frame is discarded nothing does (R173, R184). -/
def Link.mselFalls (l : Link) : Link :=
  match l.frame with
  | .idle => { Link.cleared with frame := .header, lastFrame := l.lastFrame }
  | .header | .data | .trailing | .discarding => l

/-- A byte completes while the header is being received; `snapshot` gives the window bytes from an address as
they stand in the event (R174, R175, R176). -/
def Link.takeHeaderByte (snapshot : Nat → Nat → Bytes) (b : Byte) (l : Link) : Link :=
  let l := { l with header := l.header ++ [b] }
  if l.headerWhole then
    match l.headerFault with
    | some fault => { l with frame := .trailing, decided := some fault }
    | none =>
      { l with frame := .data, snapshot := if l.reads then some (snapshot l.windowAddress l.length) else none }
  else l

/-- A byte completes in DATA: a write frame's byte goes to the write buffer, and the data check ends DATA
(R173, R178). -/
def Link.takeDataByte (b : Byte) (l : Link) : Link :=
  let l := if l.reads then l else { l with buffer := l.buffer ++ [b] }
  if l.bitCount = 48 + 8 * l.length then { l with frame := .trailing } else l

/-- The bit count when the byte in progress completes: every eighth edge completes one (R172). -/
def Link.byteEnd (l : Link) : Nat :=
  l.bitCount + (8 - l.bitCount % 8)

/-- One byte completes: its rising edges of MCLK are counted up to the eighth, and the byte is taken (R172, R173). A
discarded frame is neither counted nor taken (R156, R184, log 10). -/
def Link.takeByte (snapshot : Nat → Nat → Bytes) (l : Link) (b : Byte) : Link :=
  match l.frame with
  | .idle | .discarding => l
  | .header => Link.takeHeaderByte snapshot b { l with bitCount := l.byteEnd }
  | .data => Link.takeDataByte b { l with bitCount := l.byteEnd }
  | .trailing => { l with bitCount := l.byteEnd }

/-- How many edges of the byte in progress have been counted (R172). -/
def Link.inByte (l : Link) : Nat :=
  match l.frame with
  | .idle | .discarding => 0
  | .header | .data | .trailing => l.bitCount % 8

/-- The edges of the byte in progress are counted up to the `n`-th: they change nothing but the bit count (R172). -/
def Link.takeEdges (n : Nat) (l : Link) : Link :=
  match l.frame with
  | .idle | .discarding => l
  | .header | .data | .trailing => { l with bitCount := l.bitCount + (n - l.bitCount % 8) }

/-- The byte driven on MDO during the next byte time: a read frame's snapshot, then its CRC-8, and low
otherwise (R172, R176, R177). -/
def Link.drives (l : Link) : Byte :=
  match l.frame, l.snapshot with
  | .data, some bytes => (bytes ++ [linkCheck bytes]).getD (l.bitCount / 8 - 5) 0
  | _, _ => 0

/-- The bytes of a frame are taken one after another, with what MDO drives in each byte time. -/
def Link.takeBytes (snapshot : Nat → Nat → Bytes) : Bytes → Link × Bytes → Link × Bytes
  | [], x => x
  | b :: rest, (l, out) => Link.takeBytes snapshot rest (Link.takeByte snapshot l b, out ++ [l.drives])

/-! ### The end of a frame -/

/-- The data bytes of a write frame. -/
def Link.dataBytes (l : Link) : Bytes :=
  l.buffer.take l.length

/-- The data check of a write frame equals the CRC-8 of its data (R180, condition 4). -/
def Link.dataCheckOk (l : Link) : Bool :=
  decide (l.buffer.getD l.length 0 = linkCheck l.dataBytes)

/-- The byte a write frame brings to the command register at 0x003, if its range includes it (R181). -/
def Link.commandByte (l : Link) : Option Byte :=
  frameByte l.windowAddress l.dataBytes 0x003

/-- The frame names a command other than SOFT_RESET, or a value that names no command (R180, condition 7). -/
def Link.namesBusyCommand (l : Link) : Bool :=
  match l.commandByte with
  | some b => decide (b ≠ 0) && decide (commandOf b.toNat ≠ some .softReset)
  | none => false

/-- A decided frame status, or a frame of the wrong length (R177; R180, conditions 1 to 3). -/
def Link.shapeFault (l : Link) : Option FrameStatus :=
  match l.decided with
  | some status => some status
  | none =>
    if !l.headerWhole || decide (l.bitCount < 48 + 8 * l.length) then some .short
    else if 48 + 8 * l.length < l.bitCount then some .long
    else none

/-- Conditions 4 to 8 of R180, against the state of the part in the event of MSEL rising. -/
def State.writeStatus (s : State) (l : Link) : FrameStatus :=
  if !l.dataCheckOk then .dataCheck
  else if l.range.any (fun a => classAt a == some .readOnly) then .readOnly
  else if l.range.any (fun a => classAt a == some .configuration) && decide (s.controller ≠ .config) then .locked
  else if l.namesBusyCommand && s.running then .commandBusy
  else .ok

/-- The last-frame status that a frame ends with (R177, R180). -/
def State.frameStatus (s : State) (l : Link) : FrameStatus :=
  match l.shapeFault with
  | some status => status
  | none => if l.reads then .ok else s.writeStatus l

/-- The link after MSEL has risen: IDLE, its snapshot and write buffer dropped (R173, R177, R180). R180 drops the write
buffer for a status other than OK; that of a frame decided OK, which has been applied in the same event, is dropped here
too, where R173's table clears it at MSEL's next fall (the model's choice, log 43). -/
def Link.ended (status : FrameStatus) (l : Link) : Link :=
  { l with frame := .idle, snapshot := none, buffer := [], lastFrame := status }

/-- The last-frame status is set, and any but OK raises LINK_ERROR (R183). -/
def State.endFrame (l : Link) (status : FrameStatus) (s : State) : State :=
  let ended := { s with link := l.ended status }
  if status = .ok then ended else ended.raise .linkError

/-- A write frame decided OK is applied: its bytes, then the command it names (R181). -/
def State.applyFrame (l : Link) (pfw : Bool) (s : State) : State :=
  let written := s.writeRange l.windowAddress l.dataBytes
  match l.commandByte with
  | some b => if b = 0 then written else written.takeCommand b.toNat pfw
  | none => written

/-- MSEL rises at the end of a frame whose link state has become `l` (R173, R177, R180, R184). -/
def State.mselRises (l : Link) (pfw : Bool) (s : State) : State :=
  match l.frame with
  | .idle => { s with link := l }
  | .discarding => { s with link := { l with frame := .idle } }
  | .header | .data | .trailing =>
    if l.bitCount = 0 then { s with link := { l with frame := .idle } }
    else
      let status := s.frameStatus l
      let ended := s.endFrame l status
      if status = .ok ∧ !l.reads then ended.applyFrame l pfw else ended

/-- The link as a piece of a frame finds it: where the piece opens the frame, MSEL has just fallen, and while the
reset line is asserted that frame is discarded (R173, R184). -/
def State.frameStart (opens : Bool) (s : State) : Link :=
  if !opens then s.link
  else if s.resetLine then { s.link with frame := .discarding }
  else s.link.mselFalls

/-- What MDO drove at each rising edge. -/
def State.drive (out : List Bool) (s : State) : State :=
  { s with mdo := out }

/-- The link, and the bytes on MDO, when the bytes of a piece have been taken (R172, R173). -/
def State.frameBytes (opens : Bool) (s : State) (bytes : Bytes) : Link × Bytes :=
  Link.takeBytes s.windowBytes bytes (s.frameStart opens, [])

/-- The levels of MDO at the edges of a piece: the bits of its bytes, and of the byte in progress as far as its `edges`
have come, less the `before` bits that an earlier piece carried of the first (R172, R176). -/
def pieceBits (before : Nat) (taken : Link × Bytes) (edges : Nat) : List Bool :=
  (bitsOf taken.2 ++ (bitsOf [taken.1.drives]).take edges).drop before

/-- A piece of a frame, or the whole of it: `bytes` completed and the edges of the byte in progress, and then the rise
of MSEL, or not: the frame goes on with the next piece (R172, R173). While the reset line is asserted, and after it
until MSEL rises, the frame is discarded (R184). -/
def State.linkFrame (piece : Piece) (bytes : Bytes) (pfw : Bool) (s : State) : State :=
  let taken := s.frameBytes piece.opens bytes
  let driven := s.drive (pieceBits (s.frameStart piece.opens).inByte taken piece.edges)
  let link := taken.1.takeEdges piece.edges
  if piece.rises then driven.mselRises link pfw else { driven with link := link }

/-- The bytes of a piece of a frame of this kind: the piece that opens the frame begins with the kind byte. -/
def pieceBytes (opens : Bool) (kind : Byte) (rest : Bytes) : Bytes :=
  if opens then kind :: rest else rest

/-! ### Frames a master sends -/

/-- A clean write frame of `data` at a window address (R198). -/
def cleanWriteFrame (address : Nat) (data : Bytes) : Bytes :=
  let header : Bytes :=
    [writeKind, BitVec.ofNat 8 (address / 256), BitVec.ofNat 8 address, BitVec.ofNat 8 data.length]
  header ++ [linkCheck header] ++ data ++ [linkCheck data]

/-- A clean read frame of `n` bytes at a window address; the master's bytes after the header are ignored
(R176, R198). -/
def cleanReadFrame (address n : Nat) : Bytes :=
  let header : Bytes := [readKind, BitVec.ofNat 8 (address / 256), BitVec.ofNat 8 address, BitVec.ofNat 8 n]
  header ++ [linkCheck header] ++ zeroBytes (n + 1)

/-- The frame of a command: one clean byte at the command register (R182, R200). -/
def commandFrame (code : Byte) : Bytes :=
  cleanWriteFrame 0x003 [code]

/-- A command reaches the part by its frame (R145, R182). -/
def State.commandEvent (code : Byte) (pfw : Bool) (s : State) : State :=
  s.linkFrame ⟨true, 0, true⟩ (commandFrame code) pfw

end Sys2Proof.Machine
end

