-- ==== Sys2Proof/Machine/Events.lean ====
section
/-! DEFINITION. What every event has in common: the outputs of the last event are gone, the effect is taken, and
a held request is taken again where R81 says so; while the reset line is asserted most events do nothing. -/

namespace Sys2Proof.Machine

/-- Before an event: nothing has been sent in it yet, and no group has joined the waiting order. -/
def State.begin (s : State) : State :=
  { s with responses := [], mdo := [], joined := 0 }

/-- An event with its effect (R81). -/
def State.event (effect : State → State) (s : State) : Host.Outcome State Fault Refusal :=
  .next ((effect s.begin).endEvent s.controller)

/-- An event that does nothing while the reset line is asserted (R156). -/
def State.lineEvent (effect : State → State) (s : State) : Host.Outcome State Fault Refusal :=
  if s.resetLine then .next s.begin else s.event effect

/-- A condition of the part's own is tested; where it holds its effect is taken, with all it brings about, and
otherwise nothing happens. -/
def State.whenever (holds : Bool) (effect : State → State) (s : State) : State :=
  if holds then (effect s).settle else s

end Sys2Proof.Machine
end

