-- ==== Sys2Proof/Machine/ExecArray.lean ====
section
/-! DEFINITION. The commands of the array port and of the time base: one meaning per row. A response is matched by
its number alone, whatever row brings it (R162, log 4); the record's purpose decides whose rule takes the
outcome (R160, R167). -/

namespace Sys2Proof.Machine

/-- HOST_READ_DONE (R89, R93). -/
def execHostReadDone (n : Word) (a : ArrayResult) (s : State) : Host.Outcome State Fault Refusal :=
  s.lineEvent (State.takeResponse n a)

/-- CAPTURE_READ_DONE (R91, R37, R38). -/
def execCaptureReadDone (n : Word) (a : ArrayResult) (s : State) : Host.Outcome State Fault Refusal :=
  s.lineEvent (State.takeResponse n a)

/-- HOME_WRITE_DONE (R90, R92). -/
def execHomeWriteDone (n : Word) (a : ArrayResult) (s : State) : Host.Outcome State Fault Refusal :=
  s.lineEvent (State.takeResponse n a)

/-- SLOT_WRITE_DONE (R62). -/
def execSlotWriteDone (n : Word) (a : ArrayResult) (s : State) : Host.Outcome State Fault Refusal :=
  s.lineEvent (State.takeResponse n a)

/-- HEADER_WRITE_DONE (R68, R69). -/
def execHeaderWriteDone (n : Word) (a : ArrayResult) (s : State) : Host.Outcome State Fault Refusal :=
  s.lineEvent (State.takeResponse n a)

/-- UNWIND_READ_DONE (R107). -/
def execUnwindReadDone (n : Word) (a : ArrayResult) (s : State) : Host.Outcome State Fault Refusal :=
  s.lineEvent (State.takeResponse n a)

/-- RESTORE_WRITE_DONE (R108). -/
def execRestoreWriteDone (n : Word) (a : ArrayResult) (s : State) : Host.Outcome State Fault Refusal :=
  s.lineEvent (State.takeResponse n a)

/-- HEADER_READ_DONE (R123, R124). -/
def execHeaderReadDone (n : Word) (a : ArrayResult) (s : State) : Host.Outcome State Fault Refusal :=
  s.lineEvent (State.takeResponse n a)

/-- SCAN_READ_DONE (R126 to R130). -/
def execScanReadDone (n : Word) (a : ArrayResult) (s : State) : Host.Outcome State Fault Refusal :=
  s.lineEvent (State.takeResponse n a)

/-- VOID_READ_DONE (R131). -/
def execVoidReadDone (n : Word) (a : ArrayResult) (s : State) : Host.Outcome State Fault Refusal :=
  s.lineEvent (State.takeResponse n a)

/-- VOID_WRITE_DONE (R131). -/
def execVoidWriteDone (n : Word) (a : ArrayResult) (s : State) : Host.Outcome State Fault Refusal :=
  s.lineEvent (State.takeResponse n a)

/-- RECOVERY_READ_DONE (R132). -/
def execRecoveryReadDone (n : Word) (a : ArrayResult) (s : State) : Host.Outcome State Fault Refusal :=
  s.lineEvent (State.takeResponse n a)

/-- RECOVERY_WRITE_DONE (R132). -/
def execRecoveryWriteDone (n : Word) (a : ArrayResult) (s : State) : Host.Outcome State Fault Refusal :=
  s.lineEvent (State.takeResponse n a)

/-- HEADER_REWRITE_DONE (R134). -/
def execHeaderRewriteDone (n : Word) (a : ArrayResult) (s : State) : Host.Outcome State Fault Refusal :=
  s.lineEvent (State.takeResponse n a)

/-- FORMAT_WRITE_DONE (R141). -/
def execFormatWriteDone (n : Word) (a : ArrayResult) (s : State) : Host.Outcome State Fault Refusal :=
  s.lineEvent (State.takeResponse n a)

/-- LATE_RESPONSE (R162): a response without a record is discarded. -/
def execLateResponse (n : Word) (a : ArrayResult) (s : State) : Host.Outcome State Fault Refusal :=
  s.lineEvent (State.takeResponse n a)

/-- ARRAY_TIMEOUT (R165): of a record whose count has reached its limit. -/
def execArrayTimeout (n : Word) (s : State) : Host.Outcome State Fault Refusal :=
  s.lineEvent (fun s => s.timeOutNumber n)

/-- REQUEST_HANDED_OVER (R161). -/
def execRequestHandedOver (s : State) : Host.Outcome State Fault Refusal :=
  s.lineEvent State.handOver

/-- TICK (R186); while the reset line is asserted no tick occurs (R185). -/
def execTick (s : State) : Host.Outcome State Fault Refusal :=
  s.lineEvent State.tick

end Sys2Proof.Machine
end

