-- ==== Sys2Proof/Machine/ExecControl.lean ====
section
/-! DEFINITION. The commands of the management link, the controller and the pins: one meaning per row. The rows of
the command register are the one-byte clean frames that write its codes (R182, log 11). -/

namespace Sys2Proof.Machine

/-- READ_FRAME (R176, R177), whole or a piece of it. -/
def execReadFrame (rest : Bytes) (piece : Piece) (s : State) : Host.Outcome State Fault Refusal :=
  s.event (State.linkFrame piece (pieceBytes piece.opens readKind rest) s.pfwLine)

/-- WRITE_FRAME (R178, R180, R181), whole or a piece of it. -/
def execWriteFrame (rest : Bytes) (piece : Piece) (pfw : Bool) (s : State) : Host.Outcome State Fault Refusal :=
  s.event (State.linkFrame piece (pieceBytes piece.opens writeKind rest) pfw)

/-- BAD_KIND_FRAME (R175, R177, R180), whole or a piece of it: also a frame that ends before its kind byte completes. -/
def execBadKindFrame (bytes : Bytes) (piece : Piece) (s : State) : Host.Outcome State Fault Refusal :=
  s.event (State.linkFrame piece bytes s.pfwLine)

/-- The link while it discards: MSEL rises and the frame state returns to IDLE without a status (R184). -/
def Link.discardEnds (l : Link) : Link :=
  match l.frame with
  | .discarding => { l with frame := .idle }
  | .idle | .header | .data | .trailing => l

/-- DISCARDED_FRAME_ENDS (R184). -/
def execDiscardedFrameEnds (s : State) : Host.Outcome State Fault Refusal :=
  s.event (fun s => { s with link := s.link.discardEnds })

/-- START (R148). -/
def execStart (s : State) : Host.Outcome State Fault Refusal :=
  s.event (State.commandEvent 1 s.pfwLine)

/-- FORMAT (R140). -/
def execFormat (s : State) : Host.Outcome State Fault Refusal :=
  s.event (State.commandEvent 2 s.pfwLine)

/-- QUIESCE (R150). -/
def execQuiesce (s : State) : Host.Outcome State Fault Refusal :=
  s.event (State.commandEvent 3 s.pfwLine)

/-- RESUME (R152). -/
def execResume (s : State) : Host.Outcome State Fault Refusal :=
  s.event (State.commandEvent 4 s.pfwLine)

/-- STOP (R153). -/
def execStop (s : State) : Host.Outcome State Fault Refusal :=
  s.event (State.commandEvent 5 s.pfwLine)

/-- FORCE_UNWIND (R19). -/
def execForceUnwind (s : State) : Host.Outcome State Fault Refusal :=
  s.event (State.commandEvent 6 s.pfwLine)

/-- RETRY_UNWIND (R117). -/
def execRetryUnwind (s : State) : Host.Outcome State Fault Refusal :=
  s.event (State.commandEvent 7 s.pfwLine)

/-- CLEAR_INCIDENTS (R193). -/
def execClearIncidents (s : State) : Host.Outcome State Fault Refusal :=
  s.event (State.commandEvent 8 s.pfwLine)

/-- SOFT_RESET (R157, R158). -/
def execSoftReset (pfw : Bool) (s : State) : Host.Outcome State Fault Refusal :=
  s.event (State.commandEvent 9 pfw)

/-- UNKNOWN_COMMAND (R147): the frame that writes a code which names no command. -/
def execUnknownCommand (code : Byte) (s : State) : Host.Outcome State Fault Refusal :=
  s.event (State.commandEvent code s.pfwLine)

/-- PFW_ASSERT (R154, R155). -/
def execPfwAssert (s : State) : Host.Outcome State Fault Refusal :=
  s.event State.powerFail

/-- RESET_LINE_ASSERT (R156). -/
def execResetLineAssert (mselLow : Bool) (s : State) : Host.Outcome State Fault Refusal :=
  s.event (State.assertReset mselLow)

/-- RESET_LINE_RELEASE (R158). -/
def execResetLineRelease (pfw mselLow : Bool) (s : State) : Host.Outcome State Fault Refusal :=
  s.event (State.releaseReset pfw mselLow)

end Sys2Proof.Machine
end

