-- ==== Sys2Proof/Machine/ExecHost.lean ====
section
/-! DEFINITION. The commands of the host port, the request table, the group table and the engines: one meaning
per row. -/

namespace Sys2Proof.Machine

/-- HOST_REQUEST (R76, R80): while a request is held the port takes no other (R81); while the reset line is
asserted it takes none (R156). -/
def execHostRequest (r : HostRequest) (s : State) : Host.Outcome State Fault Refusal :=
  if r.wellFormed then
    s.lineEvent (fun s => if s.held.isSome then s else s.intake r)
  else .refused .malformedRequest

/-- HELD_REQUEST_RETAKEN (R81): the held request is taken again from check 1. -/
def execHeldRequestRetaken (s : State) : Host.Outcome State Fault Refusal :=
  s.lineEvent State.retakeHeld

/-- The entry of a number is in ORDERED and nothing holds it back; in SHUTDOWN none leaves (R88, R98). -/
def State.canLeave (s : State) (i : EntryId) : Bool :=
  match s.entry i with
  | some e => decide (e.phase = .ordered) && !s.heldBack e && decide (s.controller ≠ .shutdown)
  | none => false

/-- LEAVE_ORDERED (R88). -/
def execLeaveOrdered (i : EntryId) (s : State) : Host.Outcome State Fault Refusal :=
  s.lineEvent (fun s => s.whenever (s.canLeave i) (State.leaveOrdered i))

/-- The group of a tag is DRAINING and has drained (R12); in SHUTDOWN it takes no transition (R26). -/
def State.canDrain (s : State) (t : Tag) : Bool :=
  decide (s.groupState t = .draining) && s.drained t && decide (s.controller ≠ .shutdown)

/-- DRAIN_COMPLETE (R12). -/
def execDrainComplete (t : Tag) (s : State) : Host.Outcome State Fault Refusal :=
  s.lineEvent (fun s => s.whenever (s.canDrain t) (State.drain t))

/-- SLOT_ISSUE (R61). -/
def execSlotIssue (p : PartId) (s : State) : Host.Outcome State Fault Refusal :=
  s.lineEvent (State.issueSlots p)

/-- The next step of the unwind engine, where `next` gives one; in SHUTDOWN there is none (R119). -/
def State.engineEvent (next : State → Option State) (s : State) : State :=
  if s.controller = .shutdown then s
  else
    match next s with
    | some advanced => advanced.settle
    | none => s

/-- UNWIND_TAKE_GROUP (R103). -/
def execUnwindTakeGroup (s : State) : Host.Outcome State Fault Refusal :=
  s.lineEvent (State.engineEvent State.engineTakes)

/-- GROUP_SETTLED (R104, R105). -/
def execGroupSettled (s : State) : Host.Outcome State Fault Refusal :=
  s.lineEvent (State.engineEvent State.engineSettles)

/-- STORES_CLEARED (R106). -/
def execStoresCleared (s : State) : Host.Outcome State Fault Refusal :=
  s.lineEvent (State.engineEvent State.engineReads)

/-- AGE_EXPIRY (R8): in SHUTDOWN no group expires (R26). -/
def execAgeExpiry (t : Tag) (s : State) : Host.Outcome State Fault Refusal :=
  s.lineEvent (fun s =>
    s.whenever
      (decide (s.groupState t = .opened) && decide (s.ageLimit ≠ 0) &&
        decide ((s.group t).age = s.ageLimit.toNat) && decide (s.controller ≠ .shutdown))
      (fun s => s.expire t))

/-- QUIET_CONDITION (R151). -/
def execQuietCondition (s : State) : Host.Outcome State Fault Refusal :=
  s.lineEvent State.quietTest

end Sys2Proof.Machine
end

