-- ==== Sys2Proof/Machine/Dispatch.lean ====
section
/-! DEFINITION. The meaning of each command, one arm per row of spec/opcode_table.json. -/

namespace Sys2Proof.Machine

/-- What a command does to everything but the queue. -/
def exec (i : Instr) (s : State) : Host.Outcome State Fault Refusal :=
  match i with
  | .hostRequest request => Sys2Proof.Machine.execHostRequest request s
  | .heldRequestRetaken => Sys2Proof.Machine.execHeldRequestRetaken s
  | .leaveOrdered entry => Sys2Proof.Machine.execLeaveOrdered entry s
  | .hostReadDone number result => Sys2Proof.Machine.execHostReadDone number result s
  | .captureReadDone number result => Sys2Proof.Machine.execCaptureReadDone number result s
  | .homeWriteDone number result => Sys2Proof.Machine.execHomeWriteDone number result s
  | .drainComplete tag => Sys2Proof.Machine.execDrainComplete tag s
  | .slotIssue partition => Sys2Proof.Machine.execSlotIssue partition s
  | .slotWriteDone number result => Sys2Proof.Machine.execSlotWriteDone number result s
  | .headerWriteDone number result => Sys2Proof.Machine.execHeaderWriteDone number result s
  | .unwindTakeGroup => Sys2Proof.Machine.execUnwindTakeGroup s
  | .groupSettled => Sys2Proof.Machine.execGroupSettled s
  | .storesCleared => Sys2Proof.Machine.execStoresCleared s
  | .unwindReadDone number result => Sys2Proof.Machine.execUnwindReadDone number result s
  | .restoreWriteDone number result => Sys2Proof.Machine.execRestoreWriteDone number result s
  | .tick => Sys2Proof.Machine.execTick s
  | .ageExpiry tag => Sys2Proof.Machine.execAgeExpiry tag s
  | .arrayTimeout number => Sys2Proof.Machine.execArrayTimeout number s
  | .lateResponse number result => Sys2Proof.Machine.execLateResponse number result s
  | .headerReadDone number result => Sys2Proof.Machine.execHeaderReadDone number result s
  | .scanReadDone number result => Sys2Proof.Machine.execScanReadDone number result s
  | .voidReadDone number result => Sys2Proof.Machine.execVoidReadDone number result s
  | .voidWriteDone number result => Sys2Proof.Machine.execVoidWriteDone number result s
  | .recoveryReadDone number result => Sys2Proof.Machine.execRecoveryReadDone number result s
  | .recoveryWriteDone number result => Sys2Proof.Machine.execRecoveryWriteDone number result s
  | .headerRewriteDone number result => Sys2Proof.Machine.execHeaderRewriteDone number result s
  | .formatWriteDone number result => Sys2Proof.Machine.execFormatWriteDone number result s
  | .quietCondition => Sys2Proof.Machine.execQuietCondition s
  | .readFrame rest piece => Sys2Proof.Machine.execReadFrame rest piece s
  | .writeFrame rest piece pfw => Sys2Proof.Machine.execWriteFrame rest piece pfw s
  | .start => Sys2Proof.Machine.execStart s
  | .format => Sys2Proof.Machine.execFormat s
  | .quiesce => Sys2Proof.Machine.execQuiesce s
  | .resume => Sys2Proof.Machine.execResume s
  | .stop => Sys2Proof.Machine.execStop s
  | .forceUnwind => Sys2Proof.Machine.execForceUnwind s
  | .retryUnwind => Sys2Proof.Machine.execRetryUnwind s
  | .clearIncidents => Sys2Proof.Machine.execClearIncidents s
  | .softReset pfw => Sys2Proof.Machine.execSoftReset pfw s
  | .unknownCommand code => Sys2Proof.Machine.execUnknownCommand code s
  | .pfwAssert => Sys2Proof.Machine.execPfwAssert s
  | .resetLineAssert mselLow => Sys2Proof.Machine.execResetLineAssert mselLow s
  | .resetLineRelease pfw mselLow => Sys2Proof.Machine.execResetLineRelease pfw mselLow s
  | .discardedFrameEnds => Sys2Proof.Machine.execDiscardedFrameEnds s
  | .badKindFrame bytes piece => Sys2Proof.Machine.execBadKindFrame bytes piece s
  | .requestHandedOver => Sys2Proof.Machine.execRequestHandedOver s

end Sys2Proof.Machine
end

