-- ==== Sys2Proof/Machine/Step.lean ====
section
/-! DEFINITION. One step: the command at the front of the queue, or, on an empty queue, one period of the
reference clock. -/

namespace Sys2Proof.Machine

/-- One period of the reference clock: the division count advances, and a tick comes when it reaches the
divider; it stays at 0 while the reset line is asserted (R185, log 1). -/
def clockPeriod (s : State) : Host.Outcome State Fault Refusal :=
  if s.resetLine then .next s
  else if s.divisionCount + 1 < s.tickDivider.toNat then .next { s with divisionCount := s.divisionCount + 1 }
  else exec .tick s

/-- One step: the command at the front of the queue is taken with the queue's rest (log 2); on an empty queue one
clock period passes. -/
def step (s : State) : Host.Outcome State Fault Refusal :=
  match s.pending with
  | [] => clockPeriod s
  | c :: rest => exec c { s with pending := rest }

/-- The state with the command that a word spells put at the front of its queue; no word spells one. -/
def State.withFetchWord (s : State) (nbits w : Nat) : State :=
  match decodeTableWord nbits w with
  | some c => { s with pending := c :: s.pending }
  | none => s

end Sys2Proof.Machine
end

