-- ==== Sys2Proof/Safety.lean ====
section
/-! DEFINITION. What counts as a safe run, in the terms the statements use: the parts of the state that only some
agents change, the states in which nothing is waiting to happen, and the invariants. -/

namespace Sys2Proof.Machine

/-! ### Parts of the state -/

/-- The configuration (R143, R179): what only write frames in CONFIG and the reset line change. -/
structure Configuration where
  regions      : Vector Region 8
  geometry     : Vector Geometry 4
  tagMap       : Vector PartId 15
  claimLimit   : BitVec 16
  ageLimit     : BitVec 16
  arrayTimeout : BitVec 8
  tickDivider  : BitVec 16
  formatEpoch  : Word
deriving DecidableEq, Repr

/-- The configuration of a state. -/
def State.configuration (s : State) : Configuration where
  regions := s.regions
  geometry := s.geometry
  tagMap := s.tagMap
  claimLimit := s.claimLimit
  ageLimit := s.ageLimit
  arrayTimeout := s.arrayTimeout
  tickDivider := s.tickDivider
  formatEpoch := s.formatEpoch

/-- What only the management link, the clock, the pins, the queue and the holding of a request change: no work of
the request table, the journal, the engines or the scanner touches it. -/
structure Setup where
  configuration : Configuration
  resetLine     : Bool
  pfwLine       : Bool
  held          : Option HostRequest
  operand       : Byte
  link          : Link
  mask          : BitVec 9
  tickCounter   : Word
  divisionCount : Nat
  mdo           : List Bool
  pending       : List Instr
deriving DecidableEq, Repr

/-- The setup of a state. -/
def State.setup (s : State) : Setup where
  configuration := s.configuration
  resetLine := s.resetLine
  pfwLine := s.pfwLine
  held := s.held
  operand := s.operand
  link := s.link
  mask := s.mask
  tickCounter := s.tickCounter
  divisionCount := s.divisionCount
  mdo := s.mdo
  pending := s.pending

/-! ### States in which nothing waits to happen -/

/-- No entry leaves ORDERED, no group drains, the unwind engine has nothing to take, no slot is to be issued,
and the controller does not enter QUIET: an event whose effect leaves this state brings about nothing more. -/
def State.atRest (s : State) : Bool :=
  s.requests.all (fun e => !s.canLeave e.index) && allTags.all (fun t => !s.canDrain t) &&
    s.engineAdvance.isNone &&
    allPartitions.all (fun p => !s.journalRuns p || (readyRun 0 (s.part p).marks).isEmpty) &&
    !(decide (s.controller = .quiescing) && s.quietHolds)

/-- The reset line is released and no request is held: an event's effect is all that the event does. -/
def State.direct (s : State) : Bool :=
  !s.resetLine && s.held.isNone

/-- The link is idle and no command is RUNNING: a command frame is taken. -/
def State.listening (s : State) : Bool :=
  s.direct && decide (s.link.frame = .idle) && !s.running

/-- The link after a clean command frame: seven bytes, the five of the header kept (R173, R198). -/
def commandLink : Link :=
  { Link.cleared with bitCount := 56, header := (commandFrame 0).take 5 }

/-- The state in which the command of a clean command frame is taken: nothing answered yet, MDO low. -/
def State.framed (s : State) : State :=
  { s with responses := [], mdo := lowBits 56, joined := 0, link := commandLink }

/-- The state after a clean command frame whose command is taken and RUNNING (R147, R182). -/
def State.commanded (c : Command) (s : State) : State :=
  { s with
    responses := [], mdo := lowBits 56, joined := 0, link := commandLink
    cmdStatus := ⟨.running, none, none, none, none, some c, some s.operand⟩ }

/-- The state after a clean command frame whose command ended DONE, raising COMMAND_ENDED (R147, R187). -/
def State.commandDone (c : Command) (s : State) : State :=
  { s with
    responses := [], mdo := lowBits 56, joined := 0, link := commandLink
    cmdStatus := ⟨.done, none, none, none, none, some c, some s.operand⟩, flags := s.flags ||| 0x080#9 }

/-- The state after a clean command frame whose command ended REFUSED, raising COMMAND_FAILED (R147, R187). -/
def State.commandRefused (echo : Option Command) (reason : Reason) (s : State) : State :=
  { s with
    responses := [], mdo := lowBits 56, joined := 0, link := commandLink
    cmdStatus := ⟨.refused, some reason, none, none, none, echo, some s.operand⟩, flags := s.flags ||| 0x008#9 }

/-- The state after a clean command frame whose command ended REFUSED with the areas that overlap (R140, R148). -/
def State.commandOverlaps (c : Command) (reason : Reason) (check : Option OverlapCheck) (first : PartId)
    (second : Nat) (s : State) : State :=
  { s with
    responses := [], mdo := lowBits 56, joined := 0, link := commandLink
    cmdStatus := ⟨.refused, some reason, check, some first, some second, some c, some s.operand⟩
    flags := s.flags ||| 0x008#9 }

/-- The outcome of a request refused at intake: its response is the event's only trace (R77). -/
def State.refusing (s : State) (r : HostRequest) (status : Status) : Host.Outcome State Fault Refusal :=
  .next { s with mdo := [], joined := 0, responses := [⟨r.hostId, status, []⟩] }

/-- A request that reaches check 5 at a part whose reset line is released and that holds no request (R80). -/
def State.admits (s : State) (r : HostRequest) : Bool :=
  s.direct && r.wellFormed && (s.earlyRefusal r).isNone && s.freeEntry.isSome

/-- An array response of number `n` is the answer to the write of the ring slot that stands `k` slots after the durable
tail of partition `p`, whose mark is `m` (R51, R161). -/
def State.slotAnswered (s : State) (n : Word) (p : PartId) (k : Nat) (m : Mark) : Prop :=
  let slot := ((s.part p).durableTail.advance (s.capacity p) k).slot
  (∃ r, s.recordOf n = some r ∧ r.purpose = .slotWrite ∧ r.ref = .slot p slot) ∧
    (s.part p).markIndex (s.capacity p) slot = k ∧ (s.part p).marks[k]? = some m

/-- The front stands just before the slot `k` slots after the durable tail, and the slot behind it is not acknowledged:
its acknowledgement moves the front past it alone (R51). -/
def State.frontMeets (s : State) (p : PartId) (k : Nat) : Prop :=
  (∀ x ∈ (s.part p).marks.take k, x.progress = .acknowledged) ∧
    ((s.part p).marks[k]?.map (·.progress)) ≠ some .acknowledged ∧
    ∀ x, (s.part p).marks[k + 1]? = some x → x.progress ≠ .acknowledged

/-- An array byte lies in a partition's area (R44). -/
def State.inPart (s : State) (p : PartId) (byte : Nat) : Prop :=
  (s.geometry[p]).base.toNat * 4096 ≤ byte ∧
    byte < ((s.geometry[p]).base.toNat + (s.geometry[p]).size.toNat) * 4096

/-- An array byte lies in an enabled region (R78). -/
def State.inRegion (s : State) (r : RegionId) (byte : Nat) : Prop :=
  (s.regions[r]).enabled = true ∧ (s.regions[r]).base.toNat * 4096 ≤ byte ∧
    byte < ((s.regions[r]).base.toNat + (s.regions[r]).size.toNat) * 4096 ∧ byte < 2 ^ 40

/-- Two partitions overlap: some array byte lies in both (R148). -/
def State.partsMeet (s : State) (p q : PartId) : Prop :=
  ∃ byte, s.inPart p byte ∧ s.inPart q byte

/-- A partition and a region overlap: some array byte lies in both (R148). -/
def State.regionMeets (s : State) (p : PartId) (r : RegionId) : Prop :=
  ∃ byte, s.inPart p byte ∧ s.inRegion r byte

/-- The quiet condition (R151): every group is FREE, and every enabled partition is READY with its three positions
the same. -/
def State.quiet (s : State) : Prop :=
  (∀ t, s.groupState t = .free) ∧
    ∀ p, s.size p ≠ 0 →
      (s.part p).state = .ready ∧ (s.part p).head = (s.part p).workingTail ∧
        (s.part p).workingTail = (s.part p).durableTail

/-- Partition `p` when an UNDO record that carries `info` has been allocated at its head: its two slots are WAITING,
behind a one-slot PAD, READY and in a span of its own, where one slot was left before the ring's end; the record's
slots stand in the span of its sequence (R52, R54, R59). -/
def State.withUndo (s : State) (p : PartId) (info : RecordInfo) : Partition :=
  let part := s.part p
  let cap := 64 * s.size p - 2
  let behind : Partition :=
    if part.head.slot = 64 * s.size p - 1 then
      { part with
        marks := part.marks ++ [⟨.padFirst 1, .ready, 1, padSlotBytes 1 part.epoch part.head.lap, none⟩]
        spans := addSpan ⟨none, 1⟩ part.spans
        head := part.head.advance cap 1 }
    else part
  { behind with
    marks := behind.marks ++
      [⟨.unknown, .waiting, 1, [], some info⟩, ⟨.unknown, .waiting, 1, [], some info⟩]
    spans := extendSpans info.sequence 2 behind.spans
    head := behind.head.advance cap 2 }

/-! ### Recovery -/

/-- The passes over a partition's ring are over, `scanner` being what they have found: the partition is RESTORING, and the
entry found last has its UNDO data slot read (R132); with no entry on the list the header copy with the chosen epoch,
the next generation and the scan end as its tail is written (R133, R134). -/
def State.restoresFrom (p : PartId) (chosen : ChosenHeader) (scanEnd : Pos) (scanner : Scanner) (s : State) : State :=
  let restoring := s.setPart p { s.part p with state := .restoring }
  match scanner.list.reverse with
  | e :: rest =>
    State.issue .recoveryRead .restoreEntry (s.slotAddr p (e.undoSlot + 1)) 64 []
      { restoring with
        scanner := { scanner with
          stage := some .restore, position := none, toRestore := rest, restoreEntry := some e
          restoreStep := some .reading, attempt := 1, writeData := none } }
  | [] =>
    let copy := headerCopy (s.size p) chosen.epoch (chosen.generation + 1) scanEnd
    let slot := (chosen.generation + 1).toNat % 2
    State.issue .headerRewrite (.header p slot) (s.slotAddr p slot) 64 copy
      { restoring with
        scanner := { scanner with
          list := [], stage := some .rewrite, position := none, toRestore := [], restoreEntry := none
          restoreStep := none, attempt := 1, writeData := some copy } }

/-! ### Invariants -/

/-- The incident list holds at most 8 entries and the dropped count at most 255 (R190, R192). -/
def State.incidentsBounded (s : State) : Prop :=
  s.incidents.length ≤ 8 ∧ s.dropped ≤ 255

/-- Every configuration value lies in its range (R34, R44, R78, R185). -/
def State.configInRange (s : State) : Prop :=
  1 ≤ s.claimLimit.toNat ∧ s.claimLimit.toNat ≤ 1024 ∧ 1 ≤ s.tickDivider.toNat ∧
    (∀ p : PartId, (s.geometry[p]).base.toNat ≤ 0x0FFFF000 ∧ (s.geometry[p]).size.toNat ≤ 4096) ∧
    ∀ r : RegionId, (s.regions[r]).base.toNat ≤ 0x0FFFFFFF ∧ (s.regions[r]).size.toNat ≤ 0x10000000

/-- No two entries of the request table carry the same number (R86). -/
def State.entriesNumbered (s : State) : Prop :=
  (s.requests.map (·.index)).Nodup

/-- The claim table holds at most 1024 claims, and a line at most once (R29, R30). -/
def State.claimsByLine (s : State) : Prop :=
  s.claims.length ≤ 1024 ∧ (s.claims.map (·.line)).Nodup

/-- Outside RECOVERING the scanner is in its reset state (R121). -/
def State.scannerIdle (s : State) : Prop :=
  s.controller ≠ .recovering → s.scanner = .cleared

/-- The link is between frames: IDLE, or discarding until MSEL rises (R173, R184). -/
def State.betweenFrames (s : State) : Prop :=
  s.link.frame = .idle ∨ s.link.frame = .discarding

/-- The rows that reach the part over the management link: frames and their pieces, and the commands that a frame
writes (R145, R182). -/
def onLink : Instr → Bool
  | .readFrame _ _ | .writeFrame _ _ _ | .badKindFrame _ _ | .start | .format | .quiesce | .resume | .stop
  | .forceUnwind | .retryUnwind | .clearIncidents | .softReset _ | .unknownCommand _ => true
  | .hostRequest _ | .heldRequestRetaken | .leaveOrdered _ | .hostReadDone _ _ | .captureReadDone _ _
  | .homeWriteDone _ _ | .drainComplete _ | .slotIssue _ | .slotWriteDone _ _ | .headerWriteDone _ _
  | .unwindTakeGroup | .groupSettled | .storesCleared | .unwindReadDone _ _ | .restoreWriteDone _ _ | .tick
  | .ageExpiry _ | .arrayTimeout _ | .lateResponse _ _ | .headerReadDone _ _ | .scanReadDone _ _
  | .voidReadDone _ _ | .voidWriteDone _ _ | .recoveryReadDone _ _ | .recoveryWriteDone _ _
  | .headerRewriteDone _ _ | .formatWriteDone _ _ | .quietCondition | .pfwAssert | .resetLineAssert _
  | .resetLineRelease _ _ | .discardedFrameEnds | .requestHandedOver => false

/-- What the link holds in each frame state (R172, R173, R175, R176, R178): the header bytes as they complete, and then, for
a header that passed its checks, the snapshot of a read frame or the bytes of a write frame as they complete. -/
def Link.sound (l : Link) : Prop :=
  match l.frame with
  | .idle | .discarding => l.snapshot = none ∧ l.buffer = []
  | .header =>
    l.header.length < 5 ∧ l.bitCount / 8 = l.header.length ∧ l.decided = none ∧ l.snapshot = none ∧ l.buffer = []
  | .data =>
    l.header.length = 5 ∧ l.headerFault = none ∧ l.decided = none ∧
      ∃ k, k ≤ l.length ∧ l.bitCount / 8 = 5 + k ∧
        (l.reads = true → l.snapshot.map (·.length) = some l.length ∧ l.buffer = []) ∧
        (l.reads = false → l.snapshot = none ∧ l.buffer.length = k)
  | .trailing =>
    l.header.length = 5 ∧ l.decided = l.headerFault ∧
      (l.headerFault = none → 48 + 8 * l.length ≤ l.bitCount ∧ (l.reads = false → l.buffer.length = l.length + 1))

/-- The link is sound, and while the reset line is asserted no frame is received (R156, R173, R184). -/
def State.linkSound (s : State) : Prop :=
  s.link.sound ∧ (s.resetLine = true → s.betweenFrames)

/-- While the reset line is asserted every field stands at its reset value, but for the line's own level, the
warning line, the issue counter, the frame state, the edges that MDO was low for, and the queue (R156). -/
def State.resetHeld (s : State) : Prop :=
  s.resetLine = true →
    s = { State.reset with
      resetLine := true
      pfwLine := s.pfwLine
      issueCounter := s.issueCounter
      link := { Link.cleared with frame := s.link.frame }
      mdo := s.mdo
      pending := s.pending } ∧
    (s.link.frame = .idle ∨ s.link.frame = .discarding) ∧ ∀ b ∈ s.mdo, b = false

/-- The numbers of the outstanding set are distinct, and the issue counter is none of them (R161). -/
def State.numbered (s : State) : Prop :=
  (s.outstanding.map (·.number)).Nodup ∧ s.issueCounter ∉ s.outstanding.map (·.number)

/-- The group table, the claim table and the waiting order agree: claims held is the number of a group's claims
(R29), no two groups carry one sequence (R2), and the groups in UNWINDING are the engine's and the waiting ones, each
once (R102). The other clauses are what a step needs to keep these. -/
structure State.GroupsSound (s : State) : Prop where
  /-- Claims held is the number of the group's claims in the table (R29). -/
  claims_counted : ∀ t, (s.group t).claimsHeld = (s.claims.filter (fun c => c.tag == t)).length
  /-- A line stands in the claim table at most once (R30). -/
  lines_once : (s.claims.map (·.line)).Nodup
  /-- No two groups carry one sequence (R2). -/
  sequences_differ : ∀ t u, t ≠ u → s.groupState t ≠ .free → s.groupState u ≠ .free →
    (s.group t).sequence ≠ (s.group u).sequence
  /-- A group in progress carries a sequence, neither 0 nor the counter's value (R2). -/
  sequence_given : ∀ t, s.groupState t ≠ .free →
    ∃ v, (s.group t).sequence = some v ∧ v ≠ 0 ∧ v ≠ s.seqCounter
  /-- The counter is never 0 (R2). -/
  counter_given : s.seqCounter ≠ 0
  /-- The groups in UNWINDING are those of the waiting order and the engine's current one (R102, R103). -/
  unwinding_waits : ∀ t, s.groupState t = .unwinding ↔ t ∈ s.engine.waiting ∨ s.engine.current = some t
  /-- No tag stands in the waiting order twice, or there and with the engine (R102). -/
  waits_once : (s.engine.current.toList ++ s.engine.waiting).Nodup
  /-- The engine, IDLE, has no group (R101). -/
  idle_alone : s.engine.state = .idle → s.engine.current = none
  /-- A FREE entry has every field cleared (R1). -/
  free_cleared : ∀ t, s.groupState t = .free → s.group t = Group.cleared
  /-- A HALTED group holds no claim (R21, R39). -/
  halted_bare : ∀ t, s.groupState t = .halted → (s.group t).claimsHeld = 0
  /-- In CONFIG, RECOVERING and QUIET every group is FREE (R27, R151, R153). -/
  quiet_free : s.controller = .config ∨ s.controller = .recovering ∨ s.controller = .quiet →
    ∀ t, s.groupState t = .free
  /-- A span list holds at most 64 entries (R52). -/
  spans_stored : ∀ p, (s.part p).spans.length ≤ 64
  /-- Outside RECOVERING the scanner is in its reset state (R121). -/
  scanner_idle : s.scannerIdle

/-- A partition is READY or FAULTED: it has a ring in use (R46). -/
def Partition.inUse (part : Partition) : Prop :=
  part.state = .ready ∨ part.state = .faulted

/-- A slot lies in the ring of a partition (R44). -/
def State.inRing (s : State) (p : PartId) (slot : Nat) : Prop :=
  2 ≤ slot ∧ slot ≤ 64 * s.size p - 1

/-- A group holds a reservation in a partition: from its opening until its closing record is placed (R53). -/
def State.holdsReservation (s : State) (p : PartId) (t : Tag) : Bool :=
  decide ((s.group t).partition = some p) &&
    match s.groupState t with
    | .opened | .draining => true
    | .unwinding | .broken => !(decide (s.engine.state = .closing) && decide (s.engine.current = some t))
    | .free | .sealing | .halted => false

/-- The journal keeps its law: in every ring the slots from the durable tail to the head and the reserved closing
slots stay within the capacity, and the spans and the reservations within 64 (R56); the three positions, the marks and
the spans agree (R50, R51, R52), and the reserved closing slots count the groups that hold one (R53). The other
clauses are what a step needs to keep these. -/
structure State.JournalSound (s : State) : Prop where
  /-- Occupancy and reserved closing slots stay within the ring capacity (R56). -/
  ring_law : ∀ p, (s.part p).inUse →
    (s.part p).occupancy (s.capacity p) + (s.part p).reserved ≤ s.capacity p
  /-- Spans in use and reservations stay within 64 (R56). -/
  span_law : ∀ p, (s.part p).spans.length + (s.part p).reserved ≤ 64
  /-- The reserved closing slots of a READY partition count the groups that hold a reservation (R53). -/
  reservations_counted : s.controller ≠ .shutdown → ∀ p, (s.part p).state = .ready →
    (s.part p).reserved = ((List.finRange 15).filter (s.holdsReservation p)).length
  /-- The head stands at the end of the marks, the working tail at the beginning of the spans, and the tail of a
  header write in flight between the durable tail and the working tail (R47, R50, R51, R52). -/
  positions : ∀ p, (s.part p).inUse →
    let part := s.part p
    let cap := s.capacity p
    let slots := (part.spans.map (·.count)).sum
    s.size p ≠ 0 ∧ s.inRing p part.durableTail.slot ∧ part.head = part.durableTail.advance cap part.marks.length ∧
      slots ≤ part.marks.length ∧ part.workingTail = part.durableTail.advance cap (part.marks.length - slots) ∧
      ∀ w, part.headerWrite = some w →
        ∃ j, j ≤ part.marks.length - slots ∧ w.tail = part.durableTail.advance cap j
  /-- A partition that is neither READY nor FAULTED has its run state cleared (R47). -/
  unused_cleared : ∀ p, ¬ (s.part p).inUse →
    s.part p = { Partition.cleared with
      state := (s.part p).state, epoch := (s.part p).epoch, generation := (s.part p).generation }
  /-- A group in progress has its partition, which is READY or FAULTED; READY while it is OPEN, DRAINING or SEALING
  (R4, R18). -/
  groups_placed : ∀ t, s.groupState t ≠ .free → ∃ p, (s.group t).partition = some p ∧ (s.part p).inUse ∧
    (s.groupState t = .opened ∨ s.groupState t = .draining ∨ s.groupState t = .sealing → (s.part p).state = .ready)
  /-- The entries of a group in SEALING have completed their accesses (R12). -/
  sealing_completed : ∀ e ∈ s.requests, ∀ t, e.group = some t → s.groupState t = .sealing →
    e.phase = .awaitOutcome
  /-- No two entries of the request table carry one number (R86). -/
  entries_numbered : s.entriesNumbered
  /-- The engine has a current line only in RESTORING (R101). -/
  line_restoring : s.engine.currentLine ≠ none → s.engine.state = .restoring
  /-- In CONFIG every partition is OFF (R46). -/
  config_off : s.controller = .config → ∀ p, (s.part p).state = .off
  /-- In ACTIVE, QUIESCING and QUIET every enabled partition is READY or FAULTED (R46, R135). -/
  enabled_used : s.controller = .active ∨ s.controller = .quiescing ∨ s.controller = .quiet →
    ∀ p, s.size p ≠ 0 → (s.part p).inUse
  /-- In RECOVERING the enabled partitions before the scanner's are recovered, and its own is enabled (R122). -/
  scanned_before : ∀ p, s.scanner.current = some p →
    s.size p ≠ 0 ∧ ∀ q, q < p → s.size q ≠ 0 → (s.part q).inUse
  /-- The scanner's partition is SCANNING or RESTORING (R122, R132). -/
  scanning_unused : ∀ p, s.scanner.current = some p → ¬ (s.part p).inUse
  /-- The positions that the scanner holds lie in the ring of its partition (R124, R126, R130). -/
  scan_in_ring : ∀ p, s.scanner.current = some p →
    (∀ c, s.scanner.chosen = some c → s.inRing p c.tail.slot) ∧
      (∀ x, s.scanner.position = some x → s.inRing p x.slot) ∧
      (∀ x, s.scanner.scanEnd = some x → s.inRing p x.slot)

end Sys2Proof.Machine
end

