-- ==== Sys2Proof/Certificates/Slice0/Obligations.lean ====
section
/-! DEFINITION. The statements for the provers, in the order of the manual: the queue, the host port, the request
table, the journal, the engines, the array port, recovery, the controller and the link, then the invariants. The
fields `responses`, `mdo` and `joined`, which hold what the event last taken sent and how many groups joined the waiting
order in it, are the model's own (logs 6, 10 and 40). -/

open Sys2Proof Sys2Proof.Machine

/-! ### The queue and the clock -/

/-- One step takes the command at the front of the queue, with the queue's rest. On an empty queue one step is one
period of the reference clock (the model's choice, log 1): the division count advances and stays below the divider, or
it reaches the divider and a tick is taken; while the reset line is asserted nothing happens (R185). -/
def Obligations.StepTakesFront : Prop :=
  ∀ s : State,
    (∀ c rest, s.pending = c :: rest → step s = exec c { s with pending := rest }) ∧
    (s.pending = [] →
      (s.resetLine = true → step s = .next s) ∧
      (s.resetLine = false → s.divisionCount + 1 < s.tickDivider.toNat →
        step s = .next { s with divisionCount := s.divisionCount + 1 }) ∧
      (s.resetLine = false → s.tickDivider.toNat ≤ s.divisionCount + 1 → step s = exec .tick s))

/-! ### Intake (R80 to R84) -/

/-- Checks 1 to 3 of R80: what refuses a request, in what order, with which status; a refusal changes nothing but
what the port sends. -/
def Obligations.IntakeChecksOneToThree : Prop :=
  ∀ (s : State) (r : HostRequest), s.direct = true → r.wellFormed = true →
    (intentOk r = false → exec (.hostRequest r) s = s.refusing r .intent) ∧
    (intentOk r = true → spanOk r = false → exec (.hostRequest r) s = s.refusing r .span) ∧
    (intentOk r = true → spanOk r = true → s.controller = .shutdown →
      exec (.hostRequest r) s = s.refusing r .powerDown) ∧
    (intentOk r = true → spanOk r = true → s.controller = .config ∨ s.controller = .recovering →
      s.protectedLine (lineOf r.address) = true ∨ intentOf r.intent ≠ some .plain →
      exec (.hostRequest r) s = s.refusing r .notReady) ∧
    (intentOk r = true → spanOk r = true → s.controller = .quiet →
      (r.kind = .write ∧ s.protectedLine (lineOf r.address) = true) ∨ intentOf r.intent ≠ some .plain →
      exec (.hostRequest r) s = s.refusing r .quiescing)

/-- Check 4 (R81): with every entry occupied a request that passed checks 1 to 3 is held, and while one is held the
port takes no other (log 7). The held request is taken again from check 1, as a request that arrives; in SHUTDOWN one
whose intent and span are good is refused POWER_DOWN. Every other event, a home write done among them, takes no
account of the held request until its end: its outcome is that of the event without it, followed, where an entry is
then free or the controller state has changed, by the retake; otherwise the request stays held. That the retake ends
that same event is DEDUCED (log 8), and that its response stands after those of the event is the model's choice (log
6). Only the reset line drops a held request. What the retake does is what the port does with a request that arrives.
-/
def Obligations.FullTableHoldsRequest : Prop :=
  ∀ s : State, s.resetLine = false →
    (∀ r : HostRequest, r.wellFormed = true →
      (s.freeEntry = none → s.held = none → s.earlyRefusal r = none →
        exec (.hostRequest r) s = .next { s with responses := [], mdo := [], joined := 0, held := some r }) ∧
      (∀ h, s.freeEntry = none → s.held = some h → exec (.hostRequest r) s = .next s.begin) ∧
      (s.held = some r →
        (∃ t, exec .heldRequestRetaken s = .next t ∧ exec (.hostRequest r) { s with held := none } = .next t) ∧
        (s.controller = .shutdown → intentOk r = true → spanOk r = true →
          exec .heldRequestRetaken s = .next
            { s with held := none, mdo := [], joined := 0, responses := [⟨r.hostId, .powerDown, []⟩] }))) ∧
    (∀ (c : Instr) (h : HostRequest), s.held = some h → (∀ r, c ≠ .hostRequest r) → c ≠ .heldRequestRetaken →
      (∀ low, c ≠ .resetLineAssert low) →
      ∃ t, exec c { s with held := none } = .next t ∧
        exec c s = .next
          (if t.freeEntry.isSome = true ∨ t.controller ≠ s.controller then t.intake h else { t with held := some h })) ∧
    (∀ h : HostRequest, s.held = none → h.wellFormed = true →
      exec (.hostRequest h) s =
        .next (State.intake h { s with responses := [], mdo := [], joined := 0 })) ∧
    (∀ low, ∃ t, exec (.resetLineAssert low) s = .next t ∧ t.held = none ∧ t.responses = [])

/-- R40, R41, R42, R83: a read on the access path, with PLAIN intent or carried by a COMMIT whose group is FREE or
OPEN, is looked up in the claim table. Claimed by a BROKEN group it is refused BROKEN, and nothing changes; claimed by
an UNWINDING one it is admitted to WAIT_UNWIND; unclaimed, or claimed by an OPEN, DRAINING or SEALING one, it is
admitted to ORDERED. A PLAIN read changes nothing but the request table before what then can happen; in an empty table
one of an unclaimed line enters LOADING in that event and its array READ is issued (R89). -/
def Obligations.ReadFollowsTheClaim : Prop :=
  ∀ (s : State) (r : HostRequest) (i : EntryId), s.admits r = true → s.freeEntry = some i → r.kind = .read →
    let claimed := s.claimOf (lineOf r.address)
    let plain := intentOf r.intent = some .plain
    let commits := ∃ t, intentOf r.intent = some .commit ∧ tagOf r.tag = some t ∧
      (s.groupState t = .free ∨ s.groupState t = .opened)
    let admittedTo := fun (phase : Phase) =>
      (plain → exec (.hostRequest r) s =
        .next (State.settle { s with
          responses := [], mdo := [], joined := 0, requests := s.requests ++ [newEntry i r .read phase] })) ∧
      (commits → ∃ (x : State) (e : Entry), exec (.hostRequest r) s = .next x.settle ∧
        x.requests = s.requests ++ [e] ∧ e.index = i ∧ e.request = r ∧ e.path = .read ∧ e.phase = phase)
    (∀ c, claimed = some c → s.groupState c.tag = .broken → plain ∨ commits →
      exec (.hostRequest r) s = s.refusing r .broken) ∧
    (∀ c, claimed = some c → s.groupState c.tag = .unwinding → admittedTo .waitUnwind) ∧
    (∀ c, claimed = some c →
      s.groupState c.tag = .opened ∨ s.groupState c.tag = .draining ∨ s.groupState c.tag = .sealing →
      admittedTo .ordered) ∧
    (claimed = none → admittedTo .ordered) ∧
    (claimed = none → plain → s.requests = [] →
      let t := State.issue .hostRead (.entry i) r.address r.length []
        { s with responses := [], mdo := [], joined := 0, requests := [newEntry i r .read .loading] }
      t.atRest = true → exec (.hostRequest r) s = .next t)

/-- R84, R33, R90: an admitted PLAIN write to an unprotected line, or an untagged one to an unclaimed line of a
SHARED region, joins the table as an unjournaled write; in an empty table its home write is issued in that event. -/
def Obligations.UnjournaledWriteIsAdmittedAndIssued : Prop :=
  ∀ (s : State) (r : HostRequest) (i : EntryId), s.admits r = true → s.freeEntry = some i →
    r.kind = .write → intentOf r.intent = some .plain →
    (s.regionOf (lineOf r.address) = none ∨
      (tagOf r.tag = none ∧ s.claimOf (lineOf r.address) = none ∧
        ∃ g, s.regionOf (lineOf r.address) = some g ∧ g.mode = .shared)) →
    exec (.hostRequest r) s =
      .next (State.settle { s with
        responses := [], mdo := [], joined := 0, requests := s.requests ++ [newEntry i r .unjournaled .ordered] }) ∧
    (s.requests = [] →
      let t := State.issue .homeWrite (.entry i) r.address r.length r.data
        { s with responses := [], mdo := [], joined := 0, requests := [newEntry i r .unjournaled .storing] }
      t.atRest = true → exec (.hostRequest r) s = .next t)

/-- R84, R3, R4, R32, R33, R34, R42, R55: what the access path refuses. An untagged write to a GUARDED line is
UNTAGGED, one to a claimed line of a SHARED region CONFLICT; a PLAIN write with a tag whose group is closing, revoked
or broken is CLOSING, REVOKED or BROKEN; a read of a line of a BROKEN group is BROKEN. A tagged write to a protected
line whose group is FREE or OPEN, PLAIN or carried by a COMMIT, is CONFLICT on a line of another group. On an unclaimed
line it would take a new claim, and the first of these refuses it: for a FREE group QUIESCING, NO_JOURNAL for a
partition of size 0 and JOURNAL_FAULT for a FAULTED one; for an OPEN group at the claim limit, or with 1024 UNDO
records, CLAIM_LIMIT; CLAIMS_FULL for 1024 claims; and JOURNAL_FULL where the ring or the span list has no room for its
UNDO record, its PAD and every reservation. -/
def Obligations.AccessPathRefusals : Prop :=
  ∀ (s : State) (r : HostRequest), s.admits r = true →
    let refused := fun status => exec (.hostRequest r) s = s.refusing r status
    let line := lineOf r.address
    (intentOf r.intent = some .plain →
      (∀ g, r.kind = .write → s.regionOf line = some g → tagOf r.tag = none →
        (g.mode = .guarded → refused .untagged) ∧
        (g.mode = .shared → (s.claimOf line).isSome = true → refused .conflict)) ∧
      (∀ t, r.kind = .write → s.protectedLine line = true → tagOf r.tag = some t →
        (s.groupState t = .draining ∨ s.groupState t = .sealing → refused .closing) ∧
        (s.groupState t = .unwinding ∨ s.groupState t = .halted → refused .revoked) ∧
        (s.groupState t = .broken → refused .broken)) ∧
      (∀ c, r.kind = .read → s.claimOf line = some c → s.groupState c.tag = .broken → refused .broken)) ∧
    (∀ t, intentOf r.intent = some .plain ∨ intentOf r.intent = some .commit → r.kind = .write →
      s.protectedLine line = true → tagOf r.tag = some t → s.groupState t = .free ∨ s.groupState t = .opened →
      (∀ c, s.claimOf line = some c → c.tag ≠ t → refused .conflict) ∧
      (s.claimOf line = none →
        let lacks := fun (p : PartId) (v : Word) (opening : Nat) =>
          let part := s.part p
          let pad := part.head.slot = 64 * s.size p - 1
          let slots := if pad then 3 else 2
          let spans := if pad then 2 else if part.spans.getLast?.map (·.sequence) = some (some v) then 0 else 1
          64 * s.size p - 2 < part.occupancy (s.capacity p) + slots + part.reserved + opening ∨
            64 < part.spans.length + spans + part.reserved + opening
        (s.groupState t = .free →
          let p := s.tagMap[t]
          (s.controller = .quiescing → refused .quiescing) ∧
          (s.controller ≠ .quiescing → s.size p = 0 → refused .noJournal) ∧
          (s.controller ≠ .quiescing → s.size p ≠ 0 →
            ((s.part p).state = .faulted → refused .journalFault) ∧
            ((s.part p).state ≠ .faulted →
              (1024 ≤ s.claims.length → refused .claimsFull) ∧
              (s.claims.length < 1024 → lacks p s.seqCounter 1 → refused .journalFull)))) ∧
        (∀ p v, s.groupState t = .opened → (s.group t).partition = some p → (s.group t).sequence = some v →
          let limited := (s.group t).claimsHeld = s.claimLimit.toNat ∨ (s.group t).undoCount = some 1024
          (limited → refused .claimLimit) ∧
          (¬ limited →
            (1024 ≤ s.claims.length → refused .claimsFull) ∧
            (s.claims.length < 1024 → lacks p v 0 → refused .journalFull)))))

/-- R2, R4, R34, R35, R52, R53, R54, R59, R84: a PLAIN write of a FREE tag to an unclaimed protected line, which no
check of R84 refuses, opens the group. Before anything else of the event, the group is OPEN with the sequence counter's
value, the tag map's partition and one claim; the claim is in the table with record index 1 and the next UNDO slot; the
UNDO record's two slots are WAITING at the head, behind a PAD where one slot is left before the ring's end, in the
sequence's span, and the partition has one reservation more; the request is an entry of the group; the sequence counter
goes on from its next value, with 1 after 0xFFFFFFFF, to the first that no group and no span carries; every other group
and partition is as it was, and the rest of the part. -/
def Obligations.OpeningWriteOpensGroup : Prop :=
  ∀ (s : State) (r : HostRequest) (i : EntryId) (t : Tag), s.admits r = true → s.freeEntry = some i →
    r.kind = .write → intentOf r.intent = some .plain → tagOf r.tag = some t →
    s.protectedLine (lineOf r.address) = true → s.claimOf (lineOf r.address) = none →
    s.groupState t = .free → s.claimRefusal t = none →
    let p := s.tagMap[t]
    let slot := (s.part p).undoSlot (s.size p)
    let next := fun v : Word => if v = 0xFFFFFFFF#32 then 1 else v + 1
    ∃ x : State, exec (.hostRequest r) s = .next x.settle ∧
      x.group t = ⟨.opened, some s.seqCounter, some p, 1, some 1, 0, none, none, none, none⟩ ∧
      (∀ u, u ≠ t → x.group u = s.group u) ∧
      x.claims = s.claims ++ [⟨lineOf r.address, t, false, 1, slot⟩] ∧
      x.requests = s.requests ++
        [⟨i, r, lineOf r.address, .newClaim, .ordered, some t, some ⟨p, slot⟩, false, none,
          some ⟨t, s.seqCounter, p⟩⟩] ∧
      x.part p = { s.withUndo p ⟨t, s.seqCounter, 1, some (lineOf r.address)⟩ with
        reserved := (s.part p).reserved + 1 } ∧
      (∀ q, q ≠ p → x.part q = s.part q) ∧
      (let carried := fun v : Word => (∃ u, x.groupState u ≠ .free ∧ (x.group u).sequence = some v) ∨
          ∃ q, ∃ y ∈ (x.part q).spans, y.sequence = some v
       ∃ k, x.seqCounter = next^[k + 1] s.seqCounter ∧ (∀ j, j < k → carried (next^[j + 1] s.seqCounter)) ∧
         (s.seqCounter ≠ 0 → (∀ q, (s.part q).spans.length ≤ 64) → ¬ carried x.seqCounter)) ∧
      x = { s with
        responses := [], mdo := [], joined := 0
        groups := x.groups, claims := x.claims, partitions := x.partitions, requests := x.requests
        seqCounter := x.seqCounter }

/-- R5, R31, R52, R54, R59, R84: a PLAIN write of an OPEN group joins it. To an unclaimed line, where no check refuses
it, it grows the group by one claim and one UNDO record, whose two slots are WAITING at the head, behind a PAD where
one slot is left before the ring's end, in the sequence's span; it takes no further reservation and no sequence, and
the request is an entry of the group. To a line the group already claims it changes no claim, no group and no
partition. -/
def Obligations.WriteJoinsOpenGroup : Prop :=
  ∀ (s : State) (r : HostRequest) (i : EntryId) (t : Tag) (v : Word) (p : PartId) (n : Nat), s.admits r = true →
    s.freeEntry = some i → r.kind = .write → intentOf r.intent = some .plain → tagOf r.tag = some t →
    s.protectedLine (lineOf r.address) = true → s.groupState t = .opened → (s.group t).sequence = some v →
    (s.group t).partition = some p → (s.group t).undoCount = some n →
    let slot := (s.part p).undoSlot (s.size p)
    (s.claimOf (lineOf r.address) = none → s.claimRefusal t = none →
      exec (.hostRequest r) s =
        .next (State.settle { s with
          responses := [], mdo := [], joined := 0
          groups := s.groups.set t
            { s.group t with claimsHeld := (s.group t).claimsHeld + 1, undoCount := some (n + 1) }
          claims := s.claims ++ [⟨lineOf r.address, t, false, n + 1, slot⟩]
          partitions := s.partitions.set p (s.withUndo p ⟨t, v, n + 1, some (lineOf r.address)⟩)
          requests := s.requests ++
            [⟨i, r, lineOf r.address, .newClaim, .ordered, some t, some ⟨p, slot⟩, false, none,
              some ⟨t, v, p⟩⟩] })) ∧
    (∀ c, s.claimOf (lineOf r.address) = some c → c.tag = t →
      exec (.hostRequest r) s =
        .next (State.settle { s with
          responses := [], mdo := [], joined := 0
          requests := s.requests ++
            [⟨i, r, lineOf r.address, .ownClaim, .ordered, some t, none, false, none, some ⟨t, v, p⟩⟩] }))

/-- R82, R9, R10, R40, R41, R84: a COMMIT in DRAINING or SEALING is BUSY, in UNWINDING or HALTED REVOKED, in BROKEN
BROKEN. One that carries a write to an unprotected line, or a read of any line but one of a BROKEN group, its own
group's lines and another's among them, takes its OPEN group to DRAINING as its commit request, and with a FREE group
joins the table without a group; the read joins in ORDERED, and in WAIT_UNWIND where the line's group is UNWINDING.
One that carries a write to a line its OPEN group claims takes the group to DRAINING; one that carries a write to an
unclaimed protected line, which no check of R84 refuses, takes the new claim, opening its group where it is FREE, and
its group is DRAINING with it as its commit request in the same event. -/
def Obligations.CommitByGroupState : Prop :=
  ∀ (s : State) (r : HostRequest) (t : Tag), s.admits r = true → intentOf r.intent = some .commit →
    tagOf r.tag = some t →
    (s.groupState t = .draining ∨ s.groupState t = .sealing → exec (.hostRequest r) s = s.refusing r .busy) ∧
    (s.groupState t = .unwinding ∨ s.groupState t = .halted → exec (.hostRequest r) s = s.refusing r .revoked) ∧
    (s.groupState t = .broken → exec (.hostRequest r) s = s.refusing r .broken) ∧
    (∀ i, s.freeEntry = some i →
      let line := lineOf r.address
      let drains := fun (e : Entry) => exec (.hostRequest r) s =
        .next (State.settle { s with
          responses := [], mdo := [], joined := 0, requests := s.requests ++ [e]
          groups := s.groups.set t { s.group t with state := .draining, commitRequest := some i } })
      (∀ path phase,
          (r.kind = .read ∧ path = .read ∧
            ((s.claimOf line = none ∧ phase = .ordered) ∨
              ∃ c, s.claimOf line = some c ∧
                (((s.groupState c.tag = .opened ∨ s.groupState c.tag = .draining ∨ s.groupState c.tag = .sealing) ∧
                    phase = .ordered) ∨
                  (s.groupState c.tag = .unwinding ∧ phase = .waitUnwind)))) ∨
          (r.kind = .write ∧ s.regionOf line = none ∧ path = .unjournaled ∧ phase = .ordered) →
        (s.groupState t = .opened →
          drains { newEntry i r path phase with group := some t, member := some (s.memberOf t) }) ∧
        (s.groupState t = .free →
          exec (.hostRequest r) s =
            .next (State.settle { s with
              responses := [], mdo := [], joined := 0
              requests := s.requests ++ [newEntry i r path phase] }))) ∧
      (∀ v p, r.kind = .write → s.protectedLine line = true → s.groupState t = .opened →
        (s.group t).sequence = some v → (s.group t).partition = some p →
        let slot := (s.part p).undoSlot (s.size p)
        (∀ c, s.claimOf line = some c → c.tag = t →
          drains ⟨i, r, line, .ownClaim, .ordered, some t, none, false, none, some ⟨t, v, p⟩⟩) ∧
        (∀ n, (s.group t).undoCount = some n → s.claimOf line = none → s.claimRefusal t = none →
          exec (.hostRequest r) s =
            .next (State.settle { s with
              responses := [], mdo := [], joined := 0
              groups := s.groups.set t
                { s.group t with
                  state := .draining, commitRequest := some i
                  claimsHeld := (s.group t).claimsHeld + 1, undoCount := some (n + 1) }
              claims := s.claims ++ [⟨line, t, false, n + 1, slot⟩]
              partitions := s.partitions.set p (s.withUndo p ⟨t, v, n + 1, some line⟩)
              requests := s.requests ++
                [⟨i, r, line, .newClaim, .ordered, some t, some ⟨p, slot⟩, false, none, some ⟨t, v, p⟩⟩] }))) ∧
      (r.kind = .write → s.protectedLine line = true → s.groupState t = .free → s.claimOf line = none →
        s.claimRefusal t = none →
        let p := s.tagMap[t]
        let slot := (s.part p).undoSlot (s.size p)
        ∃ x : State, exec (.hostRequest r) s = .next x.settle ∧
          x.group t = ⟨.draining, some s.seqCounter, some p, 1, some 1, 0, none, none, some i, none⟩ ∧
          (∀ u, u ≠ t → x.group u = s.group u) ∧
          x.part p = { s.withUndo p ⟨t, s.seqCounter, 1, some line⟩ with reserved := (s.part p).reserved + 1 } ∧
          (∀ q, q ≠ p → x.part q = s.part q) ∧
          x = { s with
            responses := [], mdo := [], joined := 0, groups := x.groups, partitions := x.partitions
            claims := s.claims ++ [⟨line, t, false, 1, slot⟩]
            requests := s.requests ++
              [⟨i, r, line, .newClaim, .ordered, some t, some ⟨p, slot⟩, false, none, some ⟨t, s.seqCounter, p⟩⟩]
            seqCounter := x.seqCounter }))

/-- R82, R14, R15, R20, R23, R95: an ABORT by the state of its group. FREE: EMPTY. DRAINING, SEALING: CLOSING. BROKEN:
BROKEN. UNWINDING by the host, or with an abort parked: BUSY; by a revocation with none parked: parked. HALTED:
RELEASED, and the group is FREE. OPEN: the group unwinds with origin HOST, joins the waiting order, and the ABORT is
its parked abort; each entry of the group is answered REVOKED, and leaves unless its access is outstanding, when it
stays answered and without a group; the slots of an entry in ORDERED that took a new claim are given PAD contents
(R60); nothing is logged, and no other group, entry or claim changes. The order of the responses is the model's choice
(log 6). -/
def Obligations.AbortByGroupState : Prop :=
  ∀ (s : State) (r : HostRequest) (i : EntryId) (t : Tag), s.admits r = true → s.freeEntry = some i →
    intentOf r.intent = some .abort → tagOf r.tag = some t →
    let entry : Entry :=
      ⟨i, { r with data := [] }, lineOf r.address, .abort, .awaitOutcome, none, none, false, none, none⟩
    (s.groupState t = .free → exec (.hostRequest r) s = s.refusing r .empty) ∧
    (s.groupState t = .draining ∨ s.groupState t = .sealing → exec (.hostRequest r) s = s.refusing r .closing) ∧
    (s.groupState t = .broken → exec (.hostRequest r) s = s.refusing r .broken) ∧
    (s.groupState t = .unwinding → (s.group t).unwindOrigin = some .host ∨ (s.group t).parkedAbort.isSome = true →
      exec (.hostRequest r) s = s.refusing r .busy) ∧
    (s.groupState t = .unwinding → (s.group t).unwindOrigin = some .revoke → (s.group t).parkedAbort = none →
      exec (.hostRequest r) s =
        .next { s with
          responses := [], mdo := [], joined := 0
          requests := s.requests ++ [entry]
          groups := s.groups.set t { s.group t with parkedAbort := some i } }) ∧
    (s.groupState t = .halted →
      exec (.hostRequest r) s =
        .next (State.settle { s with
          mdo := [], joined := 0, responses := [⟨r.hostId, .released, []⟩], groups := s.groups.set t Group.cleared })) ∧
    (s.groupState t = .opened → s.members t = [] ∨ s.entriesNumbered →
      ∃ x : State, exec (.hostRequest r) s = .next x.settle ∧
        x.responses = (s.members t).map (fun e => ⟨e.request.hostId, .revoked, []⟩) ∧
        x.requests = s.requests.filterMap (fun e =>
          if e.group = some t then
            if e.phase = .capturing ∨ e.phase = .storing ∨ e.phase = .loading then
              some { e with answered := true, group := none }
            else none
          else some e) ++ [entry] ∧
        x.partitions = (((s.members t).filterMap (fun e =>
          if e.phase = .ordered ∧ e.path = .newClaim then e.undo else none)).foldl
            (fun y u => y.padUndo u) s).partitions ∧
        x = { s with
          responses := x.responses, mdo := [], joined := 1, requests := x.requests, partitions := x.partitions
          groups := s.groups.set t
            { s.group t with
              state := .unwinding, unwindOrigin := some .host, revokeCause := none, commitRequest := none
              parkedAbort := some i }
          engine := { s.engine with waiting := s.engine.waiting ++ [t] } })

/-! ### The request table (R88 to R95) -/

/-- R88, R89, R90, R91, R98, R99: an entry in ORDERED. While an earlier entry on its line has an incomplete access,
and in SHUTDOWN, it stays. Otherwise, on a line that CONFIG or RECOVERING closes, it is answered NOT_READY and
leaves; and elsewhere its path's access is issued and it enters that access's phase. -/
def Obligations.EntryLeavesOrdered : Prop :=
  ∀ (s : State) (e : Entry) (before after : List Entry), s.direct = true → s.requests = before ++ e :: after →
    (∀ x ∈ before, x.index ≠ e.index) → e.phase = .ordered →
    ((∃ x ∈ before, x.line = e.line ∧ x.phase ≠ .awaitOutcome) ∨ s.controller = .shutdown →
      exec (.leaveOrdered e.index) s = .next s.begin) ∧
    ((∀ x ∈ before, x.line = e.line → x.phase = .awaitOutcome) → s.controller ≠ .shutdown →
      let enters := fun phase => s.begin.modEntry e.index (fun x => { x with phase := phase })
      (s.controller = .config ∨ s.controller = .recovering → s.protectedLine e.line = true →
        exec (.leaveOrdered e.index) s =
          .next ((s.begin.respond e.request.hostId .notReady []).dropEntry e.index).settle) ∧
      ((s.controller ≠ .config ∧ s.controller ≠ .recovering) ∨ s.protectedLine e.line = false →
        (e.path = .read → exec (.leaveOrdered e.index) s =
          .next ((enters .loading).issue .hostRead (.entry e.index) e.request.address e.request.length []).settle) ∧
        (e.path = .newClaim → exec (.leaveOrdered e.index) s =
          .next ((enters .capturing).issue .captureRead (.entry e.index) e.line 64 []).settle) ∧
        (e.path = .unjournaled ∨ e.path = .ownClaim → exec (.leaveOrdered e.index) s =
          .next ((enters .storing).issue .homeWrite (.entry e.index) e.request.address e.request.length
            e.request.data).settle)))

/-- R89, R93, R94, R10, R11: the read of an entry in LOADING returns. With data: an answered entry leaves; an entry is
answered OKAY with its data and leaves, or EMPTY as a COMMIT without a group; a group's commit request waits in
AWAIT_OUTCOME with its data. With an error it is answered ARRAY_ERROR and leaves, and a commit request takes its
commit with it: the group is then revoked with cause ARRAY (the order of the responses is the model's choice, log 6).
-/
def Obligations.HostReadReturns : Prop :=
  ∀ (s : State) (n : Word) (r : PortRecord) (e : Entry), s.direct = true → s.recordOf n = some r →
    r.purpose = .hostRead → r.ref = .entry e.index → s.entry e.index = some e →
    e.phase = .loading →
    let b := s.begin.forget n
    let answer := fun status data => ((b.respond e.request.hostId status data).dropEntry e.index)
    (∀ a, e.answered = true → exec (.hostReadDone n a) s = .next (b.dropEntry e.index).settle) ∧
    (∀ d, e.answered = false →
      (intentOf e.request.intent ≠ some .commit →
        exec (.hostReadDone n (.okay d)) s = .next (answer .okay (d.take r.length)).settle) ∧
      (intentOf e.request.intent = some .commit → e.group = none →
        exec (.hostReadDone n (.okay d)) s = .next (answer .empty (d.take r.length)).settle) ∧
      (intentOf e.request.intent = some .commit → e.group.isSome = true → e.path = .read →
        exec (.hostReadDone n (.okay d)) s =
          .next (b.modEntry e.index (fun x =>
            { x with phase := .awaitOutcome, readData := some (d.take r.length) })).settle)) ∧
    (e.answered = false →
      (e.group = none → exec (.hostReadDone n .error) s = .next (answer .arrayError []).settle) ∧
      (∀ t, e.group = some t → (s.group t).commitRequest = some e.index →
        exec (.hostReadDone n .error) s =
          .next (((answer .arrayError []).modGroup t (fun g => { g with commitRequest := none })).revoke t
            .array).settle))

/-- R59, R65, R71, R91, R94: the capture read of an entry in CAPTURING returns the old contents of its line. Its record
leaves the outstanding set. Where the partition is READY and the controller not in SHUTDOWN, both slots of the entry's
UNDO record are decided in that event: the header slot as R196 lays it out, with the check value over both slots, and
the data slot as the line's old contents. In SHUTDOWN, or where the partition is not READY (FAULTED), no contents are
decided and every partition stays as it was. In each case the entry enters LOGGING, or leaves without a second response
if it was answered. -/
def Obligations.CaptureReturns : Prop :=
  ∀ (s : State) (n : Word) (r : PortRecord) (e : Entry) (u : UndoRef) (d : Bytes),
    s.direct = true → s.recordOf n = some r → r.purpose = .captureRead → r.ref = .entry e.index →
    s.entry e.index = some e → e.phase = .capturing → e.undo = some u →
    let cap := s.capacity u.partition
    let part := s.part u.partition
    let k := part.markIndex cap u.slot
    ∃ x : State, exec (.captureReadDone n (.okay d)) s = .next x.settle ∧
      x = { s with
        responses := [], mdo := [], joined := 0, partitions := x.partitions
        outstanding := s.outstanding.filter (fun y => y.number != n)
        requests :=
          if e.answered then s.requests.filter (fun y => y.index != e.index)
          else s.requests.map (fun y => if y.index = e.index then { y with phase := .logging } else y) } ∧
      (s.controller = .shutdown ∨ part.state ≠ .ready → x.partitions = s.partitions) ∧
      (∀ (info : RecordInfo) (m m' : Mark), s.controller ≠ .shutdown → part.state = .ready →
        part.markIndex cap (u.slot + 1) = k + 1 → part.marks[k]? = some m → part.marks[k + 1]? = some m' →
        m.record = some info →
        (∀ q, q ≠ u.partition → x.part q = s.part q) ∧
        x.part u.partition = { part with
          marks := (part.marks.set k
            { m with
              kind := .undoHeader, progress := .ready
              contents := undoSlotBytes part.epoch (part.lapOf cap u.slot) info (d.take r.length) }).set (k + 1)
            { m' with
              kind := .undoData, progress := .ready, contents := d.take r.length, record := some info } })

/-- R6, R11, R37, R38, R60, R65, R192: the capture read of an entry in CAPTURING fails. In a partition that runs, the
two slots of its UNDO record are given the contents of a two-slot PAD, and no other mark changes. Where a revocation,
an abort or the warning came first the entry leaves, and that is all: nothing is answered or logged, and the claim
stays (that CAPTURE_FAILED is not logged then is the model's deduction, log 32). While its group is OPEN or DRAINING,
the entry and each of the group's own-claim entries in ORDERED on its line is answered ARRAY_ERROR and leaves (the
order of the responses is log 6's choice), CAPTURE_FAILED is logged (in a full list the oldest entry is discarded for
it, the dropped count increases by one, up to 255, and INCIDENT_LOST is raised), the claim leaves the table and claims
held decreases by one. A group left without a claim is FREE, and its reservation is given back, where it was OPEN or
the commit request was one of those refused; a group that loses its commit request with claims left is revoked with
cause ARRAY; any other goes on. -/
def Obligations.CaptureFails : Prop :=
  ∀ (s : State) (n : Word) (r : PortRecord) (e : Entry) (u : UndoRef), s.direct = true → s.recordOf n = some r →
    r.purpose = .captureRead → r.ref = .entry e.index → s.entry e.index = some e → e.phase = .capturing →
    e.undo = some u →
    let alive := fun t => s.groupState t = .opened ∨ s.groupState t = .draining
    let cap := s.capacity u.partition
    let part := s.part u.partition
    let k := part.markIndex cap u.slot
    let padded := fun (x : State) =>
      (∀ q, q ≠ u.partition → x.part q = s.part q) ∧
      (s.journalRuns u.partition = false → x.part u.partition = part) ∧
      (s.journalRuns u.partition = true →
        ∀ m m', part.markIndex cap (u.slot + 1) = k + 1 → part.marks[k]? = some m → part.marks[k + 1]? = some m' →
        x.part u.partition = { part with
          marks := (part.marks.set k
            { m with
              kind := .padFirst 2, progress := .ready
              contents := padSlotBytes 2 part.epoch (part.lapOf cap u.slot), record := none }).set (k + 1)
            { m' with kind := .padSecond, progress := .ready, contents := List.replicate 64 0, record := none } })
    let outcome := exec (.captureReadDone n .error) s
    let left := s.outstanding.filter (fun y => y.number != n)
    (e.answered = true ∨ (∀ t, e.group = some t → ¬ alive t) →
      ∃ x : State, outcome = .next x.settle ∧ padded x ∧
        x = { s with
          responses := [], mdo := [], joined := 0, outstanding := left, partitions := x.partitions
          requests := s.requests.filter (fun y => y.index != e.index) }) ∧
    (∀ t m c p, e.answered = false → e.group = some t → alive t → e.member = some m → s.claimOf e.line = some c →
      c.tag = t → (s.group t).partition = some p →
      let refused := e :: s.requests.filter (fun y => decide (y.group = some t) && decide (y.line = e.line) &&
        decide (y.path = .ownClaim) && decide (y.phase = .ordered))
      let lost := ∃ y ∈ refused, (s.group t).commitRequest = some y.index
      let held := (s.group t).claimsHeld
      ∃ x : State, padded x ∧
        x.incidents =
          (⟨.captureFailed, s.tickCounter, some m.tag, some m.sequence, some m.partition, some e.line, none⟩ ::
            s.incidents).take 8 ∧
        x = { s with
          mdo := [], joined := 0, outstanding := left, partitions := x.partitions
          responses := refused.map (fun y => ⟨y.request.hostId, .arrayError, []⟩)
          requests := s.requests.filter (fun y => refused.all (fun z => y.index != z.index))
          claims := s.claims.filter (fun c => c.line != e.line)
          groups := s.groups.set t { s.group t with claimsHeld := held - 1 }
          incidents := x.incidents
          dropped := if s.incidents.length < 8 then s.dropped else min 255 (s.dropped + 1)
          flags := if s.incidents.length < 8 then s.flags else s.flags ||| 0x020#9 } ∧
        (held ≤ 1 → s.groupState t = .opened ∨ lost →
          outcome = .next (State.settle { x with
            groups := x.groups.set t Group.cleared
            partitions := x.partitions.set p { x.part p with reserved := (x.part p).reserved - 1 } })) ∧
        (2 ≤ held → lost →
          outcome = .next ((x.modGroup t (fun g => { g with commitRequest := none })).revoke t .array).settle) ∧
        (2 ≤ held ∨ s.groupState t = .draining → ¬ lost → outcome = .next x.settle))

/-- R90, R92, R94, R10, R11, R17, R192: the home write of an entry in STORING ends. Acknowledged: an answered entry
leaves; an entry is answered OKAY and leaves, or EMPTY as a COMMIT without a group; a group's commit request waits in
AWAIT_OUTCOME. Failed: it is answered ARRAY_ERROR and leaves; of a member HOME_WRITE_FAILED is logged, the group loses
its commit request where the entry is that, and is revoked with cause ARRAY. That HOME_WRITE_FAILED is logged for an
answered entry that was a member of a group, in every controller state, is the model's deduction (logs 18 and 35);
that the member's own response stands before those of its group is the model's choice (log 6). What logging an
incident does, in every state: it is stamped and inserted at index 0; a list of 8 loses its oldest entry, the dropped
count increases by one unless it is 255, and INCIDENT_LOST is raised. -/
def Obligations.HomeWriteEnds : Prop :=
  (∀ (i : Incident) (x : State),
    (x.incidents.length < 8 → x.log i = { x with incidents := { i with stamp := x.tickCounter } :: x.incidents }) ∧
    (8 ≤ x.incidents.length →
      x.log i = { x with
        incidents := { i with stamp := x.tickCounter } :: x.incidents.take 7
        dropped := if x.dropped < 255 then x.dropped + 1 else 255
        flags := x.flags ||| 0x020#9 })) ∧
  ∀ (s : State) (n : Word) (r : PortRecord) (e : Entry), s.direct = true → s.recordOf n = some r →
    r.purpose = .homeWrite → r.ref = .entry e.index → s.entry e.index = some e → e.phase = .storing →
    let b := s.begin.forget n
    let answer := fun status => ((b.respond e.request.hostId status []).dropEntry e.index)
    (∀ d, (e.answered = true → exec (.homeWriteDone n (.okay d)) s = .next (b.dropEntry e.index).settle) ∧
      (e.answered = false → intentOf e.request.intent ≠ some .commit →
        exec (.homeWriteDone n (.okay d)) s = .next (answer .okay).settle) ∧
      (e.answered = false → intentOf e.request.intent = some .commit → e.group = none →
        exec (.homeWriteDone n (.okay d)) s = .next (answer .empty).settle) ∧
      (e.answered = false → intentOf e.request.intent = some .commit → e.group.isSome = true → e.path ≠ .read →
        exec (.homeWriteDone n (.okay d)) s =
          .next (b.modEntry e.index (fun x => { x with phase := .awaitOutcome, readData := none })).settle)) ∧
    (e.answered = true → e.member = none →
      exec (.homeWriteDone n .error) s = .next (b.dropEntry e.index).settle) ∧
    (e.answered = false → e.group = none → e.member = none →
      exec (.homeWriteDone n .error) s = .next (answer .arrayError).settle) ∧
    (∀ m, e.member = some m →
      let incident : Incident :=
        ⟨.homeWriteFailed, 0, some m.tag, some m.sequence, some m.partition, some e.line, none⟩
      let refused := (answer .arrayError).log incident
      (e.answered = true → exec (.homeWriteDone n .error) s = .next ((b.dropEntry e.index).log incident).settle) ∧
      (∀ t, e.answered = false → e.group = some t →
        ((s.group t).commitRequest ≠ some e.index →
          exec (.homeWriteDone n .error) s = .next (refused.revoke t .array).settle) ∧
        ((s.group t).commitRequest = some e.index →
          exec (.homeWriteDone n .error) s =
            .next ((refused.modGroup t (fun g => { g with commitRequest := none })).revoke t .array).settle)))

/-- R12, R58: a DRAINING group none of whose entries has an incomplete access enters SEALING, and its COMMIT record,
with its tag, sequence and undo count, stands READY at the head, paid from its reservation. A group that is not
DRAINING, one of whose entries has an incomplete access, or a part in SHUTDOWN, is left as it is. -/
def Obligations.DrainPlacesCommit : Prop :=
  ∀ (s : State) (t : Tag), s.direct = true →
    (s.groupState t ≠ .draining ∨ s.controller = .shutdown ∨
        (∃ e ∈ s.requests, e.group = some t ∧ e.phase ≠ .awaitOutcome) →
      exec (.drainComplete t) s = .next s.begin) ∧
    (∀ p v c, s.groupState t = .draining → (∀ e ∈ s.requests, e.group = some t → e.phase = .awaitOutcome) →
      s.controller ≠ .shutdown → (s.group t).partition = some p → (s.part p).state = .ready →
      (s.group t).sequence = some v → (s.group t).undoCount = some c →
      let part := s.part p
      let info : RecordInfo := ⟨t, v, c, none⟩
      exec (.drainComplete t) s =
        .next (State.settle { s with
          responses := [], mdo := [], joined := 0
          groups := s.groups.set t { s.group t with state := .sealing }
          partitions := s.partitions.set p
            { part with
              marks := part.marks ++
                [⟨.commit, .ready, 1, closingSlotBytes 0xA2 part.epoch part.head.lap info, some info⟩]
              spans := extendSpans v 1 part.spans
              head := part.head.advance (s.capacity p) 1
              reserved := part.reserved - 1 } }))

/-! ### The journal and its front (R51, R61 to R70) -/

/-- R61, R65: the READY run of a partition that runs. A slot is issued when it is READY and no slot before it, from
the durable tail, is WAITING: each such slot becomes IN_FLIGHT, and its write joins the outstanding set, in ring
order. No other mark changes; and in a partition that does not run nothing happens. -/
def Obligations.ReadyRunIsIssued : Prop :=
  ∀ (s : State) (p : PartId), s.direct = true →
    (s.journalRuns p = false → exec (.slotIssue p) s = .next s.begin) ∧
    (s.journalRuns p = true →
      let part := s.part p
      let due := fun k => decide (part.marks[k]?.map (·.progress) = some .ready) &&
        (part.marks.take k).all (fun m => m.progress != .waiting)
      ∃ (t : State) (records : List PortRecord), exec (.slotIssue p) s = .next t ∧
        t.outstanding = s.outstanding ++ records ∧
        records.map (fun r => (r.purpose, r.ref, r.address, r.length, some r.data)) =
          ((List.range part.marks.length).filter due).map (fun k =>
            let slot := (part.durableTail.advance (s.capacity p) k).slot
            (.slotWrite, .slot p slot, s.slotAddr p slot, 64, part.marks[k]?.map (·.contents))) ∧
        t.part p = { part with marks := (t.part p).marks } ∧
        (∀ k, (t.part p).marks[k]? =
          part.marks[k]?.map (fun m => if due k then { m with progress := .inFlight, attempt := 1 } else m)) ∧
        (∀ q, q ≠ p → t.part q = s.part q) ∧
        t = { s with
          responses := [], mdo := [], joined := 0, outstanding := t.outstanding, issueCounter := t.issueCounter
          partitions := t.partitions })

/-- R51, R62, R63, R64, R65, R66, R71: the write of a ring slot ends. Acknowledged with an earlier slot not
acknowledged, its mark alone changes: nothing counts yet. Acknowledged with none before it outstanding, the front
passes it and the slots acknowledged before it that follow. Each record whose last slot is passed is handed on, in
ring order: of an UNDO record the claim becomes logged and the entry that waits for it in LOGGING issues its home
write; in a partition that runs, the COMMIT record of a SEALING group completes it and the UNWOUND record of the group
the engine closes is reported to the engine. Then retirement runs, once, where a closing record was handed on or a PAD
was passed. So the header slot of an UNDO record alone hands nothing on, and the last slot of a PAD hands nothing on
but runs retirement. At a second attempt SLOT_RETRIED is logged, before what is handed on (the model's choice, log
38). Failed at its first attempt, in a partition that runs, it is written again with the same contents. Failed in
SHUTDOWN or in a partition that is not READY, it is forgotten, and its mark keeps its progress (the model's deduction,
log 14). -/
def Obligations.SlotWriteEnds : Prop :=
  ∀ (s : State) (n : Word) (p : PartId) (k : Nat) (m : Mark), s.direct = true → s.slotAnswered n p k m →
    let part := s.part p
    let b := s.begin.forget n
    let slotOf := fun i => (part.durableTail.advance (s.capacity p) i).slot
    let slot := slotOf k
    let marked := b.setPart p { part with marks := part.marks.set k { m with progress := .acknowledged } }
    let acknowledged := if m.attempt = 2 then
        marked.log ⟨.slotRetried, 0, m.record.map (·.tag), m.record.map (·.sequence), some p, m.record.bind (·.line),
          some slot⟩
      else marked
    let sealing := fun (x : State) (info : RecordInfo) =>
      s.journalRuns p = true ∧ x.groupState info.tag = .sealing ∧ (x.group info.tag).sequence = some info.sequence
    let closing := fun (x : State) (info : RecordInfo) =>
      s.journalRuns p = true ∧ x.groupState info.tag = .unwinding ∧
        (x.group info.tag).sequence = some info.sequence ∧ x.engine.state = .closing ∧
        x.engine.current = some info.tag
    let handOn := fun (x : State) (y : Mark × Nat) =>
      let header := slotOf (k + y.2) - 1
      match y.1.kind, y.1.record with
      | .undoData, some info =>
        let logged : State := { x with claims := x.claims.map (fun c : Claim =>
          if c.tag = info.tag ∧ c.undoSlot = header then { c with logged := true } else c) }
        match x.requests.find? (fun e => decide (e.phase = .logging) && decide (e.undo = some ⟨p, header⟩)) with
        | some e =>
          (logged.modEntry e.index (fun z => { z with phase := .storing })).issue .homeWrite (.entry e.index)
            e.request.address e.request.length e.request.data
        | none => logged
      | .commit, some info => if sealing x info then x.completeGroup info.tag else x
      | .unwound, some info => if closing x info then x.reportRestored info.tag else x
      | _, _ => x
    let retires := fun y : Mark => match y.kind, y.record with
      | .commit, some info => decide (sealing s info)
      | .unwound, some info => decide (closing s info)
      | .padFirst length, _ => decide (length = 1)
      | .padSecond, _ => true
      | _, _ => false
    (∀ d, (∃ x ∈ part.marks.take k, x.progress ≠ .acknowledged) →
      exec (.slotWriteDone n (.okay d)) s = .next acknowledged.settle) ∧
    (∀ d (more : List Mark), (∀ x ∈ part.marks.take k, x.progress = .acknowledged) → m.progress ≠ .acknowledged →
      more <+: part.marks.drop (k + 1) → (∀ x ∈ more, x.progress = .acknowledged) →
      (∀ x, part.marks[k + 1 + more.length]? = some x → x.progress ≠ .acknowledged) →
      let passed := { m with progress := .acknowledged } :: more
      let handed := passed.zipIdx.foldl handOn acknowledged
      exec (.slotWriteDone n (.okay d)) s =
        .next (if passed.any retires then handed.retire p else handed).settle) ∧
    (∀ d, s.frontMeets p k →
      (m.kind = .undoHeader → exec (.slotWriteDone n (.okay d)) s = .next acknowledged.settle) ∧
      (m.kind = .padFirst 1 ∨ m.kind = .padSecond →
        exec (.slotWriteDone n (.okay d)) s = .next (acknowledged.retire p).settle)) ∧
    (s.journalRuns p = true → m.attempt = 1 →
      exec (.slotWriteDone n .error) s =
        .next ((b.setPart p { part with marks := part.marks.set k { m with attempt := 2 } }).issue .slotWrite
          (.slot p slot) (s.slotAddr p slot) 64 m.contents).settle) ∧
    (s.journalRuns p = false → exec (.slotWriteDone n .error) s = .next b.settle)

/-- R18, R62, R70, R192: the second attempt of a ring slot write fails in a partition that runs. The slot is FAILED
and the partition FAULTED; PARTITION_FAULT is raised and PARTITION_FAULTED logged; then each of its groups in OPEN,
DRAINING or SEALING is revoked with cause PARTITION_FAULT, logged and joins the waiting order, in ascending order of
tag. No other group changes, no claim, and no partition in which an entry of those groups has no records. -/
def Obligations.SecondSlotFailureFaultsPartition : Prop :=
  ∀ (s : State) (n : Word) (p : PartId) (k : Nat) (m : Mark), s.direct = true → s.slotAnswered n p k m →
    s.journalRuns p = true → m.attempt = 2 →
    let part := s.part p
    let hit := fun t => decide ((s.group t).partition = some p) &&
      (s.groupState t == .opened || s.groupState t == .draining || s.groupState t == .sealing)
    let hits := (List.finRange 15).filter hit
    let faulted : Incident :=
      ⟨.partitionFaulted, s.tickCounter, m.record.map (·.tag), m.record.map (·.sequence), some p,
        m.record.bind (·.line), some (part.durableTail.advance (s.capacity p) k).slot⟩
    let revoked := fun t : Tag => (⟨.groupRevoked, s.tickCounter, some t, some ((s.group t).sequence.getD 0), some p,
      none, some 3⟩ : Incident)
    ∃ x : State, exec (.slotWriteDone n .error) s = .next x.settle ∧
      x.part p = { part with state := .faulted, marks := part.marks.set k { m with progress := .failed } } ∧
      (∀ q, q ≠ p →
        (∀ e ∈ s.requests, ∀ t, e.group = some t → hit t = true → e.undo.map (·.partition) ≠ some q) →
        x.part q = s.part q) ∧
      (∀ t, x.group t =
        if hit t then
          { s.group t with
            state := .unwinding, unwindOrigin := some .revoke, revokeCause := some .partitionFault
            commitRequest := none }
        else s.group t) ∧
      x.engine = { s.engine with waiting := s.engine.waiting ++ hits } ∧
      x.flags.getLsbD 1 = true ∧ (hits ≠ [] → x.flags.getLsbD 4 = true) ∧
      x.incidents = ((faulted :: hits.map revoked).reverse ++ s.incidents).take 8 ∧
      x = { s with
        responses := x.responses, mdo := [], joined := hits.length
        outstanding := s.outstanding.filter (fun r => r.number != n), partitions := x.partitions
        groups := x.groups, engine := x.engine, requests := x.requests
        incidents := x.incidents, dropped := x.dropped, flags := x.flags }

/-- R64, R70, R113, R115, R192: a partition becomes FAULTED, whatever slot of it failed, while the unwind engine is
CLOSING a group of it. No other group waits or is hit, no entry waits to leave ORDERED or for an unwind, and no other
partition has a slot to issue. The unwind fails in that event: the group is BROKEN and keeps its claims; a parked ABORT
is answered BROKEN and leaves; RESTORE_FAILED is logged behind PARTITION_FAULTED, with the failed lines as they stand;
PARTITION_FAULT and GROUP_BROKEN are raised; the engine is IDLE; a RETRY_UNWIND of the group ends
FAILED(PARTITION_FAULT); and the UNWOUND record stays in the ring. -/
def Obligations.FaultFailsClosingUnwind : Prop :=
  ∀ (s : State) (n : Word) (p : PartId) (k : Nat) (m : Mark) (t : Tag), s.direct = true → s.slotAnswered n p k m →
    s.journalRuns p = true → m.attempt = 2 → s.engine.state = .closing → s.engine.current = some t →
    (s.group t).partition = some p → s.groupState t = .unwinding → s.engine.waiting = [] →
    s.engine.failedLines = 0 →
    (∀ v, (s.group v).partition = some p → s.groupState v ≠ .opened ∧ s.groupState v ≠ .sealing) →
    (∀ v, s.groupState v ≠ .draining) → (∀ e ∈ s.requests, e.phase ≠ .ordered ∧ e.phase ≠ .waitUnwind) →
    (∀ q, q ≠ p → ∀ x ∈ (s.part q).marks, x.progress ≠ .ready) →
    let part := s.part p
    let parked := ((s.group t).parkedAbort.bind s.entry).toList
    let faulted : Incident :=
      ⟨.partitionFaulted, s.tickCounter, m.record.map (·.tag), m.record.map (·.sequence), some p,
        m.record.bind (·.line), some (part.durableTail.advance (s.capacity p) k).slot⟩
    let broken : Incident :=
      ⟨.restoreFailed, s.tickCounter, some t, some ((s.group t).sequence.getD 0), some p, s.engine.firstFailed, some 0⟩
    let retries := s.engine.retryTag = some t
    ∃ x : State, exec (.slotWriteDone n .error) s = .next x ∧
      x.incidents = (broken :: faulted :: s.incidents).take 8 ∧
      x.flags.getLsbD 1 = true ∧ x.flags.getLsbD 2 = true ∧ (retries → x.flags.getLsbD 3 = true) ∧
      x = { s with
        mdo := [], joined := 0, outstanding := s.outstanding.filter (fun r => r.number != n)
        responses := parked.map (fun e => ⟨e.request.hostId, .broken, []⟩)
        requests := s.requests.filter (fun y => parked.all (fun e => y.index != e.index))
        partitions := s.partitions.set p
          { part with state := .faulted, marks := part.marks.set k { m with progress := .failed } }
        groups := s.groups.set t { s.group t with state := .broken, parkedAbort := none }
        engine := ⟨.idle, [], none, none, .waitStores, none, 0, none, if retries then none else s.engine.retryTag, []⟩
        cmdStatus := if retries then
            { s.cmdStatus with outcome := .failed, reason := some .partitionFault, first := none }
          else s.cmdStatus
        incidents := x.incidents, dropped := x.dropped, flags := x.flags }

/-- R36, R63, R91: the front passes the second slot of an UNDO record. The claim it was taken for becomes logged, and
the entry that waits for it in LOGGING enters STORING and its home write is issued; no slot after it has been
acknowledged, and nothing retires. At a second attempt SLOT_RETRIED is logged (R62). -/
def Obligations.FrontPassesUndo : Prop :=
  ∀ (s : State) (n : Word) (p : PartId) (k : Nat) (m : Mark) (info : RecordInfo) (d : Bytes), s.direct = true →
    s.slotAnswered n p k m → s.frontMeets p k → m.kind = .undoData → m.record = some info →
    let part := s.part p
    let slot := (part.durableTail.advance (s.capacity p) k).slot
    let retried := fun x : State => if m.attempt = 2 then
        x.log ⟨.slotRetried, 0, m.record.map (·.tag), m.record.map (·.sequence), some p, m.record.bind (·.line),
          some slot⟩
      else x
    let x := retried { s with
      responses := [], mdo := [], joined := 0, outstanding := s.outstanding.filter (fun r => r.number != n)
      partitions := s.partitions.set p { part with marks := part.marks.set k { m with progress := .acknowledged } }
      claims := s.claims.map (fun c : Claim =>
        if c.tag = info.tag ∧ c.undoSlot = slot - 1 then { c with logged := true } else c) }
    let waits := fun e : Entry => decide (e.phase = .logging) && decide (e.undo = some ⟨p, slot - 1⟩)
    (s.requests.find? waits = none → exec (.slotWriteDone n (.okay d)) s = .next x.settle) ∧
    (∀ e, s.requests.find? waits = some e →
      exec (.slotWriteDone n (.okay d)) s =
        .next ((x.modEntry e.index (fun y => { y with phase := .storing })).issue .homeWrite (.entry e.index)
          e.request.address e.request.length e.request.data).settle)

/-- R13, R26, R39, R41, R63, R64, R66: the front passes a COMMIT record. Of a SEALING group, in a partition that runs:
its claims leave the table, the reads that waited on their lines enter ORDERED, its commit request is answered
COMMITTED, with its data where it carried a read, and leaves; the group is FREE; and retirement runs in the partition.
In SHUTDOWN or in a FAULTED partition the record is not handed on, and of a group that is not, or no longer, in SEALING
it changes nothing: the group, its claims and its commit request stay as they are, and no retirement runs. At a second
attempt SLOT_RETRIED is logged (R62). -/
def Obligations.FrontPassesCommit : Prop :=
  ∀ (s : State) (n : Word) (p : PartId) (k : Nat) (m : Mark) (info : RecordInfo) (d : Bytes),
    s.direct = true → s.slotAnswered n p k m → s.frontMeets p k → m.kind = .commit → m.record = some info →
    let part := s.part p
    let slot := (part.durableTail.advance (s.capacity p) k).slot
    let retried := fun x : State => if m.attempt = 2 then
        x.log ⟨.slotRetried, 0, m.record.map (·.tag), m.record.map (·.sequence), some p, m.record.bind (·.line),
          some slot⟩
      else x
    let acknowledged : State := { s with
      responses := [], mdo := [], joined := 0, outstanding := s.outstanding.filter (fun r => r.number != n)
      partitions := s.partitions.set p { part with marks := part.marks.set k { m with progress := .acknowledged } } }
    let sealing := s.groupState info.tag = .sealing ∧ (s.group info.tag).sequence = some info.sequence
    (∀ e : Entry, s.journalRuns p = true → sealing → (s.group info.tag).commitRequest = some e.index →
      s.entry e.index = some e →
      exec (.slotWriteDone n (.okay d)) s = .next (State.settle (State.retire p (retried { acknowledged with
        claims := s.claims.filter (fun c => c.tag != info.tag)
        requests := (s.requests.map (fun y =>
          if y.phase = .waitUnwind ∧ y.line ∈ (s.claims.filter (fun c => c.tag == info.tag)).map (·.line) then
            { y with phase := .ordered }
          else y)).filter (fun y => y.index != e.index)
        responses := [⟨e.request.hostId, .committed, e.readData.getD []⟩]
        groups := s.groups.set info.tag Group.cleared })))) ∧
    (s.journalRuns p = false ∨ ¬ sealing →
      exec (.slotWriteDone n (.okay d)) s = .next (retried acknowledged).settle)

/-- R66, R67: a retirement run of a partition that runs. The spans that go are the front ones of the list, each
retirable and together within what the front has passed beyond the working tail, and as many as can go; the working
tail advances by their slots. When it then stands ahead of the durable tail and no header write is in flight, one is
issued with the next generation, to header slot 0 if that is even and 1 if it is odd, and carries the working tail. -/
def Obligations.RetirementAdvancesTail : Prop :=
  ∀ (s : State) (p : PartId), s.journalRuns p = true →
    let part := s.part p
    let cap := s.capacity p
    let passed := frontCount part.marks - part.durableTail.dist cap part.workingTail
    ∃ gone : List Span, part.spans = gone ++ ((s.retire p).part p).spans ∧
      (∀ x ∈ gone, ∀ v, x.sequence = some v → ∀ t : Tag, (s.group t).sequence = some v →
        s.groupState t = .free ∨ s.groupState t = .halted) ∧
      (gone.map (·.count)).sum ≤ passed ∧
      (∀ x rest, ((s.retire p).part p).spans = x :: rest →
        passed < (gone.map (·.count)).sum + x.count ∨
          ∃ v t, x.sequence = some v ∧ (s.group t).sequence = some v ∧ s.groupState t ≠ .free ∧
            s.groupState t ≠ .halted) ∧
      let tail := part.workingTail.advance cap (gone.map (·.count)).sum
      ((s.retire p).part p).workingTail = tail ∧
      (tail ≠ part.durableTail → part.headerWrite = none →
        ((s.retire p).part p).headerWrite =
          some ⟨tail, part.generation + 1, 1, headerCopy (s.size p) part.epoch (part.generation + 1) tail⟩ ∧
        ∃ r, (s.retire p).outstanding = s.outstanding ++ [r] ∧ r.purpose = .headerWrite ∧
          r.address = s.slotAddr p ((part.generation + 1).toNat % 2) ∧
          r.data = headerCopy (s.size p) part.epoch (part.generation + 1) tail) ∧
      (tail = part.durableTail ∨ part.headerWrite.isSome = true →
        ((s.retire p).part p).headerWrite = part.headerWrite ∧ (s.retire p).outstanding = s.outstanding)

/-- R65, R68, R69: a header write ends. Acknowledged: the durable tail and the generation become those written, the
slots passed lose their marks, and SLOT_RETRIED is logged at a second attempt; where the working tail has meanwhile
advanced, and the partition runs, a header write that carries it is issued, with the next generation. Failed at its
first attempt: it is issued again, but not in SHUTDOWN; in a FAULTED partition it is (the model's reading, log 16).
Failed at its second: HEADER_WRITE_FAILED is logged and none is in flight. -/
def Obligations.HeaderWriteEnds : Prop :=
  ∀ (s : State) (n : Word) (r : PortRecord) (p : PartId) (c : Nat) (w : HeaderWrite), s.direct = true →
    s.recordOf n = some r → r.purpose = .headerWrite → r.ref = .header p c → (s.part p).headerWrite = some w →
    let part := s.part p
    let b := s.begin.forget n
    let copySlot := w.generation.toNat % 2
    let idle := b.setPart p { part with headerWrite := none }
    let moved : Partition := { part with
      marks := part.marks.drop (part.durableTail.dist (s.capacity p) w.tail)
      durableTail := w.tail, generation := w.generation, headerWrite := none }
    let retried := fun x : State =>
      if w.attempt = 2 then x.log ⟨.slotRetried, 0, none, none, some p, none, some copySlot⟩ else x
    (∀ d,
      (part.workingTail = w.tail ∨ s.journalRuns p = false →
        exec (.headerWriteDone n (.okay d)) s = .next (retried (b.setPart p moved)).settle) ∧
      (part.workingTail ≠ w.tail → s.journalRuns p = true →
        let generation := w.generation + 1
        let copy := headerCopy (s.size p) part.epoch generation part.workingTail
        exec (.headerWriteDone n (.okay d)) s =
          .next (((retried b).setPart p
            { moved with headerWrite := some ⟨part.workingTail, generation, 1, copy⟩ }).issue .headerWrite
              (.header p (generation.toNat % 2)) (s.slotAddr p (generation.toNat % 2)) 64 copy).settle)) ∧
    (w.attempt = 1 → s.controller ≠ .shutdown →
      exec (.headerWriteDone n .error) s =
        .next ((b.setPart p { part with headerWrite := some { w with attempt := 2 } }).issue .headerWrite
          (.header p copySlot) (s.slotAddr p copySlot) 64 w.contents).settle) ∧
    (w.attempt = 1 → s.controller = .shutdown → exec (.headerWriteDone n .error) s = .next idle.settle) ∧
    (w.attempt = 2 → s.controller ≠ .shutdown →
      exec (.headerWriteDone n .error) s =
        .next (idle.log ⟨.headerWriteFailed, 0, none, none, some p, none, some copySlot⟩).settle)

/-! ### Revocation and the unwind engine (R8, R16, R95, R102 to R115)

Without a current line the engine's line step is held as WAIT_STORES and its restore data is absent: the model's choice
(log 27). Its restore set is the model's own field (log 19). -/

/-- R8, R16, R95: an OPEN group whose age equals a nonzero age limit, outside SHUTDOWN, is revoked with cause AGE. It
is UNWINDING with origin REVOKE and joins the waiting order; GROUP_REVOKED is raised and logged with the cause's code;
each of its entries is answered REVOKED, and leaves unless its access is outstanding, when it stays answered and
without a group; the slots of an entry in ORDERED that took a new claim are given PAD contents (R60); no other group,
no other entry and no claim changes. Any other group is left alone. The order of the responses is the model's choice
(log 6). -/
def Obligations.AgeExpiryRevokes : Prop :=
  ∀ (s : State) (t : Tag), s.direct = true →
    (s.groupState t ≠ .opened ∨ s.ageLimit = 0 ∨ (s.group t).age ≠ s.ageLimit.toNat ∨ s.controller = .shutdown →
      exec (.ageExpiry t) s = .next s.begin) ∧
    (s.groupState t = .opened → s.ageLimit ≠ 0 → (s.group t).age = s.ageLimit.toNat → s.controller ≠ .shutdown →
      s.entriesNumbered →
      ∃ x : State, exec (.ageExpiry t) s = .next x.settle ∧
        x.group t = { s.group t with
          state := .unwinding, unwindOrigin := some .revoke, revokeCause := some .age, commitRequest := none } ∧
        (∀ v, v ≠ t → x.group v = s.group v) ∧
        x.engine = { s.engine with waiting := s.engine.waiting ++ [t] } ∧
        x.responses = (s.members t).map (fun e => ⟨e.request.hostId, .revoked, []⟩) ∧
        x.requests = s.requests.filterMap (fun e =>
          if e.group = some t then
            if e.phase = .capturing ∨ e.phase = .storing ∨ e.phase = .loading then
              some { e with answered := true, group := none }
            else none
          else some e) ∧
        x.incidents = (⟨.groupRevoked, s.tickCounter, some t, some ((s.group t).sequence.getD 0),
          some ((s.group t).partition.getD 0), none, some 1⟩ :: s.incidents).take 8 ∧
        x.flags.getLsbD 4 = true ∧
        x.partitions = (((s.members t).filterMap (fun e =>
          if e.phase = .ordered ∧ e.path = .newClaim then e.undo else none)).foldl
            (fun y u => y.padUndo u) s).partitions ∧
        x = { s with
          responses := x.responses, mdo := [], joined := 1, groups := x.groups, engine := x.engine
          requests := x.requests, partitions := x.partitions, incidents := x.incidents, dropped := x.dropped
          flags := x.flags })

/-- R103, R104, R106, R119: the engine's own steps. IDLE with a group waiting, it takes the first; SETTLING with every
claim of its group settled, one of them logged and no COMMIT record placed, it is RESTORING with a logged claim of the
group as its line; waiting on a line with no entry in STORING it reads the line's UNDO data slot. None of them is taken
in SHUTDOWN, in another state, or while a claim is not settled or a store outstanding. -/
def Obligations.EngineSteps : Prop :=
  ∀ s : State, s.direct = true →
    (s.controller = .shutdown →
      exec .unwindTakeGroup s = .next s.begin ∧ exec .groupSettled s = .next s.begin ∧
        exec .storesCleared s = .next s.begin) ∧
    (s.engine.state ≠ .idle ∨ s.engine.waiting = [] → exec .unwindTakeGroup s = .next s.begin) ∧
    (∀ t rest, s.controller ≠ .shutdown → s.engine.state = .idle → s.engine.waiting = t :: rest →
      exec .unwindTakeGroup s =
        .next (State.settle { s with
          responses := [], mdo := [], joined := 0
          engine := ⟨.settling, rest, some t, none, .waitStores, none, 0, none, s.engine.retryTag, []⟩ })) ∧
    (∀ t p, s.engine.state = .settling → s.engine.current = some t → (s.group t).partition = some p →
      (∃ c ∈ s.claims, c.tag = t ∧ c.logged = false ∧ s.claimPadded p c = false) → (s.part p).state ≠ .faulted →
      exec .groupSettled s = .next s.begin) ∧
    (s.engine.state ≠ .settling ∨ s.engine.current = none → exec .groupSettled s = .next s.begin) ∧
    (∀ t p, s.controller ≠ .shutdown → s.engine.state = .settling → s.engine.current = some t →
      (s.group t).partition = some p →
      (∀ c ∈ s.claims, c.tag = t → c.logged = true ∨ s.claimPadded p c = true ∨ (s.part p).state = .faulted) →
      (∃ c ∈ s.claims, c.tag = t ∧ c.logged = true) → s.commitPlaced t = false →
      ∃ (x : State) (c : Claim), exec .groupSettled s = .next x.settle ∧ x.engine.state = .restoring ∧
        x.engine.currentLine = some c ∧ c ∈ s.claims ∧ c.tag = t ∧ c.logged = true) ∧
    (s.engine.state ≠ .restoring ∨ s.engine.currentLine = none ∨ s.engine.lineStep ≠ .waitStores →
      exec .storesCleared s = .next s.begin) ∧
    (∀ c, s.engine.state = .restoring → s.engine.currentLine = some c → s.engine.lineStep = .waitStores →
      ((∃ e ∈ s.requests, e.line = c.line ∧ e.phase = .storing) → exec .storesCleared s = .next s.begin) ∧
      (∀ p, (∀ e ∈ s.requests, e.line = c.line → e.phase ≠ .storing) → s.controller ≠ .shutdown →
        (s.group c.tag).partition = some p →
        exec .storesCleared s =
          .next (State.settle (State.issue .unwindRead .unwindLine (s.slotAddr p (c.undoSlot + 1)) 64 []
            { s with
              responses := [], mdo := [], joined := 0
              engine := { s.engine with lineStep := .reading 1 } }))))

/-- R104, R105, R111: the engine's group is settled, outside SHUTDOWN: each of its claims is logged or padded, or its
partition is FAULTED. With logged claims, and no COMMIT record placed, it takes the one of the highest record index as
its line and keeps the rest in descending record index: together they are exactly the group's logged claims. With no
logged claim, or with the COMMIT record placed, no line is restored: in a READY partition the UNWOUND record, with the
group's tag, sequence and undo count, is placed at the head, from the reservation, and the engine is CLOSING. The
COMMIT record is placed where a mark of one with the group's sequence stands from the working tail on; a mark behind
the working tail, of an earlier group that carried the same sequence, does not count. -/
def Obligations.SettledGroupIsRestored : Prop :=
  ∀ (s : State) (t : Tag) (p : PartId), s.direct = true → s.controller ≠ .shutdown → s.engine.state = .settling →
    s.engine.current = some t → (s.group t).partition = some p →
    (∀ c ∈ s.claims, c.tag = t → c.logged = true ∨ s.claimPadded p c = true ∨ (s.part p).state = .faulted) →
    let set := s.claims.filter (fun c => c.tag == t && c.logged)
    let part := s.part p
    let placed := ∃ m ∈ part.marks.drop (part.durableTail.dist (s.capacity p) part.workingTail),
      m.kind = .commit ∧ m.record.map (·.sequence) = (s.group t).sequence
    (set ≠ [] → ¬ placed →
      ∃ c rest, (c :: rest).Perm set ∧ (c :: rest).Pairwise (fun a b => b.index ≤ a.index) ∧
        exec .groupSettled s = .next (State.settle { s with
          responses := [], mdo := [], joined := 0
          engine := { s.engine with
            state := .restoring, currentLine := some c, lineStep := .waitStores, restoreData := none
            restoreSet := rest } })) ∧
    (∀ v n, set = [] ∨ placed → part.state = .ready → s.engine.failedLines = 0 →
      (s.group t).sequence = some v → (s.group t).undoCount = some n →
      let info : RecordInfo := ⟨t, v, n, none⟩
      exec .groupSettled s = .next (State.settle { s with
        responses := [], mdo := [], joined := 0
        partitions := s.partitions.set p { part with
          marks := part.marks ++
            [⟨.unwound, .ready, 1, closingSlotBytes 0xA3 part.epoch part.head.lap info, some info⟩]
          spans := extendSpans v 1 part.spans
          head := part.head.advance (s.capacity p) 1
          reserved := part.reserved - 1 }
        engine := { s.engine with
          state := .closing, currentLine := none, lineStep := .waitStores, restoreData := none
          restoreSet := [] } }))

/-- R107, R108, R109, R111, R119: the restore of the current line. A read that returns leads to the write of what it
returned; a first failure to a second attempt of the same read or write; a write that is acknowledged to the next
line, and after the last, with none failed and a READY partition, to the UNWOUND record at the head, from the
reservation, and CLOSING; a second failure counts the line as failed, keeping the first failed line, and leads to the
next line. In SHUTDOWN the line in progress is completed just so, and then the engine is STOPPED, with no next line.
-/
def Obligations.LineIsRestored : Prop :=
  ∀ (s : State) (n : Word) (r : PortRecord) (t : Tag) (c : Claim) (a : Nat) (p : PartId), s.direct = true →
    s.recordOf n = some r → r.ref = .unwindLine → s.engine.current = some t → s.engine.currentLine = some c →
    (s.group c.tag).partition = some p → a = 1 ∨ a = 2 →
    let b := s.begin.forget n
    let on := fun e : Engine => State.modEngine (fun _ => e) b
    let read := fun k => ((on { s.engine with lineStep := .reading k }).issue .unwindRead .unwindLine
      (s.slotAddr p (c.undoSlot + 1)) 64 []).settle
    let write := fun d k => ((on { s.engine with lineStep := .writing k, restoreData := some d }).issue .restoreWrite
      .unwindLine c.line 64 d).settle
    let next := fun e : Engine => match e.restoreSet with
      | [] => e
      | x :: rest => { e with
          state := .restoring, currentLine := some x, lineStep := .waitStores, restoreData := none, restoreSet := rest }
    let stopped := fun e : Engine => { e with
      state := .stopped, currentLine := none, lineStep := .waitStores, restoreData := none, restoreSet := [] }
    let failed := { s.engine with
      failedLines := s.engine.failedLines + 1, firstFailed := some (s.engine.firstFailed.getD c.line)
      restoreData := none }
    let ends := fun (e : Engine) (o : Host.Outcome State Fault Refusal) =>
      (s.controller = .shutdown → o = .next (on (stopped e)).settle) ∧
      (s.controller ≠ .shutdown → s.engine.restoreSet ≠ [] → o = .next (on (next e)).settle)
    (r.purpose = .unwindRead → s.engine.lineStep = .reading a →
      (∀ d, exec (.unwindReadDone n (.okay d)) s = .next (write (d.take r.length) 1)) ∧
      (a = 1 → exec (.unwindReadDone n .error) s = .next (read 2)) ∧
      (a = 2 → ends failed (exec (.unwindReadDone n .error) s))) ∧
    (r.purpose = .restoreWrite → s.engine.lineStep = .writing a →
      (∀ d, ends { s.engine with restoreData := none } (exec (.restoreWriteDone n (.okay d)) s)) ∧
      (∀ d q v i, s.controller ≠ .shutdown → s.engine.restoreSet = [] → s.engine.failedLines = 0 →
        (s.group t).partition = some q → (s.part q).state = .ready → (s.group t).sequence = some v →
        (s.group t).undoCount = some i →
        let info : RecordInfo := ⟨t, v, i, none⟩
        exec (.restoreWriteDone n (.okay d)) s =
          .next ((on { s.engine with
            state := .closing, currentLine := none, lineStep := .waitStores, restoreData := none }).setPart q
              { s.part q with
                marks := (s.part q).marks ++
                  [⟨.unwound, .ready, 1, closingSlotBytes 0xA3 (s.part q).epoch (s.part q).head.lap info, some info⟩]
                spans := extendSpans v 1 (s.part q).spans
                head := (s.part q).head.advance (s.capacity q) 1
                reserved := (s.part q).reserved - 1 }).settle) ∧
      (a = 1 → ∀ d, s.engine.restoreData = some d → exec (.restoreWriteDone n .error) s = .next (write d 2)) ∧
      (a = 2 → ends failed (exec (.restoreWriteDone n .error) s)))

/-- R21, R39, R41, R63, R64, R66, R112, R118: the front passes an UNWOUND record. Of the engine's group, in a
partition that runs: its claims leave the table and the reads that waited on their lines enter ORDERED; the group is
FREE where the host asked for the unwind, before it or by a parked ABORT, which is answered UNWOUND and leaves, and
HALTED with no claim otherwise; the engine is IDLE; a RETRY_UNWIND of the group ends DONE; and retirement runs in the
partition. In SHUTDOWN or in a FAULTED partition the record is not handed on, and of a group that is not in UNWINDING
it changes nothing: the group, its claims, the engine and a parked ABORT stay as they are, and no retirement runs. At
a second attempt SLOT_RETRIED is logged (R62), before what the record brings about (the model's choice, log 38). -/
def Obligations.FrontPassesUnwound : Prop :=
  ∀ (s : State) (n : Word) (p : PartId) (k : Nat) (m : Mark) (info : RecordInfo) (d : Bytes),
    s.direct = true → s.slotAnswered n p k m → s.frontMeets p k → m.kind = .unwound → m.record = some info →
    let t := info.tag
    let slot := ((s.part p).durableTail.advance (s.capacity p) k).slot
    let retried := fun x : State => if m.attempt = 2 then
        x.log ⟨.slotRetried, 0, m.record.map (·.tag), m.record.map (·.sequence), some p, m.record.bind (·.line),
          some slot⟩
      else x
    let released := s.requests.map (fun y =>
      if y.phase = .waitUnwind ∧ y.line ∈ (s.claims.filter (fun c => c.tag == t)).map (·.line) then
        { y with phase := .ordered }
      else y)
    let unwinding := s.groupState t = .unwinding ∧ (s.group t).sequence = some info.sequence
    (s.journalRuns p = false ∨ ¬ unwinding →
      exec (.slotWriteDone n (.okay d)) s = .next (State.settle (retried { s with
        responses := [], mdo := [], joined := 0, outstanding := s.outstanding.filter (fun r => r.number != n)
        partitions := s.partitions.set p
          { s.part p with marks := (s.part p).marks.set k { m with progress := .acknowledged } } }))) ∧
    (s.journalRuns p = true → unwinding → s.engine.state = .closing → s.engine.current = some t →
    ∃ x : State, exec (.slotWriteDone n (.okay d)) s = .next (x.retire p).settle ∧
      x.claims = s.claims.filter (fun c => c.tag != t) ∧ (∀ v, v ≠ t → x.group v = s.group v) ∧
      x.engine = ⟨.idle, s.engine.waiting, none, none, .waitStores, none, 0, none,
        if s.engine.retryTag = some t then none else s.engine.retryTag, []⟩ ∧
      (s.engine.retryTag = some t → x.cmdStatus.outcome = .done ∧ x.flags.getLsbD 7 = true) ∧
      (s.engine.retryTag ≠ some t → x.cmdStatus = s.cmdStatus ∧ x.flags = (retried s).flags) ∧
      (∀ e, (s.group t).parkedAbort = some e.index → s.entry e.index = some e → e.phase = .awaitOutcome →
        x.group t = Group.cleared ∧ x.responses = [⟨e.request.hostId, .unwound, []⟩] ∧
          x.requests = released.filter (fun y => y.index != e.index)) ∧
      ((s.group t).parkedAbort = none →
        x.responses = [] ∧ x.requests = released ∧
        ((s.group t).unwindOrigin = some .host → x.group t = Group.cleared) ∧
        ((s.group t).unwindOrigin ≠ some .host →
          x.group t = { s.group t with state := .halted, claimsHeld := 0 })) ∧
      x = { s with
        responses := x.responses, mdo := [], joined := 0, outstanding := s.outstanding.filter (fun r => r.number != n)
        partitions := s.partitions.set p
          { s.part p with marks := (s.part p).marks.set k { m with progress := .acknowledged } }
        claims := x.claims, groups := x.groups, engine := x.engine, requests := x.requests
        cmdStatus := x.cmdStatus, flags := x.flags, incidents := (retried s).incidents
        dropped := (retried s).dropped })

/-- R21, R41, R104, R105, R109, R111, R115, R118: an unwind fails, outside SHUTDOWN: its group is settled with no line
to restore in a partition that is not READY, or its last line ends, by the second failure of its read or its write, or
by its write acknowledged after another line failed or in a partition that is not READY. No UNWOUND record is placed;
the group is BROKEN and keeps its claims; a parked ABORT is answered BROKEN and leaves, and so do the reads that wait
on the group's lines, in the order of admission (the model's choice, log 6); where one of them is the commit request of
another group, that group loses it and is revoked with cause ARRAY, logged and joins the waiting order, in ascending
order of tag; RESTORE_FAILED is logged, with the first failed line and the number of failed lines; GROUP_BROKEN is
raised; the engine is IDLE; a RETRY_UNWIND of the group ends FAILED, with RESTORE where a line failed and
PARTITION_FAULT where none did. That RESTORE_FAILED is logged after the GROUP_REVOKED of the groups that lose their
commit requests, and so stands before them in the list, is the model's deduction (log 30): the rules give the two no
order. -/
def Obligations.FailedUnwindBreaksGroup : Prop :=
  ∀ (s : State) (t : Tag), s.direct = true → s.controller ≠ .shutdown → s.engine.current = some t →
    let notReady := ∀ p, (s.group t).partition = some p → (s.part p).state ≠ .ready
    let retries := s.engine.retryTag = some t
    let parked := ((s.group t).parkedAbort.bind s.entry).toList
    let after := s.requests.filter (fun y => parked.all (fun e => y.index != e.index))
    let reads := after.filter (fun e => decide (e.phase = .waitUnwind) &&
      s.claims.any (fun c => decide (c.tag = t) && decide (c.line = e.line)))
    let hit := (List.finRange 15).filter (fun v => reads.any (fun e => e.group == some v))
    let lost := hit.filter (fun v => v != t &&
      (s.groupState v == .opened || s.groupState v == .draining || s.groupState v == .sealing))
    let revoked := fun v : Tag => (⟨.groupRevoked, s.tickCounter, some v, some ((s.group v).sequence.getD 0),
      some ((s.group v).partition.getD 0), none, some 2⟩ : Incident)
    let breaks := fun (o : Host.Outcome State Fault Refusal) (left : List PortRecord) (failed : Nat)
        (line : Option Addr) =>
      let answered : State := { s with
        mdo := [], joined := 0, outstanding := left
        responses := (parked ++ reads).map (fun e => ⟨e.request.hostId, .broken, []⟩)
        requests := after.filter (fun y => reads.all (fun e => y.index != e.index))
        groups := s.groups.set t { s.group t with state := .broken, parkedAbort := none } }
      let y := hit.foldl (fun y v => (y.setGroup v { y.group v with commitRequest := none }).revoke v .array) answered
      ∃ x : State, o = .next x.settle ∧
        x.incidents = (⟨.restoreFailed, s.tickCounter, some t, some ((s.group t).sequence.getD 0),
          some ((s.group t).partition.getD 0), line, some failed⟩ :: ((lost.map revoked).reverse ++ s.incidents)).take 8 ∧
        x.flags.getLsbD 2 = true ∧ (retries → x.flags.getLsbD 3 = true) ∧ (lost ≠ [] → x.flags.getLsbD 4 = true) ∧
        (∀ v, x.group v =
          { (if v = t then { s.group v with state := .broken, parkedAbort := none }
            else if v ∈ lost then
              { s.group v with
                state := .unwinding, unwindOrigin := some .revoke, revokeCause := some .array }
            else s.group v) with commitRequest := if v ∈ hit then none else (s.group v).commitRequest }) ∧
        x = { y with
          engine := ⟨.idle, s.engine.waiting ++ lost, none, none, .waitStores, none, 0, none,
            if retries then none else s.engine.retryTag, []⟩
          cmdStatus := if retries then
              { s.cmdStatus with
                outcome := .failed, reason := some (if failed = 0 then .partitionFault else .restore), first := none }
            else s.cmdStatus
          incidents := x.incidents, dropped := x.dropped, flags := x.flags }
    (∀ p, s.engine.state = .settling → (s.group t).partition = some p → (s.part p).state ≠ .ready →
      (∀ c ∈ s.claims, c.tag = t → c.logged = true ∨ s.claimPadded p c = true ∨ (s.part p).state = .faulted) →
      (∀ c ∈ s.claims, c.tag = t → c.logged = false) ∨ s.commitPlaced t = true →
      breaks (exec .groupSettled s) s.outstanding s.engine.failedLines s.engine.firstFailed) ∧
    (∀ n r c, s.recordOf n = some r → r.ref = .unwindLine → s.engine.currentLine = some c →
      s.engine.restoreSet = [] →
      let left := s.outstanding.filter (fun y => y.number != n)
      let failed := s.engine.failedLines
      let first := s.engine.firstFailed
      (r.purpose = .unwindRead → s.engine.lineStep = .reading 2 →
        breaks (exec (.unwindReadDone n .error) s) left (failed + 1) (some (first.getD c.line))) ∧
      (r.purpose = .restoreWrite → s.engine.lineStep = .writing 2 →
        breaks (exec (.restoreWriteDone n .error) s) left (failed + 1) (some (first.getD c.line))) ∧
      (∀ a d, r.purpose = .restoreWrite → s.engine.lineStep = .writing a → failed ≠ 0 ∨ notReady →
        breaks (exec (.restoreWriteDone n (.okay d)) s) left failed first))

/-! ### The array port and the tick (R7, R161 to R167, R185, R186) -/

/-- R7, R8, R16, R165, R166, R185, R186, R192: a tick. While the reset line is asserted none is taken. Otherwise it
completes, the tick counter increases by one, modulo 2^32, and the division count is 0 (log 1). The tick count of each
record with a limit increases by one; those at their limit then time out, in the order of their issue: each leaves the
set, logs ARRAY_TIMEOUT and is delivered as a failure, if no timeout before it has taken it from the set. The group
table follows: outside SHUTDOWN each OPEN group ages by one, up to 65535, and those whose age has reached a nonzero
age limit are revoked with cause AGE, in ascending order of tag; in SHUTDOWN it takes no tick. What then can happen
follows at the end of the tick, except that the unwind engine goes on between two timeouts (the model's choice, log
36). In words that name no delivery: host reads and home writes of no group that time out together are answered
ARRAY_ERROR, in the order of their issue, an order of the responses that is the model's choice (R77, log 6); a group
whose home write times out at the tick that would bring its age to the limit is revoked with cause ARRAY, and does not
age; where one record alone is late and no group is OPEN, the tick does what its ARRAY_TIMEOUT does (of the memory
path while the engine rests, of the scanner or FORMAT in CONFIG and RECOVERING); the RESTORE_FAILED of the group whose
unwind read times out, and of the next group, whose unwind then fails at once, stand in the incident list before the
incidents of the ages. -/
def Obligations.TickIsTaken : Prop :=
  ∀ s : State,
    (s.resetLine = true → exec .tick s = .next s.begin) ∧
    (s.resetLine = false → ∃ t, exec .tick s = .next t ∧ t.tickCounter = s.tickCounter + 1 ∧ t.divisionCount = 0) ∧
    (s.direct = true →
      let counts := fun r : PortRecord => if r.limit = 0 then r else { r with ticks := r.ticks + 1 }
      let counted : State := { s with
        responses := [], mdo := [], joined := 0, tickCounter := s.tickCounter + 1, divisionCount := 0
        outstanding := s.outstanding.map counts }
      let due := fun x : State => (List.finRange 15).filter (fun t => x.groupState t == .opened && x.ageLimit != 0 &&
        min 65535 ((x.group t).age + 1) == x.ageLimit.toNat)
      let ages := fun x : State =>
        (due x).foldl (fun y t => y.revoke t .age) { x with
          groups := x.groups.map (fun g =>
            if g.state = .opened then { g with age := min 65535 (g.age + 1) } else g) }
      let isLate := fun r : PortRecord => r.limit != 0 && decide (r.limit ≤ r.ticks + 1)
      let late := s.outstanding.filter isLate
      let left := (s.outstanding.filter (fun r => !isLate r)).map counts
      let engineRests := s.controller = .shutdown ∧ s.scanner.current = none ∨
        s.controller ≠ .shutdown ∧ s.engine.state = .idle ∧ s.engine.waiting = [] ∧ s.engine.currentLine = none
      (late = [] →
        (s.controller = .shutdown → exec .tick s = .next counted) ∧
        (s.controller ≠ .shutdown → exec .tick s = .next (ages counted).settle)) ∧
      ((s.outstanding.map (·.number)).Nodup →
        (engineRests →
          let timed := (late.map counts).foldl (fun x r =>
            if x.recordOf r.number = some r then (x.timeOut r).deliver r .failed else x) counted
          (s.controller = .shutdown → exec .tick s = .next timed) ∧
          (s.controller ≠ .shutdown → exec .tick s = .next (ages timed).settle)) ∧
        (engineRests → s.controller ≠ .shutdown → s.entriesNumbered → (late.map (·.ref)).Nodup →
          (∀ r ∈ late, ∃ e ∈ s.requests, r.ref = .entry e.index ∧ e.group = none ∧ e.member = none ∧
            (r.purpose = .hostRead ∧ e.phase = .loading ∨ r.purpose = .homeWrite ∧ e.phase = .storing)) →
          let entryOf := fun r : PortRecord => s.requests.find? (fun e => decide (r.ref = .entry e.index))
          exec .tick s = .next (State.settle (ages (late.foldl
            (fun x r => x.log ⟨.arrayTimeout, 0, none, none, none, some (lineOf r.address),
              some (if r.purpose = .hostRead then 1 else 3)⟩)
            { counted with
              outstanding := left
              requests := s.requests.filter (fun e => late.all (fun r => decide (r.ref ≠ .entry e.index)))
              responses := (late.filterMap entryOf).filterMap (fun e =>
                if e.answered then none else some ⟨e.request.hostId, .arrayError, []⟩) })))) ∧
        (∀ r e t m, late = [r] → engineRests → s.controller ≠ .shutdown → r.purpose = .homeWrite →
          r.ref = .entry e.index → s.entry e.index = some e → e.phase = .storing → e.answered = false →
          e.group = some t → e.member = some m → s.groupState t = .opened →
          (s.group t).commitRequest ≠ some e.index →
          let failed := (((State.log
            ⟨.arrayTimeout, 0, none, none, none, some (lineOf r.address), some 3⟩
            { counted with outstanding := left }).respond e.request.hostId .arrayError []).dropEntry e.index).log
            ⟨.homeWriteFailed, 0, some m.tag, some m.sequence, some m.partition, some e.line, none⟩
          exec .tick s = .next (ages (failed.revoke t .array)).settle ∧
            (ages (failed.revoke t .array)).group t = { s.group t with
              state := .unwinding, unwindOrigin := some .revoke, revokeCause := some .array
              commitRequest := none }) ∧
        (∀ r, late = [r] → (∀ t, s.groupState t ≠ .opened) →
          (r.purpose ∈ [Purpose.hostRead, .captureRead, .homeWrite, .slotWrite, .headerWrite, .unwindRead,
            .restoreWrite] → engineRests → exec .tick s = exec (.arrayTimeout r.number) counted) ∧
          (r.purpose ∈ [Purpose.headerRead, .scanRead, .voidRead, .voidWrite, .recoveryRead, .recoveryWrite,
            .headerRewrite, .formatWrite] →
            s.controller = .config ∨ s.controller = .recovering → (∀ t, s.groupState t = .free) →
            (∀ e ∈ s.requests, e.phase ≠ .ordered) → (∀ p, (s.part p).marks = []) →
            s.engine.state = .idle → s.engine.waiting = [] → s.engine.currentLine = none →
            exec .tick s = exec (.arrayTimeout r.number) counted)) ∧
        (∀ r c t u q, late = [r] → s.controller ≠ .shutdown → r.purpose = .unwindRead → r.ref = .unwindLine →
          s.engine.state = .restoring → s.engine.current = some t → s.engine.currentLine = some c →
          s.engine.lineStep = .reading 2 → s.engine.restoreSet = [] → s.engine.waiting = [u] →
          s.groupState t = .unwinding → s.groupState u = .unwinding → t ≠ u → (s.group u).partition = some q →
          (s.part q).state = .faulted → (∀ x ∈ s.claims, x.tag = u → x.logged = false) →
          (∀ e ∈ s.requests, e.phase ≠ .waitUnwind) →
          ∃ x : State, exec .tick s = .next x.settle ∧ (x.group t).state = .broken ∧ (x.group u).state = .broken ∧
            x.incidents = (((due s).map (fun v => (⟨.groupRevoked, s.tickCounter + 1, some v,
                some ((s.group v).sequence.getD 0), some ((s.group v).partition.getD 0), none, some 1⟩ :
                Incident))).reverse ++
              ([⟨.restoreFailed, s.tickCounter + 1, some u, some ((s.group u).sequence.getD 0), some q, none, some 0⟩,
                ⟨.restoreFailed, s.tickCounter + 1, some t, some ((s.group t).sequence.getD 0),
                  some ((s.group t).partition.getD 0), some (s.engine.firstFailed.getD c.line),
                  some (s.engine.failedLines + 1)⟩,
                ⟨.arrayTimeout, s.tickCounter + 1, none, none, (s.group t).partition, some (lineOf r.address),
                  some 6⟩] : List Incident) ++ s.incidents).take 8)))

/-- R165, R166, R167: a record whose tick count has reached its limit times out, and is reported as an ERROR response
is (that the row of a late response brings such a response is the model's deduction, log 4); outside SHUTDOWN the
incident ARRAY_TIMEOUT is logged first, with the line of its address, the code of its purpose, and its partition where
its address lies in one. A record whose count has not reached its limit, or that has none, and a number without a
record, are left. -/
def Obligations.ExpiredRecordTimesOut : Prop :=
  ∀ (s : State) (n : Word), s.direct = true →
    (s.recordOf n = none → exec (.arrayTimeout n) s = .next s.begin) ∧
    (∀ r, s.recordOf n = some r → r.limit = 0 ∨ r.ticks < r.limit → exec (.arrayTimeout n) s = .next s.begin) ∧
    (∀ r, s.recordOf n = some r → r.limit ≠ 0 → r.limit ≤ r.ticks →
      (s.controller = .shutdown →
        ∃ t, exec (.arrayTimeout n) s = .next t ∧ exec (.lateResponse n .error) s = .next t) ∧
      (s.controller ≠ .shutdown → ∃ (p : Option PartId) (t : State),
        exec (.arrayTimeout n) s = .next t ∧
        exec (.lateResponse n .error)
          (s.log ⟨.arrayTimeout, 0, none, none, p, some (lineOf r.address), some r.purpose.code⟩) = .next t ∧
        (∀ q k, r.purpose = .slotWrite → r.ref = .slot q k → p = some q) ∧
        (∀ q k, r.purpose = .headerWrite ∨ r.purpose = .headerRead ∨ r.purpose = .headerRewrite →
          r.ref = .header q k → p = some q) ∧
        (∀ q k, r.purpose = .scanRead ∨ r.purpose = .voidRead ∨ r.purpose = .voidWrite → r.ref = .scanner q k →
          p = some q) ∧
        (∀ q k, r.purpose = .formatWrite → r.ref = .format q k → p = some q) ∧
        (∀ v, r.purpose = .unwindRead → s.engine.current = some v → p = (s.group v).partition) ∧
        (r.purpose = .recoveryRead → p = s.scanner.current) ∧
        (r.purpose = .homeWrite ∨ r.purpose = .captureRead ∨ r.purpose = .hostRead ∨ r.purpose = .restoreWrite ∨
          r.purpose = .recoveryWrite → p = none)))

/-- R162: a response whose number has no record is discarded, whatever the row that brings it. That every row of the
port does so is the model's choice (log 4). -/
def Obligations.ResponseWithoutRecordIsDiscarded : Prop :=
  ∀ (s : State) (n : Word) (a : ArrayResult), s.direct = true → s.recordOf n = none →
    ∀ c ∈ [Instr.hostReadDone n a, .captureReadDone n a, .homeWriteDone n a, .slotWriteDone n a, .headerWriteDone n a,
      .unwindReadDone n a, .restoreWriteDone n a, .lateResponse n a, .headerReadDone n a, .scanReadDone n a,
      .voidReadDone n a, .voidWriteDone n a, .recoveryReadDone n a, .recoveryWriteDone n a, .headerRewriteDone n a,
      .formatWriteDone n a], exec c s = .next s.begin

/-- R161: the port hands the first request that waits to the array, and no other; with none waiting nothing happens.
An issued request takes the issue counter's value as its number; and as long as the set has room for its number and
one more, the numbers in the set stay distinct and the counter stays clear of them. -/
def Obligations.RequestsAreHandedOverInOrder : Prop :=
  (∀ s : State, s.direct = true →
    ((∀ r ∈ s.outstanding, r.passed = true) → exec .requestHandedOver s = .next s.begin) ∧
    (∀ before r after, s.outstanding = before ++ r :: after → (∀ x ∈ before, x.passed = true) → r.passed = false →
      exec .requestHandedOver s = .next { s with
        responses := [], mdo := [], joined := 0, outstanding := before ++ { r with passed := true } :: after })) ∧
  (∀ (s : State) (purpose : Purpose) (ref : Ref) (a : Addr) (l : Nat) (d : Bytes), s.numbered →
    s.outstanding.length + 2 < 2 ^ 32 →
    (s.issue purpose ref a l d).numbered ∧
      (s.issue purpose ref a l d).outstanding =
        s.outstanding ++ [⟨s.issueCounter, purpose, ref, a, l, d, false, 0, s.arrayTimeout.toNat⟩])

/-! ### Recovery and FORMAT (R122 to R141) -/

/-- R123, R124, R125, R136: a header read of the current partition in HEADERS. The first copy to return is kept. With
the second, the copy is chosen: the only well-formed one, or of two the newer by the difference of their generations;
with none START fails with HEADER_INVALID, and with a size that is not the partition's with GEOMETRY. The chosen header
is recorded and shown, and the scan begins with a read at its tail. A first failure is read again; a second ends START:
it is FAILED(ARRAY_ERROR) with the partition named and logged, every partition is OFF, the scanner and its requests are
gone, and the controller is in CONFIG. -/
def Obligations.HeaderReadsChooseCopy : Prop :=
  ∀ (s : State) (n : Word) (r : PortRecord) (p : PartId) (k : Nat), s.direct = true → s.recordOf n = some r →
    r.purpose = .headerRead → r.ref = .header p k → k = 0 ∨ k = 1 → s.scanner.current = some p →
    s.scanner.stage = some .headers →
    let other := if k = 0 then s.scanner.copy1 else s.scanner.copy0
    let left := s.outstanding.filter (fun x => x.number != n)
    (∀ d, other = none →
      exec (.headerReadDone n (.okay d)) s = .next { s with
        responses := [], mdo := [], joined := 0, outstanding := left
        scanner := if k = 0 then { s.scanner with copy0 := some (d.take r.length) }
          else { s.scanner with copy1 := some (d.take r.length) } }) ∧
    (∀ d c, other = some c →
      let c0 := if k = 0 then d.take r.length else c
      let c1 := if k = 0 then c else d.take r.length
      let newer := (headerGeneration c0 - headerGeneration c1).toNat
      (headerWellFormed 0 c0 = false → headerWellFormed 1 c1 = false →
        exec (.headerReadDone n (.okay d)) s = .next ((s.begin.forget n).startFailed .headerInvalid)) ∧
      (∀ x, (headerWellFormed 0 c0 = true ∧ headerWellFormed 1 c1 = false ∧ x = c0) ∨
          (headerWellFormed 0 c0 = false ∧ headerWellFormed 1 c1 = true ∧ x = c1) ∨
          (headerWellFormed 0 c0 = true ∧ headerWellFormed 1 c1 = true ∧
            x = if 1 ≤ newer ∧ newer ≤ 2 ^ 31 - 1 then c0 else c1) →
        (headerSize x ≠ s.size p →
          exec (.headerReadDone n (.okay d)) s = .next ((s.begin.forget n).startFailed .geometry)) ∧
        (headerSize x = s.size p →
          exec (.headerReadDone n (.okay d)) s =
            .next (State.issue .scanRead (.scanner p (headerTail x).slot) (s.slotAddr p (headerTail x).slot) 64 []
              { s with
              responses := [], mdo := [], joined := 0, outstanding := left
              partitions := s.partitions.set p
                { s.part p with epoch := slotEpoch x, generation := headerGeneration x }
              scanner := { s.scanner with
                chosen := some ⟨slotEpoch x, headerGeneration x, headerTail x, headerSize x⟩
                position := some (headerTail x), list := [], stage := some .scan, attempt := 1
                copy0 := none, copy1 := none } })))) ∧
    ((if k = 0 then s.scanner.attempt0 else s.scanner.attempt1) = 1 →
      exec (.headerReadDone n .error) s =
        .next (State.issue .headerRead (.header p k) (s.slotAddr p k) 64 [] { s with
          responses := [], mdo := [], joined := 0, outstanding := left
          scanner := if k = 0 then { s.scanner with attempt0 := 2 } else { s.scanner with attempt1 := 2 } })) ∧
    ((if k = 0 then s.scanner.attempt0 else s.scanner.attempt1) = 2 →
      ∃ x : State, exec (.headerReadDone n .error) s = .next x ∧ x.controller = .config ∧
        x.cmdStatus = { s.cmdStatus with outcome := .failed, reason := some .arrayError, first := some p } ∧
        x.partitions = Vector.replicate 4 Partition.cleared ∧ x.scanner = Scanner.cleared ∧
        x.outstanding = left.filter (fun y => !y.purpose.ofScanner) ∧
        x.incidents = (⟨.startFailed, s.tickCounter, none, none, some p, none, some 13⟩ :: s.incidents).take 8 ∧
        x.flags.getLsbD 3 = true ∧
        x = { s with
          responses := [], mdo := [], joined := 0, controller := .config, cmdStatus := x.cmdStatus
          partitions := x.partitions, scanner := x.scanner, outstanding := x.outstanding
          incidents := x.incidents, dropped := x.dropped, flags := x.flags })

/-- R126 to R131: a slot read of the scan. A slot of UNDO kind before the last ring slot is held and its data slot
read. A record is broken by a wrong epoch or lap, a wrong check value (for an UNDO over both its slots), no record
kind, a field out of its range, two slots at the last ring slot, or an end beyond the ring capacity. A record that is
not broken is taken: an UNDO joins the recovery list at its end, a closing record takes the entries of its sequence
off it, and a PAD does neither; then the next position is read, or, at the limit of the ring capacity, the scan end is
the tail one lap on and the restores begin with no void pass. START fails with JOURNAL_INCONSISTENT for a full list or
a line inside a partition. A broken record ends the scan at its first slot, which is judged from its read: it is
cleared where it carries the epoch and the lap of its position, and otherwise the void pass goes on with the next
slot, if there is one. That, where the restores begin, the position is absent in RESTORE and REWRITE, and the restore
entry and step in REWRITE, is the model's choice (log 39). -/
def Obligations.ScanTakesRecords : Prop :=
  ∀ (s : State) (n : Word) (r : PortRecord) (p q : PartId) (k : Nat) (chosen : ChosenHeader) (pos : Pos) (d : Bytes),
    s.direct = true → s.recordOf n = some r → r.purpose = .scanRead → r.ref = .scanner q k →
    s.scanner.current = some p → s.scanner.stage = some .scan → s.scanner.chosen = some chosen →
    s.scanner.position = some pos →
    let data := d.take r.length
    let cap := s.capacity p
    let last := 64 * s.size p - 1
    let b : State := { s with
      responses := [], mdo := [], joined := 0, outstanding := s.outstanding.filter (fun x => x.number != n) }
    let issue := fun (purpose : Purpose) (slot : Nat) (bytes : Bytes) (sc : Scanner) =>
      State.issue purpose (.scanner p slot) (s.slotAddr p slot) 64 bytes { b with scanner := sc }
    let broken := fun (header more : Bytes) =>
      let kind := slotKindByte header
      slotEpoch header ≠ chosen.epoch ∨ slotLap header ≠ pos.lap ∨ slotCheckOk header more = false ∨
        (kind ≠ 0xA1#8 ∧ kind ≠ 0xA2#8 ∧ kind ≠ 0xA3#8 ∧ kind ≠ 0xA4#8) ∨
        (kind ≠ 0xA4#8 ∧ (slotSequence header = 0 ∨ slotTag header = 0 ∨ 15 < slotTag header)) ∨
        (kind = 0xA1#8 ∧ (slotIndex header = 0 ∨ 1024 < slotIndex header ∨ slotLine header % 64 ≠ 0)) ∨
        ((kind = 0xA2#8 ∨ kind = 0xA3#8) ∧ (slotUndoCount header = 0 ∨ 1024 < slotUndoCount header)) ∨
        (kind = 0xA4#8 ∧ (slotSequence header ≠ 0 ∨ slotTag header ≠ 0 ∨ slotPadLength header = 0 ∨
          2 < slotPadLength header)) ∨
        (pos.slot = last ∧ (kind = 0xA1#8 ∨ (kind = 0xA4#8 ∧ slotPadLength header = 2))) ∨
        cap < chosen.tail.dist cap pos +
          (if kind = 0xA1#8 then 2 else if kind = 0xA4#8 then slotPadLength header else 1)
    let decided := { s.scanner with heldHeader := none }
    let passes := fun (o : Host.Outcome State Fault Refusal) (length : Nat) (list : List RecoveryEntry) =>
      let next := pos.advance cap length
      let limit : Pos := ⟨chosen.tail.slot, chosen.tail.lap + 1⟩
      (chosen.tail.dist cap next < cap →
        o = .next (issue .scanRead next.slot []
          { decided with list := list, position := some next, attempt := 1 })) ∧
      (cap ≤ chosen.tail.dist cap next →
        o = .next (b.restoresFrom p chosen limit { decided with list := list, scanEnd := some limit }))
    let ends := fun (o : Host.Outcome State Fault Refusal) (header : Bytes) =>
      let sc := { decided with scanEnd := some pos, stage := some .void }
      let next := pos.advance cap 1
      (slotEpoch header = chosen.epoch ∧ slotLap header = pos.lap →
        o = .next (issue .voidWrite pos.slot (List.replicate 64 0) { sc with position := some pos, attempt := 1 })) ∧
      (slotEpoch header ≠ chosen.epoch ∨ slotLap header ≠ pos.lap →
        (chosen.tail.dist cap next < cap →
          o = .next (issue .voidRead next.slot [] { sc with position := some next, attempt := 1 })) ∧
        (cap ≤ chosen.tail.dist cap next → o = .next (b.restoresFrom p chosen pos sc)))
    let after := exec (.scanReadDone n (.okay d)) s
    let fails := fun (o : Host.Outcome State Fault Refusal) (reason : Reason) => ∃ x, o = .next x ∧
      x.controller = .config ∧ x.cmdStatus.outcome = .failed ∧ x.cmdStatus.reason = some reason ∧
      x.cmdStatus.first = some p
    (s.scanner.heldHeader = none →
      (slotKindByte data = 0xA1#8 → pos.slot ≠ last →
        after = .next (issue .scanRead (pos.slot + 1) [] { s.scanner with heldHeader := some data, attempt := 1 })) ∧
      (slotKindByte data ≠ 0xA1#8 ∨ pos.slot = last →
        (broken data [] → ends after data) ∧
        (¬ broken data [] →
          (slotKindByte data = 0xA4#8 → passes after (slotPadLength data) s.scanner.list) ∧
          (slotKindByte data ≠ 0xA4#8 → passes after 1
            (s.scanner.list.filter (fun e => e.sequence != BitVec.ofNat 32 (slotSequence data))))))) ∧
    (∀ header, s.scanner.heldHeader = some header → slotKindByte header = 0xA1#8 →
      (broken header data → ends after header) ∧
      (¬ broken header data →
        let line := BitVec.ofNat 40 (slotLine header)
        (s.scanner.list.length < 1024 → s.inPartition line = false →
          passes after 2 (s.scanner.list ++
            [⟨BitVec.ofNat 32 (slotSequence header), slotTagOf header, pos.slot, line⟩])) ∧
        (1024 ≤ s.scanner.list.length ∨ s.inPartition line = true → fails after .journalInconsistent))) ∧
    (s.scanner.attempt = 1 → exec (.scanReadDone n .error) s =
      .next (issue .scanRead (if s.scanner.heldHeader.isSome then pos.slot + 1 else pos.slot) []
        { s.scanner with attempt := 2 })) ∧
    (s.scanner.attempt = 2 → fails (exec (.scanReadDone n .error) s) .arrayError)

/-- R131 to R134: the void pass. A slot that carries the epoch and the lap of its position is cleared by a write of 64
zero bytes; any other is left, and after either the next position is read, up to the chosen tail one lap on. Past the
last position the partition is RESTORING and the entry found last is taken first; with no entry left on the recovery
list the header copy with the chosen epoch, the next generation and the scan end as its tail is written at once, and
nothing is logged. First failures are tried again; a second ends START with ARRAY_ERROR. That the position is absent in
RESTORE and REWRITE is the model's choice (log 39). -/
def Obligations.VoidPassClearsSlots : Prop :=
  ∀ (s : State) (n : Word) (r : PortRecord) (p q : PartId) (k : Nat) (chosen : ChosenHeader) (pos : Pos),
    s.direct = true → s.recordOf n = some r → r.ref = .scanner q k → s.scanner.current = some p →
    s.scanner.stage = some .void → s.scanner.chosen = some chosen → s.scanner.position = some pos →
    let cap := s.capacity p
    let next := pos.advance cap 1
    let b : State := { s with
      responses := [], mdo := [], joined := 0, outstanding := s.outstanding.filter (fun x => x.number != n) }
    let issue := fun (purpose : Purpose) (slot : Nat) (data : Bytes) (sc : Scanner) =>
      (b.modScanner (fun _ => sc)).issue purpose (.scanner p slot) (s.slotAddr p slot) 64 data
    let goesOn := fun (o : Host.Outcome State Fault Refusal) =>
      (chosen.tail.dist cap next < cap →
        o = .next (issue .voidRead next.slot [] { s.scanner with position := some next, attempt := 1 })) ∧
      (cap ≤ chosen.tail.dist cap next → ∀ scanEnd, s.scanner.list ≠ [] ∨ s.scanner.scanEnd = some scanEnd →
        o = .next (b.restoresFrom p chosen scanEnd s.scanner))
    let fails := fun (o : Host.Outcome State Fault Refusal) => ∃ x, o = .next x ∧ x.controller = .config ∧
      x.cmdStatus.outcome = .failed ∧ x.cmdStatus.reason = some .arrayError
    (r.purpose = .voidRead →
      (∀ d, slotEpoch (d.take r.length) = chosen.epoch → slotLap (d.take r.length) = pos.lap →
        exec (.voidReadDone n (.okay d)) s =
          .next (issue .voidWrite pos.slot (List.replicate 64 0) { s.scanner with
            position := some pos, attempt := 1 })) ∧
      (∀ d, slotEpoch (d.take r.length) ≠ chosen.epoch ∨ slotLap (d.take r.length) ≠ pos.lap →
        goesOn (exec (.voidReadDone n (.okay d)) s)) ∧
      (s.scanner.attempt = 1 →
        exec (.voidReadDone n .error) s = .next (issue .voidRead pos.slot [] { s.scanner with attempt := 2 })) ∧
      (s.scanner.attempt = 2 → fails (exec (.voidReadDone n .error) s))) ∧
    (r.purpose = .voidWrite →
      (∀ d, goesOn (exec (.voidWriteDone n (.okay d)) s)) ∧
      (s.scanner.attempt = 1 →
        exec (.voidWriteDone n .error) s =
          .next (issue .voidWrite pos.slot (List.replicate 64 0) { s.scanner with attempt := 2 })) ∧
      (s.scanner.attempt = 2 → fails (exec (.voidWriteDone n .error) s)))

/-- R132, R133, R134: the restore of an entry in recovery. The old contents read from its UNDO data slot are written
to its line; when that write is acknowledged the next entry's data slot is read, and after the last one
RECOVERY_UNWOUND is logged for each sequence left on the list, the list is emptied, and the header copy with the
chosen epoch, the next generation and the scan end as its tail is written to the slot of that generation's parity.
First failures are tried again; a second ends START with ARRAY_ERROR. That the restore entry and step are absent in
REWRITE is the model's choice (log 39). -/
def Obligations.RecoveryRestoresLines : Prop :=
  ∀ (s : State) (n : Word) (r : PortRecord) (p : PartId) (e : RecoveryEntry), s.direct = true →
    s.recordOf n = some r → r.ref = .restoreEntry → s.scanner.current = some p → s.scanner.restoreEntry = some e →
    let b : State := { s with
      responses := [], mdo := [], joined := 0, outstanding := s.outstanding.filter (fun x => x.number != n) }
    let read := fun (x : RecoveryEntry) (sc : Scanner) =>
      (b.modScanner (fun _ => sc)).issue .recoveryRead .restoreEntry (s.slotAddr p (x.undoSlot + 1)) 64 []
    let write := fun (d : Bytes) (sc : Scanner) =>
      (b.modScanner (fun _ => sc)).issue .recoveryWrite .restoreEntry e.line 64 d
    let fails := fun (o : Host.Outcome State Fault Refusal) => ∃ x, o = .next x ∧ x.controller = .config ∧
      x.cmdStatus.outcome = .failed ∧ x.cmdStatus.reason = some .arrayError
    (r.purpose = .recoveryRead → s.scanner.restoreStep = some .reading →
      (∀ d, exec (.recoveryReadDone n (.okay d)) s =
        .next (write (d.take r.length) { s.scanner with
          restoreStep := some .writing, attempt := 1, writeData := some (d.take r.length) })) ∧
      (s.scanner.attempt = 1 →
        exec (.recoveryReadDone n .error) s = .next (read e { s.scanner with attempt := 2 })) ∧
      (s.scanner.attempt = 2 → fails (exec (.recoveryReadDone n .error) s))) ∧
    (r.purpose = .recoveryWrite → s.scanner.restoreStep = some .writing →
      (∀ d e' rest, s.scanner.toRestore = e' :: rest →
        exec (.recoveryWriteDone n (.okay d)) s =
          .next (read e' { s.scanner with
            restoreEntry := some e', restoreStep := some .reading, attempt := 1, toRestore := rest
            writeData := none })) ∧
      (∀ d chosen scanEnd, s.scanner.toRestore = [] → s.scanner.chosen = some chosen →
        s.scanner.scanEnd = some scanEnd → s.incidents.length ≤ 8 →
        let copy := headerCopy (s.size p) chosen.epoch (chosen.generation + 1) scanEnd
        let slot := (chosen.generation + 1).toNat % 2
        ∃ x y : State, exec (.recoveryWriteDone n (.okay d)) s = .next y ∧
          y = x.issue .headerRewrite (.header p slot) (s.slotAddr p slot) 64 copy ∧
          x.scanner = { s.scanner with
            list := [], stage := some .rewrite, attempt := 1, restoreEntry := none, restoreStep := none
            writeData := some copy } ∧
          x.incidents = (((distinctSequences s.scanner.list).map (fun v =>
            let entries := s.scanner.list.filter (fun z => z.sequence == v)
            (⟨.recoveryUnwound, s.tickCounter, entries.head?.map (·.tag), some v, some p,
              entries.head?.map (·.line), some entries.length⟩ : Incident))).reverse ++ s.incidents).take 8 ∧
          x = { s with
            responses := [], mdo := [], joined := 0, outstanding := s.outstanding.filter (fun z => z.number != n)
            scanner := x.scanner, incidents := x.incidents, dropped := x.dropped, flags := x.flags }) ∧
      (s.scanner.attempt = 1 → ∀ d, s.scanner.writeData = some d →
        exec (.recoveryWriteDone n .error) s = .next (write d { s.scanner with attempt := 2 })) ∧
      (s.scanner.attempt = 2 → fails (exec (.recoveryWriteDone n .error) s)))

/-- R122, R134, R135: the header rewrite. Acknowledged: the partition is READY, all its positions at the scan end, with
the chosen epoch and the generation written, and empty; the scanner takes the next enabled partition, which is SCANNING
with both header copies read, or, with none left, the controller is ACTIVE, START is DONE, no claim stands and the
sequence counter is 1. A first failure writes the same copy again; a second ends START with ARRAY_ERROR. -/
def Obligations.RewriteMakesReady : Prop :=
  ∀ (s : State) (n : Word) (r : PortRecord) (p q : PartId) (k : Nat) (chosen : ChosenHeader) (scanEnd : Pos),
    s.direct = true → s.recordOf n = some r → r.purpose = .headerRewrite → r.ref = .header q k →
    s.scanner.current = some p → s.scanner.stage = some .rewrite → s.scanner.chosen = some chosen →
    s.scanner.scanEnd = some scanEnd →
    let left := s.outstanding.filter (fun x => x.number != n)
    let slot := (chosen.generation + 1).toNat % 2
    let ready : Partition :=
      ⟨.ready, scanEnd, scanEnd, scanEnd, 0, [], [], chosen.generation + 1, chosen.epoch, none⟩
    (∀ d, (∀ x, p < x → s.size x = 0) →
      exec (.headerRewriteDone n (.okay d)) s = .next { s with
        responses := [], mdo := [], joined := 0, outstanding := left, partitions := s.partitions.set p ready
        controller := .active, scanner := Scanner.cleared, claims := [], seqCounter := 1
        cmdStatus := { s.cmdStatus with outcome := .done, reason := none }, flags := s.flags ||| 0x080#9 }) ∧
    (∀ d x, p < x → s.size x ≠ 0 → (∀ y, p < y → y < x → s.size y = 0) →
      ∃ t : State, exec (.headerRewriteDone n (.okay d)) s = .next t ∧ t.part p = ready ∧
        t.part x = { s.part x with state := .scanning } ∧
        t.scanner = { Scanner.cleared with current := some x, stage := some .headers } ∧
        (t.outstanding.drop left.length).map (fun z => (z.purpose, z.ref, z.address)) =
          [(.headerRead, .header x 0, s.slotAddr x 0), (.headerRead, .header x 1, s.slotAddr x 1)] ∧
        t.controller = s.controller ∧ t.cmdStatus = s.cmdStatus) ∧
    (∀ d, s.scanner.attempt = 1 → s.scanner.writeData = some d →
      exec (.headerRewriteDone n .error) s =
        .next (State.issue .headerRewrite (.header p slot) (s.slotAddr p slot) 64 d { s with
          responses := [], mdo := [], joined := 0, outstanding := left, scanner := { s.scanner with attempt := 2 } })) ∧
    (s.scanner.attempt = 2 → ∃ x, exec (.headerRewriteDone n .error) s = .next x ∧ x.controller = .config ∧
      x.cmdStatus.outcome = .failed ∧ x.cmdStatus.reason = some .arrayError)

/-- R141: a FORMAT header write. Acknowledged for slot 1, the copy of slot 0 is written, with generation 2, tail slot 2
and lap 1, at the base the FORMAT was accepted with; acknowledged for slot 0, FORMAT is DONE. A first failure is tried
again; a second ends FORMAT with ARRAY_ERROR. -/
def Obligations.FormatWritesCopies : Prop :=
  ∀ (s : State) (n : Word) (r : PortRecord) (q : PartId) (k : Nat) (j : FormatJob), s.direct = true →
    s.recordOf n = some r → r.purpose = .formatWrite → r.ref = .format q k → s.formatJob = some j →
    j.copySlot = 0 ∨ j.copySlot = 1 →
    let b : State := { s with
      responses := [], mdo := [], joined := 0, outstanding := s.outstanding.filter (fun x => x.number != n) }
    let write := fun (job : FormatJob) =>
      State.issue .formatWrite (.format j.partition job.copySlot)
        (BitVec.ofNat 40 (j.base.toNat * 4096 + 64 * job.copySlot)) 64
        (headerCopy j.size.toNat j.epoch (if job.copySlot = 1 then 1 else 2) ⟨2, 1⟩) { b with formatJob := some job }
    (∀ d, j.copySlot = 1 →
      exec (.formatWriteDone n (.okay d)) s = .next (write { j with copySlot := 0, attempt := 1 })) ∧
    (∀ d, j.copySlot = 0 →
      exec (.formatWriteDone n (.okay d)) s = .next { b with
        formatJob := none, cmdStatus := { s.cmdStatus with outcome := .done, reason := none }
        flags := s.flags ||| 0x080#9 }) ∧
    (j.attempt = 1 → exec (.formatWriteDone n .error) s = .next (write { j with attempt := 2 })) ∧
    (j.attempt = 2 →
      exec (.formatWriteDone n .error) s = .next { b with
        formatJob := none
        cmdStatus := { s.cmdStatus with outcome := .failed, reason := some .arrayError, first := none }
        flags := s.flags ||| 0x008#9 })

/-! ### The controller (R140 to R158) -/

/-- R122, R135, R148: START in CONFIG. The first pair of partitions that overlaps, or else of a partition and a
region, ends it REFUSED(CONFIG_INVALID) with its check and both indices. With none, START is RUNNING, the controller
is RECOVERING, and the first enabled partition is SCANNING with both header copies read; with no partition enabled
recovery has succeeded: the controller is ACTIVE and START is DONE. The row stands for the clean one-byte frame that
writes the command (the model's choice, log 11). -/
def Obligations.StartBegins : Prop :=
  ∀ s : State, s.listening = true → s.controller = .config →
    (∀ p q, p < q → s.partsMeet p q →
      (∀ p' q', p' < q' → p' < p ∨ (p' = p ∧ q' < q) → ¬ s.partsMeet p' q') →
      exec .start s = .next (s.commandOverlaps .start .configInvalid (some .partitionOverlap) p q.val)) ∧
    ((∀ p q, p < q → ¬ s.partsMeet p q) →
      (∀ p r, s.regionMeets p r → (∀ p' r', p' < p ∨ (p' = p ∧ r' < r) → ¬ s.regionMeets p' r') →
        exec .start s = .next (s.commandOverlaps .start .configInvalid (some .regionOverlap) p r.val)) ∧
      ((∀ p r, ¬ s.regionMeets p r) →
        (∀ p, s.size p ≠ 0 → (∀ q, q < p → s.size q = 0) →
          exec .start s =
            .next (State.issue .headerRead (.header p 1) (s.slotAddr p 1) 64 []
              (State.issue .headerRead (.header p 0) (s.slotAddr p 0) 64 [] { s with
                responses := [], mdo := lowBits 56, joined := 0, link := commandLink, controller := .recovering
                cmdStatus := ⟨.running, none, none, none, none, some .start, some s.operand⟩
                partitions := s.partitions.set p { s.part p with state := .scanning }
                scanner := { Scanner.cleared with current := some p, stage := some .headers } }))) ∧
        ((∀ p, s.size p = 0) →
          exec .start s = .next { s with
            responses := [], mdo := lowBits 56, joined := 0, link := commandLink, controller := .active
            cmdStatus := ⟨.done, none, none, none, none, some .start, some s.operand⟩, flags := s.flags ||| 0x080#9
            scanner := Scanner.cleared, claims := [], seqCounter := 1 })))

/-- R140, R141: FORMAT in CONFIG. An operand above 3, a partition of size 0, another partition or an enabled region
that overlaps refuses it, the lowest-numbered one named (the model's choice, log 23). Otherwise FORMAT is RUNNING with
the base, size and epoch it was accepted with, and the header copy of slot 1, with generation 1 and its tail at slot
2, lap 1, is written; the partition's state is not changed. The row stands for the clean frame that writes the command
(log 11). -/
def Obligations.FormatBegins : Prop :=
  ∀ s : State, s.listening = true →
    (4 ≤ s.operand.toNat → s.controller ≠ .shutdown →
      exec .format s = .next (s.commandRefused (some .format) .operand)) ∧
    (∀ p : PartId, s.controller = .config → s.operand.toNat = p.val →
      (s.size p = 0 → exec .format s = .next (s.commandRefused (some .format) .noPartition)) ∧
      (s.size p ≠ 0 →
        (∀ q, q ≠ p → s.partsMeet p q → (∀ x, x ≠ p → x < q → ¬ s.partsMeet p x) →
          exec .format s = .next (s.commandOverlaps .format .partitionOverlap none p q.val)) ∧
        ((∀ q, q ≠ p → ¬ s.partsMeet p q) →
          (∀ r, s.regionMeets p r → (∀ x, x < r → ¬ s.regionMeets p x) →
            exec .format s = .next (s.commandOverlaps .format .regionOverlap none p r.val)) ∧
          ((∀ r, ¬ s.regionMeets p r) →
            exec .format s =
              .next (State.issue .formatWrite (.format p 1)
                (BitVec.ofNat 40 ((s.geometry[p]).base.toNat * 4096 + 64)) 64
                (headerCopy (s.geometry[p]).size.toNat s.formatEpoch 1 ⟨2, 1⟩) { s with
                  responses := [], mdo := lowBits 56, joined := 0, link := commandLink
                  cmdStatus := ⟨.running, none, none, none, none, some .format, some s.operand⟩
                  formatJob := some ⟨p, (s.geometry[p]).base, (s.geometry[p]).size, s.formatEpoch, 1, 1⟩ })))))

/-- R150 to R153, R193: QUIESCE in ACTIVE makes the controller QUIESCING, or QUIET in the same event when the quiet
condition holds; the condition takes QUIESCING to QUIET and raises QUIET_REACHED, and takes no other state; RESUME
makes QUIESCING and QUIET ACTIVE; STOP in QUIET makes the controller CONFIG, every partition OFF and the sequence
counter 1; CLEAR_INCIDENTS empties the list and the dropped count. Each command ends DONE. Each command row stands for
the clean frame that writes the command (the model's choice, log 11). -/
def Obligations.ModeCommands : Prop :=
  ∀ s : State, s.direct = true →
    (s.controller = .quiescing → s.quiet →
      exec .quietCondition s = .next { s with
        responses := [], mdo := [], joined := 0, controller := .quiet, flags := s.flags ||| 0x100#9 }) ∧
    (s.controller ≠ .quiescing ∨ ¬ s.quiet → exec .quietCondition s = .next s.begin) ∧
    (s.listening = true →
      let done := fun c => s.commandDone c
      (s.controller = .active → s.quiet →
        exec .quiesce s = .next { s with
          responses := [], mdo := lowBits 56, joined := 0, link := commandLink, cmdStatus := (done .quiesce).cmdStatus
          controller := .quiet, flags := s.flags ||| 0x180#9 }) ∧
      (s.controller = .active → ¬ s.quiet →
        exec .quiesce s = .next { s with
          responses := [], mdo := lowBits 56, joined := 0, link := commandLink, cmdStatus := (done .quiesce).cmdStatus
          controller := .quiescing, flags := s.flags ||| 0x080#9 }) ∧
      (s.controller = .quiescing ∨ s.controller = .quiet →
        exec .resume s = .next { s with
          responses := [], mdo := lowBits 56, joined := 0, link := commandLink, cmdStatus := (done .resume).cmdStatus
          controller := .active, flags := s.flags ||| 0x080#9 }) ∧
      (s.controller = .quiet →
        exec .stop s = .next { s with
          responses := [], mdo := lowBits 56, joined := 0, link := commandLink, cmdStatus := (done .stop).cmdStatus
          controller := .config, flags := s.flags ||| 0x080#9
          partitions := Vector.replicate 4 Partition.cleared, seqCounter := 1 }) ∧
      (s.controller ≠ .shutdown →
        exec .clearIncidents s = .next { s with
          responses := [], mdo := lowBits 56, joined := 0, link := commandLink
          cmdStatus := (done .clearIncidents).cmdStatus, flags := s.flags ||| 0x080#9, incidents := [], dropped := 0 }))

/-- R16, R19, R117: the commands that name a group, outside SHUTDOWN. An operand outside 1 to 15 is OPERAND.
FORCE_UNWIND revokes an OPEN group with cause FORCED and is DONE; any other state is STATE. RETRY_UNWIND refuses a
group that is not BROKEN with STATE and one of a FAULTED partition with PARTITION_FAULT; any other is UNWINDING again,
with the origin and cause it had, and joins the waiting order, and the command is RUNNING with its tag kept. Each row
stands for the clean frame that writes the command, and the order of the REVOKED responses is the model's (its choices,
logs 11 and 6). -/
def Obligations.GroupCommands : Prop :=
  ∀ s : State, s.listening = true → s.controller ≠ .shutdown →
    (s.operand.toNat = 0 ∨ 15 < s.operand.toNat →
      exec .forceUnwind s = .next (s.commandRefused (some .forceUnwind) .operand) ∧
      exec .retryUnwind s = .next (s.commandRefused (some .retryUnwind) .operand)) ∧
    (∀ t : Tag, s.operand.toNat = t.val + 1 →
      (s.groupState t ≠ .opened →
        exec .forceUnwind s = .next (s.commandRefused (some .forceUnwind) .state)) ∧
      (s.groupState t = .opened → s.entriesNumbered →
        ∃ x : State, exec .forceUnwind s = .next x.settle ∧
          x.group t = { s.group t with
            state := .unwinding, unwindOrigin := some .revoke, revokeCause := some .forced, commitRequest := none } ∧
          (∀ v, v ≠ t → x.group v = s.group v) ∧
          x.engine = { s.engine with waiting := s.engine.waiting ++ [t] } ∧
          x.responses = (s.members t).map (fun e => ⟨e.request.hostId, .revoked, []⟩) ∧
          x.requests = s.requests.filterMap (fun e =>
            if e.group = some t then
              if e.phase = .capturing ∨ e.phase = .storing ∨ e.phase = .loading then
                some { e with answered := true, group := none }
              else none
            else some e) ∧
          x.incidents = (⟨.groupRevoked, s.tickCounter, some t, some ((s.group t).sequence.getD 0),
            some ((s.group t).partition.getD 0), none, some 4⟩ :: s.incidents).take 8 ∧
          x.flags.getLsbD 4 = true ∧ x.flags.getLsbD 7 = true ∧
          x.partitions = (((s.members t).filterMap (fun e =>
            if e.phase = .ordered ∧ e.path = .newClaim then e.undo else none)).foldl
              (fun y u => y.padUndo u) s).partitions ∧
          x = { s with
            responses := x.responses, mdo := lowBits 56, joined := 1, link := commandLink
            cmdStatus := ⟨.done, none, none, none, none, some .forceUnwind, some s.operand⟩
            groups := x.groups, engine := x.engine, requests := x.requests, partitions := x.partitions
            incidents := x.incidents, dropped := x.dropped, flags := x.flags }) ∧
      (s.groupState t ≠ .broken →
        exec .retryUnwind s = .next (s.commandRefused (some .retryUnwind) .state)) ∧
      (∀ p, s.groupState t = .broken → (s.group t).partition = some p →
        ((s.part p).state = .faulted →
          exec .retryUnwind s = .next (s.commandRefused (some .retryUnwind) .partitionFault)) ∧
        ((s.part p).state ≠ .faulted →
          exec .retryUnwind s =
            .next (State.settle { s with
              responses := [], mdo := lowBits 56, joined := 1, link := commandLink
              cmdStatus := ⟨.running, none, none, none, none, some .retryUnwind, some s.operand⟩
              groups := s.groups.set t { s.group t with state := .unwinding }
              engine := { s.engine with waiting := s.engine.waiting ++ [t], retryTag := some t } }))))

/-- R146, R147: what refuses a command before its own checks, and its state. In SHUTDOWN every command but SOFT_RESET
is REFUSED(SHUTDOWN); a code that names no command is REFUSED(UNKNOWN) in every state, with no echo (log 22); a
command taken in a state that does not accept it is REFUSED(STATE). While a command is RUNNING none but SOFT_RESET is
applied: only the frame's status, COMMAND_BUSY, and LINK_ERROR show it. Each row stands for the clean frame that
writes the command (the model's choice, log 11). -/
def Obligations.CommandRefusals : Prop :=
  (∀ s : State, s.listening = true →
    (s.controller = .shutdown →
      ∀ x ∈ [(Instr.start, Command.start), (.format, .format), (.quiesce, .quiesce), (.resume, .resume),
          (.stop, .stop), (.forceUnwind, .forceUnwind), (.retryUnwind, .retryUnwind),
          (.clearIncidents, .clearIncidents)],
        exec x.1 s = .next (s.commandRefused (some x.2) .shutdown)) ∧
    (∀ code : Byte, 10 ≤ code.toNat → exec (.unknownCommand code) s = .next (s.commandRefused none .unknown)) ∧
    (s.controller ≠ .shutdown →
      (s.controller ≠ .config → exec .start s = .next (s.commandRefused (some .start) .state)) ∧
      (s.controller ≠ .config → s.operand.toNat < 4 →
        exec .format s = .next (s.commandRefused (some .format) .state)) ∧
      (s.controller ≠ .active → exec .quiesce s = .next (s.commandRefused (some .quiesce) .state)) ∧
      (s.controller ≠ .quiescing → s.controller ≠ .quiet →
        exec .resume s = .next (s.commandRefused (some .resume) .state)) ∧
      (s.controller ≠ .quiet → exec .stop s = .next (s.commandRefused (some .stop) .state)))) ∧
  (∀ (s : State) (code : Byte), s.direct = true → s.link.frame = .idle → s.cmdStatus.outcome = .running →
    10 ≤ code.toNat →
    ∀ c ∈ [Instr.start, .format, .quiesce, .resume, .stop, .forceUnwind, .retryUnwind, .clearIncidents,
        .unknownCommand code],
      exec c s = .next { s with
        responses := [], mdo := lowBits 56, joined := 0, link := { commandLink with lastFrame := .commandBusy }
        flags := s.flags ||| 0x040#9 })

/-- R100, R157, R158: SOFT_RESET, in every state and also while a command is RUNNING. Every unanswered entry is
answered ABANDONED, in the order of admission (the model's choice, log 6); the run state of every block is reset;
configuration, operand, mask, incidents, the tick counter and the issue counter stay; the command is DONE and
COMMAND_ENDED alone is pending. With the warning line asserted the controller goes on to SHUTDOWN, POWER_WARNING is
pending too and the unwind engine is STOPPED. A held request is then taken again (log 8). The row stands for the clean
frame that writes the command, and its operand gives the level of the warning line (the model's choice, logs 9 and
11). -/
def Obligations.SoftResetClearsRunState : Prop :=
  ∀ s : State, s.resetLine = false → s.link.frame = .idle →
    let cleared : State := { s with
      responses := (s.requests.filter (fun e => !e.answered)).map (fun e => ⟨e.request.hostId, .abandoned, []⟩)
      mdo := lowBits 56, joined := 0, controller := .config, held := none
      cmdStatus := ⟨.done, none, none, none, none, some .softReset, some s.operand⟩
      formatJob := none, groups := Vector.replicate 15 Group.cleared, seqCounter := 1, claims := []
      partitions := Vector.replicate 4 Partition.cleared, requests := [], engine := Engine.cleared
      scanner := Scanner.cleared, outstanding := [], link := Link.cleared, flags := 0x080#9, pfwLine := false }
    let warned : State := { cleared with
      controller := .shutdown, engine := { Engine.cleared with state := .stopped }, flags := 0x081#9, pfwLine := true }
    (s.held = none → exec (.softReset false) s = .next cleared ∧ exec (.softReset true) s = .next warned) ∧
    (∀ r, s.held = some r → r.wellFormed = true →
      ∃ t u, exec (.softReset false) s = .next t ∧ exec (.hostRequest r) cleared = .next u ∧
        t = { u with responses := cleared.responses ++ u.responses, mdo := lowBits 56, joined := 0 })

/-- R26, R97, R119, R137, R142, R154, R155: the power-fail warning line asserts. The controller is in SHUTDOWN and
POWER_WARNING is pending. Each unanswered entry that is a commit request, or whose phase is neither LOADING nor
STORING, is answered POWER_DOWN; it leaves unless its access is outstanding, and the rest of the table is untouched.
Every group drops its commit request and parked abort and is otherwise as it was. The engine is STOPPED unless a line
is in progress. A RUNNING command ends FAILED(SHUTDOWN), and a START with it the recovery. In SHUTDOWN the assertion
only raises POWER_WARNING again. A held request is refused POWER_DOWN in the same event (R81, log 8). The order of the
responses, a held request's last, is the model's choice (log 6). -/
def Obligations.PowerFailEntersShutdown : Prop :=
  ∀ s : State, s.resetLine = false →
    let commits := fun (e : Entry) => ∃ t, e.group = some t ∧ (s.group t).commitRequest = some e.index
    let powered := fun (e : Entry) => e.answered = false ∧ (commits e ∨ (e.phase ≠ .loading ∧ e.phase ≠ .storing))
    let inLine := s.engine.state = .restoring ∧ s.engine.lineStep ≠ .waitStores
    (s.controller = .shutdown → s.held = none →
      exec .pfwAssert s =
        .next { s with responses := [], mdo := [], joined := 0, pfwLine := true, flags := s.flags ||| 1#9 }) ∧
    (s.controller ≠ .shutdown → s.held = none → s.entriesNumbered →
      ∃ x : State, exec .pfwAssert s = .next x ∧ x.flags.getLsbD 0 = true ∧
        (∃ hit : Entry → Bool, (∀ e, hit e = true ↔ powered e) ∧
          x.responses = (s.requests.filter hit).map (fun e => ⟨e.request.hostId, .powerDown, []⟩) ∧
          x.requests = s.requests.filterMap (fun e =>
            if hit e then
              if e.phase = .loading ∨ e.phase = .capturing ∨ e.phase = .storing then some { e with answered := true }
              else none
            else some e)) ∧
        x.groups = s.groups.map (fun g => { g with commitRequest := none, parkedAbort := none }) ∧
        (s.controller ≠ .recovering →
          let retry := if s.cmdStatus.outcome = .running then none else s.engine.retryTag
          (inLine → x.engine = { s.engine with retryTag := retry }) ∧
          (¬ inLine → x.engine = { s.engine with
            state := .stopped, currentLine := none, lineStep := .waitStores, restoreData := none, restoreSet := []
            retryTag := retry }) ∧
          (s.cmdStatus.outcome ≠ .running → x.cmdStatus = s.cmdStatus ∧ x.formatJob = s.formatJob ∧
            x.flags = s.flags ||| 1#9) ∧
          (s.cmdStatus.outcome = .running →
            x.cmdStatus = { s.cmdStatus with outcome := .failed, reason := some .shutdown, first := none } ∧
            x.formatJob = none ∧ x.flags = s.flags ||| 0x009#9) ∧
          x = { s with
            responses := x.responses, mdo := [], joined := 0, pfwLine := true, controller := .shutdown
            cmdStatus := x.cmdStatus, formatJob := x.formatJob, groups := x.groups
            requests := x.requests, engine := x.engine, flags := x.flags }) ∧
        (s.controller = .recovering →
          x.cmdStatus =
            { s.cmdStatus with outcome := .failed, reason := some .shutdown, first := s.scanner.current } ∧
          x.partitions = Vector.replicate 4 Partition.cleared ∧ x.scanner = Scanner.cleared ∧
          x.incidents = (⟨.startFailed, s.tickCounter, none, none, some (s.scanner.current.getD 0), none, some 2⟩ ::
            s.incidents).take 8 ∧
          x.outstanding = s.outstanding ∧ x.controller = .shutdown ∧ x.flags.getLsbD 3 = true)) ∧
    (∀ r, s.held = some r → s.controller ≠ .shutdown → intentOk r = true → spanOk r = true →
      ∃ x : State, exec .pfwAssert s = .next x ∧ x.controller = .shutdown ∧ x.held = none ∧
        x.responses.getLast? = some ⟨r.hostId, .powerDown, []⟩)

/-- R74, R156, R158, R170, R184: the reset line. When it asserts every field takes its reset value; the issue counter
and the level of the warning line stay, and a frame in progress is discarded until MSEL rises. While it is asserted no
request, response, tick or event of a block is taken, frames are discarded and the warning is not taken. When it is
released the controller is in CONFIG, or with the warning asserted in SHUTDOWN with POWER_WARNING pending. The levels
of the warning line and of MSEL as operands, and a frame or a piece of one as a command, are the model's choices (logs
9 and 10). -/
def Obligations.ResetLineResets : Prop :=
  (∀ (s : State) (low : Bool), ∃ t, exec (.resetLineAssert low) s = .next t ∧
    t = { State.reset with
      resetLine := true, pfwLine := s.pfwLine, issueCounter := s.issueCounter, pending := s.pending
      link := { Link.cleared with frame := if low then .discarding else .idle } } ∧
    t.controller = .config ∧ t.cmdStatus = ⟨.idle, none, none, none, none, none, none⟩ ∧ t.operand = 0 ∧
    t.partitions = Vector.replicate 4 Partition.cleared ∧ t.geometry = Vector.replicate 4 ⟨0, 0⟩ ∧
    t.tagMap = Vector.replicate 15 0 ∧ t.outstanding = [] ∧ t.requests = [] ∧ t.held = none ∧ t.responses = [] ∧
    t.flags = 0 ∧ t.mask = 0) ∧
  (∀ (s : State) (low : Bool), s.resetLine = true → s.resetHeld →
    exec (.resetLineRelease false low) s = .next { State.reset with
      issueCounter := s.issueCounter, pending := s.pending
      link := { Link.cleared with frame := if low then .discarding else .idle } } ∧
    exec (.resetLineRelease true low) s = .next { State.reset with
      issueCounter := s.issueCounter, pending := s.pending, pfwLine := true, controller := .shutdown, flags := 1#9
      engine := { Engine.cleared with state := .stopped }
      link := { Link.cleared with frame := if low then .discarding else .idle } } ∧
    exec .pfwAssert s = .next { s with responses := [], mdo := [], joined := 0, pfwLine := true } ∧
    ∀ (rest : Bytes) (extra : Fin 8) (pfw : Bool),
      let dropped : State := { s with
        responses := [], mdo := lowBits (8 * (rest.length + 1) + extra.val), joined := 0
        link := { s.link with frame := .idle } }
      let discards : State := { s with
        responses := [], mdo := lowBits (8 * (rest.length + 1) + extra.val), joined := 0
        link := { s.link with frame := .discarding } }
      exec (.readFrame rest ⟨true, extra, true⟩) s = .next dropped ∧
        exec (.writeFrame rest ⟨true, extra, true⟩ pfw) s = .next dropped ∧
        exec (.readFrame rest ⟨true, extra, false⟩) s = .next discards ∧
        exec (.writeFrame rest ⟨true, extra, false⟩ pfw) s = .next discards) ∧
  (∀ (s : State) (r : HostRequest) (n : Word) (a : ArrayResult) (t : Tag) (p : PartId) (i : EntryId),
    s.resetLine = true → r.wellFormed = true →
    ∀ c ∈ [Instr.hostRequest r, .heldRequestRetaken, .leaveOrdered i, .hostReadDone n a, .captureReadDone n a,
        .homeWriteDone n a, .drainComplete t, .slotIssue p, .slotWriteDone n a, .headerWriteDone n a, .unwindTakeGroup,
        .groupSettled, .storesCleared, .unwindReadDone n a, .restoreWriteDone n a, .tick, .ageExpiry t,
        .arrayTimeout n, .lateResponse n a, .headerReadDone n a, .scanReadDone n a, .voidReadDone n a,
        .voidWriteDone n a, .recoveryReadDone n a, .recoveryWriteDone n a, .headerRewriteDone n a,
        .formatWriteDone n a, .quietCondition, .requestHandedOver],
      exec c s = .next { s with responses := [], mdo := [], joined := 0 })

/-! ### The management link (R172 to R184) -/

/-- R172 to R177, R183: a read frame, from its kind byte to the rise of MSEL. With fewer than five bytes it is SHORT.
A header that fails a check gives that check's status, and MDO stays low. A good header of length `n` at address `a`
takes the snapshot; MDO carries it and its CRC-8, most significant bit first, for as long as the frame lasts, to its
last edge, and is low after; the status is SHORT, OK or LONG by the number of edges. In every case nothing but the
link, MDO and, where the status is not OK, LINK_ERROR changes. A frame or a piece of one is a command (the model's
choice, log 10): a frame that comes in two pieces, the first of which ends within a byte or after one, ends as the
whole frame does, and MDO carries the same levels; the edges of a byte that is not complete have changed nothing but
the bit count. -/
def Obligations.ReadFrameReturnsSnapshot : Prop :=
  ∀ (s : State) (rest : Bytes) (extra : Fin 8), s.direct = true → s.link.frame = .idle →
    let frame := 0x3C#8 :: rest
    let edges := 8 * frame.length + extra.val
    let header := frame.take 5
    let byte := fun k => (header.getD k 0).toNat
    let address := byte 1 * 256 + byte 2
    let n := byte 3
    let ends := fun (decided : Option FrameStatus) (status : FrameStatus) (out : List Bool) =>
      exec (.readFrame rest ⟨true, extra, true⟩) s = .next { s with
        responses := [], mdo := out, joined := 0
        link := ⟨.idle, edges, header, decided, none, [], status⟩
        flags := if status = .ok then s.flags else s.flags ||| 0x040#9 }
    let bad := fun status => ends (some status) status (lowBits edges)
    (frame.length < 5 → ends none .short (lowBits edges)) ∧
    (5 ≤ frame.length → header.getD 4 0 ≠ linkCheck (header.take 4) → bad .headerCheck) ∧
    (5 ≤ frame.length → header.getD 4 0 = linkCheck (header.take 4) →
      (n = 0 ∨ 16 < n → bad .badLength) ∧
      (1 ≤ n → n ≤ 16 → 4096 ≤ address ∨ (∃ k, k < n ∧ mapped (address + k) = false) → bad .badAddress) ∧
      (1 ≤ n → n ≤ 16 → address < 4096 → (∀ k, k < n → mapped (address + k) = true) →
        let window := s.windowBytes address n
        let out := (lowBits 40 ++ bitsOf (window ++ [linkCheck window]) ++ lowBits edges).take edges
        (edges < 48 + 8 * n → ends none .short out) ∧ (edges = 48 + 8 * n → ends none .ok out) ∧
          (48 + 8 * n < edges → ends none .long out))) ∧
    (∀ front back k, rest = front ++ back → back ≠ [] ∨ k ≤ extra → ∃ t u : State,
      exec (.readFrame front ⟨true, k, false⟩) s = .next t ∧ exec (.readFrame back ⟨false, extra, true⟩) t = .next u ∧
        exec (.readFrame rest ⟨true, extra, true⟩) s = .next { u with mdo := t.mdo ++ u.mdo } ∧
        t = { s with responses := [], mdo := t.mdo, joined := 0, link := t.link } ∧
        t.link.bitCount = 8 * (front.length + 1) + k.val ∧ t.mdo.length = 8 * (front.length + 1) + k.val ∧
        exec (.readFrame front ⟨true, 0, false⟩) s = .next { t with
          mdo := t.mdo.take (8 * (front.length + 1)), link := { t.link with bitCount := 8 * (front.length + 1) } })

/-- R29, R43, R145, R176, R179, R189, R194, R199, R200, R201: what every mapped byte of the window reads, by the
tables' addresses, widths and codes, least significant byte first, which bytes are mapped, and the access class of
each of them: control, clear, configuration or read-only. The command register reads NONE, an absent field 0, and a
partition in OFF 0 in every run state item; the attention code is the lowest priority number both pending and enabled,
or 0; the claim table occupancy counts the claims, and while RECOVERING the recovery list; an incident list index past
the list's end reads 0 in every byte. -/
def Obligations.WindowReads : Prop :=
  ∀ s : State,
    let reads := fun (first width value : Nat) =>
      ∀ k, k < width → s.windowByte (first + k) = BitVec.ofNat 8 (value / 256 ^ k)
    reads 0x000 1 (match s.controller with
      | .config => 0 | .recovering => 1 | .active => 2 | .quiescing => 3 | .quiet => 4 | .shutdown => 5) ∧
    reads 0x001 1 (match s.link.lastFrame with
      | .ok => 0 | .headerCheck => 1 | .badKind => 2 | .badLength => 3 | .badAddress => 4 | .short => 5 | .long => 6
      | .dataCheck => 7 | .locked => 8 | .readOnly => 9 | .commandBusy => 10) ∧
    reads 0x002 1 s.operand.toNat ∧ reads 0x003 1 0 ∧
    reads 0x004 1 (match s.cmdStatus.outcome with
      | .idle => 0 | .running => 1 | .done => 2 | .refused => 3 | .failed => 4) ∧
    reads 0x005 1 (match s.cmdStatus.reason with
      | none => 0 | some .unknown => 1 | some .shutdown => 2 | some .state => 3 | some .operand => 4
      | some .configInvalid => 5 | some .noPartition => 6 | some .partitionOverlap => 7 | some .regionOverlap => 8
      | some .partitionFault => 9 | some .headerInvalid => 10 | some .geometry => 11
      | some .journalInconsistent => 12 | some .arrayError => 13 | some .restore => 14) ∧
    reads 0x006 1 (match s.cmdStatus.check with
      | none => 0 | some .partitionOverlap => 1 | some .regionOverlap => 2) ∧
    reads 0x007 1 ((s.cmdStatus.first.map (·.val)).getD 0) ∧ reads 0x008 1 (s.cmdStatus.second.getD 0) ∧
    reads 0x009 1 (match s.cmdStatus.echo with
      | none => 0 | some .start => 1 | some .format => 2 | some .quiesce => 3 | some .resume => 4 | some .stop => 5
      | some .forceUnwind => 6 | some .retryUnwind => 7 | some .clearIncidents => 8 | some .softReset => 9) ∧
    reads 0x00A 1 ((s.cmdStatus.operandEcho.map (·.toNat)).getD 0) ∧
    (s.flags &&& s.mask = 0 → reads 0x00B 1 0) ∧
    (∀ i, i < 9 → (s.flags &&& s.mask).getLsbD i = true → (∀ j, j < i → (s.flags &&& s.mask).getLsbD j = false) →
      reads 0x00B 1 (i + 1)) ∧
    reads 0x00C 2 s.flags.toNat ∧ reads 0x00E 2 s.mask.toNat ∧ reads 0x010 4 s.tickCounter.toNat ∧
    reads 0x014 2 s.tickDivider.toNat ∧
    reads 0x016 2 (if s.controller = .recovering then s.scanner.list.length else s.claims.length) ∧
    reads 0x018 4 s.formatEpoch.toNat ∧ reads 0x01C 2 s.claimLimit.toNat ∧ reads 0x01E 2 s.ageLimit.toNat ∧
    reads 0x020 1 s.arrayTimeout.toNat ∧ (∀ t : Tag, reads (0x030 + t.val) 1 (s.tagMap[t]).val) ∧
    (∀ r : RegionId,
      let x := s.regions[r]
      let entry := 0x040 + 16 * r.val
      reads entry 4 x.base.toNat ∧ reads (entry + 4) 4 x.size.toNat ∧
        reads (entry + 8) 1 (if x.mode = .shared then 1 else 0) ∧ reads (entry + 9) 1 (if x.enabled then 1 else 0)) ∧
    (∀ p : PartId,
      let x := s.part p
      let entry := 0x100 + 64 * p.val
      reads entry 4 (s.geometry[p]).base.toNat ∧ reads (entry + 4) 2 (s.geometry[p]).size.toNat ∧
      (x.state = .off → reads (entry + 6) 58 0) ∧
      (x.state ≠ .off →
        reads (entry + 6) 1 (match x.state with
          | .off => 0 | .scanning => 1 | .restoring => 2 | .ready => 3 | .faulted => 4) ∧
        reads (entry + 7) 1 x.spans.length ∧
        reads (entry + 8) 4 x.head.slot ∧ reads (entry + 12) 4 x.head.lap.toNat ∧
        reads (entry + 16) 4 x.workingTail.slot ∧ reads (entry + 20) 4 x.workingTail.lap.toNat ∧
        reads (entry + 24) 4 x.durableTail.slot ∧ reads (entry + 28) 4 x.durableTail.lap.toNat ∧
        reads (entry + 32) 4 (x.front (s.capacity p)).slot ∧
        reads (entry + 36) 4 (x.front (s.capacity p)).lap.toNat ∧
        reads (entry + 40) 4 (x.durableTail.dist (s.capacity p) x.head) ∧ reads (entry + 44) 1 x.reserved ∧
        reads (entry + 48) 4 x.generation.toNat ∧ reads (entry + 52) 4 x.epoch.toNat)) ∧
    (∀ t : Tag,
      let x := s.group t
      let entry := 0x200 + 16 * t.val
      reads entry 1 (match x.state with
        | .free => 0 | .opened => 1 | .draining => 2 | .sealing => 3 | .unwinding => 4 | .halted => 5
        | .broken => 6) ∧
      reads (entry + 1) 1 ((x.partition.map (·.val)).getD 0) ∧
      reads (entry + 2) 1 (match x.revokeCause with
        | none => 0 | some .age => 1 | some .array => 2 | some .partitionFault => 3 | some .forced => 4) ∧
      reads (entry + 3) 1 (match x.unwindOrigin with | none => 0 | some .host => 1 | some .revoke => 2) ∧
      reads (entry + 4) 4 ((x.sequence.map (·.toNat)).getD 0) ∧ reads (entry + 8) 2 x.claimsHeld ∧
      reads (entry + 10) 2 (x.undoCount.getD 0) ∧ reads (entry + 12) 2 x.age) ∧
    (∀ (i : Nat) (x : Incident), i < 8 → s.incidents[i]? = some x →
      let entry := 0x300 + 32 * i
      reads entry 1 (match x.kind with
        | .slotRetried => 1 | .partitionFaulted => 2 | .homeWriteFailed => 3 | .captureFailed => 4
        | .restoreFailed => 5 | .groupRevoked => 6 | .headerWriteFailed => 7 | .arrayTimeout => 8
        | .recoveryUnwound => 9 | .startFailed => 10) ∧
      reads (entry + 1) 1 ((if x.tag = none then 0 else 1) + (if x.sequence = none then 0 else 2) +
        (if x.partition = none then 0 else 4) + (if x.line = none then 0 else 8) +
        (if x.detail = none then 0 else 16)) ∧
      reads (entry + 2) 1 ((x.tag.map (·.val + 1)).getD 0) ∧ reads (entry + 3) 1 ((x.partition.map (·.val)).getD 0) ∧
      reads (entry + 4) 4 x.stamp.toNat ∧ reads (entry + 8) 4 ((x.sequence.map (·.toNat)).getD 0) ∧
      reads (entry + 12) 8 ((x.line.map (·.toNat)).getD 0) ∧ reads (entry + 20) 4 (x.detail.getD 0)) ∧
    (∀ i, s.incidents.length ≤ i → i < 8 → reads (0x300 + 32 * i) 32 0) ∧
    reads 0x400 1 s.dropped ∧
    (∀ a, mapped a = true ↔ a ≤ 0x020 ∨ 0x030 ≤ a ∧ a ≤ 0x03E ∨ 0x040 ≤ a ∧ a ≤ 0x0BF ∧ a % 16 < 10 ∨
      0x100 ≤ a ∧ a ≤ 0x1FF ∧ (a % 64 < 45 ∨ 48 ≤ a % 64 ∧ a % 64 < 56) ∨ 0x200 ≤ a ∧ a ≤ 0x2EF ∧ a % 16 < 14 ∨
      0x300 ≤ a ∧ a ≤ 0x3FF ∧ a % 32 < 24 ∨ a = 0x400) ∧
    (∀ a, classAt a = some .control ↔ a = 0x002 ∨ a = 0x003 ∨ a = 0x00E ∨ a = 0x00F) ∧
    (∀ a, classAt a = some .clear ↔ a = 0x00C ∨ a = 0x00D) ∧
    (∀ a, classAt a = some .configuration ↔ a = 0x014 ∨ a = 0x015 ∨ 0x018 ≤ a ∧ a ≤ 0x020 ∨
      0x030 ≤ a ∧ a ≤ 0x03E ∨ 0x040 ≤ a ∧ a ≤ 0x0BF ∧ a % 16 < 10 ∨ 0x100 ≤ a ∧ a ≤ 0x1FF ∧ a % 64 < 6) ∧
    (∀ a, classAt a = some .readOnly ↔ a ≤ 0x001 ∨ 0x004 ≤ a ∧ a ≤ 0x00B ∨ 0x010 ≤ a ∧ a ≤ 0x013 ∨ a = 0x016 ∨
      a = 0x017 ∨ 0x100 ≤ a ∧ a ≤ 0x1FF ∧ (6 ≤ a % 64 ∧ a % 64 < 45 ∨ 48 ≤ a % 64 ∧ a % 64 < 56) ∨
      0x200 ≤ a ∧ a ≤ 0x2EF ∧ a % 16 < 14 ∨ 0x300 ≤ a ∧ a ≤ 0x3FF ∧ a % 32 < 24 ∨ a = 0x400)

/-- R172, R180, R181, R182: a write frame whose header is good and whose data `data` is followed by the byte `check`,
and then by the bytes `more` and `extra` edges. By the order of R180 it is LONG, DATA_CHECK, READ_ONLY, LOCKED or
COMMAND_BUSY, and then nothing but the link and LINK_ERROR changes; or it is OK and applied: its bytes are written,
and then the command its range covers, if it names one, is taken. A frame or a piece of one is a command (the model's
choice, log 10): a frame that comes in two pieces, the first of which ends within a byte or after one, ends as the
whole frame does. MDO is low throughout. That the write buffer of a frame decided OK is absent from the end of the
frame on is the model's choice (log 43). -/
def Obligations.WriteFrameIsDecided : Prop :=
  ∀ (s : State) (a : Nat) (data more : Bytes) (check : Byte) (extra : Fin 8) (pfw : Bool), s.direct = true →
    s.link.frame = .idle → a < 4096 → 1 ≤ data.length → data.length ≤ 16 →
    (∀ k, k < data.length → mapped (a + k) = true) →
    let n := data.length
    let four : Bytes := [0xC3#8, BitVec.ofNat 8 (a / 256), BitVec.ofNat 8 a, BitVec.ofNat 8 n]
    let header := four ++ [linkCheck four]
    let command := if a ≤ 3 ∧ 3 < a + n then (data.getD (3 - a) 0).toNat else 0
    let busy := s.cmdStatus.outcome = .running ∧ command ≠ 0 ∧ command ≠ 9
    let class_ := fun c => ∃ k, k < n ∧ classAt (a + k) = some c
    let beyond := 8 * more.length + extra.val
    let rest := header.tail ++ data ++ [check] ++ more
    let decided := fun (outcome : Host.Outcome State Fault Refusal) (edges : Nat) =>
      let ended := fun (status : FrameStatus) =>
        ({ s with
          responses := [], mdo := lowBits edges, joined := 0
          link := ⟨.idle, 48 + 8 * n + beyond, header, none, none, [], status⟩
          flags := if status = .ok then s.flags else s.flags ||| 0x040#9 } : State)
      (beyond ≠ 0 → outcome = .next (ended .long)) ∧
      (beyond = 0 → check ≠ linkCheck data → outcome = .next (ended .dataCheck)) ∧
      (beyond = 0 → check = linkCheck data →
        (class_ .readOnly → outcome = .next (ended .readOnly)) ∧
        (¬ class_ .readOnly → class_ .configuration → s.controller ≠ .config → outcome = .next (ended .locked)) ∧
        (¬ class_ .readOnly → ¬ class_ .configuration ∨ s.controller = .config →
          (busy → outcome = .next (ended .commandBusy)) ∧
          (¬ busy →
            (command = 0 → outcome = .next ((ended .ok).writeRange a data)) ∧
            (command ≠ 0 → outcome = .next (((ended .ok).writeRange a data).takeCommand command pfw)))))
    decided (exec (.writeFrame rest ⟨true, extra, true⟩ pfw) s) (48 + 8 * n + beyond) ∧
    (∀ front back k, rest = front ++ back → back ≠ [] ∨ k ≤ extra → ∃ t : State,
      exec (.writeFrame front ⟨true, k, false⟩ pfw) s = .next t ∧
      t = { s with responses := [], mdo := lowBits (8 * (front.length + 1) + k.val), joined := 0, link := t.link } ∧
      t.link.bitCount = 8 * (front.length + 1) + k.val ∧
      decided (exec (.writeFrame back ⟨false, extra, true⟩ pfw) t) (8 * back.length + extra.val - k.val))

/-- R34, R44, R78, R181, R185, R188, R189, R200: what a written field stores: the claim limit 1 to 1024, the
divider at least 1 (and the division count starts again), a tag map entry at most 3, a base and a size their largest
values, the mask its nine bits; the pending flags lose those written as one. Each write leaves everything else as it
was. A range that covers a field in part writes the value assembled of its bytes, in their positions, and of the
field's other bytes, which is then limited; of the pending flags an uncovered byte clears none. A range over several
fields writes each with its part of the data: cut where it cuts no such field, it is written as its two parts, one
after the other. The bytes of the range write nothing to the command register. -/
def Obligations.WrittenFieldsAreLimited : Prop :=
  ∀ (s : State) (x y z w : Byte),
    let two := x.toNat + 256 * y.toNat
    let four := two + 65536 * (z.toNat + 256 * w.toNat)
    let wide : List (Nat × Nat) :=
      [(0x00E, 2), (0x014, 2), (0x018, 4), (0x01C, 2), (0x01E, 2)] ++
        (List.range 8).flatMap (fun r => [(0x040 + 16 * r, 4), (0x044 + 16 * r, 4)]) ++
        (List.range 4).flatMap (fun p => [(0x100 + 64 * p, 4), (0x104 + 64 * p, 2)])
    s.writeRange 0x002 [x] = { s with operand := x } ∧
    s.writeRange 0x00C [x, y] = { s with flags := s.flags &&& ~~~(BitVec.ofNat 9 two) } ∧
    s.writeRange 0x00E [x, y] = { s with mask := BitVec.ofNat 9 two } ∧
    s.writeRange 0x014 [x, y] = { s with tickDivider := BitVec.ofNat 16 (max 1 two), divisionCount := 0 } ∧
    s.writeRange 0x018 [x, y, z, w] = { s with formatEpoch := BitVec.ofNat 32 four } ∧
    s.writeRange 0x01C [x, y] = { s with claimLimit := BitVec.ofNat 16 (max 1 (min 1024 two)) } ∧
    s.writeRange 0x01E [x, y] = { s with ageLimit := BitVec.ofNat 16 two } ∧
    s.writeRange 0x020 [x] = { s with arrayTimeout := x } ∧
    (∀ t : Tag, ∃ v : PartId, v.val = min 3 x.toNat ∧
      s.writeRange (0x030 + t.val) [x] = { s with tagMap := s.tagMap.set t v }) ∧
    (∀ r : RegionId,
      s.writeRange (0x040 + 16 * r.val) [x, y, z, w] = { s with
        regions := s.regions.set r { s.regions[r] with base := BitVec.ofNat 32 (min 0x0FFFFFFF four) } } ∧
      s.writeRange (0x044 + 16 * r.val) [x, y, z, w] = { s with
        regions := s.regions.set r { s.regions[r] with size := BitVec.ofNat 32 (min 0x10000000 four) } } ∧
      s.writeRange (0x048 + 16 * r.val) [x] = { s with
        regions := s.regions.set r
          { s.regions[r] with mode := if x.getLsbD 0 then .shared else .guarded } } ∧
      s.writeRange (0x049 + 16 * r.val) [x] = { s with
        regions := s.regions.set r { s.regions[r] with enabled := x.getLsbD 0 } }) ∧
    (∀ p : PartId,
      s.writeRange (0x100 + 64 * p.val) [x, y, z, w] = { s with
        geometry := s.geometry.set p { s.geometry[p] with base := BitVec.ofNat 32 (min 0x0FFFF000 four) } } ∧
      s.writeRange (0x104 + 64 * p.val) [x, y] = { s with
        geometry := s.geometry.set p { s.geometry[p] with size := BitVec.ofNat 16 (min 4096 two) } }) ∧
    s.writeRange 0x003 [x] = s ∧
    s.writeRange 0x00C [x] = s.writeRange 0x00C [x, 0] ∧ s.writeRange 0x00D [x] = s.writeRange 0x00C [0, x] ∧
    (∀ f ∈ wide, ∀ (i : Nat) (data : Bytes), 0 < data.length → i + data.length ≤ f.2 →
      s.writeRange (f.1 + i) data = s.writeRange f.1 ((List.range f.2).map (fun k =>
        if i ≤ k ∧ k < i + data.length then data.getD (k - i) 0 else s.windowByte (f.1 + k)))) ∧
    (∀ (first : Nat) (data1 data2 : Bytes),
      (∀ f ∈ (0x00C, 2) :: wide, first + data1.length ≤ f.1 ∨ f.1 + f.2 ≤ first + data1.length) →
      s.writeRange first (data1 ++ data2) = (s.writeRange first data1).writeRange (first + data1.length) data2)

/-- R172, R173, R175, R177, R180, R184: frames that are no read or write frame, and frames cut short. A frame of an
unknown kind changes nothing but the link and LINK_ERROR: SHORT before its fifth byte, then HEADER_CHECK or BAD_KIND;
without a single edge it is no frame. A write frame whose header fails a check is HEADER_CHECK, BAD_LENGTH or
BAD_ADDRESS, by the first that fails; one that ends before its header is whole, or before its last bit, is SHORT.
While the link discards, MSEL's rise only makes it IDLE, and otherwise that event does nothing. A frame, or a piece of
one, is a command (the model's choice, log 10): one of an unknown kind that comes in two pieces, the first of which
ends within a byte or after one, ends as the whole frame does. -/
def Obligations.FaultyFramesChangeNothing : Prop :=
  ∀ s : State, s.direct = true →
    (s.link.frame = .discarding →
      exec .discardedFrameEnds s =
        .next { s with responses := [], mdo := [], joined := 0, link := { s.link with frame := .idle } }) ∧
    (s.link.frame ≠ .discarding → exec .discardedFrameEnds s = .next s.begin) ∧
    (s.link.frame = .idle →
      let ends := fun (frame : Bytes) (extra : Fin 8) (decided : Option FrameStatus) (status : FrameStatus) =>
        ({ s with
          responses := [], mdo := lowBits (8 * frame.length + extra.val), joined := 0
          link := ⟨.idle, 8 * frame.length + extra.val, frame.take 5, decided, none, [], status⟩
          flags := s.flags ||| 0x040#9 } : State)
      (exec (.badKindFrame [] ⟨true, 0, true⟩) s = .next { s with
        responses := [], mdo := [], joined := 0, link := { Link.cleared with lastFrame := s.link.lastFrame } }) ∧
      (∀ (bytes : Bytes) (extra : Fin 8), badKind bytes = true →
        (bytes.length < 5 → bytes ≠ [] ∨ extra ≠ 0 →
          exec (.badKindFrame bytes ⟨true, extra, true⟩) s = .next (ends bytes extra none .short)) ∧
        (5 ≤ bytes.length → bytes.getD 4 0 ≠ linkCheck (bytes.take 4) →
          exec (.badKindFrame bytes ⟨true, extra, true⟩) s =
            .next (ends bytes extra (some .headerCheck) .headerCheck)) ∧
        (5 ≤ bytes.length → bytes.getD 4 0 = linkCheck (bytes.take 4) →
          exec (.badKindFrame bytes ⟨true, extra, true⟩) s = .next (ends bytes extra (some .badKind) .badKind)) ∧
        (∀ front back k, bytes = front ++ back → back ≠ [] ∨ k ≤ extra → ∃ t u : State,
          exec (.badKindFrame front ⟨true, k, false⟩) s = .next t ∧
            exec (.badKindFrame back ⟨false, extra, true⟩) t = .next u ∧
            exec (.badKindFrame bytes ⟨true, extra, true⟩) s = .next { u with mdo := t.mdo ++ u.mdo })) ∧
      (∀ (rest : Bytes) (extra : Fin 8) (pfw : Bool), rest.length < 4 →
        exec (.writeFrame rest ⟨true, extra, true⟩ pfw) s = .next (ends (0xC3#8 :: rest) extra none .short)) ∧
      (∀ (rest : Bytes) (extra : Fin 8) (pfw : Bool), 4 ≤ rest.length →
        let frame := 0xC3#8 :: rest
        let byte := fun k => (frame.getD k 0).toNat
        let address := byte 1 * 256 + byte 2
        let n := byte 3
        let bad := fun status =>
          exec (.writeFrame rest ⟨true, extra, true⟩ pfw) s = .next (ends frame extra (some status) status)
        (frame.getD 4 0 ≠ linkCheck (frame.take 4) → bad .headerCheck) ∧
        (frame.getD 4 0 = linkCheck (frame.take 4) →
          (n = 0 ∨ 16 < n → bad .badLength) ∧
          (1 ≤ n → n ≤ 16 → 4096 ≤ address ∨ (∃ k, k < n ∧ mapped (address + k) = false) → bad .badAddress))) ∧
      (∀ (a n : Nat) (data : Bytes) (extra : Fin 8) (pfw : Bool), 1 ≤ n → n ≤ 16 → a < 4096 →
        (∀ k, k < n → mapped (a + k) = true) → data.length ≤ n →
        let four : Bytes := [0xC3#8, BitVec.ofNat 8 (a / 256), BitVec.ofNat 8 a, BitVec.ofNat 8 n]
        let frame := four ++ [linkCheck four] ++ data
        exec (.writeFrame frame.tail ⟨true, extra, true⟩ pfw) s = .next (ends frame extra none .short)))

/-! ### Formats (R124, R127, R194 to R197) -/

/-- R58 to R60, R67, R124, R127, R194 to R197: what is written is read back. Each slot has 64 bytes. A header copy
gives back its size, epoch, generation and tail, and is well-formed in the slot of its generation's parity and in no
other. An UNDO record gives back its tag, sequence, index and line, a closing record its undo count, and each record
is valid at the position whose lap it carries, but for one of two slots at the last ring slot. -/
def Obligations.SlotsReadBack : Prop :=
  (∀ (size : Nat) (epoch generation : Word) (tail : Pos), 1 ≤ size → size ≤ 4096 → 2 ≤ tail.slot →
    tail.slot ≤ 64 * size - 1 →
    let copy := headerCopy size epoch generation tail
    copy.length = 64 ∧ headerSize copy = size ∧ slotEpoch copy = epoch ∧ headerGeneration copy = generation ∧
      headerTail copy = tail ∧ ∀ k, headerWellFormed k copy = decide (k % 2 = generation.toNat % 2)) ∧
  (∀ (epoch : Word) (pos : Pos) (last : Nat) (info : RecordInfo) (line : Addr) (old : Bytes),
    info.sequence ≠ 0 → 1 ≤ info.index → info.index ≤ 1024 → info.line = some line → line.toNat % 64 = 0 →
    let slot := undoSlotBytes epoch pos.lap info old
    slot.length = 64 ∧ slotTag slot = info.tag.val + 1 ∧ slotSequence slot = info.sequence.toNat ∧
      slotIndex slot = info.index ∧ slotLine slot = line.toNat ∧
      recordValid epoch pos last slot old = decide (pos.slot ≠ last)) ∧
  (∀ (epoch : Word) (pos : Pos) (last : Nat) (info : RecordInfo) (kind : Byte),
    kind = 0xA2#8 ∨ kind = 0xA3#8 → info.sequence ≠ 0 → 1 ≤ info.index → info.index ≤ 1024 →
    let slot := closingSlotBytes kind epoch pos.lap info
    slot.length = 64 ∧ slotKindByte slot = kind ∧ slotTag slot = info.tag.val + 1 ∧
      slotSequence slot = info.sequence.toNat ∧ slotUndoCount slot = info.index ∧
      recordValid epoch pos last slot [] = true) ∧
  (∀ (epoch : Word) (pos : Pos) (last length : Nat), length = 1 ∨ length = 2 →
    let slot := padSlotBytes length epoch pos.lap
    slot.length = 64 ∧ slotPadLength slot = length ∧
      recordValid epoch pos last slot [] = decide (length = 1 ∨ pos.slot ≠ last))

/-! ### Invariants -/

/-- R27, R43, R44, R45, R78, R139, R145, R146, R156, R161, R164, R185, R189, R190: what reset leaves, and that it
meets every invariant below. The warning line's level, MSEL's level and the issue counter's first value are the
model's choice (logs 31 and 37). -/
def Obligations.ResetStateMeetsInvariants : Prop :=
  State.reset.controller = .config ∧ State.reset.cmdStatus.outcome = .idle ∧ State.reset.operand = 0 ∧
    State.reset.claimLimit = 1024 ∧ State.reset.ageLimit = 0 ∧ State.reset.arrayTimeout = 0 ∧
    State.reset.tickDivider = 25000 ∧ State.reset.formatEpoch = 0 ∧ State.reset.seqCounter = 1 ∧
    State.reset.tickCounter = 0 ∧ State.reset.flags = 0 ∧ State.reset.mask = 0 ∧ State.reset.dropped = 0 ∧
    (∀ r : RegionId, State.reset.regions[r] = ⟨0, 0, .guarded, false⟩) ∧
    (∀ p : PartId, State.reset.geometry[p] = ⟨0, 0⟩ ∧ (State.reset.part p).state = .off) ∧
    (∀ t : Tag, State.reset.tagMap[t] = 0 ∧ State.reset.groupState t = .free) ∧
    State.reset.atRest = true ∧ State.reset.incidentsBounded ∧ State.reset.configInRange ∧
    State.reset.entriesNumbered ∧ State.reset.claimsByLine ∧ State.reset.scannerIdle ∧ State.reset.resetHeld ∧
    State.reset.linkSound ∧ State.reset.numbered ∧ State.reset.GroupsSound ∧ State.reset.JournalSound

/-- R29, R30, R34, R44, R78, R86, R185, R190, R192: every step keeps the incident list at 8 entries at most and its
dropped count at 255 at most, every configuration value in its range, the numbers of the request table's entries
distinct, and the claim table at 1024 claims at most with no line twice. -/
def Obligations.StepKeepsBounds : Prop :=
  ∀ s t : State, step s = .next t →
    (s.incidentsBounded → t.incidentsBounded) ∧ (s.configInRange → t.configInRange) ∧
    (s.entriesNumbered → t.entriesNumbered) ∧ (s.claimsByLine → t.claimsByLine)

/-- R2, R29, R30, R102: every step keeps the group table, the claim table and the waiting order in agreement: claims
held is the number of a group's claims, no line is claimed twice, no two groups carry one sequence, and the groups in
UNWINDING are the engine's current one and those of the waiting order, each once. -/
def Obligations.StepKeepsGroupTable : Prop :=
  ∀ s t : State, step s = .next t → s.GroupsSound → t.GroupsSound

/-- R50, R52, R53, R56: every step keeps the ring law: in every ring the slots in use and the reserved closing slots
stay within the capacity, and the spans and the reservations within 64; the three positions, the marks and the spans
agree, and the reserved closing slots count the groups that hold one. -/
def Obligations.StepKeepsRingLaw : Prop :=
  ∀ s t : State, step s = .next t → s.GroupsSound → s.JournalSound → t.JournalSound

/-- R121, R136, R137, R156, R173: every step keeps the scanner in its reset state outside RECOVERING, and, while the
reset line is asserted, every field at its reset value; and the link holds in each frame state what that state has
received (a frame or a piece of one is a command: the model's choice, log 10). -/
def Obligations.StepKeepsResetValues : Prop :=
  ∀ s t : State, step s = .next t →
    (s.scannerIdle → t.scannerIdle) ∧ (s.resetHeld → t.resetHeld) ∧ (s.linkSound → t.linkSound)

/-- R143, R144, R155, R179: whatever the step, of a command that the ports can carry. The configuration changes only
in CONFIG, by a write frame, or by the reset line. SHUTDOWN is left only by the reset line or by a SOFT_RESET, its own
row or a frame that writes it. The controller reaches QUIET only from ACTIVE or QUIESCING, RECOVERING only from
CONFIG, and ACTIVE only from CONFIG, RECOVERING, QUIESCING or QUIET. The management link alone writes the mask and the
operand, the reset line apart. A frame that writes is the row of a write frame or of a piece of one, or, with a frame
in progress, any row of the link (the model's choice, log 10). -/
def Obligations.ControllerLaws : Prop :=
  ∀ s t : State, s.scannerIdle → (∀ c, s.pending.head? = some c → c.wellFormed = true) →
    step s = .next t →
    let front := s.pending.head?
    let reset := ∃ low, front = some (.resetLineAssert low)
    let frame := (∃ rest piece pfw, front = some (.writeFrame rest piece pfw)) ∨
      (¬ s.betweenFrames ∧ ∃ c, front = some c ∧ onLink c = true)
    (t.configuration ≠ s.configuration → (frame ∧ s.controller = .config) ∨ reset) ∧
    (s.controller = .shutdown → t.controller ≠ .shutdown →
      reset ∨ (∃ pfw, front = some (.softReset pfw)) ∨ (frame ∧ t.cmdStatus.echo = some .softReset)) ∧
    (t.controller = .quiet → s.controller = .active ∨ s.controller = .quiescing ∨ s.controller = .quiet) ∧
    (t.controller = .recovering → s.controller = .config ∨ s.controller = .recovering) ∧
    (t.controller = .active → s.controller ≠ .shutdown) ∧
    (t.mask ≠ s.mask ∨ t.operand ≠ s.operand → frame ∨ reset)
end

