-- ==== Sys2Proof/Laws/Settle.lean ====
section
/-! SUPPORT. What the settling of an event can do: an induction principle, over the five kinds of test it makes,
and the fact that a state at rest settles to itself. -/

namespace Sys2Proof.Machine

theorem foldl_keeps {α : Type} (P : State → Prop) (f : State → α → State) (h : ∀ s x, P s → P (f s x))
    (l : List α) : ∀ s : State, P s → P (l.foldl f s) := by
  induction l with
  | nil => exact fun _ hs => hs
  | cons x l ih => exact fun s hs => ih _ (h s x hs)

theorem settleLoop_zero (s : State) : State.settleLoop 0 s = s.leaveAll.drainAll.issueAll := by
  rw [State.settleLoop]

theorem settleLoop_succ (s : State) (n : Nat) :
    State.settleLoop (n + 1) s =
      if s.settleRound.2 then State.settleLoop n s.settleRound.1 else s.settleRound.1.issueAll := by
  rw [State.settleLoop]

theorem settleLoop_keeps (P : State → Prop) (leave : ∀ s i, P s → P (s.leaveOrdered i))
    (drain : ∀ s t, P s → P (s.drain t)) (advance : ∀ s t, s.engineAdvance = some t → P s → P t)
    (issue : ∀ s p, P s → P (s.issueSlots p)) (n : Nat) : ∀ s : State, P s → P (State.settleLoop n s) := by
  have tests : ∀ s, P s → P s.leaveAll.drainAll := fun s hs =>
    foldl_keeps P _ drain _ _ (foldl_keeps P _ leave _ _ hs)
  have slots : ∀ s, P s → P s.issueAll := foldl_keeps P _ issue _
  induction n with
  | zero =>
    intro s hs
    rw [settleLoop_zero]
    exact slots _ (tests _ hs)
  | succ n ih =>
    intro s hs
    have round : P s.settleRound.1 := by
      have ht := tests s hs
      unfold State.settleRound
      generalize s.leaveAll.drainAll = t at ht
      split
      · exact advance _ _ ‹_› ht
      · exact ht
    rw [settleLoop_succ]
    split
    · exact ih _ round
    · exact slots _ round

/-- A property that the five tests keep is kept by settling. -/
theorem settle_keeps (P : State → Prop) (leave : ∀ s i, P s → P (s.leaveOrdered i))
    (drain : ∀ s t, P s → P (s.drain t)) (advance : ∀ s t, s.engineAdvance = some t → P s → P t)
    (issue : ∀ s p, P s → P (s.issueSlots p)) (quiet : ∀ s, P s → P s.quietTest) (s : State) (hs : P s) :
    P s.settle :=
  quiet _ (settleLoop_keeps P leave drain advance issue _ _ hs)

/-! ### At rest -/

theorem foldl_still {α : Type} (f : State → α → State) (s : State) (l : List α) (h : ∀ x ∈ l, f s x = s) :
    l.foldl f s = s := by
  induction l with
  | nil => rfl
  | cons x l ih =>
    rw [List.foldl_cons, h x (by simp), ih (fun y hy => h y (by simp [hy]))]

theorem leaveOrdered_still (s : State) (i : EntryId) (h : s.canLeave i = false) : s.leaveOrdered i = s := by
  unfold State.canLeave at h
  unfold State.leaveOrdered
  split
  · rfl
  · rename_i e he
    rw [he] at h
    simp only at h
    rw [h]; rfl

theorem drain_still (s : State) (t : Tag) (h : s.canDrain t = false) : s.drain t = s := by
  unfold State.canDrain at h
  unfold State.drain
  rw [h]; rfl

theorem setPart_self (s : State) (p : PartId) : s.setPart p (s.part p) = s := by
  have h : s.partitions.set p (s.partitions[p]) p.isLt = s.partitions := by
    apply Vector.ext; intro i hi
    by_cases hp : (p : Nat) = i
    · subst hp; simp
    · rw [Vector.getElem_set_ne]; exact hp
  unfold State.setPart State.part
  rw [h]

theorem issueMarks_still : ∀ (n : Nat) (marks : List Mark), (readyRun n marks).isEmpty → issueMarks marks = marks
  | _, [] => fun _ => rfl
  | n, m :: rest => by
    unfold readyRun issueMarks
    cases m.progress <;> simp
    all_goals exact fun h => issueMarks_still (n + 1) rest (by simpa using h)

theorem issueSlots_still (s : State) (p : PartId)
    (h : (!s.journalRuns p || (readyRun 0 (s.part p).marks).isEmpty) = true) : s.issueSlots p = s := by
  unfold State.issueSlots
  split
  · rename_i hr
    rw [hr] at h
    have hm : (readyRun 0 (s.part p).marks).isEmpty := by simpa using h
    have he : readyRun 0 (s.part p).marks = [] := by simpa using hm
    simp only [he, List.foldl_nil, issueMarks_still 0 _ hm]
    exact setPart_self s p
  · rfl

/-- In a state at rest no entry leaves ORDERED, no group drains, no slot is issued and the engine stands. -/
theorem tests_of_atRest (s : State) (h : s.atRest = true) :
    s.leaveAll = s ∧ s.drainAll = s ∧ s.issueAll = s ∧ s.engineAdvance = none ∧ s.quietTest = s := by
  unfold State.atRest at h
  simp only [Bool.and_eq_true] at h
  obtain ⟨⟨⟨⟨hl, hd⟩, he⟩, hi⟩, hq⟩ := h
  refine ⟨foldl_still _ _ _ fun i hi => ?_, foldl_still _ _ _ fun t ht =>
    drain_still _ _ (by simpa using List.all_eq_true.mp hd t ht), foldl_still _ _ _ fun p hp =>
    issueSlots_still _ _ (List.all_eq_true.mp hi p hp), Option.isNone_iff_eq_none.mp he, ?_⟩
  · obtain ⟨e, he, rfl⟩ := List.mem_map.mp hi
    exact leaveOrdered_still _ _ (by simpa using List.all_eq_true.mp hl e he)
  · have hq' : (decide (s.controller = CtrlState.quiescing) && s.quietHolds) = false := by
      simpa only [Bool.not_eq_true'] using hq
    rw [State.quietTest, hq']
    rfl

/-- However many rounds remain, a state at rest is what they leave. -/
theorem settleLoop_of_atRest (s : State) (h : s.atRest = true) : ∀ n, State.settleLoop n s = s
  | 0 => by
    obtain ⟨h1, h2, h3, -, -⟩ := tests_of_atRest s h
    rw [settleLoop_zero, h1, h2, h3]
  | n + 1 => by
    obtain ⟨h1, h2, h3, h4, -⟩ := tests_of_atRest s h
    have hr : s.settleRound = (s, false) := by
      unfold State.settleRound
      rw [h1, h2, h4]
    rw [settleLoop_succ, hr]
    exact h3

/-- A state at rest settles to itself: everything an event brings about has been taken. -/
theorem settle_of_atRest (s : State) (h : s.atRest = true) : s.settle = s := by
  obtain ⟨-, -, -, -, h5⟩ := tests_of_atRest s h
  unfold State.settle
  rw [settleLoop_of_atRest s h, h5]

/-- An event after which the engine alone takes one step, and that leaves a state at rest. -/
theorem settle_of_round (s t : State) (h : s.settleRound = (t, true)) (hr : t.atRest = true) : s.settle = t := by
  obtain ⟨-, -, -, -, h5⟩ := tests_of_atRest t hr
  unfold State.settle
  rw [show settleFuel = 63 + 1 from rfl, settleLoop_succ, h]
  rw [if_pos rfl, settleLoop_of_atRest t hr, h5]

/-- In SHUTDOWN nothing is brought about: no entry leaves ORDERED, no group drains, the engine stands, no slot is
issued and the controller stays (R26, R65, R98, R119). -/
theorem atRest_shutdown (s : State) (h : s.controller = .shutdown) : s.atRest = true := by
  have he : s.engineAdvance = none := by unfold State.engineAdvance; rw [if_pos h]
  unfold State.atRest
  simp only [Bool.and_eq_true, List.all_eq_true, he, Option.isNone_none, and_true]
  refine ⟨⟨⟨fun e _ => ?_, fun t _ => ?_⟩, fun p _ => ?_⟩, ?_⟩
  · unfold State.canLeave; split <;> simp [h]
  · simp [State.canDrain, h]
  · simp [State.journalRuns, h]
  · simp [h]

/-- What an event in SHUTDOWN brings about is nothing beside its own effect. -/
theorem settle_shutdown (s : State) (h : s.controller = .shutdown) : s.settle = s :=
  settle_of_atRest s (atRest_shutdown s h)

end Sys2Proof.Machine
end

