-- ==== Sys2Proof/Laws/State.lean ====
section
/-! SUPPORT. One lemma per field for each of the basic updates of the state: the field it writes, and every
other field as it was. All hold by `rfl`. -/

namespace Sys2Proof.Machine

variable (s : State)

/-! ### `State.setPart` -/

@[simp] theorem State.setPart_resetLine (p : PartId) (x : Partition) : (s.setPart p x).resetLine = s.resetLine := rfl
@[simp] theorem State.setPart_pfwLine (p : PartId) (x : Partition) : (s.setPart p x).pfwLine = s.pfwLine := rfl
@[simp] theorem State.setPart_controller (p : PartId) (x : Partition) : (s.setPart p x).controller = s.controller := rfl
@[simp] theorem State.setPart_cmdStatus (p : PartId) (x : Partition) : (s.setPart p x).cmdStatus = s.cmdStatus := rfl
@[simp] theorem State.setPart_operand (p : PartId) (x : Partition) : (s.setPart p x).operand = s.operand := rfl
@[simp] theorem State.setPart_formatJob (p : PartId) (x : Partition) : (s.setPart p x).formatJob = s.formatJob := rfl
@[simp] theorem State.setPart_regions (p : PartId) (x : Partition) : (s.setPart p x).regions = s.regions := rfl
@[simp] theorem State.setPart_geometry (p : PartId) (x : Partition) : (s.setPart p x).geometry = s.geometry := rfl
@[simp] theorem State.setPart_tagMap (p : PartId) (x : Partition) : (s.setPart p x).tagMap = s.tagMap := rfl
@[simp] theorem State.setPart_claimLimit (p : PartId) (x : Partition) : (s.setPart p x).claimLimit = s.claimLimit := rfl
@[simp] theorem State.setPart_ageLimit (p : PartId) (x : Partition) : (s.setPart p x).ageLimit = s.ageLimit := rfl
@[simp] theorem State.setPart_arrayTimeout (p : PartId) (x : Partition) : (s.setPart p x).arrayTimeout = s.arrayTimeout := rfl
@[simp] theorem State.setPart_tickDivider (p : PartId) (x : Partition) : (s.setPart p x).tickDivider = s.tickDivider := rfl
@[simp] theorem State.setPart_formatEpoch (p : PartId) (x : Partition) : (s.setPart p x).formatEpoch = s.formatEpoch := rfl
@[simp] theorem State.setPart_groups (p : PartId) (x : Partition) : (s.setPart p x).groups = s.groups := rfl
@[simp] theorem State.setPart_seqCounter (p : PartId) (x : Partition) : (s.setPart p x).seqCounter = s.seqCounter := rfl
@[simp] theorem State.setPart_claims (p : PartId) (x : Partition) : (s.setPart p x).claims = s.claims := rfl
@[simp] theorem State.setPart_partitions (p : PartId) (x : Partition) : (s.setPart p x).partitions = s.partitions.set p x := rfl
@[simp] theorem State.setPart_requests (p : PartId) (x : Partition) : (s.setPart p x).requests = s.requests := rfl
@[simp] theorem State.setPart_held (p : PartId) (x : Partition) : (s.setPart p x).held = s.held := rfl
@[simp] theorem State.setPart_engine (p : PartId) (x : Partition) : (s.setPart p x).engine = s.engine := rfl
@[simp] theorem State.setPart_scanner (p : PartId) (x : Partition) : (s.setPart p x).scanner = s.scanner := rfl
@[simp] theorem State.setPart_outstanding (p : PartId) (x : Partition) : (s.setPart p x).outstanding = s.outstanding := rfl
@[simp] theorem State.setPart_issueCounter (p : PartId) (x : Partition) : (s.setPart p x).issueCounter = s.issueCounter := rfl
@[simp] theorem State.setPart_link (p : PartId) (x : Partition) : (s.setPart p x).link = s.link := rfl
@[simp] theorem State.setPart_flags (p : PartId) (x : Partition) : (s.setPart p x).flags = s.flags := rfl
@[simp] theorem State.setPart_mask (p : PartId) (x : Partition) : (s.setPart p x).mask = s.mask := rfl
@[simp] theorem State.setPart_incidents (p : PartId) (x : Partition) : (s.setPart p x).incidents = s.incidents := rfl
@[simp] theorem State.setPart_dropped (p : PartId) (x : Partition) : (s.setPart p x).dropped = s.dropped := rfl
@[simp] theorem State.setPart_tickCounter (p : PartId) (x : Partition) : (s.setPart p x).tickCounter = s.tickCounter := rfl
@[simp] theorem State.setPart_divisionCount (p : PartId) (x : Partition) : (s.setPart p x).divisionCount = s.divisionCount := rfl
@[simp] theorem State.setPart_responses (p : PartId) (x : Partition) : (s.setPart p x).responses = s.responses := rfl
@[simp] theorem State.setPart_mdo (p : PartId) (x : Partition) : (s.setPart p x).mdo = s.mdo := rfl
@[simp] theorem State.setPart_joined (p : PartId) (x : Partition) : (s.setPart p x).joined = s.joined := rfl
@[simp] theorem State.setPart_pending (p : PartId) (x : Partition) : (s.setPart p x).pending = s.pending := rfl

/-! ### `State.setGroup` -/

@[simp] theorem State.setGroup_resetLine (t : Tag) (g : Group) : (s.setGroup t g).resetLine = s.resetLine := rfl
@[simp] theorem State.setGroup_pfwLine (t : Tag) (g : Group) : (s.setGroup t g).pfwLine = s.pfwLine := rfl
@[simp] theorem State.setGroup_controller (t : Tag) (g : Group) : (s.setGroup t g).controller = s.controller := rfl
@[simp] theorem State.setGroup_cmdStatus (t : Tag) (g : Group) : (s.setGroup t g).cmdStatus = s.cmdStatus := rfl
@[simp] theorem State.setGroup_operand (t : Tag) (g : Group) : (s.setGroup t g).operand = s.operand := rfl
@[simp] theorem State.setGroup_formatJob (t : Tag) (g : Group) : (s.setGroup t g).formatJob = s.formatJob := rfl
@[simp] theorem State.setGroup_regions (t : Tag) (g : Group) : (s.setGroup t g).regions = s.regions := rfl
@[simp] theorem State.setGroup_geometry (t : Tag) (g : Group) : (s.setGroup t g).geometry = s.geometry := rfl
@[simp] theorem State.setGroup_tagMap (t : Tag) (g : Group) : (s.setGroup t g).tagMap = s.tagMap := rfl
@[simp] theorem State.setGroup_claimLimit (t : Tag) (g : Group) : (s.setGroup t g).claimLimit = s.claimLimit := rfl
@[simp] theorem State.setGroup_ageLimit (t : Tag) (g : Group) : (s.setGroup t g).ageLimit = s.ageLimit := rfl
@[simp] theorem State.setGroup_arrayTimeout (t : Tag) (g : Group) : (s.setGroup t g).arrayTimeout = s.arrayTimeout := rfl
@[simp] theorem State.setGroup_tickDivider (t : Tag) (g : Group) : (s.setGroup t g).tickDivider = s.tickDivider := rfl
@[simp] theorem State.setGroup_formatEpoch (t : Tag) (g : Group) : (s.setGroup t g).formatEpoch = s.formatEpoch := rfl
@[simp] theorem State.setGroup_groups (t : Tag) (g : Group) : (s.setGroup t g).groups = s.groups.set t g := rfl
@[simp] theorem State.setGroup_seqCounter (t : Tag) (g : Group) : (s.setGroup t g).seqCounter = s.seqCounter := rfl
@[simp] theorem State.setGroup_claims (t : Tag) (g : Group) : (s.setGroup t g).claims = s.claims := rfl
@[simp] theorem State.setGroup_partitions (t : Tag) (g : Group) : (s.setGroup t g).partitions = s.partitions := rfl
@[simp] theorem State.setGroup_requests (t : Tag) (g : Group) : (s.setGroup t g).requests = s.requests := rfl
@[simp] theorem State.setGroup_held (t : Tag) (g : Group) : (s.setGroup t g).held = s.held := rfl
@[simp] theorem State.setGroup_engine (t : Tag) (g : Group) : (s.setGroup t g).engine = s.engine := rfl
@[simp] theorem State.setGroup_scanner (t : Tag) (g : Group) : (s.setGroup t g).scanner = s.scanner := rfl
@[simp] theorem State.setGroup_outstanding (t : Tag) (g : Group) : (s.setGroup t g).outstanding = s.outstanding := rfl
@[simp] theorem State.setGroup_issueCounter (t : Tag) (g : Group) : (s.setGroup t g).issueCounter = s.issueCounter := rfl
@[simp] theorem State.setGroup_link (t : Tag) (g : Group) : (s.setGroup t g).link = s.link := rfl
@[simp] theorem State.setGroup_flags (t : Tag) (g : Group) : (s.setGroup t g).flags = s.flags := rfl
@[simp] theorem State.setGroup_mask (t : Tag) (g : Group) : (s.setGroup t g).mask = s.mask := rfl
@[simp] theorem State.setGroup_incidents (t : Tag) (g : Group) : (s.setGroup t g).incidents = s.incidents := rfl
@[simp] theorem State.setGroup_dropped (t : Tag) (g : Group) : (s.setGroup t g).dropped = s.dropped := rfl
@[simp] theorem State.setGroup_tickCounter (t : Tag) (g : Group) : (s.setGroup t g).tickCounter = s.tickCounter := rfl
@[simp] theorem State.setGroup_divisionCount (t : Tag) (g : Group) : (s.setGroup t g).divisionCount = s.divisionCount := rfl
@[simp] theorem State.setGroup_responses (t : Tag) (g : Group) : (s.setGroup t g).responses = s.responses := rfl
@[simp] theorem State.setGroup_mdo (t : Tag) (g : Group) : (s.setGroup t g).mdo = s.mdo := rfl
@[simp] theorem State.setGroup_joined (t : Tag) (g : Group) : (s.setGroup t g).joined = s.joined := rfl
@[simp] theorem State.setGroup_pending (t : Tag) (g : Group) : (s.setGroup t g).pending = s.pending := rfl

/-! ### `State.modEntry` -/

@[simp] theorem State.modEntry_resetLine (i : EntryId) (f : Entry → Entry) : (s.modEntry i f).resetLine = s.resetLine := rfl
@[simp] theorem State.modEntry_pfwLine (i : EntryId) (f : Entry → Entry) : (s.modEntry i f).pfwLine = s.pfwLine := rfl
@[simp] theorem State.modEntry_controller (i : EntryId) (f : Entry → Entry) : (s.modEntry i f).controller = s.controller := rfl
@[simp] theorem State.modEntry_cmdStatus (i : EntryId) (f : Entry → Entry) : (s.modEntry i f).cmdStatus = s.cmdStatus := rfl
@[simp] theorem State.modEntry_operand (i : EntryId) (f : Entry → Entry) : (s.modEntry i f).operand = s.operand := rfl
@[simp] theorem State.modEntry_formatJob (i : EntryId) (f : Entry → Entry) : (s.modEntry i f).formatJob = s.formatJob := rfl
@[simp] theorem State.modEntry_regions (i : EntryId) (f : Entry → Entry) : (s.modEntry i f).regions = s.regions := rfl
@[simp] theorem State.modEntry_geometry (i : EntryId) (f : Entry → Entry) : (s.modEntry i f).geometry = s.geometry := rfl
@[simp] theorem State.modEntry_tagMap (i : EntryId) (f : Entry → Entry) : (s.modEntry i f).tagMap = s.tagMap := rfl
@[simp] theorem State.modEntry_claimLimit (i : EntryId) (f : Entry → Entry) : (s.modEntry i f).claimLimit = s.claimLimit := rfl
@[simp] theorem State.modEntry_ageLimit (i : EntryId) (f : Entry → Entry) : (s.modEntry i f).ageLimit = s.ageLimit := rfl
@[simp] theorem State.modEntry_arrayTimeout (i : EntryId) (f : Entry → Entry) : (s.modEntry i f).arrayTimeout = s.arrayTimeout := rfl
@[simp] theorem State.modEntry_tickDivider (i : EntryId) (f : Entry → Entry) : (s.modEntry i f).tickDivider = s.tickDivider := rfl
@[simp] theorem State.modEntry_formatEpoch (i : EntryId) (f : Entry → Entry) : (s.modEntry i f).formatEpoch = s.formatEpoch := rfl
@[simp] theorem State.modEntry_groups (i : EntryId) (f : Entry → Entry) : (s.modEntry i f).groups = s.groups := rfl
@[simp] theorem State.modEntry_seqCounter (i : EntryId) (f : Entry → Entry) : (s.modEntry i f).seqCounter = s.seqCounter := rfl
@[simp] theorem State.modEntry_claims (i : EntryId) (f : Entry → Entry) : (s.modEntry i f).claims = s.claims := rfl
@[simp] theorem State.modEntry_partitions (i : EntryId) (f : Entry → Entry) : (s.modEntry i f).partitions = s.partitions := rfl
@[simp] theorem State.modEntry_requests (i : EntryId) (f : Entry → Entry) : (s.modEntry i f).requests = s.requests.map (fun e => if e.index = i then f e else e) := rfl
@[simp] theorem State.modEntry_held (i : EntryId) (f : Entry → Entry) : (s.modEntry i f).held = s.held := rfl
@[simp] theorem State.modEntry_engine (i : EntryId) (f : Entry → Entry) : (s.modEntry i f).engine = s.engine := rfl
@[simp] theorem State.modEntry_scanner (i : EntryId) (f : Entry → Entry) : (s.modEntry i f).scanner = s.scanner := rfl
@[simp] theorem State.modEntry_outstanding (i : EntryId) (f : Entry → Entry) : (s.modEntry i f).outstanding = s.outstanding := rfl
@[simp] theorem State.modEntry_issueCounter (i : EntryId) (f : Entry → Entry) : (s.modEntry i f).issueCounter = s.issueCounter := rfl
@[simp] theorem State.modEntry_link (i : EntryId) (f : Entry → Entry) : (s.modEntry i f).link = s.link := rfl
@[simp] theorem State.modEntry_flags (i : EntryId) (f : Entry → Entry) : (s.modEntry i f).flags = s.flags := rfl
@[simp] theorem State.modEntry_mask (i : EntryId) (f : Entry → Entry) : (s.modEntry i f).mask = s.mask := rfl
@[simp] theorem State.modEntry_incidents (i : EntryId) (f : Entry → Entry) : (s.modEntry i f).incidents = s.incidents := rfl
@[simp] theorem State.modEntry_dropped (i : EntryId) (f : Entry → Entry) : (s.modEntry i f).dropped = s.dropped := rfl
@[simp] theorem State.modEntry_tickCounter (i : EntryId) (f : Entry → Entry) : (s.modEntry i f).tickCounter = s.tickCounter := rfl
@[simp] theorem State.modEntry_divisionCount (i : EntryId) (f : Entry → Entry) : (s.modEntry i f).divisionCount = s.divisionCount := rfl
@[simp] theorem State.modEntry_responses (i : EntryId) (f : Entry → Entry) : (s.modEntry i f).responses = s.responses := rfl
@[simp] theorem State.modEntry_mdo (i : EntryId) (f : Entry → Entry) : (s.modEntry i f).mdo = s.mdo := rfl
@[simp] theorem State.modEntry_joined (i : EntryId) (f : Entry → Entry) : (s.modEntry i f).joined = s.joined := rfl
@[simp] theorem State.modEntry_pending (i : EntryId) (f : Entry → Entry) : (s.modEntry i f).pending = s.pending := rfl

/-! ### `State.dropEntry` -/

@[simp] theorem State.dropEntry_resetLine (i : EntryId) : (s.dropEntry i).resetLine = s.resetLine := rfl
@[simp] theorem State.dropEntry_pfwLine (i : EntryId) : (s.dropEntry i).pfwLine = s.pfwLine := rfl
@[simp] theorem State.dropEntry_controller (i : EntryId) : (s.dropEntry i).controller = s.controller := rfl
@[simp] theorem State.dropEntry_cmdStatus (i : EntryId) : (s.dropEntry i).cmdStatus = s.cmdStatus := rfl
@[simp] theorem State.dropEntry_operand (i : EntryId) : (s.dropEntry i).operand = s.operand := rfl
@[simp] theorem State.dropEntry_formatJob (i : EntryId) : (s.dropEntry i).formatJob = s.formatJob := rfl
@[simp] theorem State.dropEntry_regions (i : EntryId) : (s.dropEntry i).regions = s.regions := rfl
@[simp] theorem State.dropEntry_geometry (i : EntryId) : (s.dropEntry i).geometry = s.geometry := rfl
@[simp] theorem State.dropEntry_tagMap (i : EntryId) : (s.dropEntry i).tagMap = s.tagMap := rfl
@[simp] theorem State.dropEntry_claimLimit (i : EntryId) : (s.dropEntry i).claimLimit = s.claimLimit := rfl
@[simp] theorem State.dropEntry_ageLimit (i : EntryId) : (s.dropEntry i).ageLimit = s.ageLimit := rfl
@[simp] theorem State.dropEntry_arrayTimeout (i : EntryId) : (s.dropEntry i).arrayTimeout = s.arrayTimeout := rfl
@[simp] theorem State.dropEntry_tickDivider (i : EntryId) : (s.dropEntry i).tickDivider = s.tickDivider := rfl
@[simp] theorem State.dropEntry_formatEpoch (i : EntryId) : (s.dropEntry i).formatEpoch = s.formatEpoch := rfl
@[simp] theorem State.dropEntry_groups (i : EntryId) : (s.dropEntry i).groups = s.groups := rfl
@[simp] theorem State.dropEntry_seqCounter (i : EntryId) : (s.dropEntry i).seqCounter = s.seqCounter := rfl
@[simp] theorem State.dropEntry_claims (i : EntryId) : (s.dropEntry i).claims = s.claims := rfl
@[simp] theorem State.dropEntry_partitions (i : EntryId) : (s.dropEntry i).partitions = s.partitions := rfl
@[simp] theorem State.dropEntry_requests (i : EntryId) : (s.dropEntry i).requests = s.requests.filter (fun e => e.index != i) := rfl
@[simp] theorem State.dropEntry_held (i : EntryId) : (s.dropEntry i).held = s.held := rfl
@[simp] theorem State.dropEntry_engine (i : EntryId) : (s.dropEntry i).engine = s.engine := rfl
@[simp] theorem State.dropEntry_scanner (i : EntryId) : (s.dropEntry i).scanner = s.scanner := rfl
@[simp] theorem State.dropEntry_outstanding (i : EntryId) : (s.dropEntry i).outstanding = s.outstanding := rfl
@[simp] theorem State.dropEntry_issueCounter (i : EntryId) : (s.dropEntry i).issueCounter = s.issueCounter := rfl
@[simp] theorem State.dropEntry_link (i : EntryId) : (s.dropEntry i).link = s.link := rfl
@[simp] theorem State.dropEntry_flags (i : EntryId) : (s.dropEntry i).flags = s.flags := rfl
@[simp] theorem State.dropEntry_mask (i : EntryId) : (s.dropEntry i).mask = s.mask := rfl
@[simp] theorem State.dropEntry_incidents (i : EntryId) : (s.dropEntry i).incidents = s.incidents := rfl
@[simp] theorem State.dropEntry_dropped (i : EntryId) : (s.dropEntry i).dropped = s.dropped := rfl
@[simp] theorem State.dropEntry_tickCounter (i : EntryId) : (s.dropEntry i).tickCounter = s.tickCounter := rfl
@[simp] theorem State.dropEntry_divisionCount (i : EntryId) : (s.dropEntry i).divisionCount = s.divisionCount := rfl
@[simp] theorem State.dropEntry_responses (i : EntryId) : (s.dropEntry i).responses = s.responses := rfl
@[simp] theorem State.dropEntry_mdo (i : EntryId) : (s.dropEntry i).mdo = s.mdo := rfl
@[simp] theorem State.dropEntry_joined (i : EntryId) : (s.dropEntry i).joined = s.joined := rfl
@[simp] theorem State.dropEntry_pending (i : EntryId) : (s.dropEntry i).pending = s.pending := rfl

/-! ### `State.addEntry` -/

@[simp] theorem State.addEntry_resetLine (e : Entry) : (s.addEntry e).resetLine = s.resetLine := rfl
@[simp] theorem State.addEntry_pfwLine (e : Entry) : (s.addEntry e).pfwLine = s.pfwLine := rfl
@[simp] theorem State.addEntry_controller (e : Entry) : (s.addEntry e).controller = s.controller := rfl
@[simp] theorem State.addEntry_cmdStatus (e : Entry) : (s.addEntry e).cmdStatus = s.cmdStatus := rfl
@[simp] theorem State.addEntry_operand (e : Entry) : (s.addEntry e).operand = s.operand := rfl
@[simp] theorem State.addEntry_formatJob (e : Entry) : (s.addEntry e).formatJob = s.formatJob := rfl
@[simp] theorem State.addEntry_regions (e : Entry) : (s.addEntry e).regions = s.regions := rfl
@[simp] theorem State.addEntry_geometry (e : Entry) : (s.addEntry e).geometry = s.geometry := rfl
@[simp] theorem State.addEntry_tagMap (e : Entry) : (s.addEntry e).tagMap = s.tagMap := rfl
@[simp] theorem State.addEntry_claimLimit (e : Entry) : (s.addEntry e).claimLimit = s.claimLimit := rfl
@[simp] theorem State.addEntry_ageLimit (e : Entry) : (s.addEntry e).ageLimit = s.ageLimit := rfl
@[simp] theorem State.addEntry_arrayTimeout (e : Entry) : (s.addEntry e).arrayTimeout = s.arrayTimeout := rfl
@[simp] theorem State.addEntry_tickDivider (e : Entry) : (s.addEntry e).tickDivider = s.tickDivider := rfl
@[simp] theorem State.addEntry_formatEpoch (e : Entry) : (s.addEntry e).formatEpoch = s.formatEpoch := rfl
@[simp] theorem State.addEntry_groups (e : Entry) : (s.addEntry e).groups = s.groups := rfl
@[simp] theorem State.addEntry_seqCounter (e : Entry) : (s.addEntry e).seqCounter = s.seqCounter := rfl
@[simp] theorem State.addEntry_claims (e : Entry) : (s.addEntry e).claims = s.claims := rfl
@[simp] theorem State.addEntry_partitions (e : Entry) : (s.addEntry e).partitions = s.partitions := rfl
@[simp] theorem State.addEntry_requests (e : Entry) : (s.addEntry e).requests = s.requests ++ [e] := rfl
@[simp] theorem State.addEntry_held (e : Entry) : (s.addEntry e).held = s.held := rfl
@[simp] theorem State.addEntry_engine (e : Entry) : (s.addEntry e).engine = s.engine := rfl
@[simp] theorem State.addEntry_scanner (e : Entry) : (s.addEntry e).scanner = s.scanner := rfl
@[simp] theorem State.addEntry_outstanding (e : Entry) : (s.addEntry e).outstanding = s.outstanding := rfl
@[simp] theorem State.addEntry_issueCounter (e : Entry) : (s.addEntry e).issueCounter = s.issueCounter := rfl
@[simp] theorem State.addEntry_link (e : Entry) : (s.addEntry e).link = s.link := rfl
@[simp] theorem State.addEntry_flags (e : Entry) : (s.addEntry e).flags = s.flags := rfl
@[simp] theorem State.addEntry_mask (e : Entry) : (s.addEntry e).mask = s.mask := rfl
@[simp] theorem State.addEntry_incidents (e : Entry) : (s.addEntry e).incidents = s.incidents := rfl
@[simp] theorem State.addEntry_dropped (e : Entry) : (s.addEntry e).dropped = s.dropped := rfl
@[simp] theorem State.addEntry_tickCounter (e : Entry) : (s.addEntry e).tickCounter = s.tickCounter := rfl
@[simp] theorem State.addEntry_divisionCount (e : Entry) : (s.addEntry e).divisionCount = s.divisionCount := rfl
@[simp] theorem State.addEntry_responses (e : Entry) : (s.addEntry e).responses = s.responses := rfl
@[simp] theorem State.addEntry_mdo (e : Entry) : (s.addEntry e).mdo = s.mdo := rfl
@[simp] theorem State.addEntry_joined (e : Entry) : (s.addEntry e).joined = s.joined := rfl
@[simp] theorem State.addEntry_pending (e : Entry) : (s.addEntry e).pending = s.pending := rfl

/-! ### `State.insertClaim` -/

@[simp] theorem State.insertClaim_resetLine (c : Claim) : (s.insertClaim c).resetLine = s.resetLine := rfl
@[simp] theorem State.insertClaim_pfwLine (c : Claim) : (s.insertClaim c).pfwLine = s.pfwLine := rfl
@[simp] theorem State.insertClaim_controller (c : Claim) : (s.insertClaim c).controller = s.controller := rfl
@[simp] theorem State.insertClaim_cmdStatus (c : Claim) : (s.insertClaim c).cmdStatus = s.cmdStatus := rfl
@[simp] theorem State.insertClaim_operand (c : Claim) : (s.insertClaim c).operand = s.operand := rfl
@[simp] theorem State.insertClaim_formatJob (c : Claim) : (s.insertClaim c).formatJob = s.formatJob := rfl
@[simp] theorem State.insertClaim_regions (c : Claim) : (s.insertClaim c).regions = s.regions := rfl
@[simp] theorem State.insertClaim_geometry (c : Claim) : (s.insertClaim c).geometry = s.geometry := rfl
@[simp] theorem State.insertClaim_tagMap (c : Claim) : (s.insertClaim c).tagMap = s.tagMap := rfl
@[simp] theorem State.insertClaim_claimLimit (c : Claim) : (s.insertClaim c).claimLimit = s.claimLimit := rfl
@[simp] theorem State.insertClaim_ageLimit (c : Claim) : (s.insertClaim c).ageLimit = s.ageLimit := rfl
@[simp] theorem State.insertClaim_arrayTimeout (c : Claim) : (s.insertClaim c).arrayTimeout = s.arrayTimeout := rfl
@[simp] theorem State.insertClaim_tickDivider (c : Claim) : (s.insertClaim c).tickDivider = s.tickDivider := rfl
@[simp] theorem State.insertClaim_formatEpoch (c : Claim) : (s.insertClaim c).formatEpoch = s.formatEpoch := rfl
@[simp] theorem State.insertClaim_groups (c : Claim) : (s.insertClaim c).groups = s.groups := rfl
@[simp] theorem State.insertClaim_seqCounter (c : Claim) : (s.insertClaim c).seqCounter = s.seqCounter := rfl
@[simp] theorem State.insertClaim_claims (c : Claim) : (s.insertClaim c).claims = s.claims ++ [c] := rfl
@[simp] theorem State.insertClaim_partitions (c : Claim) : (s.insertClaim c).partitions = s.partitions := rfl
@[simp] theorem State.insertClaim_requests (c : Claim) : (s.insertClaim c).requests = s.requests := rfl
@[simp] theorem State.insertClaim_held (c : Claim) : (s.insertClaim c).held = s.held := rfl
@[simp] theorem State.insertClaim_engine (c : Claim) : (s.insertClaim c).engine = s.engine := rfl
@[simp] theorem State.insertClaim_scanner (c : Claim) : (s.insertClaim c).scanner = s.scanner := rfl
@[simp] theorem State.insertClaim_outstanding (c : Claim) : (s.insertClaim c).outstanding = s.outstanding := rfl
@[simp] theorem State.insertClaim_issueCounter (c : Claim) : (s.insertClaim c).issueCounter = s.issueCounter := rfl
@[simp] theorem State.insertClaim_link (c : Claim) : (s.insertClaim c).link = s.link := rfl
@[simp] theorem State.insertClaim_flags (c : Claim) : (s.insertClaim c).flags = s.flags := rfl
@[simp] theorem State.insertClaim_mask (c : Claim) : (s.insertClaim c).mask = s.mask := rfl
@[simp] theorem State.insertClaim_incidents (c : Claim) : (s.insertClaim c).incidents = s.incidents := rfl
@[simp] theorem State.insertClaim_dropped (c : Claim) : (s.insertClaim c).dropped = s.dropped := rfl
@[simp] theorem State.insertClaim_tickCounter (c : Claim) : (s.insertClaim c).tickCounter = s.tickCounter := rfl
@[simp] theorem State.insertClaim_divisionCount (c : Claim) : (s.insertClaim c).divisionCount = s.divisionCount := rfl
@[simp] theorem State.insertClaim_responses (c : Claim) : (s.insertClaim c).responses = s.responses := rfl
@[simp] theorem State.insertClaim_mdo (c : Claim) : (s.insertClaim c).mdo = s.mdo := rfl
@[simp] theorem State.insertClaim_joined (c : Claim) : (s.insertClaim c).joined = s.joined := rfl
@[simp] theorem State.insertClaim_pending (c : Claim) : (s.insertClaim c).pending = s.pending := rfl

/-! ### `State.respond` -/

@[simp] theorem State.respond_resetLine (h : Byte) (st : Status) (d : Bytes) : (s.respond h st d).resetLine = s.resetLine := rfl
@[simp] theorem State.respond_pfwLine (h : Byte) (st : Status) (d : Bytes) : (s.respond h st d).pfwLine = s.pfwLine := rfl
@[simp] theorem State.respond_controller (h : Byte) (st : Status) (d : Bytes) : (s.respond h st d).controller = s.controller := rfl
@[simp] theorem State.respond_cmdStatus (h : Byte) (st : Status) (d : Bytes) : (s.respond h st d).cmdStatus = s.cmdStatus := rfl
@[simp] theorem State.respond_operand (h : Byte) (st : Status) (d : Bytes) : (s.respond h st d).operand = s.operand := rfl
@[simp] theorem State.respond_formatJob (h : Byte) (st : Status) (d : Bytes) : (s.respond h st d).formatJob = s.formatJob := rfl
@[simp] theorem State.respond_regions (h : Byte) (st : Status) (d : Bytes) : (s.respond h st d).regions = s.regions := rfl
@[simp] theorem State.respond_geometry (h : Byte) (st : Status) (d : Bytes) : (s.respond h st d).geometry = s.geometry := rfl
@[simp] theorem State.respond_tagMap (h : Byte) (st : Status) (d : Bytes) : (s.respond h st d).tagMap = s.tagMap := rfl
@[simp] theorem State.respond_claimLimit (h : Byte) (st : Status) (d : Bytes) : (s.respond h st d).claimLimit = s.claimLimit := rfl
@[simp] theorem State.respond_ageLimit (h : Byte) (st : Status) (d : Bytes) : (s.respond h st d).ageLimit = s.ageLimit := rfl
@[simp] theorem State.respond_arrayTimeout (h : Byte) (st : Status) (d : Bytes) : (s.respond h st d).arrayTimeout = s.arrayTimeout := rfl
@[simp] theorem State.respond_tickDivider (h : Byte) (st : Status) (d : Bytes) : (s.respond h st d).tickDivider = s.tickDivider := rfl
@[simp] theorem State.respond_formatEpoch (h : Byte) (st : Status) (d : Bytes) : (s.respond h st d).formatEpoch = s.formatEpoch := rfl
@[simp] theorem State.respond_groups (h : Byte) (st : Status) (d : Bytes) : (s.respond h st d).groups = s.groups := rfl
@[simp] theorem State.respond_seqCounter (h : Byte) (st : Status) (d : Bytes) : (s.respond h st d).seqCounter = s.seqCounter := rfl
@[simp] theorem State.respond_claims (h : Byte) (st : Status) (d : Bytes) : (s.respond h st d).claims = s.claims := rfl
@[simp] theorem State.respond_partitions (h : Byte) (st : Status) (d : Bytes) : (s.respond h st d).partitions = s.partitions := rfl
@[simp] theorem State.respond_requests (h : Byte) (st : Status) (d : Bytes) : (s.respond h st d).requests = s.requests := rfl
@[simp] theorem State.respond_held (h : Byte) (st : Status) (d : Bytes) : (s.respond h st d).held = s.held := rfl
@[simp] theorem State.respond_engine (h : Byte) (st : Status) (d : Bytes) : (s.respond h st d).engine = s.engine := rfl
@[simp] theorem State.respond_scanner (h : Byte) (st : Status) (d : Bytes) : (s.respond h st d).scanner = s.scanner := rfl
@[simp] theorem State.respond_outstanding (h : Byte) (st : Status) (d : Bytes) : (s.respond h st d).outstanding = s.outstanding := rfl
@[simp] theorem State.respond_issueCounter (h : Byte) (st : Status) (d : Bytes) : (s.respond h st d).issueCounter = s.issueCounter := rfl
@[simp] theorem State.respond_link (h : Byte) (st : Status) (d : Bytes) : (s.respond h st d).link = s.link := rfl
@[simp] theorem State.respond_flags (h : Byte) (st : Status) (d : Bytes) : (s.respond h st d).flags = s.flags := rfl
@[simp] theorem State.respond_mask (h : Byte) (st : Status) (d : Bytes) : (s.respond h st d).mask = s.mask := rfl
@[simp] theorem State.respond_incidents (h : Byte) (st : Status) (d : Bytes) : (s.respond h st d).incidents = s.incidents := rfl
@[simp] theorem State.respond_dropped (h : Byte) (st : Status) (d : Bytes) : (s.respond h st d).dropped = s.dropped := rfl
@[simp] theorem State.respond_tickCounter (h : Byte) (st : Status) (d : Bytes) : (s.respond h st d).tickCounter = s.tickCounter := rfl
@[simp] theorem State.respond_divisionCount (h : Byte) (st : Status) (d : Bytes) : (s.respond h st d).divisionCount = s.divisionCount := rfl
@[simp] theorem State.respond_responses (h : Byte) (st : Status) (d : Bytes) : (s.respond h st d).responses = s.responses ++ [⟨h, st, d⟩] := rfl
@[simp] theorem State.respond_mdo (h : Byte) (st : Status) (d : Bytes) : (s.respond h st d).mdo = s.mdo := rfl
@[simp] theorem State.respond_joined (h : Byte) (st : Status) (d : Bytes) : (s.respond h st d).joined = s.joined := rfl
@[simp] theorem State.respond_pending (h : Byte) (st : Status) (d : Bytes) : (s.respond h st d).pending = s.pending := rfl

/-! ### `State.raise` -/

@[simp] theorem State.raise_resetLine (c : Cause) : (s.raise c).resetLine = s.resetLine := rfl
@[simp] theorem State.raise_pfwLine (c : Cause) : (s.raise c).pfwLine = s.pfwLine := rfl
@[simp] theorem State.raise_controller (c : Cause) : (s.raise c).controller = s.controller := rfl
@[simp] theorem State.raise_cmdStatus (c : Cause) : (s.raise c).cmdStatus = s.cmdStatus := rfl
@[simp] theorem State.raise_operand (c : Cause) : (s.raise c).operand = s.operand := rfl
@[simp] theorem State.raise_formatJob (c : Cause) : (s.raise c).formatJob = s.formatJob := rfl
@[simp] theorem State.raise_regions (c : Cause) : (s.raise c).regions = s.regions := rfl
@[simp] theorem State.raise_geometry (c : Cause) : (s.raise c).geometry = s.geometry := rfl
@[simp] theorem State.raise_tagMap (c : Cause) : (s.raise c).tagMap = s.tagMap := rfl
@[simp] theorem State.raise_claimLimit (c : Cause) : (s.raise c).claimLimit = s.claimLimit := rfl
@[simp] theorem State.raise_ageLimit (c : Cause) : (s.raise c).ageLimit = s.ageLimit := rfl
@[simp] theorem State.raise_arrayTimeout (c : Cause) : (s.raise c).arrayTimeout = s.arrayTimeout := rfl
@[simp] theorem State.raise_tickDivider (c : Cause) : (s.raise c).tickDivider = s.tickDivider := rfl
@[simp] theorem State.raise_formatEpoch (c : Cause) : (s.raise c).formatEpoch = s.formatEpoch := rfl
@[simp] theorem State.raise_groups (c : Cause) : (s.raise c).groups = s.groups := rfl
@[simp] theorem State.raise_seqCounter (c : Cause) : (s.raise c).seqCounter = s.seqCounter := rfl
@[simp] theorem State.raise_claims (c : Cause) : (s.raise c).claims = s.claims := rfl
@[simp] theorem State.raise_partitions (c : Cause) : (s.raise c).partitions = s.partitions := rfl
@[simp] theorem State.raise_requests (c : Cause) : (s.raise c).requests = s.requests := rfl
@[simp] theorem State.raise_held (c : Cause) : (s.raise c).held = s.held := rfl
@[simp] theorem State.raise_engine (c : Cause) : (s.raise c).engine = s.engine := rfl
@[simp] theorem State.raise_scanner (c : Cause) : (s.raise c).scanner = s.scanner := rfl
@[simp] theorem State.raise_outstanding (c : Cause) : (s.raise c).outstanding = s.outstanding := rfl
@[simp] theorem State.raise_issueCounter (c : Cause) : (s.raise c).issueCounter = s.issueCounter := rfl
@[simp] theorem State.raise_link (c : Cause) : (s.raise c).link = s.link := rfl
@[simp] theorem State.raise_flags (c : Cause) : (s.raise c).flags = s.flags ||| (1#9 <<< c.bit) := rfl
@[simp] theorem State.raise_mask (c : Cause) : (s.raise c).mask = s.mask := rfl
@[simp] theorem State.raise_incidents (c : Cause) : (s.raise c).incidents = s.incidents := rfl
@[simp] theorem State.raise_dropped (c : Cause) : (s.raise c).dropped = s.dropped := rfl
@[simp] theorem State.raise_tickCounter (c : Cause) : (s.raise c).tickCounter = s.tickCounter := rfl
@[simp] theorem State.raise_divisionCount (c : Cause) : (s.raise c).divisionCount = s.divisionCount := rfl
@[simp] theorem State.raise_responses (c : Cause) : (s.raise c).responses = s.responses := rfl
@[simp] theorem State.raise_mdo (c : Cause) : (s.raise c).mdo = s.mdo := rfl
@[simp] theorem State.raise_joined (c : Cause) : (s.raise c).joined = s.joined := rfl
@[simp] theorem State.raise_pending (c : Cause) : (s.raise c).pending = s.pending := rfl

/-! ### `State.forget` -/

@[simp] theorem State.forget_resetLine (n : Word) : (s.forget n).resetLine = s.resetLine := rfl
@[simp] theorem State.forget_pfwLine (n : Word) : (s.forget n).pfwLine = s.pfwLine := rfl
@[simp] theorem State.forget_controller (n : Word) : (s.forget n).controller = s.controller := rfl
@[simp] theorem State.forget_cmdStatus (n : Word) : (s.forget n).cmdStatus = s.cmdStatus := rfl
@[simp] theorem State.forget_operand (n : Word) : (s.forget n).operand = s.operand := rfl
@[simp] theorem State.forget_formatJob (n : Word) : (s.forget n).formatJob = s.formatJob := rfl
@[simp] theorem State.forget_regions (n : Word) : (s.forget n).regions = s.regions := rfl
@[simp] theorem State.forget_geometry (n : Word) : (s.forget n).geometry = s.geometry := rfl
@[simp] theorem State.forget_tagMap (n : Word) : (s.forget n).tagMap = s.tagMap := rfl
@[simp] theorem State.forget_claimLimit (n : Word) : (s.forget n).claimLimit = s.claimLimit := rfl
@[simp] theorem State.forget_ageLimit (n : Word) : (s.forget n).ageLimit = s.ageLimit := rfl
@[simp] theorem State.forget_arrayTimeout (n : Word) : (s.forget n).arrayTimeout = s.arrayTimeout := rfl
@[simp] theorem State.forget_tickDivider (n : Word) : (s.forget n).tickDivider = s.tickDivider := rfl
@[simp] theorem State.forget_formatEpoch (n : Word) : (s.forget n).formatEpoch = s.formatEpoch := rfl
@[simp] theorem State.forget_groups (n : Word) : (s.forget n).groups = s.groups := rfl
@[simp] theorem State.forget_seqCounter (n : Word) : (s.forget n).seqCounter = s.seqCounter := rfl
@[simp] theorem State.forget_claims (n : Word) : (s.forget n).claims = s.claims := rfl
@[simp] theorem State.forget_partitions (n : Word) : (s.forget n).partitions = s.partitions := rfl
@[simp] theorem State.forget_requests (n : Word) : (s.forget n).requests = s.requests := rfl
@[simp] theorem State.forget_held (n : Word) : (s.forget n).held = s.held := rfl
@[simp] theorem State.forget_engine (n : Word) : (s.forget n).engine = s.engine := rfl
@[simp] theorem State.forget_scanner (n : Word) : (s.forget n).scanner = s.scanner := rfl
@[simp] theorem State.forget_outstanding (n : Word) : (s.forget n).outstanding = s.outstanding.filter (fun r => r.number != n) := rfl
@[simp] theorem State.forget_issueCounter (n : Word) : (s.forget n).issueCounter = s.issueCounter := rfl
@[simp] theorem State.forget_link (n : Word) : (s.forget n).link = s.link := rfl
@[simp] theorem State.forget_flags (n : Word) : (s.forget n).flags = s.flags := rfl
@[simp] theorem State.forget_mask (n : Word) : (s.forget n).mask = s.mask := rfl
@[simp] theorem State.forget_incidents (n : Word) : (s.forget n).incidents = s.incidents := rfl
@[simp] theorem State.forget_dropped (n : Word) : (s.forget n).dropped = s.dropped := rfl
@[simp] theorem State.forget_tickCounter (n : Word) : (s.forget n).tickCounter = s.tickCounter := rfl
@[simp] theorem State.forget_divisionCount (n : Word) : (s.forget n).divisionCount = s.divisionCount := rfl
@[simp] theorem State.forget_responses (n : Word) : (s.forget n).responses = s.responses := rfl
@[simp] theorem State.forget_mdo (n : Word) : (s.forget n).mdo = s.mdo := rfl
@[simp] theorem State.forget_joined (n : Word) : (s.forget n).joined = s.joined := rfl
@[simp] theorem State.forget_pending (n : Word) : (s.forget n).pending = s.pending := rfl

/-! ### `State.modEngine` -/

@[simp] theorem State.modEngine_resetLine (f : Engine → Engine) : (s.modEngine f).resetLine = s.resetLine := rfl
@[simp] theorem State.modEngine_pfwLine (f : Engine → Engine) : (s.modEngine f).pfwLine = s.pfwLine := rfl
@[simp] theorem State.modEngine_controller (f : Engine → Engine) : (s.modEngine f).controller = s.controller := rfl
@[simp] theorem State.modEngine_cmdStatus (f : Engine → Engine) : (s.modEngine f).cmdStatus = s.cmdStatus := rfl
@[simp] theorem State.modEngine_operand (f : Engine → Engine) : (s.modEngine f).operand = s.operand := rfl
@[simp] theorem State.modEngine_formatJob (f : Engine → Engine) : (s.modEngine f).formatJob = s.formatJob := rfl
@[simp] theorem State.modEngine_regions (f : Engine → Engine) : (s.modEngine f).regions = s.regions := rfl
@[simp] theorem State.modEngine_geometry (f : Engine → Engine) : (s.modEngine f).geometry = s.geometry := rfl
@[simp] theorem State.modEngine_tagMap (f : Engine → Engine) : (s.modEngine f).tagMap = s.tagMap := rfl
@[simp] theorem State.modEngine_claimLimit (f : Engine → Engine) : (s.modEngine f).claimLimit = s.claimLimit := rfl
@[simp] theorem State.modEngine_ageLimit (f : Engine → Engine) : (s.modEngine f).ageLimit = s.ageLimit := rfl
@[simp] theorem State.modEngine_arrayTimeout (f : Engine → Engine) : (s.modEngine f).arrayTimeout = s.arrayTimeout := rfl
@[simp] theorem State.modEngine_tickDivider (f : Engine → Engine) : (s.modEngine f).tickDivider = s.tickDivider := rfl
@[simp] theorem State.modEngine_formatEpoch (f : Engine → Engine) : (s.modEngine f).formatEpoch = s.formatEpoch := rfl
@[simp] theorem State.modEngine_groups (f : Engine → Engine) : (s.modEngine f).groups = s.groups := rfl
@[simp] theorem State.modEngine_seqCounter (f : Engine → Engine) : (s.modEngine f).seqCounter = s.seqCounter := rfl
@[simp] theorem State.modEngine_claims (f : Engine → Engine) : (s.modEngine f).claims = s.claims := rfl
@[simp] theorem State.modEngine_partitions (f : Engine → Engine) : (s.modEngine f).partitions = s.partitions := rfl
@[simp] theorem State.modEngine_requests (f : Engine → Engine) : (s.modEngine f).requests = s.requests := rfl
@[simp] theorem State.modEngine_held (f : Engine → Engine) : (s.modEngine f).held = s.held := rfl
@[simp] theorem State.modEngine_engine (f : Engine → Engine) : (s.modEngine f).engine = f s.engine := rfl
@[simp] theorem State.modEngine_scanner (f : Engine → Engine) : (s.modEngine f).scanner = s.scanner := rfl
@[simp] theorem State.modEngine_outstanding (f : Engine → Engine) : (s.modEngine f).outstanding = s.outstanding := rfl
@[simp] theorem State.modEngine_issueCounter (f : Engine → Engine) : (s.modEngine f).issueCounter = s.issueCounter := rfl
@[simp] theorem State.modEngine_link (f : Engine → Engine) : (s.modEngine f).link = s.link := rfl
@[simp] theorem State.modEngine_flags (f : Engine → Engine) : (s.modEngine f).flags = s.flags := rfl
@[simp] theorem State.modEngine_mask (f : Engine → Engine) : (s.modEngine f).mask = s.mask := rfl
@[simp] theorem State.modEngine_incidents (f : Engine → Engine) : (s.modEngine f).incidents = s.incidents := rfl
@[simp] theorem State.modEngine_dropped (f : Engine → Engine) : (s.modEngine f).dropped = s.dropped := rfl
@[simp] theorem State.modEngine_tickCounter (f : Engine → Engine) : (s.modEngine f).tickCounter = s.tickCounter := rfl
@[simp] theorem State.modEngine_divisionCount (f : Engine → Engine) : (s.modEngine f).divisionCount = s.divisionCount := rfl
@[simp] theorem State.modEngine_responses (f : Engine → Engine) : (s.modEngine f).responses = s.responses := rfl
@[simp] theorem State.modEngine_mdo (f : Engine → Engine) : (s.modEngine f).mdo = s.mdo := rfl
@[simp] theorem State.modEngine_joined (f : Engine → Engine) : (s.modEngine f).joined = s.joined := rfl
@[simp] theorem State.modEngine_pending (f : Engine → Engine) : (s.modEngine f).pending = s.pending := rfl

/-! ### `State.modScanner` -/

@[simp] theorem State.modScanner_resetLine (f : Scanner → Scanner) : (s.modScanner f).resetLine = s.resetLine := rfl
@[simp] theorem State.modScanner_pfwLine (f : Scanner → Scanner) : (s.modScanner f).pfwLine = s.pfwLine := rfl
@[simp] theorem State.modScanner_controller (f : Scanner → Scanner) : (s.modScanner f).controller = s.controller := rfl
@[simp] theorem State.modScanner_cmdStatus (f : Scanner → Scanner) : (s.modScanner f).cmdStatus = s.cmdStatus := rfl
@[simp] theorem State.modScanner_operand (f : Scanner → Scanner) : (s.modScanner f).operand = s.operand := rfl
@[simp] theorem State.modScanner_formatJob (f : Scanner → Scanner) : (s.modScanner f).formatJob = s.formatJob := rfl
@[simp] theorem State.modScanner_regions (f : Scanner → Scanner) : (s.modScanner f).regions = s.regions := rfl
@[simp] theorem State.modScanner_geometry (f : Scanner → Scanner) : (s.modScanner f).geometry = s.geometry := rfl
@[simp] theorem State.modScanner_tagMap (f : Scanner → Scanner) : (s.modScanner f).tagMap = s.tagMap := rfl
@[simp] theorem State.modScanner_claimLimit (f : Scanner → Scanner) : (s.modScanner f).claimLimit = s.claimLimit := rfl
@[simp] theorem State.modScanner_ageLimit (f : Scanner → Scanner) : (s.modScanner f).ageLimit = s.ageLimit := rfl
@[simp] theorem State.modScanner_arrayTimeout (f : Scanner → Scanner) : (s.modScanner f).arrayTimeout = s.arrayTimeout := rfl
@[simp] theorem State.modScanner_tickDivider (f : Scanner → Scanner) : (s.modScanner f).tickDivider = s.tickDivider := rfl
@[simp] theorem State.modScanner_formatEpoch (f : Scanner → Scanner) : (s.modScanner f).formatEpoch = s.formatEpoch := rfl
@[simp] theorem State.modScanner_groups (f : Scanner → Scanner) : (s.modScanner f).groups = s.groups := rfl
@[simp] theorem State.modScanner_seqCounter (f : Scanner → Scanner) : (s.modScanner f).seqCounter = s.seqCounter := rfl
@[simp] theorem State.modScanner_claims (f : Scanner → Scanner) : (s.modScanner f).claims = s.claims := rfl
@[simp] theorem State.modScanner_partitions (f : Scanner → Scanner) : (s.modScanner f).partitions = s.partitions := rfl
@[simp] theorem State.modScanner_requests (f : Scanner → Scanner) : (s.modScanner f).requests = s.requests := rfl
@[simp] theorem State.modScanner_held (f : Scanner → Scanner) : (s.modScanner f).held = s.held := rfl
@[simp] theorem State.modScanner_engine (f : Scanner → Scanner) : (s.modScanner f).engine = s.engine := rfl
@[simp] theorem State.modScanner_scanner (f : Scanner → Scanner) : (s.modScanner f).scanner = f s.scanner := rfl
@[simp] theorem State.modScanner_outstanding (f : Scanner → Scanner) : (s.modScanner f).outstanding = s.outstanding := rfl
@[simp] theorem State.modScanner_issueCounter (f : Scanner → Scanner) : (s.modScanner f).issueCounter = s.issueCounter := rfl
@[simp] theorem State.modScanner_link (f : Scanner → Scanner) : (s.modScanner f).link = s.link := rfl
@[simp] theorem State.modScanner_flags (f : Scanner → Scanner) : (s.modScanner f).flags = s.flags := rfl
@[simp] theorem State.modScanner_mask (f : Scanner → Scanner) : (s.modScanner f).mask = s.mask := rfl
@[simp] theorem State.modScanner_incidents (f : Scanner → Scanner) : (s.modScanner f).incidents = s.incidents := rfl
@[simp] theorem State.modScanner_dropped (f : Scanner → Scanner) : (s.modScanner f).dropped = s.dropped := rfl
@[simp] theorem State.modScanner_tickCounter (f : Scanner → Scanner) : (s.modScanner f).tickCounter = s.tickCounter := rfl
@[simp] theorem State.modScanner_divisionCount (f : Scanner → Scanner) : (s.modScanner f).divisionCount = s.divisionCount := rfl
@[simp] theorem State.modScanner_responses (f : Scanner → Scanner) : (s.modScanner f).responses = s.responses := rfl
@[simp] theorem State.modScanner_mdo (f : Scanner → Scanner) : (s.modScanner f).mdo = s.mdo := rfl
@[simp] theorem State.modScanner_joined (f : Scanner → Scanner) : (s.modScanner f).joined = s.joined := rfl
@[simp] theorem State.modScanner_pending (f : Scanner → Scanner) : (s.modScanner f).pending = s.pending := rfl

/-! ### `State.begin` -/

@[simp] theorem State.begin_resetLine : (s.begin).resetLine = s.resetLine := rfl
@[simp] theorem State.begin_pfwLine : (s.begin).pfwLine = s.pfwLine := rfl
@[simp] theorem State.begin_controller : (s.begin).controller = s.controller := rfl
@[simp] theorem State.begin_cmdStatus : (s.begin).cmdStatus = s.cmdStatus := rfl
@[simp] theorem State.begin_operand : (s.begin).operand = s.operand := rfl
@[simp] theorem State.begin_formatJob : (s.begin).formatJob = s.formatJob := rfl
@[simp] theorem State.begin_regions : (s.begin).regions = s.regions := rfl
@[simp] theorem State.begin_geometry : (s.begin).geometry = s.geometry := rfl
@[simp] theorem State.begin_tagMap : (s.begin).tagMap = s.tagMap := rfl
@[simp] theorem State.begin_claimLimit : (s.begin).claimLimit = s.claimLimit := rfl
@[simp] theorem State.begin_ageLimit : (s.begin).ageLimit = s.ageLimit := rfl
@[simp] theorem State.begin_arrayTimeout : (s.begin).arrayTimeout = s.arrayTimeout := rfl
@[simp] theorem State.begin_tickDivider : (s.begin).tickDivider = s.tickDivider := rfl
@[simp] theorem State.begin_formatEpoch : (s.begin).formatEpoch = s.formatEpoch := rfl
@[simp] theorem State.begin_groups : (s.begin).groups = s.groups := rfl
@[simp] theorem State.begin_seqCounter : (s.begin).seqCounter = s.seqCounter := rfl
@[simp] theorem State.begin_claims : (s.begin).claims = s.claims := rfl
@[simp] theorem State.begin_partitions : (s.begin).partitions = s.partitions := rfl
@[simp] theorem State.begin_requests : (s.begin).requests = s.requests := rfl
@[simp] theorem State.begin_held : (s.begin).held = s.held := rfl
@[simp] theorem State.begin_engine : (s.begin).engine = s.engine := rfl
@[simp] theorem State.begin_scanner : (s.begin).scanner = s.scanner := rfl
@[simp] theorem State.begin_outstanding : (s.begin).outstanding = s.outstanding := rfl
@[simp] theorem State.begin_issueCounter : (s.begin).issueCounter = s.issueCounter := rfl
@[simp] theorem State.begin_link : (s.begin).link = s.link := rfl
@[simp] theorem State.begin_flags : (s.begin).flags = s.flags := rfl
@[simp] theorem State.begin_mask : (s.begin).mask = s.mask := rfl
@[simp] theorem State.begin_incidents : (s.begin).incidents = s.incidents := rfl
@[simp] theorem State.begin_dropped : (s.begin).dropped = s.dropped := rfl
@[simp] theorem State.begin_tickCounter : (s.begin).tickCounter = s.tickCounter := rfl
@[simp] theorem State.begin_divisionCount : (s.begin).divisionCount = s.divisionCount := rfl
@[simp] theorem State.begin_responses : (s.begin).responses = [] := rfl
@[simp] theorem State.begin_mdo : (s.begin).mdo = [] := rfl
@[simp] theorem State.begin_joined : (s.begin).joined = 0 := rfl
@[simp] theorem State.begin_pending : (s.begin).pending = s.pending := rfl

end Sys2Proof.Machine
end

