-- ==== Sys2Proof/Laws/Setup.lean ====
section
/-! SUPPORT. The frame of every operation of the host port, the journal, the engines, the scanner and the
command register: none of them touches the setup (configuration, link, mask, tick counter, division count, pins,
operand, queue). Only the link's writes, the clock and the resets do. -/

namespace Sys2Proof.Machine

/-! ### The tools -/

theorem foldl_setup {α : Type} (f : State → α → State) (h : ∀ s x, (f s x).setup = s.setup) (l : List α) :
    ∀ s : State, (l.foldl f s).setup = s.setup := by
  induction l with
  | nil => intro s; rfl
  | cons x l ih => intro s; simp [ih, h]

section Basic
variable (s : State)

@[simp] theorem setPart_setup (p : PartId) (x : Partition) : (s.setPart p x).setup = s.setup := rfl
@[simp] theorem modPart_setup (p : PartId) (f : Partition → Partition) : (s.modPart p f).setup = s.setup := rfl
@[simp] theorem setGroup_setup (t : Tag) (g : Group) : (s.setGroup t g).setup = s.setup := rfl
@[simp] theorem modGroup_setup (t : Tag) (f : Group → Group) : (s.modGroup t f).setup = s.setup := rfl
@[simp] theorem freeGroup_setup (t : Tag) : (s.freeGroup t).setup = s.setup := rfl
@[simp] theorem modEntry_setup (i : EntryId) (f : Entry → Entry) : (s.modEntry i f).setup = s.setup := rfl
@[simp] theorem dropEntry_setup (i : EntryId) : (s.dropEntry i).setup = s.setup := rfl
@[simp] theorem addEntry_setup (e : Entry) : (s.addEntry e).setup = s.setup := rfl
@[simp] theorem insertClaim_setup (c : Claim) : (s.insertClaim c).setup = s.setup := rfl
@[simp] theorem respond_setup (h : Byte) (st : Status) (d : Bytes) : (s.respond h st d).setup = s.setup := rfl
@[simp] theorem answer_setup (e : Entry) (st : Status) (d : Bytes) : (s.answer e st d).setup = s.setup := rfl
@[simp] theorem finishEntry_setup (e : Entry) (st : Status) (d : Bytes) : (s.finishEntry e st d).setup = s.setup :=
  rfl
@[simp] theorem answerEarly_setup (e : Entry) (st : Status) : (s.answerEarly e st).setup = s.setup := rfl
@[simp] theorem issue_setup (p : Purpose) (r : Ref) (a : Addr) (n : Nat) (d : Bytes) :
    (s.issue p r a n d).setup = s.setup := rfl
@[simp] theorem forget_setup (n : Word) : (s.forget n).setup = s.setup := rfl
@[simp] theorem forgetScanner_setup : s.forgetScanner.setup = s.setup := rfl
@[simp] theorem raise_setup (c : Cause) : (s.raise c).setup = s.setup := rfl
@[simp] theorem clearFlags_setup (b : BitVec 9) : (s.clearFlags b).setup = s.setup := rfl
@[simp] theorem modEngine_setup (f : Engine → Engine) : (s.modEngine f).setup = s.setup := rfl
@[simp] theorem modScanner_setup (f : Scanner → Scanner) : (s.modScanner f).setup = s.setup := rfl
@[simp] theorem joinWaiting_setup (t : Tag) : (s.joinWaiting t).setup = s.setup := rfl
@[simp] theorem engineIdle_setup : s.engineIdle.setup = s.setup := rfl
@[simp] theorem takeStatus_setup (c : Option Command) : (s.takeStatus c).setup = s.setup := rfl
@[simp] theorem endDone_setup : s.endDone.setup = s.setup := rfl
@[simp] theorem endRefused_setup (r : Reason) : (s.endRefused r).setup = s.setup := rfl
@[simp] theorem endOverlap_setup (r : Reason) (c : Option OverlapCheck) (p : PartId) (n : Nat) :
    (s.endOverlap r c p n).setup = s.setup := rfl
@[simp] theorem endFailed_setup (r : Reason) (p : Option PartId) : (s.endFailed r p).setup = s.setup := rfl
@[simp] theorem partitionsOff_setup : s.partitionsOff.setup = s.setup := rfl
@[simp] theorem advanceSequence_setup : s.advanceSequence.setup = s.setup := rfl
@[simp] theorem releaseClaims_setup (t : Tag) : (s.releaseClaims t).setup = s.setup := rfl
@[simp] theorem releaseReservation_setup (p : PartId) : (s.releaseReservation p).setup = s.setup := rfl
@[simp] theorem dropCommit_setup (t : Tag) : (s.dropCommit t).setup = s.setup := rfl

@[simp] theorem enter_setup (c : CtrlState) : (s.enter c).setup = s.setup := rfl
@[simp] theorem clearScanner_setup : s.clearScanner.setup = s.setup := rfl
@[simp] theorem dropClaim_setup (a : Addr) : (s.dropClaim a).setup = s.setup := rfl
@[simp] theorem restartSequence_setup : s.restartSequence.setup = s.setup := rfl
@[simp] theorem dropRequests_setup : s.dropRequests.setup = s.setup := rfl

@[simp] theorem log_setup (i : Incident) : (s.log i).setup = s.setup := by
  unfold State.log; dsimp only; split <;> rfl

end Basic

/-! ### The journal engine -/

section Journal
variable (s : State)

@[simp] theorem decideUndo_setup (u : UndoRef) (d : Bytes) : (s.decideUndo u d).setup = s.setup := by
  unfold State.decideUndo; split <;> simp

@[simp] theorem padUndo_setup (u : UndoRef) : (s.padUndo u).setup = s.setup := by
  unfold State.padUndo; split <;> simp

@[simp] theorem issueSlot_setup (p : PartId) (k : Nat) (d : Bytes) : (s.issueSlot p k d).setup = s.setup := rfl

@[simp] theorem issueSlots_setup (p : PartId) : (s.issueSlots p).setup = s.setup := by
  unfold State.issueSlots
  split
  · simp [foldl_setup _ (fun s (x : Nat × Bytes) => issueSlot_setup s p _ x.2)]
  · rfl

@[simp] theorem placeClosing_setup (t : Tag) (k : SlotKind) (c : Byte) :
    (s.placeClosing t k c).setup = s.setup := by
  unfold State.placeClosing
  split
  · rfl
  · split <;> simp

@[simp] theorem issueHeader_setup (p : PartId) (w : HeaderWrite) : (s.issueHeader p w).setup = s.setup := rfl

@[simp] theorem considerHeader_setup (p : PartId) : (s.considerHeader p).setup = s.setup := by
  unfold State.considerHeader; dsimp only; split <;> simp

@[simp] theorem retire_setup (p : PartId) : (s.retire p).setup = s.setup := by
  unfold State.retire; split <;> simp

end Journal

/-! ### The group table -/

section Groups
variable (s : State)

@[simp] theorem revokeFate_setup (e : Entry) : (s.revokeFate e).setup = s.setup := by
  unfold State.revokeFate
  split
  · dsimp only; split <;> simp
  all_goals simp

@[simp] theorem startUnwind_setup (t : Tag) (o : UnwindOrigin) (c : Option RevokeCause) :
    (s.startUnwind t o c).setup = s.setup := by
  simp [State.startUnwind, foldl_setup _ revokeFate_setup]

@[simp] theorem revoke_setup (t : Tag) (c : RevokeCause) : (s.revoke t c).setup = s.setup := by
  unfold State.revoke; split <;> simp

@[simp] theorem completeGroup_setup (t : Tag) : (s.completeGroup t).setup = s.setup := by
  unfold State.completeGroup; dsimp only; split <;> simp

@[simp] theorem answerParked_setup (t : Tag) (st : Status) : (s.answerParked t st).setup = s.setup := by
  unfold State.answerParked; dsimp only; split <;> simp

theorem endRetry_setup (t : Tag) (f : State → State) (h : ∀ s, (f s).setup = s.setup) :
    (s.endRetry t f).setup = s.setup := by
  unfold State.endRetry
  split
  · rw [h]; rfl
  · rfl

@[simp] theorem takeRestored_setup (t : Tag) : (s.takeRestored t).setup = s.setup := by
  unfold State.takeRestored; split <;> simp

@[simp] theorem reportRestored_setup (t : Tag) : (s.reportRestored t).setup = s.setup := by
  simp [State.reportRestored, endRetry_setup _ _ _ endDone_setup]

@[simp] theorem answerBrokenRead_setup (e : Entry) : (s.answerBrokenRead e).setup = s.setup := by
  simp [State.answerBrokenRead]

@[simp] theorem breakCommit_setup (reads : List Entry) (t : Tag) : (State.breakCommit reads s t).setup = s.setup := by
  unfold State.breakCommit; split <;> simp

@[simp] theorem reportFailed_setup (t : Tag) : (s.reportFailed t).setup = s.setup := by
  simp [State.reportFailed, endRetry_setup _ _ _ (fun s => endFailed_setup s _ _),
    foldl_setup _ answerBrokenRead_setup, foldl_setup _ (breakCommit_setup (reads := _))]

@[simp] theorem revokePartition_setup (p : PartId) : (s.revokePartition p).setup = s.setup := by
  simp [State.revokePartition, foldl_setup _ (fun s t => revoke_setup s t _)]

@[simp] theorem faultPartition_setup (p : PartId) (k : Nat) : (s.faultPartition p k).setup = s.setup := by
  simp [State.faultPartition]

end Groups

/-! ### The unwind engine -/

section Unwind
variable (s : State)

@[simp] theorem takeGroup_setup (t : Tag) (l : List Tag) : (s.takeGroup t l).setup = s.setup := rfl

@[simp] theorem stopEngine_setup : s.stopEngine.setup = s.setup := rfl

@[simp] theorem restoresOver_setup (t : Tag) : (s.restoresOver t).setup = s.setup := by
  unfold State.restoresOver
  extract_lets ready
  split <;> simp

@[simp] theorem takeNextLine_setup : s.takeNextLine.setup = s.setup := by
  unfold State.takeNextLine
  split
  · rfl
  · split <;> simp

@[simp] theorem enterRestoring_setup (t : Tag) : (s.enterRestoring t).setup = s.setup := by
  simp [State.enterRestoring]

@[simp] theorem issueUnwindRead_setup (c : Claim) (n : Nat) : (s.issueUnwindRead c n).setup = s.setup := by
  unfold State.issueUnwindRead; split <;> simp

@[simp] theorem issueRestoreWrite_setup (c : Claim) (d : Bytes) (n : Nat) :
    (s.issueRestoreWrite c d n).setup = s.setup := rfl

@[simp] theorem lineEnded_setup : s.lineEnded.setup = s.setup := by
  unfold State.lineEnded; split <;> simp

@[simp] theorem lineFailed_setup (c : Claim) : (s.lineFailed c).setup = s.setup := by
  simp [State.lineFailed]

@[simp] theorem unwindReadOutcome_setup (o : PortOutcome) : (s.unwindReadOutcome o).setup = s.setup := by
  unfold State.unwindReadOutcome
  split
  · split
    · simp
    · split <;> simp
  · rfl

@[simp] theorem restoreWriteOutcome_setup (o : PortOutcome) : (s.restoreWriteOutcome o).setup = s.setup := by
  unfold State.restoreWriteOutcome
  split
  · split
    · simp
    · split <;> simp
  · rfl

theorem engineTakes_setup {s t : State} (h : s.engineTakes = some t) : t.setup = s.setup := by
  unfold State.engineTakes at h
  split at h
  · cases h; simp
  · cases h

theorem engineSettles_setup {s t : State} (h : s.engineSettles = some t) : t.setup = s.setup := by
  unfold State.engineSettles at h
  split at h
  · split at h
    · cases h; simp
    · cases h
  · cases h

theorem engineReads_setup {s t : State} (h : s.engineReads = some t) : t.setup = s.setup := by
  unfold State.engineReads at h
  split at h
  · split at h
    · cases h; simp
    · cases h
  · cases h

theorem engineFails_setup {s t : State} (h : s.engineFails = some t) : t.setup = s.setup := by
  unfold State.engineFails at h
  split at h
  · split at h
    · split at h
      · cases h; simp
      · cases h
    · cases h
  · cases h

/-- Everything `engineAdvance` can do: one of the four things of the engine's own, out of SHUTDOWN. -/
theorem engineAdvance_cases {s t : State} (h : s.engineAdvance = some t) :
    s.controller ≠ .shutdown ∧ (s.engineFails = some t ∨ s.engineTakes = some t ∨ s.engineSettles = some t ∨
      s.engineReads = some t) := by
  unfold State.engineAdvance at h
  split at h
  · cases h
  · refine ⟨‹_›, ?_⟩
    simp only [Option.orElse_eq_orElse, Option.orElse_eq_or] at h
    cases h1 : s.engineFails <;> cases h2 : s.engineTakes <;> cases h3 : s.engineSettles <;> simp_all

theorem engineAdvance_setup {s t : State} (h : s.engineAdvance = some t) : t.setup = s.setup := by
  obtain ⟨-, h | h | h | h⟩ := engineAdvance_cases h
  · exact engineFails_setup h
  · exact engineTakes_setup h
  · exact engineSettles_setup h
  · exact engineReads_setup h

end Unwind

/-! ### The request table -/

section Requests
variable (s : State)

@[simp] theorem issueHomeWrite_setup (e : Entry) : (s.issueHomeWrite e).setup = s.setup := rfl

@[simp] theorem issueAccess_setup (e : Entry) : (s.issueAccess e).setup = s.setup := by
  unfold State.issueAccess
  split
  · simp
  · split <;> simp

@[simp] theorem leaveOrdered_setup (i : EntryId) : (s.leaveOrdered i).setup = s.setup := by
  unfold State.leaveOrdered
  split
  · rfl
  · split <;> simp

@[simp] theorem drain_setup (t : Tag) : (s.drain t).setup = s.setup := by
  unfold State.drain; split <;> simp

@[simp] theorem quietTest_setup : s.quietTest.setup = s.setup := by
  unfold State.quietTest; split <;> rfl

@[simp] theorem settle_setup : s.settle.setup = s.setup :=
  settle_keeps (fun x => x.setup = s.setup) (fun x i h => by rw [leaveOrdered_setup, h])
    (fun x t h => by rw [drain_setup, h]) (fun x t ha h => by rw [engineAdvance_setup ha, h])
    (fun x p h => by rw [issueSlots_setup, h]) (fun x h => by rw [quietTest_setup, h]) s rfl

@[simp] theorem completeAccess_setup (e : Entry) (d : Bytes) : (s.completeAccess e d).setup = s.setup := by
  unfold State.completeAccess
  split
  · simp
  · split
    · split <;> simp
    · simp

@[simp] theorem readFailed_setup (e : Entry) : (s.readFailed e).setup = s.setup := by
  unfold State.readFailed
  split
  · simp
  · dsimp only; split
    · split <;> simp
    · simp

@[simp] theorem hostReadOutcome_setup (i : EntryId) (o : PortOutcome) : (s.hostReadOutcome i o).setup = s.setup := by
  unfold State.hostReadOutcome
  split
  · rfl
  · split <;> simp

@[simp] theorem logHomeWrite_setup (e : Entry) : (s.logHomeWrite e).setup = s.setup := by
  unfold State.logHomeWrite; split <;> simp

@[simp] theorem homeWriteFailed_setup (e : Entry) : (s.homeWriteFailed e).setup = s.setup := by
  unfold State.homeWriteFailed
  split
  · simp
  · dsimp only; split
    · split <;> simp
    · simp

@[simp] theorem homeWriteOutcome_setup (i : EntryId) (o : PortOutcome) :
    (s.homeWriteOutcome i o).setup = s.setup := by
  unfold State.homeWriteOutcome
  split
  · rfl
  · split <;> simp

@[simp] theorem afterRemoval_setup (t : Tag) (b : Bool) : (s.afterRemoval t b).setup = s.setup := by
  unfold State.afterRemoval
  dsimp only; split
  · split <;> simp
  · split <;> simp

@[simp] theorem removeClaim_setup (t : Tag) (line : Addr) : (s.removeClaim t line).setup = s.setup := by
  unfold State.removeClaim
  split
  · split <;> simp
  · rfl

@[simp] theorem captureRemoval_setup (e : Entry) (t : Tag) : (s.captureRemoval e t).setup = s.setup := by
  unfold State.captureRemoval
  simp only [afterRemoval_setup, foldl_setup _ (fun s (x : Entry) => finishEntry_setup s x _ _), removeClaim_setup]
  cases e.undo <;> cases e.member <;> simp

@[simp] theorem captureFailed_setup (e : Entry) : (s.captureFailed e).setup = s.setup := by
  unfold State.captureFailed
  split
  · simp
  · cases e.undo <;> simp

@[simp] theorem captureReturned_setup (e : Entry) (d : Bytes) : (s.captureReturned e d).setup = s.setup := by
  unfold State.captureReturned
  cases e.undo <;> dsimp only <;> split <;> simp

@[simp] theorem captureOutcome_setup (i : EntryId) (o : PortOutcome) : (s.captureOutcome i o).setup = s.setup := by
  unfold State.captureOutcome
  split
  · rfl
  · split <;> simp

@[simp] theorem undoPassed_setup (p : PartId) (k : Nat) (i : RecordInfo) :
    (s.undoPassed p k i).setup = s.setup := by
  have h : ∀ f : Claim → Claim, ({ s with claims := s.claims.map f } : State).setup = s.setup := fun _ => rfl
  unfold State.undoPassed
  extract_lets logged
  split
  · rw [issueHomeWrite_setup, h]
  · rw [h]

@[simp] theorem commitPassed_setup (i : RecordInfo) : (s.commitPassed i).setup = s.setup := by
  unfold State.commitPassed; split <;> simp

@[simp] theorem unwoundPassed_setup (i : RecordInfo) : (s.unwoundPassed i).setup = s.setup := by
  unfold State.unwoundPassed; split <;> simp

@[simp] theorem handOn_setup (p : PartId) (x : Nat × Mark) : (State.handOn p s x).setup = s.setup := by
  unfold State.handOn; split <;> (try split) <;> simp

@[simp] theorem slotAcknowledged_setup (p : PartId) (k : Nat) : (s.slotAcknowledged p k).setup = s.setup := by
  unfold State.slotAcknowledged
  dsimp only; split <;> simp [foldl_setup _ (handOn_setup (p := p))]

@[simp] theorem logRetried_setup (p : PartId) (k n : Nat) (r : Option RecordInfo) :
    (s.logRetried p k n r).setup = s.setup := by
  unfold State.logRetried; split <;> simp

@[simp] theorem slotOutcome_setup (p : PartId) (k : Nat) (o : PortOutcome) : (s.slotOutcome p k o).setup = s.setup := by
  unfold State.slotOutcome
  split
  · rfl
  · split
    · simp
    · split
      · split <;> simp
      · rfl

@[simp] theorem headerAcknowledged_setup (p : PartId) (w : HeaderWrite) :
    (s.headerAcknowledged p w).setup = s.setup := by
  simp [State.headerAcknowledged]

@[simp] theorem headerFailed_setup (p : PartId) (w : HeaderWrite) : (s.headerFailed p w).setup = s.setup := by
  unfold State.headerFailed; dsimp only
  split
  · split <;> simp
  · simp

@[simp] theorem headerOutcome_setup (p : PartId) (o : PortOutcome) : (s.headerOutcome p o).setup = s.setup := by
  unfold State.headerOutcome
  split
  · rfl
  · split <;> simp

end Requests

/-! ### Intake -/

section Intake
variable (s : State)

@[simp] theorem refuse_setup (r : HostRequest) (st : Status) : (s.refuse r st).setup = s.setup := rfl

@[simp] theorem takeClaim_setup (t : Tag) (a : Addr) : (s.takeClaim t a).setup = s.setup := by
  unfold State.takeClaim; dsimp only; split <;> simp

@[simp] theorem admitAccess_setup (i : EntryId) (r : HostRequest) (p : Path) (f : Phase) (b : Bool) :
    (s.admitAccess i r p f b).setup = s.setup := by
  unfold State.admitAccess
  split
  · simp
  · dsimp only
    split <;> split <;> split <;> simp

@[simp] theorem parkAbort_setup (i : EntryId) (r : HostRequest) (t : Tag) : (s.parkAbort i r t).setup = s.setup := rfl

@[simp] theorem takeAbort_setup (i : EntryId) (r : HostRequest) (t : Tag) : (s.takeAbort i r t).setup = s.setup := by
  unfold State.takeAbort
  split <;> (try split) <;> simp

@[simp] theorem takeAccess_setup (i : EntryId) (r : HostRequest) (b : Bool) :
    (s.takeAccess i r b).setup = s.setup := by
  unfold State.takeAccess; split <;> simp

@[simp] theorem takeIntent_setup (i : EntryId) (r : HostRequest) : (s.takeIntent i r).setup = s.setup := by
  unfold State.takeIntent
  split <;> (try split) <;> simp

theorem held_of_setup {s t : State} (h : t.setup = s.setup) : t.held = s.held :=
  congrArg Setup.held h

/-- Intake touches of the setup at most the held request. -/
theorem intake_setup (r : HostRequest) : (s.intake r).setup = { s.setup with held := (s.intake r).held } := by
  unfold State.intake
  split
  · rfl
  · split
    · rfl
    · rw [held_of_setup (takeIntent_setup s _ r), takeIntent_setup]; rfl

theorem retakeHeld_setup : s.retakeHeld.setup = { s.setup with held := s.retakeHeld.held } := by
  unfold State.retakeHeld
  split
  · rfl
  · rw [intake_setup]; rfl

theorem endEvent_setup (c : CtrlState) : (s.endEvent c).setup = { s.setup with held := (s.endEvent c).held } := by
  unfold State.endEvent
  split
  · exact retakeHeld_setup s
  · rfl

/-- With no request held, the end of an event does nothing (R81). -/
theorem endEvent_of_none (c : CtrlState) (h : s.held = none) : s.endEvent c = s := by
  unfold State.endEvent State.retakeHeld
  rw [h]; simp

/-- An event at a part with its reset line released and no request held is its effect, where that leaves no
request held. -/
theorem lineEvent_direct (f : State → State) (hd : s.direct = true) (h : (f s.begin).held = none) :
    s.lineEvent f = .next (f s.begin) := by
  unfold State.direct at hd
  simp only [Bool.and_eq_true, Bool.not_eq_true'] at hd
  unfold State.lineEvent State.event
  rw [hd.1, endEvent_of_none _ _ h]
  rfl

theorem begin_held (hd : s.direct = true) : s.begin.held = none := by
  unfold State.direct at hd
  simp only [Bool.and_eq_true, Option.isNone_iff_eq_none] at hd
  exact hd.2

/-- The same for an effect that keeps the setup. -/
theorem lineEvent_of_setup (f : State → State) (hd : s.direct = true) (h : (f s.begin).setup = s.begin.setup) :
    s.lineEvent f = .next (f s.begin) :=
  lineEvent_direct s f hd (by rw [held_of_setup h, begin_held s hd])

end Intake

/-! ### The recovery scanner and FORMAT -/

section Recovery
variable (s : State)

@[simp] theorem startFailed_setup (r : Reason) : (s.startFailed r).setup = s.setup := by
  unfold State.startFailed
  extract_lets bare logged off
  split <;> simp [off, logged]

@[simp] theorem recoverySucceeds_setup : s.recoverySucceeds.setup = s.setup := rfl

@[simp] theorem issueScanner_setup (u : Purpose) (p : PartId) (k : Nat) (d : Bytes) :
    (s.issueScanner u p k d).setup = s.setup := rfl

@[simp] theorem issueHeaderRead_setup (p : PartId) (k : Nat) : (s.issueHeaderRead p k).setup = s.setup := rfl

@[simp] theorem takePartition_setup (p : PartId) : (s.takePartition p).setup = s.setup := rfl

@[simp] theorem takeFirst_setup (f : PartId → Bool) : (s.takeFirst f).setup = s.setup := by
  unfold State.takeFirst; split <;> simp

@[simp] theorem chooseHeader_setup (p : PartId) (a b : Bytes) : (s.chooseHeader p a b).setup = s.setup := by
  unfold State.chooseHeader
  split
  · simp
  · split <;> simp

@[simp] theorem headerReadOutcome_setup (p : PartId) (k : Nat) (o : PortOutcome) :
    (s.headerReadOutcome p k o).setup = s.setup := by
  unfold State.headerReadOutcome
  split
  · split
    · extract_lets kept
      split <;> simp [kept]
    · repeat' split
      all_goals simp
  · rfl

@[simp] theorem issueRewrite_setup (p : PartId) (g : Word) (b : Bytes) : (s.issueRewrite p g b).setup = s.setup :=
  rfl

@[simp] theorem logUnwound_setup (p : PartId) (l : List RecoveryEntry) (v : Word) :
    (State.logUnwound p l s v).setup = s.setup := by
  unfold State.logUnwound; dsimp only; split <;> simp

@[simp] theorem restoresDone_setup (p : PartId) : (s.restoresDone p).setup = s.setup := by
  unfold State.restoresDone
  split
  · simp [foldl_setup _ (logUnwound_setup (p := p) (l := s.scanner.list))]
  · rfl

@[simp] theorem headerRewriteOutcome_setup (o : PortOutcome) : (s.headerRewriteOutcome o).setup = s.setup := by
  unfold State.headerRewriteOutcome
  split
  · split
    · simp
    · split <;> simp
  · rfl

@[simp] theorem issueRecoveryRead_setup (p : PartId) (e : RecoveryEntry) :
    (s.issueRecoveryRead p e).setup = s.setup := rfl

@[simp] theorem issueRecoveryWrite_setup (e : RecoveryEntry) (d : Bytes) :
    (s.issueRecoveryWrite e d).setup = s.setup := rfl

@[simp] theorem takeRestore_setup (p : PartId) : (s.takeRestore p).setup = s.setup := by
  unfold State.takeRestore; split <;> simp

@[simp] theorem enterRestore_setup (p : PartId) : (s.enterRestore p).setup = s.setup := by
  simp [State.enterRestore]

@[simp] theorem recoveryReadOutcome_setup (o : PortOutcome) : (s.recoveryReadOutcome o).setup = s.setup := by
  unfold State.recoveryReadOutcome
  split
  · split
    · simp
    · split <;> simp
  · rfl

@[simp] theorem recoveryWriteOutcome_setup (o : PortOutcome) : (s.recoveryWriteOutcome o).setup = s.setup := by
  unfold State.recoveryWriteOutcome
  split
  · split
    · simp
    · split <;> simp
  · rfl

@[simp] theorem voidNext_setup (p : PartId) (c : ChosenHeader) (x : Pos) : (s.voidNext p c x).setup = s.setup := by
  unfold State.voidNext; dsimp only; split <;> simp

@[simp] theorem voidJudge_setup (p : PartId) (c : ChosenHeader) (x : Pos) (b : Bytes) :
    (s.voidJudge p c x b).setup = s.setup := by
  unfold State.voidJudge; split <;> simp

@[simp] theorem voidReadOutcome_setup (o : PortOutcome) : (s.voidReadOutcome o).setup = s.setup := by
  unfold State.voidReadOutcome
  split
  · split
    · simp
    · split <;> simp
  · rfl

@[simp] theorem voidWriteOutcome_setup (o : PortOutcome) : (s.voidWriteOutcome o).setup = s.setup := by
  unfold State.voidWriteOutcome
  split
  · split
    · simp
    · split <;> simp
  · rfl

@[simp] theorem endScan_setup (p : PartId) (c : ChosenHeader) (x : Pos) (b : Bytes) :
    (s.endScan p c x b).setup = s.setup := by
  simp [State.endScan]

@[simp] theorem advanceScan_setup (p : PartId) (c : ChosenHeader) (x : Pos) (n : Nat) :
    (s.advanceScan p c x n).setup = s.setup := by
  unfold State.advanceScan; dsimp only; split <;> simp

@[simp] theorem takeRecord_setup (p : PartId) (c : ChosenHeader) (x : Pos) (b : Bytes) :
    (s.takeRecord p c x b).setup = s.setup := by
  unfold State.takeRecord
  split
  · split <;> simp
  · split <;> simp

@[simp] theorem scanDecide_setup (p : PartId) (c : ChosenHeader) (x : Pos) (b d : Bytes) :
    (s.scanDecide p c x b d).setup = s.setup := by
  unfold State.scanDecide; split <;> simp

@[simp] theorem scanReadOutcome_setup (o : PortOutcome) : (s.scanReadOutcome o).setup = s.setup := by
  unfold State.scanReadOutcome
  split
  · split
    · split
      · simp
      · split <;> simp
    · split <;> simp
  · rfl

@[simp] theorem issueFormat_setup (j : FormatJob) : (s.issueFormat j).setup = s.setup := rfl

@[simp] theorem formatOutcome_setup (o : PortOutcome) : (s.formatOutcome o).setup = s.setup := by
  unfold State.formatOutcome
  split
  · rfl
  · split
    · split
      · simp
      · rfl
    · split
      · simp
      · rfl

end Recovery

/-! ### The array port -/

section Port
variable (s : State)

@[simp] theorem deliver_setup (r : PortRecord) (o : PortOutcome) : (s.deliver r o).setup = s.setup := by
  unfold State.deliver; split <;> simp

@[simp] theorem report_setup (r : PortRecord) (o : PortOutcome) : (s.report r o).setup = s.setup := by
  unfold State.report; split <;> simp

@[simp] theorem takeResponse_setup (n : Word) (a : ArrayResult) : (s.takeResponse n a).setup = s.setup := by
  unfold State.takeResponse; split <;> simp

@[simp] theorem timeOut_setup (r : PortRecord) : (s.timeOut r).setup = s.setup := by
  unfold State.timeOut; dsimp only; split <;> simp

@[simp] theorem timeOutNumber_setup (n : Word) : (s.timeOutNumber n).setup = s.setup := by
  unfold State.timeOutNumber; split <;> simp

theorem engineInTick_setup (t : State) (h : s.engineInTick = some t) : t.setup = s.setup := by
  unfold State.engineInTick at h
  split at h
  · cases h
  · exact engineAdvance_setup h

@[simp] theorem engineGoesOn_setup (n : Nat) : (s.engineGoesOn n).setup = s.setup := by
  induction n generalizing s with
  | zero => rfl
  | succ n ih =>
    unfold State.engineGoesOn
    split
    · rename_i t h; rw [ih, engineInTick_setup s t h]
    · rfl

@[simp] theorem timeOutInTick_setup (n : Word) : (s.timeOutInTick n).setup = s.setup := by
  unfold State.timeOutInTick; split <;> simp

@[simp] theorem handOver_setup : s.handOver.setup = s.setup := rfl

theorem with_outstanding_setup (l : List PortRecord) : ({ s with outstanding := l } : State).setup = s.setup := rfl

@[simp] theorem tickPort_setup : s.tickPort.setup = s.setup := by
  simp [State.tickPort, foldl_setup _ timeOutInTick_setup, with_outstanding_setup]

@[simp] theorem expire_setup (t : Tag) : (s.expire t).setup = s.setup := by
  unfold State.expire; split <;> simp

@[simp] theorem tickGroup_setup (t : Tag) : (s.tickGroup t).setup = s.setup := by
  simp [State.tickGroup]

@[simp] theorem tickGroups_setup : s.tickGroups.setup = s.setup := by
  unfold State.tickGroups; split <;> simp [foldl_setup _ tickGroup_setup]

/-- A tick changes of the setup only the tick counter and the division count (R185, R186). -/
theorem tick_setup : s.tick.setup = { s.setup with tickCounter := s.tickCounter + 1, divisionCount := 0 } := by
  simp [State.tick]; rfl

end Port

/-! ### The controller -/

section Controller
variable (s : State)

@[simp] theorem start_setup : s.start.setup = s.setup := by
  unfold State.start
  split
  · simp
  · split
    · simp
    · split
      · simp
      · simp

@[simp] theorem format_setup : s.format.setup = s.setup := by
  unfold State.format
  repeat' split
  all_goals simp

@[simp] theorem quiesce_setup : s.quiesce.setup = s.setup := by
  unfold State.quiesce
  split
  · simp
  · simp

@[simp] theorem resume_setup : s.resume.setup = s.setup := by
  unfold State.resume; split <;> rfl

@[simp] theorem stop_setup : s.stop.setup = s.setup := by
  unfold State.stop; split <;> rfl

@[simp] theorem forceUnwind_setup : s.forceUnwind.setup = s.setup := by
  unfold State.forceUnwind
  split
  · simp
  · split <;> simp

@[simp] theorem retryGroup_setup (t : Tag) : (s.retryGroup t).setup = s.setup := rfl

@[simp] theorem retryUnwind_setup : s.retryUnwind.setup = s.setup := by
  unfold State.retryUnwind
  split
  · simp
  · split
    · simp
    · split <;> simp

@[simp] theorem clearIncidents_setup : s.clearIncidents.setup = s.setup := rfl

@[simp] theorem endRunning_setup : s.endRunning.setup = s.setup := by
  unfold State.endRunning
  split
  · simp
  · split <;> rfl

@[simp] theorem powerDown_setup (e : Entry) : (s.powerDown e).setup = s.setup := by
  unfold State.powerDown; split <;> simp

@[simp] theorem shutdownFate_setup (f : Entry → Bool) (e : Entry) : (State.shutdownFate f s e).setup = s.setup := by
  unfold State.shutdownFate
  split
  · rfl
  · split <;> simp

@[simp] theorem stopUnwinding_setup : s.stopUnwinding.setup = s.setup := by
  unfold State.stopUnwinding; split <;> simp

@[simp] theorem enterShutdown_setup : s.enterShutdown.setup = s.setup := by
  simp [State.enterShutdown, foldl_setup _ (fun x e => shutdownFate_setup x s.isCommitRequest e)]

/-- The warning line's assertion changes of the setup only its own level (R154). -/
theorem powerFail_setup : s.powerFail.setup = { s.setup with pfwLine := true } := by
  unfold State.powerFail
  dsimp only; split
  · rfl
  · split
    · rfl
    · simp; rfl

/-- A reset's test of the warning line changes of the setup only the line's level (R158). -/
theorem testPowerFail_setup (b : Bool) : (s.testPowerFail b).setup = { s.setup with pfwLine := b } := by
  unfold State.testPowerFail
  split
  · rw [enterShutdown_setup]; rfl
  · rfl

/-- SOFT_RESET keeps the setup but for the link, which it resets, and the level of the warning line (R157). -/
theorem softReset_setup (b : Bool) : (s.softReset b).setup = { s.setup with pfwLine := b, link := Link.cleared } := by
  rw [State.softReset, testPowerFail_setup]; rfl

end Controller

end Sys2Proof.Machine
end

