-- ==== Sys2Proof/Laws/Link.lean ====
section
/-! SUPPORT. What a clean command frame does to the link: after its seven bytes the command is taken, by R147. -/

namespace Sys2Proof.Machine

/-- The header of a command frame (R198). -/
def commandHeader : Bytes :=
  [195#8, 0#8, 3#8, 1#8, 168#8]

set_option maxRecDepth 5000 in
theorem linkCheck_commandHeader : linkCheck [0xC3#8, 0#8, 3#8, 1#8] = 0xA8#8 := by decide

theorem commandFrame_eq (code : Byte) : commandFrame code = commandHeader ++ [code, linkCheck [code]] := by
  have h : linkCheck [writeKind, BitVec.ofNat 8 (3 / 256), BitVec.ofNat 8 3, BitVec.ofNat 8 1] = 0xA8#8 :=
    linkCheck_commandHeader
  simp only [commandFrame, cleanWriteFrame, List.length_singleton, h]
  rfl

theorem commandLink_eq : commandLink = ⟨.idle, 56, commandHeader, none, none, [], .ok⟩ := by
  unfold commandLink
  rw [commandFrame_eq]
  rfl

theorem commandHeader_fault (l : Link) (h : l.header = commandHeader) : l.headerFault = none := by
  have h0 : l.headerByte 0 = 0xC3#8 := by simp [Link.headerByte, h, commandHeader]
  have h4 : l.headerByte 4 = 0xA8#8 := by simp [Link.headerByte, h, commandHeader]
  have hl : l.length = 1 := by simp [Link.length, Link.headerByte, h, commandHeader]
  have ha : l.addressField = 3 := by simp [Link.addressField, Link.headerByte, h, commandHeader]
  have hw : l.windowAddress = 3 := by simp [Link.windowAddress, ha]
  have hr : l.range = [3] := by simp [Link.range, hl, hw, List.range_succ]
  have hc : linkCheck (l.header.take 4) = 0xA8#8 := by
    rw [h]; exact linkCheck_commandHeader
  have hm : mapped 3 = true := by decide
  unfold Link.headerFault
  rw [h0, h4, hl, ha, hw, hr, hc]
  simp [hm, readKind, writeKind]

/-- The link when the seven bytes of a command frame have been taken and MSEL is about to rise. -/
def frameTaken (code : Byte) (last : FrameStatus) : Link :=
  ⟨.trailing, 56, commandHeader, none, none, [code, linkCheck [code]], last⟩

theorem takeBytes_commandFrame (snap : Nat → Nat → Bytes) (l : Link) (h : l.frame = .idle) (code : Byte) :
    Link.takeBytes snap (commandFrame code) (l.mselFalls, []) = (frameTaken code l.lastFrame, zeroBytes 7) := by
  have hm : l.mselFalls = ⟨.header, 0, [], none, none, [], l.lastFrame⟩ := by
    simp [Link.mselFalls, h, Link.cleared]
  have hf : ∀ (f : FrameState) (n : Nat) (x : FrameStatus),
      Link.headerFault ⟨f, n, [195#8, 0#8, 3#8, 1#8, 168#8], none, none, [], x⟩ = none :=
    fun _ _ _ => commandHeader_fault _ rfl
  rw [commandFrame_eq, hm]
  unfold frameTaken
  generalize linkCheck [code] = c
  simp [commandHeader, Link.takeBytes, Link.takeByte, Link.byteEnd, Link.takeHeaderByte, Link.takeDataByte, Link.headerWhole, hf,
    Link.reads, Link.headerByte, Link.length, readKind, Link.drives, zeroBytes, List.replicate]

theorem frameTaken_shape (code : Byte) (x : FrameStatus) : (frameTaken code x).shapeFault = none := by
  simp [frameTaken, Link.shapeFault, Link.headerWhole, commandHeader, Link.length, Link.headerByte]

theorem frameTaken_reads (code : Byte) (x : FrameStatus) : (frameTaken code x).reads = false := by
  simp [frameTaken, Link.reads, commandHeader, Link.headerByte, readKind]

theorem frameTaken_dataBytes (code : Byte) (x : FrameStatus) : (frameTaken code x).dataBytes = [code] := by
  simp [frameTaken, Link.dataBytes, Link.length, commandHeader, Link.headerByte]

theorem frameTaken_check (code : Byte) (x : FrameStatus) : (frameTaken code x).dataCheckOk = true := by
  simp [Link.dataCheckOk, frameTaken_dataBytes, Link.length]
  simp [frameTaken, commandHeader, Link.headerByte]

theorem frameTaken_address (code : Byte) (x : FrameStatus) : (frameTaken code x).windowAddress = 3 := by
  simp [frameTaken, Link.windowAddress, Link.addressField, commandHeader, Link.headerByte]

theorem frameTaken_range (code : Byte) (x : FrameStatus) : (frameTaken code x).range = [3] := by
  have h : (frameTaken code x).length = 1 := by simp [frameTaken, Link.length, commandHeader, Link.headerByte]
  simp [Link.range, frameTaken_address, h]

theorem frameTaken_command (code : Byte) (x : FrameStatus) : (frameTaken code x).commandByte = some code := by
  simp [Link.commandByte, frameTaken_address, frameTaken_dataBytes, frameByte]

theorem frameTaken_ended (code : Byte) (x : FrameStatus) : (frameTaken code x).ended .ok = commandLink := by
  rw [commandLink_eq]; rfl

/-- The status a command frame ends with: COMMAND_BUSY where a command is RUNNING, and otherwise OK (R180). -/
theorem frameTaken_status (s : State) (code : Byte) (x : FrameStatus) :
    s.frameStatus (frameTaken code x) =
      if (frameTaken code x).namesBusyCommand && s.running then .commandBusy else .ok := by
  have h3 : classAt 3 = some .control := by decide
  unfold State.frameStatus
  rw [frameTaken_shape]
  simp only [frameTaken_reads, State.writeStatus, frameTaken_check, frameTaken_range]
  simp [h3]

/-- A command frame that is applied writes nothing but the command register. -/
theorem writeRange_command (s : State) (code : Byte) : s.writeRange 3 [code] = s := by
  have h3 : fieldAt 3 = some (.command, 0) := by decide
  simp [State.writeRange, State.writeByteStep, h3, State.writeField]

/-! ### MDO -/

theorem bitsOf_append (a b : Bytes) : bitsOf (a ++ b) = bitsOf a ++ bitsOf b := by
  simp [bitsOf]

theorem lowBits_append (a b : Nat) : lowBits a ++ lowBits b = lowBits (a + b) := by
  simp [lowBits, List.replicate_append_replicate]

theorem lowBits_take (a b : Nat) : (lowBits a).take b = lowBits (min b a) := by
  simp [lowBits, List.take_replicate]

theorem bitsOf_length (l : Bytes) : (bitsOf l).length = 8 * l.length := by
  induction l with
  | nil => rfl
  | cons b l ih =>
    have : bitsOf (b :: l) = bitsOf [b] ++ bitsOf l := bitsOf_append [b] l
    rw [this, List.length_append, ih]
    simp [bitsOf]; omega

/-- Zero bytes are low bits (R172). -/
theorem bitsOf_zeroBytes (n : Nat) : bitsOf (zeroBytes n) = lowBits (8 * n) := by
  induction n with
  | zero => rfl
  | succ n ih =>
    have h1 : bitsOf [0#8] = lowBits 8 := by decide
    have h2 : zeroBytes (n + 1) = [0#8] ++ zeroBytes n := rfl
    rw [h2, bitsOf_append, ih, h1, lowBits_append]
    congr 1; omega

/-- Between two bytes the next byte ends eight edges on (R172). -/
theorem byteEnd_of_whole (l : Link) (h : l.bitCount % 8 = 0) : l.byteEnd = l.bitCount + 8 := by
  unfold Link.byteEnd; rw [h]

/-- Between two bytes the edges of the next are counted from its first (R172). -/
theorem takeEdges_of_whole (l : Link) (n : Nat) (hf : l.frame = .header ∨ l.frame = .data ∨ l.frame = .trailing)
    (h : l.bitCount % 8 = 0) : l.takeEdges n = { l with bitCount := l.bitCount + n } := by
  unfold Link.takeEdges
  rw [h]
  rcases hf with hf | hf | hf <;> rw [hf] <;> rfl

/-- A whole frame, or the last piece of one (R172, R173). -/
theorem linkFrame_rises (s : State) (opens : Bool) (e : Fin 8) (bytes : Bytes) (pfw : Bool) (l : Link) (out : Bytes)
    (hb : s.frameBytes opens bytes = (l, out)) :
    s.linkFrame ⟨opens, e, true⟩ bytes pfw =
      (s.drive (pieceBits (s.frameStart opens).inByte (l, out) e)).mselRises (l.takeEdges e) pfw := by
  unfold State.linkFrame
  dsimp only
  rw [hb, if_pos rfl]

/-- A piece after which the frame goes on: the link and MDO alone change (R172, R173). -/
theorem linkFrame_stays (s : State) (opens : Bool) (e : Fin 8) (bytes : Bytes) (pfw : Bool) (l : Link) (out : Bytes)
    (hb : s.frameBytes opens bytes = (l, out)) :
    s.linkFrame ⟨opens, e, false⟩ bytes pfw =
      { s.drive (pieceBits (s.frameStart opens).inByte (l, out) e) with link := l.takeEdges e } := by
  unfold State.linkFrame
  dsimp only
  rw [hb]
  rfl

/-- The levels of MDO in a piece that begins with a byte. -/
theorem pieceBits_zero (l : Link) (out : Bytes) (e : Nat) :
    pieceBits 0 (l, out) e = bitsOf out ++ (bitsOf [l.drives]).take e := rfl

/-- A command frame where the link is idle and no other command keeps it out: the command is taken, by R147. -/
theorem commandEvent_taken (s : State) (hr : s.resetLine = false) (hf : s.link.frame = .idle) (code : Byte)
    (hc : code ≠ 0) (hb : commandOf code.toNat = some .softReset ∨ s.running = false) (pfw : Bool) :
    s.begin.commandEvent code pfw = s.framed.takeCommand code.toNat pfw := by
  have hstart : s.begin.frameStart true = s.link.mselFalls := by simp [State.frameStart, hr]
  have hbytes : State.frameBytes true s.begin (commandFrame code) =
      (frameTaken code s.link.lastFrame, zeroBytes 7) := by
    rw [State.frameBytes, hstart]; exact takeBytes_commandFrame _ _ hf code
  have hout : pieceBits (s.begin.frameStart true).inByte (frameTaken code s.link.lastFrame, zeroBytes 7) 0 =
      lowBits 56 := by
    rw [hstart, Link.inByte, Link.mselFalls, hf]
    show pieceBits 0 _ _ = _
    rw [pieceBits_zero, bitsOf_zeroBytes]; simp
  have hedges : (frameTaken code s.link.lastFrame).takeEdges 0 = frameTaken code s.link.lastFrame :=
    takeEdges_of_whole _ 0 (.inr (.inr rfl)) (by simp [frameTaken])
  have hstatus : (s.begin.drive (lowBits 56)).frameStatus (frameTaken code s.link.lastFrame) = .ok := by
    rw [frameTaken_status]
    rcases hb with hb | hb
    · have : (frameTaken code s.link.lastFrame).namesBusyCommand = false := by
        unfold Link.namesBusyCommand; rw [frameTaken_command]; simp [hb]
      simp [this]
    · have : (s.begin.drive (lowBits 56)).running = false := hb
      simp [this]
  have hend : (s.begin.drive (lowBits 56)).endFrame (frameTaken code s.link.lastFrame) .ok = s.framed := by
    unfold State.endFrame
    rw [frameTaken_ended]
    rfl
  have happly : s.framed.applyFrame (frameTaken code s.link.lastFrame) pfw =
      s.framed.takeCommand code.toNat pfw := by
    unfold State.applyFrame
    rw [frameTaken_address, frameTaken_dataBytes, frameTaken_command, writeRange_command]
    exact if_neg hc
  unfold State.commandEvent
  rw [linkFrame_rises _ _ _ _ _ _ _ hbytes, show ((0 : Fin 8) : Nat) = 0 from rfl, hout, hedges]
  unfold State.mselRises
  have hframe : (frameTaken code s.link.lastFrame).frame = .trailing := rfl
  have hbits : (frameTaken code s.link.lastFrame).bitCount = 56 := rfl
  simp only [hframe, hbits]
  rw [hstatus, hend, frameTaken_reads, happly]
  simp

/-- A command frame at a listening part: the command is taken, by R147. -/
theorem commandEvent_listening (s : State) (h : s.listening = true) (code : Byte) (hc : code ≠ 0) (pfw : Bool) :
    s.begin.commandEvent code pfw = s.framed.takeCommand code.toNat pfw := by
  unfold State.listening State.direct at h
  simp only [Bool.and_eq_true, Bool.not_eq_true', decide_eq_true_eq] at h
  obtain ⟨⟨⟨hr, -⟩, hf⟩, hb⟩ := h
  exact commandEvent_taken s hr hf code hc (.inr hb) pfw

end Sys2Proof.Machine
end

