-- ==== Sys2Proof/Laws/Intake.lean ====
section
/-! SUPPORT. What intake does with a request: the checks, the access path, admission, and a group or partition read
back after it is written. -/

namespace Sys2Proof.Machine

theorem direct_iff (s : State) : s.direct = true ↔ s.resetLine = false ∧ s.held = none := by
  simp [State.direct]

/-- A well-formed request at a part that takes it: intake, then the end of the event (R77, R81). -/
theorem hostRequest_of_direct (s : State) (r : HostRequest) (hd : s.direct = true) (hw : r.wellFormed = true) :
    exec (.hostRequest r) s = .next ((s.begin.intake r).endEvent s.controller) := by
  obtain ⟨h1, h2⟩ := (direct_iff s).1 hd
  simp [exec, execHostRequest, hw, State.lineEvent, h1, State.event, State.begin, h2]

/-- A request that intake refuses: its response is its only trace (R77). -/
theorem hostRequest_of_refuse (s : State) (r : HostRequest) (st : Status) (hd : s.direct = true) (hw : r.wellFormed = true)
    (h : s.begin.intake r = s.begin.refuse r st) : exec (.hostRequest r) s = s.refusing r st := by
  rw [hostRequest_of_direct s r hd hw, h, endEvent_of_none]
  · rfl
  · exact begin_held s hd

theorem earlyRefusal_begin (s : State) (r : HostRequest) : s.begin.earlyRefusal r = s.earlyRefusal r := rfl

theorem admits_iff (s : State) (r : HostRequest) : s.admits r = true ↔ s.direct = true ∧ r.wellFormed = true ∧
    s.earlyRefusal r = none ∧ s.freeEntry.isSome := by
  simp [State.admits, and_assoc]

/-- A request that reaches check 5 (R80). -/
theorem hostRequest_of_admits (s : State) (r : HostRequest) (h : s.admits r = true) (i : EntryId) (hi : s.freeEntry = some i) :
    exec (.hostRequest r) s = .next (s.begin.takeIntent i r) := by
  obtain ⟨hd, hw, he, -⟩ := (admits_iff s r).1 h
  rw [hostRequest_of_direct s r hd hw]
  have h1 : s.begin.intake r = s.begin.takeIntent i r := by
    unfold State.intake
    rw [earlyRefusal_begin, he, show s.begin.freeEntry = s.freeEntry from rfl, hi]
  rw [h1, endEvent_of_none]
  have := intake_setup s.begin r
  have e : (s.begin.intake r).held = none := by
    rw [h1]
    exact (held_of_setup (takeIntent_setup ..)).trans (begin_held s hd)
  rw [← h1]; exact e

/-- An event that leaves a state at rest once its entries have left ORDERED (R88). -/
theorem settle_of_leave (s t : State) (h : s.leaveAll = t) (hr : t.atRest = true) : s.settle = t := by
  have e : s.settle = t.settle := by
    have hl : t.leaveAll = t := by
      unfold State.atRest at hr
      simp only [Bool.and_eq_true] at hr
      obtain ⟨⟨⟨⟨hl, hd⟩, he⟩, hi⟩, hq⟩ := hr
      refine foldl_still _ _ _ fun i hi => ?_
      obtain ⟨e, he, rfl⟩ := List.mem_map.mp hi
      exact leaveOrdered_still _ _ (by simpa using List.all_eq_true.mp hl e he)
    have hs : s.settleRound = t.settleRound := by
      unfold State.settleRound; rw [hl, h]
    unfold State.settle
    rw [show settleFuel = 63 + 1 from rfl, settleLoop_succ s 63, settleLoop_succ t 63, hs]
  rw [e, settle_of_atRest t hr]

/-- A request that passes check 3 is not in SHUTDOWN (R80). -/
theorem earlyRefusal_not_shutdown (s : State) (r : HostRequest) (h : s.earlyRefusal r = none) : s.controller ≠ .shutdown := by
  intro hc
  unfold State.earlyRefusal at h
  split at h
  · cases h
  split at h
  · cases h
  simp [State.stateRefusal, hc] at h

/-- A request that passes check 3 is for a line that its controller state does not close (R80, R99). -/
theorem earlyRefusal_open_line (s : State) (r : HostRequest) (h : s.earlyRefusal r = none) : s.closedTo (lineOf r.address) =
    false := by
  unfold State.earlyRefusal at h
  split at h
  · cases h
  split at h
  · cases h
  unfold State.stateRefusal at h
  unfold State.closedTo
  split at h <;> simp_all

/-- The only entry of the table, in ORDERED, leaves it (R88). -/
theorem leaveAll_single (x : State) (e : Entry) (hx : x.requests = [e]) (hp : e.phase = .ordered)
    (hn : x.controller ≠ .shutdown) : x.leaveAll = x.issueAccess e := by
  unfold State.leaveAll
  rw [hx]
  simp only [List.map_cons, List.map_nil, List.foldl_cons, List.foldl_nil]
  unfold State.leaveOrdered State.entry State.heldBack
  rw [hx]
  simp [hp, hn]

/-- A PLAIN request at check 5 goes on the access path (R82). -/
theorem plainRequest_takes_access (s : State) (r : HostRequest) (i : EntryId) (h : s.admits r = true) (hi : s.freeEntry = some i)
    (hp : intentOf r.intent = some .plain) :
    exec (.hostRequest r) s = .next (s.begin.takeAccess i r false) := by
  rw [hostRequest_of_admits s r h i hi]
  unfold State.takeIntent
  rw [hp]

/-- A COMMIT of a FREE or OPEN group carries its access on the access path (R9, R10). -/
theorem commit_takes_access (s : State) (r : HostRequest) (i : EntryId) (t : Tag) (h : s.admits r = true) (hi : s.freeEntry
    = some i)
    (hp : intentOf r.intent = some .commit) (ht : tagOf r.tag = some t) (hg : s.groupState t = .free ∨ s.groupState t = .opened) :
    exec (.hostRequest r) s = .next (s.begin.takeAccess i r true) := by
  rw [hostRequest_of_admits s r h i hi]
  unfold State.takeIntent
  rw [hp, ht]
  have : (s.begin.groupState t).commitCheck = none := by
    rw [show s.begin.groupState t = s.groupState t from rfl]
    rcases hg with hg | hg <;> rw [hg] <;> rfl
  simp only [this]

/-- What admitting a read by itself adds (R86). -/
theorem admitAccess_read (s : State) (r : HostRequest) (i : EntryId) (ph : Phase) :
    s.begin.admitAccess i r .read ph false = { s with responses := [], mdo := [], joined := 0, requests := s.requests ++ [newEntry i r .read ph] } := by
  unfold State.admitAccess
  cases tagOf r.tag <;> simp [State.addEntry, Path.journaled] <;> rfl

/-- A PLAIN request that the access path refuses. -/
theorem plainRequest_refused (s : State) (r : HostRequest) (st : Status) (h : s.admits r = true)
    (hp : intentOf r.intent = some .plain) (he : s.begin.accessPath r false = .error st) :
    exec (.hostRequest r) s = s.refusing r st := by
  obtain ⟨hd, hw, _, hf⟩ := (admits_iff s r).1 h
  obtain ⟨i, hi⟩ := Option.isSome_iff_exists.mp hf
  rw [hostRequest_of_admits s r h i hi]
  unfold State.takeIntent
  rw [hp]
  simp only [State.takeAccess, he]
  rfl

theorem regionOf_of_protected (s : State) (l : Addr) (h : s.protectedLine l = true) : ∃ g, s.regionOf l = some g :=
  Option.isSome_iff_exists.mp h

/-- A partition read back after one is written. -/
theorem part_setPart (s : State) (p q : PartId) (x : Partition) :
    (s.setPart p x).part q = if q = p then x else s.part q := by
  unfold State.setPart State.part
  by_cases h : q = p
  · subst h; simp
  · have : (p : Nat) ≠ q := fun e => h (Fin.ext e.symm)
    simp only [if_neg h]
    exact Vector.getElem_set_ne _ _ this

/-- A group read back after one is written. -/
theorem group_setGroup (s : State) (t u : Tag) (x : Group) :
    (s.setGroup t x).group u = if u = t then x else s.group u := by
  unfold State.setGroup State.group
  by_cases h : u = t
  · subst h; simp
  · have : (t : Nat) ≠ u := fun e => h (Fin.ext e.symm)
    simp only [if_neg h]
    exact Vector.getElem_set_ne _ _ this

/-- A PLAIN request that the access path lets through. -/
theorem plainRequest_admitted (s : State) (r : HostRequest) (i : EntryId) (h : s.admits r = true) (hi : s.freeEntry = some i)
    (hp : intentOf r.intent = some .plain) (path : Path) (phase : Phase) (he : s.begin.accessPath r false = .ok (path, phase)) :
    exec (.hostRequest r) s = .next (s.begin.admitAccess i r path phase false).settle := by
  rw [hostRequest_of_admits s r h i hi]
  unfold State.takeIntent
  rw [hp]
  simp only [State.takeAccess, he]

/-- A tagged write to an unclaimed protected line that no check refuses takes a new claim (R84). -/
theorem accessPath_newClaim (s : State) (r : HostRequest) (t : Tag) (hk : r.kind = .write) (ht : tagOf r.tag = some t)
  (hl : s.protectedLine (lineOf r.address) = true) (hg : s.groupState t = .free ∨ s.groupState t = .opened)
  (hc : s.claimOf (lineOf r.address) = none) (hr : s.claimRefusal t = none) :
   s.begin.accessPath r false = .ok (.newClaim, .ordered) := by
  obtain ⟨g, hg'⟩ := regionOf_of_protected _ _ hl
  rcases hg with hg | hg <;>
  simp [State.accessPath, hk, State.writePath, show s.begin.regionOf (lineOf r.address) = some g from hg', ht,
      show s.begin.groupState t = _ from hg, GroupState.plainWrite, State.journaledPath,
      show s.begin.claimOf (lineOf r.address) = _ from hc, show s.begin.claimRefusal t = _ from hr]

theorem advanceSequence_eq (s : State) : s.advanceSequence = { s with seqCounter := s.advanceSequence.seqCounter }
    := rfl

end Sys2Proof.Machine
end

