-- ==== Sys2Proof/Laws/Entries.lean ====
section
/-! SUPPORT. A response that finds its record, and an entry that leaves ORDERED. -/

namespace Sys2Proof.Machine

/-- A response that finds its record is reported to the record's issuer (R162, R167). -/
theorem takeResponse_of_direct (s : State) (n : Word) (a : ArrayResult) (r : PortRecord) (hd : s.direct = true) (hr : s.recordOf n =
    some r) :
    s.lineEvent (State.takeResponse n a) = .next ((s.begin.forget n).report r (r.outcome a)) := by
  rw [lineEvent_of_setup s _ hd]
  · congr 1; unfold State.takeResponse; rw [show s.begin.recordOf n = s.recordOf n from rfl, hr]
  · simp

theorem entry_has_index (s : State) (i : EntryId) (e : Entry) (h : s.entry i = some e) : e.index = i := by
  have := List.find?_some h; simpa using this

/-- A READ delivers the first bytes of its data (R162). -/
theorem outcome_of_read (r : PortRecord) (d : Bytes) (h : r.purpose.kind = .read) : r.outcome (.okay d) = .okay (d.take
    r.length) := by
  simp [PortRecord.outcome, h]

/-- A WRITE delivers none (R162). -/
theorem outcome_of_write (r : PortRecord) (d : Bytes) (h : r.purpose.kind = .write) : r.outcome (.okay d) = .okay [] := by
  simp [PortRecord.outcome, h]

/-- An event of the part's own, whose condition holds or not. -/
theorem whenever_event (s : State) (b : Bool) (f : State → State) (hd : s.direct = true) (hf : ∀ x, (f x).setup =
    x.setup) :
    s.lineEvent (fun x => x.whenever b f) = .next (if b then (f s.begin).settle else s.begin) := by
  rw [lineEvent_of_setup s _ hd]
  · rfl
  · unfold State.whenever; split <;> simp [hf]

/-- The entry of a number, and what holds it back, by its place in the order of admission (R88). -/
theorem entry_and_heldBack_of_split (s : State) (e : Entry) (before after : List Entry) (h : s.requests = before ++ e :: after)
    (hb : ∀ x ∈ before, x.index ≠ e.index) : s.entry e.index = some e ∧ s.heldBack e = before.any (fun x => decide (x.line = e.line) && x.incomplete) := by
  constructor
  · unfold State.entry; rw [h, List.find?_append]
    rw [List.find?_eq_none.mpr (by intro x hx; simpa using hb x hx)]
    simp
  · unfold State.heldBack; rw [h, List.takeWhile_append]
    have : List.takeWhile (fun x => x.index != e.index) before = before := by
      apply List.takeWhile_eq_self_iff.mpr
      intro x hx; simpa using hb x hx
    simp [this]

end Sys2Proof.Machine
end

