-- ==== Sys2Proof/Laws/Journal.lean ====
section
/-! SUPPORT. The marks of a ring: captures, the READY run, the acknowledged front, and what logging an incident
changes. -/

namespace Sys2Proof.Machine

theorem captureReadDone_reports (s : State) (n : Word) (r : PortRecord) (e : Entry) (hd : s.direct = true) (hr : s.recordOf n = some r)
    (hp : r.purpose = .captureRead) (hrf : r.ref = .entry e.index) (a : ArrayResult) :
    exec (.captureReadDone n a) s = .next ((s.begin.forget n).captureOutcome e.index (r.outcome a)).settle := by
  show execCaptureReadDone n a s = _
  unfold execCaptureReadDone; rw [takeResponse_of_direct s n a r hd hr]
  unfold State.report State.deliver; rw [hp, hrf, if_pos (by rfl)]

theorem modify_eq_set {α} (l : List α) (k : Nat) (m : α) (f : α → α) (h : l[k]? = some m) : l.modify k f = l.set k
    (f m) := by
  apply List.ext_getElem?; intro i
  rw [List.getElem?_modify, List.getElem?_set]
  have := (List.getElem?_eq_some_iff.mp h).1
  by_cases hi : k = i
  · subst hi
    have h2 := (List.getElem?_eq_some_iff.mp h).2
    simp [this, h2]
  · simp [hi]

/-- Two neighbouring marks changed (R59, R60). -/
theorem modMark_twice (part : Partition) (cap slot k : Nat) (m m' : Mark) (f g : Mark → Mark) (hk : part.markIndex
    cap slot = k)
   (hk2 : part.markIndex cap (slot+1) = k + 1) (h : part.marks[k]? = some m) (h' : part.marks[k+1]? = some m') :
   (part.modMark cap slot f).modMark cap (slot + 1) g = { part with marks := (part.marks.set k (f m)).set (k+1) (g m') } := by
  unfold Partition.modMark
  have e : Partition.markIndex cap { part with marks := part.marks.modify (part.markIndex cap slot) f } (slot+1) = k + 1 := hk2
  rw [e, hk]
  have h1 := modify_eq_set part.marks k m f h
  have h2 := modify_eq_set (part.marks.set k (f m)) (k+1) m' g (by rw [List.getElem?_set_ne (by omega), h'])
  simp only [h1, h2]

/-- Padding an UNDO changes the partitions alone (R60). -/
theorem padUndo_only (b : State) (u : UndoRef) : ∃ q, b.padUndo u = { b with partitions := q } := by
  unfold State.padUndo
  split
  · exact ⟨_, rfl⟩
  · exact ⟨b.partitions, rfl⟩

/-- The list after an incident is logged: at index 0, the oldest gone from a full list (R192). -/
theorem log_incidents (i : Incident) (x : State) : (x.log i).incidents = { i with stamp := x.tickCounter } ::
    x.incidents.take 7 := by
  unfold State.log
  split
  · rename_i h
    have : x.incidents.take 7 = x.incidents := List.take_of_length_le (by unfold Config.incidentEntries at h; omega)
    simp [this]
  · rfl

/-- Logging changes the list, the dropped count and the flags alone (R192). -/
theorem log_only (i : Incident) (x : State) : ∃ a d f, x.log i = { x with incidents := a, dropped := d, flags := f }
    := by
  unfold State.log
  split
  · exact ⟨_, _, _, rfl⟩
  · exact ⟨_, _, _, rfl⟩

theorem slotWriteDone_reports (s : State) (n : Word) (p : PartId) (k : Nat) (m : Mark) (hd : s.direct = true) (h : s.slotAnswered
    n p k m) (a : ArrayResult) :
    exec (.slotWriteDone n a) s = .next ((s.begin.forget n).slotOutcome p ((s.part p).durableTail.advance (s.capacity p) k).slot (match a with | .okay _ => .okay [] | .error => .failed)).settle := by
  obtain ⟨⟨r, hr, hp, hrf⟩, hk, hm⟩ := h
  show execSlotWriteDone n a s = _
  unfold execSlotWriteDone; rw [takeResponse_of_direct s n a r hd hr]
  unfold State.report State.deliver; rw [hp, hrf, if_pos (by rfl)]
  have : r.outcome a = (match a with | .okay _ => .okay [] | .error => .failed) := by
    cases a with
    | okay d => exact outcome_of_write r d (by rw [hp]; rfl)
    | error => rfl
  rw [this]

/-- The mark of an answered slot, as the outcome finds it. -/
theorem slotAnswered_mark (s : State) (n : Word) (p : PartId) (k : Nat) (m : Mark) (h : s.slotAnswered n p k m) :
   ((s.begin.forget n).part p).mark ((s.begin.forget n).capacity p) ((s.part p).durableTail.advance (s.capacity p) k).slot = some m := by
  obtain ⟨-, hk, hm⟩ := h
  show (s.part p).marks[(s.part p).markIndex (s.capacity p) ((s.part p).durableTail.advance (s.capacity p) k).slot]? = _
  rw [hk, hm]

/-- One mark changed. -/
theorem modMark_one (part : Partition) (cap slot k : Nat) (m : Mark) (f : Mark → Mark) (hk : part.markIndex cap slot
    = k)
    (h : part.marks[k]? = some m) : part.modMark cap slot f = { part with marks := part.marks.set k (f m) } := by
  unfold Partition.modMark
  rw [hk, modify_eq_set _ _ _ _ h]

-- ready run

/-- The READY run: each READY slot with no WAITING slot before it (R61). -/
theorem readyRun_eq : ∀ (l : List Mark) (i : Nat), readyRun i l = ((List.range l.length).filter (fun k => decide
    (l[k]?.map (·.progress) = some .ready) && (l.take k).all (fun m => m.progress != .waiting))).map (fun k => (i +
    k, (l[k]?.map (·.contents)).getD []))
  | [], i => rfl
  | m :: rest, i => by
    have ih := readyRun_eq rest (i+1)
    have hr : List.range (m :: rest).length = 0 :: (List.range rest.length).map (· + 1) := by
      rw [List.length_cons, List.range_succ_eq_map]
    have key : ((List.range rest.length).map (· + 1)).filter (fun k => decide ((m :: rest)[k]?.map (·.progress) = some .ready) && ((m :: rest).take k).all (fun m => m.progress != .waiting)) =
       if m.progress = .waiting then [] else ((List.range rest.length).filter (fun k => decide (rest[k]?.map (·.progress) = some .ready) && (rest.take k).all (fun m => m.progress != .waiting))).map (· + 1) := by
      rw [List.filter_map]
      by_cases hw : m.progress = .waiting
      · simp [hw]
      · have hb : (m.progress != .waiting) = true := by simpa using hw
        simp [hw, hb, Function.comp_def]
    unfold readyRun
    rw [hr, List.filter_cons, key]
    cases hm : m.progress <;> simp [hm, ih, Function.comp_def, Nat.add_assoc, Nat.add_comm 1]

/-- The marks after the READY run is issued: those slots are IN_FLIGHT at their first attempt (R61). -/
theorem issueMarks_eq : ∀ (l : List Mark) (k : Nat), (issueMarks l)[k]? = l[k]?.map (fun m => if (decide (l[k]?.map
    (·.progress) = some .ready) && (l.take k).all (fun m => m.progress != .waiting)) then
    { m with progress := .inFlight, attempt := 1 } else m)
  | [], k => by simp [issueMarks]
  | m :: rest, 0 => by
    unfold issueMarks
    cases hm : m.progress <;> simp [hm]
  | m :: rest, k + 1 => by
    have ih := issueMarks_eq rest k
    unfold issueMarks
    cases hm : m.progress <;> simp [hm, ih]

/-- Issuing slots adds records and changes nothing else (R161). -/
theorem issueSlots_fold (p : PartId) (g : Nat → Nat) (cs : List (Nat × Bytes)) : ∀ x : State, ∃ records v,
   cs.foldl (fun s (c : Nat × Bytes) => s.issueSlot p (g c.1) c.2) x = { x with outstanding := x.outstanding ++ records, issueCounter := v } ∧
   records.map (fun r => (r.purpose, r.ref, r.address, r.length, some r.data)) = cs.map (fun c => (.slotWrite, .slot p (g c.1), x.slotAddr p (g c.1), 64, some c.2)) := by
  induction cs with
  | nil => intro x; exact ⟨[], x.issueCounter, by simp, rfl⟩
  | cons c cs ih =>
    intro x
    obtain ⟨rs, v, h1, h2⟩ := ih (x.issueSlot p (g c.1) c.2)
    rw [List.foldl_cons, h1]
    refine ⟨⟨x.issueCounter, .slotWrite, .slot p (g c.1), x.slotAddr p (g c.1), 64, c.2, false, 0, x.arrayTimeout.toNat⟩ :: rs, v, ?_, ?_⟩
    · unfold State.issueSlot State.issue; simp [Config.lineBytes]
    · rw [List.map_cons, List.map_cons, h2]; rfl

/-- The front stays where it is while an earlier slot is not acknowledged (R51). -/
theorem frontCount_set (l : List Mark) (k : Nat) (x : Mark) (h : ∃ y ∈ l.take k, y.progress ≠ .acknowledged) :
    frontCount (l.set k x) = frontCount l := by
  unfold frontCount
  induction l generalizing k with
  | nil => rfl
  | cons m rest ih =>
    cases k with
    | zero => simp at h
    | succ k =>
      rw [List.set_cons_succ, List.takeWhile_cons, List.takeWhile_cons]
      by_cases hm : m.progress = .acknowledged
      · simp only [hm, beq_self_eq_true, if_true, List.length_cons]
        rw [ih]
        obtain ⟨y, hy, hn⟩ := h
        rw [List.take_succ_cons, List.mem_cons] at hy
        rcases hy with rfl | hy
        · exact absurd hm hn
        · exact ⟨y, hy, hn⟩
      · have : (m.progress == .acknowledged) = false := by simpa using hm
        simp [this]

/-- A slot write is acknowledged: its mark, and what the front then hands on (R51, R63). -/
theorem slotAcknowledged_eq (x : State) (p : PartId) (slot k : Nat) (m : Mark) (hk : (x.part p).markIndex (x.capacity p) slot
    = k)
   (hm : (x.part p).marks[k]? = some m) (passed : List (Nat × Mark))
   (hp : Partition.newlyPassed (x.capacity p) (frontCount (x.part p).marks) (frontCount ((x.part p).marks.set k { m with progress := .acknowledged }))
      { x.part p with marks := (x.part p).marks.set k { m with progress := .acknowledged } } = passed) :
   x.slotAcknowledged p slot = if passed.any (fun y => (x.setPart p { x.part p with marks := (x.part p).marks.set k { m with progress := .acknowledged } }).triggersRetirement y.2) then
      (passed.foldl (State.handOn p) (x.setPart p { x.part p with marks := (x.part p).marks.set k { m with progress := .acknowledged } })).retire p
     else passed.foldl (State.handOn p) (x.setPart p { x.part p with marks := (x.part p).marks.set k { m with progress := .acknowledged } }) := by
  unfold State.slotAcknowledged
  have h1 : (x.modPart p fun part => part.modMark (x.capacity p) slot (fun m => { m with progress := .acknowledged })) =
       x.setPart p { x.part p with marks := (x.part p).marks.set k { m with progress := .acknowledged } } := by
    unfold State.modPart; congr 1; exact modMark_one (x.part p) _ slot k m _ hk hm
  simp only [h1]
  have h2 : (x.setPart p { x.part p with marks := (x.part p).marks.set k { m with progress := .acknowledged } }).part p = { x.part p with marks := (x.part p).marks.set k { m with progress := .acknowledged } } := by
    rw [part_setPart]; simp
  simp only [h2, hp]

/-- The allocation of an UNDO record, as the statements say it (R54, R59). -/
theorem withUndo_eq (s : State) (p : PartId) (info : RecordInfo) :
    s.withUndo p info = (s.part p).allocateUndo (s.size p) info := by
  unfold State.withUndo Partition.allocateUndo Partition.readyForUndo Partition.padNeeded
  by_cases h : (s.part p).head.slot = 64 * s.size p - 1
  · have h' : (s.part p).head.slot = lastRingSlot (s.size p) := h
    dsimp only; rw [if_pos h]; simp only [h', decide_true, if_true]; rfl
  · have h' : ¬ (s.part p).head.slot = lastRingSlot (s.size p) := h
    dsimp only; rw [if_neg h]; simp only [h', decide_false]; rfl

end Sys2Proof.Machine
end

