-- ==== Sys2Proof/Laws/Revocation.lean ====
section
/-! SUPPORT. Everything a revocation can do, to one group and to all the groups of a partition. -/

namespace Sys2Proof.Machine

/-- The list after an incident is logged holds the newest 8 (R190, R192). -/
theorem log_take (i : Incident) (x : State) : (x.log i).incidents = ({ i with stamp := x.tickCounter } ::
    x.incidents).take 8 := by
  rw [log_incidents]; rfl

/-- what fates change -/
theorem revokeFate_only (x : State) (e : Entry) : ∃ r q o, x.revokeFate e =
    { x with requests := r, partitions := q, responses := o } ∧
   (∀ p, e.undo.map (·.partition) ≠ some p ∨ (x.part p).state = .faulted → (x.revokeFate e).part p = x.part p) := by
  have pad : ∀ (y : State) u, ∃ q, y.padUndo u = { y with partitions := q } ∧ ∀ p, (some u.partition ≠ some p ∨ (y.part p).state = .faulted) → (y.padUndo u).part p = y.part p := by
    intro y u
    unfold State.padUndo
    split
    · refine ⟨_, rfl, ?_⟩
      intro p hp
      unfold State.modPart; rw [part_setPart]
      split
      · subst_vars; rcases hp with hp | hp
        · simp at hp
        · rename_i h; simp [State.journalRuns, hp] at h
      · rfl
    · exact ⟨y.partitions, rfl, fun _ _ => rfl⟩
  unfold State.revokeFate
  cases e.phase
  case ordered =>
    simp only []
    split
    · rename_i u hp hu
      obtain ⟨q, h1, h2⟩ := pad (x.finishEntry e .revoked []) u
      rw [hu]
      refine ⟨(x.finishEntry e .revoked []).requests, q, (x.finishEntry e .revoked []).responses, ?_, ?_⟩
      · rw [h1]; rfl
      · intro p hp; rw [h2 p]
        · rfl
        · rcases hp with hp | hp
          · left; simpa using hp
          · right; exact hp
    · exact ⟨_, _, _, rfl, fun _ _ => rfl⟩
  all_goals exact ⟨_, x.partitions, _, rfl, fun _ _ => rfl⟩

/-- What the fates of several entries change (R95). -/
theorem revokeFates_only (l : List Entry) : ∀ x : State, ∃ r q o, l.foldl State.revokeFate x =
    { x with requests := r, partitions := q, responses := o } ∧
   (∀ p, (∀ e ∈ l, e.undo.map (·.partition) ≠ some p) ∨ (x.part p).state = .faulted → (l.foldl State.revokeFate x).part p = x.part p) := by
  induction l with
  | nil => intro x; exact ⟨x.requests, x.partitions, x.responses, rfl, fun _ _ => rfl⟩
  | cons e l ih =>
    intro x
    obtain ⟨r, q, o, h1, h2⟩ := revokeFate_only x e
    obtain ⟨r', q', o', h3, h4⟩ := ih (x.revokeFate e)
    rw [List.foldl_cons]
    refine ⟨r', q', o', ?_, ?_⟩
    · rw [h3, h1]
    · intro p hp
      rw [h4 p, h2 p]
      · rcases hp with hp | hp
        · exact .inl (hp e (by simp))
        · exact .inr hp
      · rcases hp with hp | hp
        · exact .inl (fun e' he' => hp e' (by simp [he']))
        · right; rw [h2 p (.inr hp)]; exact hp

/-- A tag above all of a list joins it at the end. -/
theorem insertTag_last (t : Tag) (l : List Tag) (h : ∀ u ∈ l, u < t) : insertTag t l = l ++ [t] := by
  induction l with
  | nil => rfl
  | cons u l ih =>
    have : ¬ t ≤ u := Fin.not_le.mpr (h u (by simp))
    unfold insertTag
    rw [if_neg this, ih fun v hv => h v (by simp [hv])]
    rfl

/-- A tag above those that joined in this event joins the end of the waiting order (R102). -/
theorem joinWaiting_last (x : State) (t : Tag) (before now : List Tag) (hw : x.engine.waiting = before ++ now)
    (hj : x.joined = now.length) (h : ∀ u ∈ now, u < t) :
    x.joinWaiting t = { x with
      engine := { x.engine with waiting := x.engine.waiting ++ [t] }, joined := x.joined + 1 } := by
  have hn : x.engine.waiting.length - x.joined = before.length := by simp [hw, hj]
  unfold State.joinWaiting
  simp only [hn]
  rw [hw, List.take_left, List.drop_left, insertTag_last _ _ h, List.append_assoc]

/-- The first group to join in an event joins the end of the waiting order (R102). -/
theorem joinWaiting_first (x : State) (t : Tag) (hj : x.joined = 0) :
    x.joinWaiting t = { x with
      engine := { x.engine with waiting := x.engine.waiting ++ [t] }, joined := 1 } := by
  rw [joinWaiting_last x t x.engine.waiting [] (by simp) (by simp [hj]) (by simp)]
  simp [hj]

/-- What startUnwind changes (R14, R16). -/
theorem startUnwind_only (x : State) (t : Tag) (o : UnwindOrigin) (c : Option RevokeCause) : ∃ r q o', x.startUnwind
    t o c =
    { x with requests := r, partitions := q, responses := o', groups := x.groups.set t { x.group t with state := .unwinding, unwindOrigin := some o, revokeCause := c, commitRequest := none }, engine := (x.joinWaiting t).engine, joined := x.joined + 1 }
    ∧
   (∀ p, (∀ e ∈ x.requests, e.group = some t → e.undo.map (·.partition) ≠ some p) ∨ (x.part p).state = .faulted → (x.startUnwind t o c).part p = x.part p) := by
  unfold State.startUnwind
  obtain ⟨r, q, o', h1, h2⟩ := revokeFates_only (x.members t) (x.modGroup t fun g => { g with state := .unwinding, unwindOrigin := some o, revokeCause := c, commitRequest := none })
  refine ⟨r, q, o', ?_, ?_⟩
  · simp only [h1]; rfl
  · intro p hp
    have := h2 p (by
      rcases hp with hp | hp
      · left; intro e he
        have := List.mem_filter.mp he
        exact hp e this.1 (by simpa using this.2)
      · exact .inr hp)
    exact this

/-- Everything a revocation changes (R16). -/
theorem revoke_only (x : State) (t : Tag) (c : RevokeCause) (hs : x.controller ≠ .shutdown) (ha : c.appliesTo
    (x.groupState t) = true) :
  ∃ r q o' d, x.revoke t c = { x with requests := r, partitions := q, responses := o', groups := x.groups.set t { x.group t with state := .unwinding, unwindOrigin := some .revoke, revokeCause := some c, commitRequest := none }, engine := (x.joinWaiting t).engine, joined := x.joined + 1, incidents := (⟨.groupRevoked, x.tickCounter, some t, some ((x.group t).sequence.getD 0), some ((x.group t).partition.getD 0), none, some c.code⟩ :: x.incidents).take 8, dropped := d, flags := (x.revoke t c).flags } ∧
   (x.revoke t c).flags.getLsbD 4 = true ∧ (∀ i, x.flags.getLsbD i = true → (x.revoke t c).flags.getLsbD i = true) ∧
   (∀ p, (∀ e ∈ x.requests, e.group = some t → e.undo.map (·.partition) ≠ some p) ∨ (x.part p).state = .faulted → (x.revoke t c).part p = x.part p) := by
  obtain ⟨r, q, o', h1, h2⟩ := startUnwind_only x t .revoke (some c)
  unfold State.revoke
  rw [if_pos (by simp [hs, ha])]
  generalize hi : ({ Incident.ofMember .groupRevoked (x.memberOf t) with detail := some c.code } : Incident) = i
  generalize hy : x.startUnwind t .revoke (some c) = y at h1 h2
  have hl := log_take i y
  obtain ⟨a, d, f, h3⟩ := log_only i y
  have hf : ∀ j, y.flags.getLsbD j = true → f.getLsbD j = true := by
    intro j hj
    have : f = (y.log i).flags := by rw [h3]
    rw [this]; unfold State.log; split
    · exact hj
    · simp [State.raise, hj]
  have ha : a = (⟨.groupRevoked, x.tickCounter, some t, some ((x.group t).sequence.getD 0), some ((x.group t).partition.getD 0), none, some c.code⟩ :: x.incidents).take 8 := by
    have : a = (y.log i).incidents := by rw [h3]
    rw [this, hl, ← hi, h1]; rfl
  refine ⟨r, q, o', d, ?_, ?_, ?_, ?_⟩
  · rw [h3, ha, h1]; rfl
  · rw [h3]; simp [State.raise, Cause.bit]
  · intro j hj
    rw [h3]; 
    have := hf j (by rw [h1]; exact hj)
    simp [State.raise, this]
  · intro p hp
    have := h2 p hp
    rw [h3]; exact this

/-- A cause that does not apply to the group's state changes nothing (R16). -/
theorem revoke_not (x : State) (t : Tag) (c : RevokeCause) (ha : c.appliesTo (x.groupState t) = false) : x.revoke t
    c = x := by
  unfold State.revoke; rw [ha]; simp

def faultRevokes (x : State) (t : Tag) : Bool := RevokeCause.partitionFault.appliesTo (x.groupState t)

/-- entries of a group after a fate: still came from entries of the same group and undo -/
theorem revokeFate_entries (x : State) (e : Entry) : ∀ y ∈ (x.revokeFate e).requests, ∀ u, y.group = some u → ∃ z ∈
    x.requests, z.group = some u ∧ z.undo = y.undo := by
  have hpad : ∀ (z : State) u, (z.padUndo u).requests = z.requests := by
    intro z u; obtain ⟨q, h⟩ := padUndo_only z u; rw [h]
  intro y hy u hu
  unfold State.revokeFate at hy
  have hdrop : ∀ y ∈ (x.finishEntry e .revoked []).requests, y ∈ x.requests := by
    intro y hy
    have : y ∈ x.requests.filter (fun z => z.index != e.index) := hy
    exact (List.mem_filter.mp this).1
  have hstay : ∀ y ∈ ((x.answerEarly e .revoked).modEntry e.index (fun z => { z with group := none })).requests, y.group = some u → ∃ z ∈ x.requests, z.group = some u ∧ z.undo = y.undo := by
    intro y hy hu
    have : y ∈ (x.requests.map (fun z => if z.index = e.index then { z with answered := true } else z)).map (fun z => if z.index = e.index then { z with group := none } else z) := hy
    rw [List.map_map] at this
    obtain ⟨z, hz, rfl⟩ := List.mem_map.mp this
    by_cases hi : z.index = e.index
    · simp [hi] at hu
    · simp [hi] at hu ⊢; exact ⟨z, hz, hu, rfl⟩
  split at hy
  · simp only [] at hy
    split at hy
    · rw [hpad] at hy; exact ⟨y, hdrop y hy, hu, rfl⟩
    · exact ⟨y, hdrop y hy, hu, rfl⟩
  · exact ⟨y, hdrop y hy, hu, rfl⟩
  · exact ⟨y, hdrop y hy, hu, rfl⟩
  · exact ⟨y, hdrop y hy, hu, rfl⟩
  · exact hstay y hy hu
  · exact hstay y hy hu
  · exact hstay y hy hu

theorem revokeFates_entries (l : List Entry) : ∀ x : State, ∀ y ∈ (l.foldl State.revokeFate x).requests, ∀ u, y.group =
    some u → ∃ z ∈ x.requests, z.group = some u ∧ z.undo = y.undo := by
  induction l with
  | nil => intro x y hy u hu; exact ⟨y, hy, hu, rfl⟩
  | cons e l ih =>
    intro x y hy u hu
    obtain ⟨z, hz, h1, h2⟩ := ih _ y hy u hu
    obtain ⟨w, hw, h3, h4⟩ := revokeFate_entries x e z hz u h1
    exact ⟨w, hw, h3, h4.trans h2⟩

theorem revoke_entries (x : State) (t : Tag) (c : RevokeCause) : ∀ y ∈ (x.revoke t c).requests, ∀ u, y.group = some
    u → ∃ z ∈ x.requests, z.group = some u ∧ z.undo = y.undo := by
  intro y hy u hu
  unfold State.revoke at hy
  split at hy
  · have : y ∈ (x.startUnwind t .revoke (some c)).requests := by
      obtain ⟨a, d, f, h⟩ := log_only ({ Incident.ofMember .groupRevoked (x.memberOf t) with detail := some c.code } : Incident) (x.startUnwind t .revoke (some c))
      rw [h] at hy; exact hy
    unfold State.startUnwind at this
    exact revokeFates_entries _ _ y this u hu
  · exact ⟨y, hy, hu, rfl⟩

/-- Everything the revocation of a partition's groups changes (R18), in ascending order of tag behind the groups `now`
that joined the waiting order before them in the event (R102). -/
theorem revokeAll_only (p : PartId) (before : List Tag) (l : List Tag) : ∀ (now : List Tag) (x : State),
    x.engine.waiting = before ++ now → x.joined = now.length → (now ++ l).Pairwise (· < ·) → l.Nodup → x.controller ≠ .shutdown → (x.part p).state
    = .faulted →
   x.incidents.length ≤ 8 → (∀ t ∈ l, (x.group t).partition = some p) →
   ∃ r q o g inc d f, l.foldl (fun s t => s.revoke t .partitionFault) x = { x with requests := r, partitions := q, responses := o, groups := g, engine := { x.engine with waiting := x.engine.waiting ++ l.filter (faultRevokes x) }, joined := x.joined + (l.filter (faultRevokes x)).length, incidents := inc, dropped := d, flags := f } ∧
    inc = (((l.filter (faultRevokes x)).map (fun t => (⟨.groupRevoked, x.tickCounter, some t, some ((x.group t).sequence.getD 0), some p, none, some 3⟩ : Incident))).reverse ++ x.incidents).take 8 ∧
    (∀ t, g[t] = if t ∈ l.filter (faultRevokes x) then { x.group t with state := .unwinding, unwindOrigin := some .revoke, revokeCause := some .partitionFault, commitRequest := none } else x.group t) ∧
    (∀ i, x.flags.getLsbD i = true → f.getLsbD i = true) ∧ (l.filter (faultRevokes x) ≠ [] → f.getLsbD 4 = true) ∧
    (∀ q', (q' = p ∨ (∀ e ∈ x.requests, ∀ t ∈ l.filter (faultRevokes x), e.group = some t → e.undo.map (·.partition) ≠ some q')) → q[q'] = x.part q') := by
  induction l with
  | nil =>
    intro now x _ _ _ _ _ _ hi _
    refine ⟨x.requests, x.partitions, x.responses, x.groups, x.incidents, x.dropped, x.flags, by simp, ?_, by intro t; simp; rfl, by simp, by simp, fun _ _ => rfl⟩
    simp [List.take_of_length_le hi]
  | cons t l ih =>
    intro now x hw hj hpw hnd hs hf hi hp
    have hlt : ∀ u ∈ now, u < t := fun u hu => (List.pairwise_append.mp hpw).2.2 u hu t (by simp)
    obtain ⟨hnt, hnd⟩ := List.nodup_cons.mp hnd
    rw [List.foldl_cons]
    cases ha : faultRevokes x t
    · rw [revoke_not x t _ ha]
      have := ih now x hw hj (hpw.sublist (List.Sublist.append_left (List.sublist_cons_self _ _) _)) hnd hs hf hi (fun t ht => hp t (by simp [ht]))
      have e : (t :: l).filter (faultRevokes x) = l.filter (faultRevokes x) := by simp [ha]
      rw [e]; exact this
    · obtain ⟨r, q, o', d, h1, h2, h3, h4⟩ := revoke_only x t .partitionFault hs ha
      have hjoin := joinWaiting_last x t before now hw hj hlt
      have hre := revoke_entries x t .partitionFault
      generalize hy : x.revoke t .partitionFault = y at h1 h2 h3 h4 hre
      have hyg : ∀ u, y.group u = if u = t then { x.group t with state := .unwinding, unwindOrigin := some .revoke, revokeCause := some .partitionFault, commitRequest := none } else x.group u := by
        intro u
        have : y.group u = (x.setGroup t { x.group t with state := .unwinding, unwindOrigin := some .revoke, revokeCause := some .partitionFault, commitRequest := none }).group u := by rw [h1]; rfl
        rw [this, group_setGroup]
      have hyc : y.controller = x.controller := by rw [h1]
      have hyp : y.part p = x.part p := h4 p (.inr hf)
      obtain ⟨r2, q2, o2, g2, inc2, d2, f2, k1, k2, k3, k4, k5, k6⟩ := ih (now ++ [t]) y (by rw [h1, hjoin]; simp [hw]) (by rw [h1]; simp [hj]) (by simpa using hpw) hnd (by rw [hyc]; exact hs) (by rw [hyp]; exact hf) (by rw [h1]; simp) (by
        intro u hu; rw [hyg, if_neg (by rintro rfl; exact hnt hu)]; exact hp u (by simp [hu]))
      have hfe : l.filter (faultRevokes y) = l.filter (faultRevokes x) := by
        apply List.filter_congr; intro u hu
        unfold faultRevokes State.groupState
        rw [hyg, if_neg (by rintro rfl; exact hnt hu)]
      have hcons : (t :: l).filter (faultRevokes x) = t :: l.filter (faultRevokes x) := by simp [ha]
      rw [hfe] at k1 k2 k3 k5 k6
      rw [hcons]
      have hnt' : t ∉ l.filter (faultRevokes x) := fun h => hnt (List.mem_filter.mp h).1
      refine ⟨r2, q2, o2, g2, inc2, d2, f2, ?_, ?_, ?_, ?_, ?_, ?_⟩
      · rw [k1, h1, hjoin]; simp [List.append_assoc, Nat.add_assoc, Nat.add_comm 1]
      · have hyi : y.incidents = (⟨.groupRevoked, x.tickCounter, some t, some ((x.group t).sequence.getD 0), some p, none, some 3⟩ :: x.incidents).take 8 := by
          rw [h1]; simp [hp t (by simp), RevokeCause.code]
        have hyt : y.tickCounter = x.tickCounter := by rw [h1]
        rw [k2, hyi, hyt]
        have : (l.filter (faultRevokes x)).map (fun t => (⟨.groupRevoked, x.tickCounter, some t, some ((y.group t).sequence.getD 0), some p, none, some 3⟩ : Incident)) = (l.filter (faultRevokes x)).map (fun t => (⟨.groupRevoked, x.tickCounter, some t, some ((x.group t).sequence.getD 0), some p, none, some 3⟩ : Incident)) := by
          apply List.map_congr_left; intro u hu
          rw [hyg, if_neg (by rintro rfl; exact hnt' hu)]
        rw [this]
        simp only [List.map_cons, List.reverse_cons, List.append_assoc, List.singleton_append]
        rw [List.take_append, List.take_append, List.take_take]
        congr 2
        omega
      · intro u; rw [k3, hyg]
        by_cases hu : u = t
        · subst hu; simp [hnt']
        · simp [hu]
      · intro i h; exact k4 i (h3 i h)
      · intro _; exact k4 4 h2
      · intro q' hq'
        rw [k6 q', h4 q']
        · rcases hq' with rfl | hq'
          · right; exact hf
          · left; intro e he hg; exact hq' e he t (by simp) hg
        · rcases hq' with h | hq'
          · exact .inl h
          · right; intro e he u hu hg
            obtain ⟨z, hz, hz1, hz2⟩ := hre e he u hg
            rw [← hz2]; exact hq' z hz u (by simp [hu]) hz1

end Sys2Proof.Machine
end

