-- ==== Sys2Proof/Laws/Retirement.lean ====
section
/-! SUPPORT. The front passes a record; a retirement run and the header write it considers. -/

namespace Sys2Proof.Machine

/-- The front moves past one slot (R51). -/
theorem frontCount_meets (l : List Mark) (k : Nat) (m : Mark) (h1 : ∀ x ∈ l.take k, x.progress = .acknowledged)
   (hm : l[k]? = some m) (h2 : m.progress ≠ .acknowledged) (h3 : ∀ x, l[k + 1]? = some x → x.progress ≠ .acknowledged) (m' : Mark) (hm' : m'.progress = .acknowledged) :
   frontCount l = k ∧ frontCount (l.set k m') = k + 1 := by
  unfold frontCount
  induction l generalizing k with
  | nil => simp at hm
  | cons a rest ih =>
    cases k with
    | zero =>
      simp at hm; subst hm
      have : (a.progress == .acknowledged) = false := by simpa using h2
      simp [this, hm']
      cases rest with
      | nil => simp
      | cons b rest => 
        have := h3 b (by simp)
        simpa using this
    | succ k =>
      have ha : a.progress = .acknowledged := h1 a (by simp)
      have := ih k (fun x hx => h1 x (by simp [hx])) (by simpa using hm) (fun x hx => h3 x (by simpa using hx))
      simp [ha, this.1, this.2]

theorem newlyPassed_of_meets (s : State) (n : Word) (p : PartId) (k : Nat) (m : Mark) (h : s.slotAnswered n p k m) (hf :
    s.frontMeets p k) (cap : Nat) (hc : cap = s.capacity p) :
   let m' : Mark := { m with progress := .acknowledged }
   Partition.newlyPassed cap (frontCount (s.part p).marks) (frontCount ((s.part p).marks.set k m'))
      { s.part p with marks := (s.part p).marks.set k m' } = [(((s.part p).durableTail.advance (s.capacity p) k).slot, m')] := by
  intro m'
  subst hc
  obtain ⟨-, -, hm⟩ := h
  obtain ⟨h1, h2, h3⟩ := hf
  obtain ⟨e1, e2⟩ := frontCount_meets _ k m h1 hm (by rw [hm] at h2; simpa using h2) h3 m' rfl
  rw [e1, e2]
  unfold Partition.newlyPassed
  have hlt := (List.getElem?_eq_some_iff.mp hm).1
  have : (((s.part p).marks.set k m').take (k+1)).drop k = [m'] := by
    apply List.ext_getElem?
    intro i
    rw [List.getElem?_drop, List.getElem?_take]
    cases i with
    | zero => simp [hlt]
    | succ i => simp
  simp only [this]
  rfl

/-- An acknowledged attempt logs SLOT_RETRIED or nothing (R62). -/
theorem logRetried_only (x : State) (p : PartId) (slot n : Nat) (r : Option RecordInfo) :
    ∃ a d f, x.logRetried p slot n r = { x with incidents := a, dropped := d, flags := f } := by
  unfold State.logRetried
  split
  · exact log_only _ _
  · exact ⟨x.incidents, x.dropped, x.flags, rfl⟩

theorem logRetried_forget (x : State) (p : PartId) (slot n : Nat) (r : Option RecordInfo) (v : Word) :
    (x.begin.forget v).logRetried p slot n r = (x.logRetried p slot n r).begin.forget v := by
  unfold State.logRetried
  split
  · unfold State.log
    have : (x.begin.forget v).incidents.length = x.incidents.length := rfl
    rw [this]
    split <;> rfl
  · rfl

/-- The write of a ring slot is acknowledged: the records that the front then passes are handed on in ring order, and
retirement runs once (R63, R66). -/
theorem slotWriteDone_acknowledges (s : State) (n : Word) (p : PartId) (k : Nat) (m : Mark) (hd : s.direct = true)
    (h : s.slotAnswered n p k m) (passed : List (Nat × Mark))
    (hp : Partition.newlyPassed (s.capacity p) (frontCount (s.part p).marks)
      (frontCount ((s.part p).marks.set k { m with progress := .acknowledged }))
      { s.part p with marks := (s.part p).marks.set k { m with progress := .acknowledged } } = passed) (d : Bytes) :
    let b := s.logRetried p ((s.part p).durableTail.advance (s.capacity p) k).slot m.attempt m.record
    let X : State := { b with
      responses := [], mdo := [], joined := 0, outstanding := s.outstanding.filter (fun r => r.number != n)
      partitions := s.partitions.set p
        { s.part p with marks := (s.part p).marks.set k { m with progress := .acknowledged } } }
    let H := passed.foldl (State.handOn p) X
    exec (.slotWriteDone n (.okay d)) s =
      .next (if passed.any (fun y => X.triggersRetirement y.2) then H.retire p else H).settle := by
  intro b X H
  rw [slotWriteDone_reports s n p k m hd h]
  unfold State.slotOutcome; rw [slotAnswered_mark s n p k m h]
  show Host.Outcome.next (State.settle (State.slotAcknowledged p _ (State.logRetried p _ m.attempt m.record _))) = _
  rw [logRetried_forget]
  obtain ⟨a, dr, f, hb⟩ : ∃ a dr f, b = { s with incidents := a, dropped := dr, flags := f } :=
    logRetried_only s p _ m.attempt m.record
  change Host.Outcome.next (State.settle (State.slotAcknowledged p _ (b.begin.forget n))) = _
  have hX : X = { b with
      responses := [], mdo := [], joined := 0, outstanding := s.outstanding.filter (fun r => r.number != n)
      partitions := s.partitions.set p
        { s.part p with marks := (s.part p).marks.set k { m with progress := .acknowledged } } } := rfl
  have hH : H = passed.foldl (State.handOn p) X := rfl
  clear_value b X H
  subst hb hX hH
  rw [slotAcknowledged_eq (State.forget n (State.begin { s with incidents := a, dropped := dr, flags := f })) p _ k m
    h.2.1 h.2.2 passed hp]
  rfl

/-- The front passes one slot alone: what stands in it is handed on, and retirement runs where that triggers it. -/
theorem slotWriteDone_passes (s : State) (n : Word) (p : PartId) (k : Nat) (m : Mark) (hd : s.direct = true)
    (h : s.slotAnswered n p k m) (hf : s.frontMeets p k) (d : Bytes) :
    let m' : Mark := { m with progress := .acknowledged }
    let b := s.logRetried p ((s.part p).durableTail.advance (s.capacity p) k).slot m.attempt m.record
    let X : State := { b with
      responses := [], mdo := [], joined := 0, outstanding := s.outstanding.filter (fun r => r.number != n)
      partitions := s.partitions.set p { s.part p with marks := (s.part p).marks.set k m' } }
    let H := State.handOn p X (((s.part p).durableTail.advance (s.capacity p) k).slot, m')
    exec (.slotWriteDone n (.okay d)) s = .next (if X.triggersRetirement m' then H.retire p else H).settle := by
  intro m' b X H
  have := slotWriteDone_acknowledges s n p k m hd h _ (newlyPassed_of_meets s n p k m h hf _ rfl) d
  rw [this]
  simp only [List.any_cons, List.any_nil, Bool.or_false, List.foldl_cons, List.foldl_nil]
  rfl

theorem handOn_undo (p : PartId) (X : State) (x : Nat × Mark) (info : RecordInfo) (h1 : x.2.kind = .undoData) (h2 :
    x.2.record = some info) :
    State.handOn p X x = X.undoPassed p (x.1 - 1) info := by
  unfold State.handOn; simp only [h1, h2]

theorem handOn_unwound (p : PartId) (X : State) (x : Nat × Mark) (info : RecordInfo) (h1 : x.2.kind = .unwound) (h2
    : x.2.record = some info) (hj : X.journalRuns p = true) :
    State.handOn p X x = X.unwoundPassed info := by
  unfold State.handOn; simp only [h1, h2, hj, if_true]

/-- Which spans a retirement run takes: the front ones that are retirable and within reach (R66). -/
theorem retired_spec (f : Span → Bool) : ∀ (l : List Span) (avail : Nat), ∃ gone, l = gone ++ keptSpans f avail l ∧
   retiredSlots f avail l = (gone.map (·.count)).sum ∧ (∀ x ∈ gone, f x = true) ∧ (gone.map (·.count)).sum ≤ avail ∧
   (∀ x rest, keptSpans f avail l = x :: rest → avail < (gone.map (·.count)).sum + x.count ∨ f x = false)
  | [], avail => ⟨[], rfl, rfl, by simp, by simp, by intro x rest h; simp [keptSpans] at h⟩
  | x :: rest, avail => by
    unfold keptSpans retiredSlots
    by_cases h : (f x && decide (x.count ≤ avail)) = true
    · simp only [h, if_true]
      simp at h
      obtain ⟨g, h1, h2, h3, h4, h5⟩ := retired_spec f rest (avail - x.count)
      refine ⟨x :: g, ?_, ?_, ?_, ?_, ?_⟩
      · rw [List.cons_append, ← h1]
      · simp [h2]
      · intro y hy; rcases List.mem_cons.mp hy with rfl | hy
        · exact h.1
        · exact h3 y hy
      · simp; omega
      · intro y r hy
        rcases h5 y r hy with h5 | h5
        · left; simp; omega
        · exact .inr h5
    · simp only [h]
      refine ⟨[], by simp, by simp, by simp, by simp, ?_⟩
      intro y r hy
      simp at hy
      obtain ⟨rfl, rfl⟩ := hy
      simp at h
      by_cases hf : f x = true
      · left; simpa using h hf
      · right; simpa using hf

/-- A header write is issued when the working tail is ahead and none is in flight (R67). -/
theorem considerHeader_issue (x : State) (p : PartId) (P : Machine.Partition) (hP : x.part p = P) (hj :
    x.journalRuns p = true)
    (h1 : P.workingTail ≠ P.durableTail) (h2 : P.headerWrite = none) (w : HeaderWrite)
    (hw : w = ⟨P.workingTail, P.generation + 1, 1, headerCopy (x.size p) P.epoch (P.generation + 1) P.workingTail⟩) :
    x.considerHeader p = (x.setPart p { P with headerWrite := some w }).issueHeader p w := by
  subst hw hP
  unfold State.considerHeader
  simp [hj, h1, h2]

/-- Otherwise none is (R67). -/
theorem considerHeader_still (x : State) (p : PartId) (h : x.journalRuns p = false ∨ (x.part p).workingTail =
    (x.part p).durableTail ∨ (x.part p).headerWrite ≠ none) :
    x.considerHeader p = x := by
  unfold State.considerHeader
  have : (x.journalRuns p && decide ((x.part p).workingTail ≠ (x.part p).durableTail) && (x.part p).headerWrite.isNone) = false := by
    rcases h with h | h | h
    · simp [h]
    · simp [h]
    · have : (x.part p).headerWrite.isNone = false := by cases hh : (x.part p).headerWrite <;> simp_all
      simp [this]
  simp only [this]; rfl

end Sys2Proof.Machine
end

