-- ==== Sys2Proof/Laws/Unwinding.lean ====
section
/-! SUPPORT. The fates of the entries of a revoked group as a table, and the engine's own steps and restore set. -/

namespace Sys2Proof.Machine

def Entry.revokedAs (e : Entry) : Option Entry := if e.phase = .capturing ∨ e.phase = .storing ∨ e.phase = .loading then some
    { e with answered := true, group := none } else none

theorem revokeFate_table (x : State) (e : Entry) : (x.revokeFate e).responses = x.responses ++
    [⟨e.request.hostId, .revoked, []⟩] ∧
   (x.revokeFate e).requests = (if e.phase = .capturing ∨ e.phase = .storing ∨ e.phase = .loading then x.requests.map (fun z => if z.index = e.index then { z with answered := true, group := none } else z) else x.requests.filter (fun z => z.index != e.index)) := by
  have hpad : ∀ (z : State) u, (z.padUndo u).requests = z.requests ∧ (z.padUndo u).responses = z.responses := by
    intro z u; obtain ⟨q, h⟩ := padUndo_only z u; rw [h]; exact ⟨rfl, rfl⟩
  have hst : ((x.answerEarly e .revoked).modEntry e.index (fun z => { z with group := none })).requests = x.requests.map (fun z => if z.index = e.index then { z with answered := true, group := none } else z) := by
    show (x.requests.map (fun z => if z.index = e.index then { z with answered := true } else z)).map (fun z => if z.index = e.index then { z with group := none } else z) = _
    rw [List.map_map]
    apply List.map_congr_left
    intro z _
    by_cases h : z.index = e.index <;> simp [h]
  unfold State.revokeFate
  cases hp : e.phase
  case ordered =>
    simp only []
    split
    · rw [(hpad _ _).1, (hpad _ _).2]; exact ⟨rfl, by simp; rfl⟩
    · exact ⟨rfl, by simp; rfl⟩
  case capturing => exact ⟨rfl, by simp only [hst]; simp⟩
  case storing => exact ⟨rfl, by simp only [hst]; simp⟩
  case loading => exact ⟨rfl, by simp only [hst]; simp⟩
  all_goals exact ⟨rfl, by simp; rfl⟩

/-- fold over a sublist -/
theorem revokeFates_table (l : List Entry) : ∀ (x : State), (x.requests.map (·.index)).Nodup → (l.map (·.index)).Nodup →
    (∀ e ∈ l, e ∈ x.requests) →
   (l.foldl State.revokeFate x).responses = x.responses ++ l.map (fun e => ⟨e.request.hostId, .revoked, []⟩) ∧
   (l.foldl State.revokeFate x).requests = x.requests.filterMap (fun e => if e ∈ l then Entry.revokedAs e else some e) := by
  induction l with
  | nil => intro x _ _ _; simp
  | cons a l ih =>
    intro x hn hl hm
    obtain ⟨h1, h2⟩ := revokeFate_table x a
    rw [List.foldl_cons]
    generalize x.revokeFate a = y at h1 h2
    have hl' := List.nodup_cons.mp hl
    have ha := hm a (by simp)
    have uniq : ∀ z ∈ x.requests, z.index = a.index → z = a := by
      intro z hz he
      exact List.inj_on_of_nodup_map hn hz ha he
    have hal : a ∉ l := fun h => hl'.1 (List.mem_map.mpr ⟨a, h, rfl⟩)
    have hy : y.requests = x.requests.filterMap (fun e => if e = a then Entry.revokedAs e else some e) := by
      rw [h2]
      have hc : ∀ z ∈ x.requests, (z.index = a.index ↔ z = a) := fun z hz => ⟨uniq z hz, fun h => by rw [h]⟩
      split
      · rename_i hp
        rw [← List.filterMap_eq_map]
        apply List.filterMap_congr
        intro z hz
        by_cases h : z = a
        · subst h; simp [Entry.revokedAs, hp]
        · simp [h, mt (hc z hz).1 h]
      · rename_i hp
        rw [← List.filterMap_eq_filter]
        apply List.filterMap_congr
        intro z hz
        by_cases h : z = a
        · subst h; simp [Entry.revokedAs, hp, Option.guard]
        · have := mt (hc z hz).1 h
          simp [h, this, Option.guard]
    have hn' : (y.requests.map (·.index)).Nodup := by
      rw [hy]
      have : (x.requests.filterMap (fun e => if e = a then Entry.revokedAs e else some e)).map (·.index) = x.requests.filterMap (fun e => if e = a then (Entry.revokedAs e).map (·.index) else some e.index) := by
        rw [List.map_filterMap]; apply List.filterMap_congr; intro z _; split <;> rfl
      rw [this]
      have hsub : List.Sublist (x.requests.filterMap (fun e => if e = a then (Entry.revokedAs e).map (·.index) else some e.index)) (x.requests.map (·.index)) := by
        generalize x.requests = L
        induction L with
        | nil => simp
        | cons z L ih =>
          rw [List.filterMap_cons, List.map_cons]
          by_cases h : z = a
          · simp only [h, if_true]
            unfold Entry.revokedAs
            split
            · exact ih.trans (by simp)
            · rename_i w hw; split at hw
              · simp at hw; subst hw; exact ih.cons_cons _
              · simp at hw
          · simp only [h, if_false]; exact ih.cons_cons _
      exact hn.sublist hsub
    have hm' : ∀ e ∈ l, e ∈ y.requests := by
      intro e he
      rw [hy]; apply List.mem_filterMap.mpr
      refine ⟨e, hm e (by simp [he]), ?_⟩
      rw [if_neg]; rintro rfl; exact hal he
    obtain ⟨k1, k2⟩ := ih y hn' hl'.2 hm'
    refine ⟨by rw [k1, h1]; simp, ?_⟩
    rw [k2, hy, List.filterMap_filterMap]
    apply List.filterMap_congr
    intro z hz
    by_cases h : z = a
    · subst h
      simp only [if_true, List.mem_cons_self]
      cases hf : Entry.revokedAs z with
      | none => rfl
      | some w =>
        have hw : w ∉ l := by
          intro hwl
          have : w.index = z.index := by
            unfold Entry.revokedAs at hf; split at hf
            · simp at hf; rw [← hf]
            · simp at hf
          have := uniq w (hm w (by simp [hwl])) this
          subst this; exact hal hwl
        simp [hw]
    · simp [h]

theorem revokeFate_partitions (x : State) (e : Entry) (h : e.phase = .ordered → e.path ≠ .newClaim) : (x.revokeFate
    e).partitions = x.partitions := by
  unfold State.revokeFate
  cases hp : e.phase
  case ordered =>
    simp only
    have := h hp
    split
    · contradiction
    · rfl
  all_goals rfl

theorem revokeFates_partitions (l : List Entry) : ∀ x : State, (∀ e ∈ l, e.phase = .ordered → e.path ≠ .newClaim) → (l.foldl
    State.revokeFate x).partitions = x.partitions := by
  induction l with
  | nil => intro x _; rfl
  | cons a l ih =>
    intro x h
    rw [List.foldl_cons, ih _ (fun e he => h e (by simp [he])), revokeFate_partitions x a (h a (by simp))]

/-- A revocation in which no ordered new claim is padded leaves the partitions as they were (R60, R95). -/
theorem revoke_partitions (x : State) (t : Tag) (c : RevokeCause) (h : ∀ e ∈ x.members t, e.phase = .ordered → e.path ≠
    .newClaim) : (x.revoke t c).partitions = x.partitions := by
  unfold State.revoke
  split
  · obtain ⟨a, d, f, hh⟩ := log_only ({ Incident.ofMember .groupRevoked (x.memberOf t) with detail := some (RevokeCause.code c) } : Incident) (x.startUnwind t .revoke (some c))
    rw [hh]
    unfold State.startUnwind
    exact revokeFates_partitions (x.members t) _ h
  · rfl

/-- An engine event: nothing in SHUTDOWN, and otherwise the engine's next step if there is one (R119). -/
theorem engineEvent_of_direct (s : State) (c : Instr) (f : State → Option State) (hd : s.direct = true) (hc : exec c s =
    s.lineEvent (State.engineEvent f))
   (hf : ∀ x y, f x = some y → y.setup = x.setup) :
   exec c s = .next (if s.controller = .shutdown then s.begin else match f s.begin with | some a => a.settle | none => s.begin) := by
  rw [hc, lineEvent_of_setup s _ hd]
  · rfl
  · unfold State.engineEvent
    split
    · rfl
    · split
      · rename_i a ha; simp [hf _ _ ha]
      · rfl

/-- When a group counts as having placed its COMMIT record: one of the marks from the working tail on is of a COMMIT
record with its sequence (R105). -/
theorem commitPlaced_iff (s : State) (t : Tag) (p : PartId) (h : (s.group t).partition = some p) :
    s.commitPlaced t = true ↔
      ∃ m ∈ (s.part p).marks.drop ((s.part p).durableTail.dist (s.capacity p) (s.part p).workingTail),
        m.kind = .commit ∧ m.record.map (·.sequence) = (s.group t).sequence := by
  simp [State.commitPlaced, Partition.unretiredMarks, h]

theorem insertDescending_perm (c : Claim) (l : List Claim) : (insertDescending c l).Perm (c :: l) := by
  induction l with
  | nil => exact List.Perm.refl _
  | cons d l ih =>
    unfold insertDescending
    split
    · exact List.Perm.refl _
    · exact (ih.cons d).trans (List.Perm.swap c d l)

theorem insertDescending_sorted (c : Claim) (l : List Claim) (h : l.Pairwise (fun a b => b.index ≤ a.index)) :
    (insertDescending c l).Pairwise (fun a b => b.index ≤ a.index) := by
  induction l with
  | nil => simp [insertDescending]
  | cons d l ih =>
    unfold insertDescending
    obtain ⟨h1, h2⟩ := List.pairwise_cons.mp h
    split
    · rename_i hc
      refine List.pairwise_cons.mpr ⟨?_, h⟩
      intro b hb
      rcases List.mem_cons.mp hb with rfl | hb
      · exact hc
      · exact (h1 b hb).trans hc
    · rename_i hc
      refine List.pairwise_cons.mpr ⟨?_, ih h2⟩
      intro b hb
      rcases List.mem_cons.mp ((insertDescending_perm c l).subset hb) with rfl | hb
      · omega
      · exact h1 b hb

/-- The restore set holds the same claims in descending record index (R105). -/
theorem insertDescending_foldr (l : List Claim) : (l.foldr insertDescending []).Perm l ∧ (l.foldr insertDescending
    []).Pairwise (fun a b => b.index ≤ a.index) := by
  induction l with
  | nil => simp
  | cons c l ih =>
    exact ⟨(insertDescending_perm c _).trans (ih.1.cons c), insertDescending_sorted c _ ih.2⟩

end Sys2Proof.Machine
end

