-- ==== Sys2Proof/Laws/Port.lean ====
section
/-! SUPPORT. The hand-over of requests, the numbers of the outstanding set, and the ageing of groups at a tick. -/

namespace Sys2Proof.Machine

/-- With every request passed none is handed over (R161). -/
theorem handFirst_all (l : List PortRecord) (h : ∀ r ∈ l, r.passed = true) : handFirst l = l := by
  induction l with
  | nil => rfl
  | cons a l ih => unfold handFirst; rw [h a (by simp)]; simp [ih (fun r hr => h r (by simp [hr]))]

/-- The first request not passed is handed over (R161). -/
theorem handFirst_hands (before after : List PortRecord) (r : PortRecord) (h : ∀ x ∈ before, x.passed = true) (hr :
    r.passed = false) :
    handFirst (before ++ r :: after) = before ++ { r with passed := true } :: after := by
  induction before with
  | nil => simp [handFirst, hr]
  | cons a l ih => rw [List.cons_append]; unfold handFirst; rw [h a (by simp)]; simp [ih (fun r hr => h r (by simp [hr]))]

/-- The issue counter steps past every number in use, unless all that it tries are (R161). -/
theorem skipUsed_spec (used : List Word) : ∀ (fuel : Nat) (v : Word), skipUsed used fuel v ∉ used ∨ (∀ i ≤ fuel, (v
    + BitVec.ofNat 32 i) ∈ used)
  | 0, v => by
    unfold skipUsed
    by_cases h : v ∈ used
    · right; intro i hi; have : i = 0 := by omega
      subst this; simpa using h
    · exact .inl h
  | fuel + 1, v => by
    unfold skipUsed
    by_cases h : v ∈ used
    · rw [if_pos h]
      rcases skipUsed_spec used fuel (v + 1) with h1 | h1
      · exact .inl h1
      · right; intro i hi
        cases i with
        | zero => simpa using h
        | succ i =>
          have := h1 i (by omega)
          have e : v + 1 + BitVec.ofNat 32 i = v + BitVec.ofNat 32 (i + 1) := by
            rw [BitVec.add_assoc]; congr 1
            apply BitVec.eq_of_toNat_eq; simp [BitVec.toNat_add]; omega
          rw [← e]; exact this
    · rw [if_neg h]; exact .inl h

theorem groups_tick (g : Vector Group 15) : g.map (fun g => if g.state = .opened then
    { g with age := min 65535 (g.age + 1) } else g) = g.map Group.tick := rfl

/-- A tick at which no group reaches its limit ages the OPEN groups (R7). -/
theorem tickGroups_fold (l : List Tag) : ∀ x : State, l.Nodup → (∀ t ∈ l, x.groupState t = .opened → x.ageLimit = 0
    ∨ min 65535 ((x.group t).age + 1) ≠ x.ageLimit.toNat) →
    ∃ g, l.foldl State.tickGroup x = { x with groups := g } ∧ ∀ t : Tag, g[t] = if t ∈ l then (x.group t).tick else x.group t := by
  induction l with
  | nil => intro x _ _; exact ⟨x.groups, rfl, fun t => by simp; rfl⟩
  | cons a l ih =>
    intro x hn h
    obtain ⟨ha, hn⟩ := List.nodup_cons.mp hn
    have h1 : x.tickGroup a = x.setGroup a (x.group a).tick := by
      unfold State.tickGroup
      have : x.modGroup a Group.tick = x.setGroup a (x.group a).tick := rfl
      rw [this]
      unfold State.expire
      rw [if_neg]
      intro hc
      simp only [Bool.and_eq_true, decide_eq_true_eq] at hc
      obtain ⟨⟨c1, c2⟩, c3⟩ := hc
      have e : (x.setGroup a (x.group a).tick).group a = (x.group a).tick := by rw [group_setGroup]; simp
      have c1' : (x.group a).tick.state = .opened := by rw [← e]; exact c1
      have : x.groupState a = .opened := by
        show (x.group a).state = _
        unfold Group.tick at c1'
        split at c1' <;> simpa using c1'
      have h2 := h a (by simp) this
      rcases h2 with h2 | h2
      · exact c2 h2
      · rw [e] at c3
        apply h2
        have h3 : (x.group a).tick.age = min 65535 ((x.group a).age + 1) := by
          unfold Group.tick; rw [if_pos (show (x.group a).state = _ from this)]; rfl
        rw [← h3]; exact c3
    rw [List.foldl_cons, h1]
    have hg : ∀ u, (x.setGroup a (x.group a).tick).group u = if u = a then (x.group a).tick else x.group u := fun u => group_setGroup _ _ _ _
    obtain ⟨g, e1, e2⟩ := ih (x.setGroup a (x.group a).tick) hn (by
      intro t ht
      have : t ≠ a := by rintro rfl; exact ha ht
      show ((x.setGroup a (x.group a).tick).group t).state = _ → _
      rw [hg, if_neg this]
      exact h t (by simp [ht]))
    refine ⟨g, by rw [e1]; rfl, ?_⟩
    intro t
    rw [e2, hg]
    by_cases hta : t = a
    · subst hta; simp [ha]
    · simp [hta]

end Sys2Proof.Machine
end

