-- ==== Sys2Proof/Laws/Recovery.lean ====
section
/-! SUPPORT. The recovery scanner: a START that fails, the header choice, the scan, the void pass and the restores. -/

namespace Sys2Proof.Machine

/-- Everything a failed START changes (R136). -/
theorem startFailed_eq (x : State) (reason : Reason) (hr : reason ≠ .shutdown) :
    ∃ d f, x.startFailed reason = { x with
      controller := .config, cmdStatus := { x.cmdStatus with outcome := .failed, reason := some reason, first := x.scanner.current }
      partitions := Vector.replicate 4 Partition.cleared, scanner := Scanner.cleared
      outstanding := x.outstanding.filter (fun y => !y.purpose.ofScanner)
      incidents := (⟨.startFailed, x.tickCounter, none, none, some (x.scanner.current.getD 0), none, some reason.code⟩ :: x.incidents).take (if x.incidents.length < 8 then x.incidents.length + 1 else 8)
      dropped := d, flags := f } ∧ f.getLsbD 3 = true := by
  unfold State.startFailed
  simp only
  rw [if_neg hr]
  unfold State.log
  by_cases h : (x.endFailed reason x.scanner.current).incidents.length < Config.incidentEntries
  · rw [if_pos h, if_pos (show x.incidents.length < 8 from h)]
    refine ⟨x.dropped, x.flags ||| 0x008#9, ?_, ?_⟩
    · rw [List.take_of_length_le (by simp)]
      rfl
    · simp [BitVec.getLsbD_or]
  · rw [if_neg h, if_neg (show ¬ x.incidents.length < 8 from h)]
    refine ⟨min 255 (x.dropped + 1), x.flags ||| 0x008#9 ||| 0x020#9, ?_, ?_⟩
    · rfl
    · simp [BitVec.getLsbD_or]

theorem take_eight (i : Incident) (l : List Incident) (n : Nat) (h : n = if l.length < 8 then l.length + 1 else 8) :
    (i :: l).take n = (i :: l).take 8 := by
  subst h
  split
  · rw [List.take_of_length_le (by simp), List.take_of_length_le (by simp; omega)]
  · rfl

/-- Everything a failed START changes, with the list as the newest 8 (R136, R192). -/
theorem startFailed_incidents (x : State) (reason : Reason) (hr : reason ≠ .shutdown) :
    ∃ d f, x.startFailed reason = { x with
      controller := .config, cmdStatus := { x.cmdStatus with outcome := .failed, reason := some reason, first := x.scanner.current }
      partitions := Vector.replicate 4 Partition.cleared, scanner := Scanner.cleared
      outstanding := x.outstanding.filter (fun y => !y.purpose.ofScanner)
      incidents := (⟨.startFailed, x.tickCounter, none, none, some (x.scanner.current.getD 0), none, some reason.code⟩ :: x.incidents).take 8
      dropped := d, flags := f } ∧ f.getLsbD 3 = true := by
  obtain ⟨d, f, h1, h2⟩ := startFailed_eq x reason hr
  exact ⟨d, f, by rw [h1, take_eight _ _ _ rfl], h2⟩

theorem startFailed_modScanner (x : State) (f : Scanner → Scanner) (reason : Reason) (h : (f x.scanner).current =
    x.scanner.current) :
    (x.modScanner f).startFailed reason = x.startFailed reason := by
  have h' : (x.modScanner f).scanner.current = x.scanner.current := h
  unfold State.startFailed
  rw [h']
  generalize ({ Incident.bare .startFailed with partition := some (x.scanner.current.getD 0), detail := some reason.code } : Incident) = i
  have e : ∃ sc, State.log i ((x.modScanner f).endFailed reason x.scanner.current) = { State.log i (x.endFailed reason x.scanner.current) with scanner := sc } := by
    unfold State.log
    by_cases hl : x.incidents.length < Config.incidentEntries
    · rw [if_pos (show ((x.modScanner f).endFailed reason x.scanner.current).incidents.length < _ from hl), if_pos (show (x.endFailed reason x.scanner.current).incidents.length < _ from hl)]
      exact ⟨f x.scanner, rfl⟩
    · rw [if_neg (show ¬ ((x.modScanner f).endFailed reason x.scanner.current).incidents.length < _ from hl), if_neg (show ¬ (x.endFailed reason x.scanner.current).incidents.length < _ from hl)]
      exact ⟨f x.scanner, rfl⟩
  obtain ⟨sc, e⟩ := e
  rw [e]
  rfl

/-- The header is chosen and its size is right: the scan begins at its tail (R124, R125). -/
theorem chooseHeader_some (s : State) (p : PartId) (c0 c1 x : Bytes) (h : chooseCopy c0 c1 = some x) (hs :
    headerSize x = s.size p) :
    s.chooseHeader p c0 c1 = State.issue .scanRead (.scanner p (headerTail x).slot) (s.slotAddr p (headerTail x).slot) 64 [] { s with
              partitions := s.partitions.set p
                { s.part p with epoch := slotEpoch x, generation := headerGeneration x }
              scanner := { s.scanner with
                chosen := some ⟨slotEpoch x, headerGeneration x, headerTail x, headerSize x⟩
                position := some (headerTail x), list := [], stage := some .scan, attempt := 1
                copy0 := none, copy1 := none } } := by
  unfold State.chooseHeader
  rw [h]
  dsimp only
  rw [if_neg (by simpa using hs)]
  rfl

/-- With no well-formed copy none is chosen (R124). -/
theorem chooseCopy_none (c0 c1 : Bytes) (h0 : headerWellFormed 0 c0 = false) (h1 : headerWellFormed 1 c1 = false) :
    chooseCopy c0 c1 = none := by
  unfold chooseCopy; rw [h0, h1]

/-- Which copy is chosen (R124). -/
theorem chooseCopy_some (c0 c1 x : Bytes) (hx : (headerWellFormed 0 c0 = true ∧ headerWellFormed 1 c1 = false ∧ x = c0) ∨
          (headerWellFormed 0 c0 = false ∧ headerWellFormed 1 c1 = true ∧ x = c1) ∨
          (headerWellFormed 0 c0 = true ∧ headerWellFormed 1 c1 = true ∧
            x = if 1 ≤ (headerGeneration c0 - headerGeneration c1).toNat ∧ (headerGeneration c0 - headerGeneration c1).toNat ≤ 2 ^ 31 - 1 then c0 else c1)) :
    chooseCopy c0 c1 = some x := by
  unfold chooseCopy
  rcases hx with ⟨h0, h1, rfl⟩ | ⟨h0, h1, rfl⟩ | ⟨h0, h1, rfl⟩
  · rw [h0, h1]
  · rw [h0, h1]
  · rw [h0, h1]
    simp only [newerGeneration, Bool.and_eq_true, decide_eq_true_eq]
    split <;> rfl

/-- The scan goes on past a record within the ring capacity (R126). -/
theorem advanceScan_on (s : State) (p : PartId) (chosen : ChosenHeader) (pos : Pos) (l : Nat)
    (h : chosen.tail.dist (s.capacity p) (pos.advance (s.capacity p) l) < s.capacity p) :
    s.advanceScan p chosen pos l = State.issue .scanRead (.scanner p (pos.advance (s.capacity p) l).slot)
      (s.slotAddr p (pos.advance (s.capacity p) l).slot) 64 []
      { s with scanner := { s.scanner with position := some (pos.advance (s.capacity p) l), attempt := 1 } } := by
  unfold State.advanceScan
  dsimp only
  rw [if_neg (Nat.not_le_of_lt h)]
  rfl

/-- The void pass goes on short of the chosen tail one lap on (R131). -/
theorem voidNext_on (s : State) (p : PartId) (chosen : ChosenHeader) (pos : Pos)
    (h : chosen.tail.dist (s.capacity p) (pos.advance (s.capacity p) 1) < s.capacity p) :
    s.voidNext p chosen pos = State.issue .voidRead (.scanner p (pos.advance (s.capacity p) 1).slot)
      (s.slotAddr p (pos.advance (s.capacity p) 1).slot) 64 []
      { s with scanner := { s.scanner with position := some (pos.advance (s.capacity p) 1), attempt := 1 } } := by
  unfold State.voidNext
  dsimp only
  rw [if_neg (Nat.not_le_of_lt h)]
  rfl

/-- The restores begin with the entry found last (R132). -/
theorem enterRestore_some (s : State) (p : PartId) (l : List RecoveryEntry) (e : RecoveryEntry) (h : s.scanner.list
    = l ++ [e]) :
    s.enterRestore p = State.issue .recoveryRead .restoreEntry (s.slotAddr p (e.undoSlot + 1)) 64 []
      { s with
        partitions := s.partitions.set p { s.part p with state := .restoring }
        scanner := { s.scanner with
          stage := some .restore, position := none, toRestore := l.reverse, restoreEntry := some e
          restoreStep := some .reading, attempt := 1, writeData := none } } := by
  unfold State.enterRestore State.takeRestore
  have : ((s.modPart p fun part => { part with state := .restoring }).modScanner fun sc =>
    { sc with stage := some .restore, position := none, toRestore := sc.list.reverse }).scanner.toRestore = e :: l.reverse := by
    show s.scanner.list.reverse = _
    rw [h]; simp
  rw [this]
  rfl

theorem startFailed_config (x : State) (reason : Reason) (hr : reason ≠ .shutdown) :
    (x.startFailed reason).controller = .config ∧ (x.startFailed reason).cmdStatus.outcome = .failed ∧
      (x.startFailed reason).cmdStatus.reason = some reason ∧ (x.startFailed reason).cmdStatus.first = x.scanner.current := by
  obtain ⟨d, f, h, -⟩ := startFailed_incidents x reason hr
  rw [h]
  exact ⟨rfl, rfl, rfl, rfl⟩

theorem scanReadDone_reports (s : State) (n : Word) (r : PortRecord) (q : PartId) (k : Nat) (hd : s.direct = true) (hr :
    s.recordOf n = some r)
    (hp : r.purpose = .scanRead) (hf : r.ref = .scanner q k) (a : ArrayResult) :
    exec (.scanReadDone n a) s = .next ((s.begin.forget n).scanReadOutcome (r.outcome a)) := by
  show execScanReadDone n a s = _
  unfold execScanReadDone
  rw [takeResponse_of_direct s n a r hd hr]
  unfold State.report State.deliver
  rw [hp, hf, if_neg (by decide)]

theorem scanReadOutcome_eq (x : State) (p : PartId) (chosen : ChosenHeader) (pos : Pos) (hcur : x.scanner.current = some p)
    (hst : x.scanner.stage = some .scan)
    (hch : x.scanner.chosen = some chosen) (hpos : x.scanner.position = some pos) (o : PortOutcome) :
    x.scanReadOutcome o = match o with
    | .okay data =>
      match x.scanner.heldHeader with
      | some header => (x.modScanner fun sc => { sc with heldHeader := none }).scanDecide p chosen pos header data
      | none =>
        if slotKindByte data = kindUndo ∧ pos.slot ≠ lastRingSlot (x.size p) then
          (x.modScanner fun sc => { sc with heldHeader := some data, attempt := 1 }).issueScanner .scanRead p
            (pos.slot + 1) []
        else x.scanDecide p chosen pos data []
    | .failed =>
      if x.scanner.attempt = 1 then
        (x.modScanner fun sc => { sc with attempt := 2 }).issueScanner .scanRead p (x.scanner.scanSlot pos) []
      else x.startFailed .arrayError := by
  unfold State.scanReadOutcome
  rw [hcur, hst, hch, hpos]
  all_goals cases o <;> rfl

theorem scanDecide_valid (x : State) (p : PartId) (chosen : ChosenHeader) (pos : Pos) (h d : Bytes)
    (hv : recordValid chosen.epoch pos (64 * x.size p - 1) h d = true ∧ chosen.tail.dist (x.capacity p) pos + recordLength h ≤ x.capacity p) :
    x.scanDecide p chosen pos h d = x.takeRecord p chosen pos h := by
  unfold State.scanDecide
  rw [if_pos]; exact hv

theorem scanDecide_invalid (x : State) (p : PartId) (chosen : ChosenHeader) (pos : Pos) (h d : Bytes)
    (hv : ¬ (recordValid chosen.epoch pos (64 * x.size p - 1) h d = true ∧ chosen.tail.dist (x.capacity p) pos + recordLength h ≤ x.capacity p)) :
    x.scanDecide p chosen pos h d = x.endScan p chosen pos h := by
  unfold State.scanDecide
  rw [if_neg]; exact hv

/-- A valid UNDO record joins the recovery list (R128). -/
theorem takeRecord_undo (x : State) (p : PartId) (chosen : ChosenHeader) (pos : Pos) (h : Bytes) (hk : slotKindByte h =
    kindUndo)
    (hl : x.scanner.list.length < 1024) (hi : x.inPartition (BitVec.ofNat 40 (slotLine h)) = false)
    (hw : chosen.tail.dist (x.capacity p) (pos.advance (x.capacity p) 2) < x.capacity p) :
    x.takeRecord p chosen pos h = State.issue .scanRead (.scanner p (pos.advance (x.capacity p) 2).slot)
      (x.slotAddr p (pos.advance (x.capacity p) 2).slot) 64 []
      { x with scanner := { x.scanner with
          list := x.scanner.list ++ [⟨BitVec.ofNat 32 (slotSequence h), slotTagOf h, pos.slot, BitVec.ofNat 40 (slotLine h)⟩]
          position := some (pos.advance (x.capacity p) 2), attempt := 1 } } := by
  unfold State.takeRecord
  rw [if_pos hk, if_neg (by
    rintro (h | h)
    · exact absurd h (by simp only [Config.claimEntries]; exact Nat.not_le.mpr hl)
    · rw [hi] at h; simp at h), advanceScan_on _ _ _ _ _ (by exact hw)]
  rfl

theorem voidResponse_reports (s : State) (n : Word) (r : PortRecord) (q : PartId) (k : Nat) (hd : s.direct = true) (hr :
    s.recordOf n = some r)
    (hf : r.ref = .scanner q k) (a : ArrayResult) :
    (r.purpose = .voidRead → exec (.voidReadDone n a) s = .next ((s.begin.forget n).voidReadOutcome (r.outcome a))) ∧
    (r.purpose = .voidWrite → exec (.voidWriteDone n a) s = .next ((s.begin.forget n).voidWriteOutcome (r.outcome a))) := by
  refine ⟨fun hp => ?_, fun hp => ?_⟩
  · show execVoidReadDone n a s = _
    unfold execVoidReadDone
    rw [takeResponse_of_direct s n a r hd hr]
    unfold State.report State.deliver
    rw [hp, hf, if_neg (by decide)]
  · show execVoidWriteDone n a s = _
    unfold execVoidWriteDone
    rw [takeResponse_of_direct s n a r hd hr]
    unfold State.report State.deliver
    rw [hp, hf, if_neg (by decide)]

theorem attempt_two_not_one (a : Nat) (h : a = 2) : ¬ a = 1 := by omega

/-- The incidents of R133, one for each sequence left. -/
theorem logUnwound_fold (p : PartId) (list : List RecoveryEntry) (vs : List Word) (hv : ∀ v ∈ vs, ∃ e ∈ list,
    e.sequence = v) :
    ∀ x : State, x.incidents.length ≤ 8 → ∃ d f, vs.foldl (State.logUnwound p list) x = { x with
      incidents := ((vs.map (fun v =>
            let entries := list.filter (fun z => z.sequence == v)
            (⟨.recoveryUnwound, x.tickCounter, entries.head?.map (·.tag), some v, some p,
              entries.head?.map (·.line), some entries.length⟩ : Incident))).reverse ++ x.incidents).take 8
      dropped := d, flags := f } := by
  induction vs with
  | nil => intro x hl; exact ⟨x.dropped, x.flags, by simp only [List.foldl_nil, List.map_nil, List.reverse_nil, List.nil_append]; rw [List.take_of_length_le hl]⟩
  | cons v vs ih =>
    intro x hl
    obtain ⟨e, he, hev⟩ := hv v (by simp)
    have hne : list.filter (fun z => z.sequence == v) ≠ [] := by
      intro h
      have : e ∈ list.filter (fun z => z.sequence == v) := List.mem_filter.mpr ⟨he, by simp [hev]⟩
      rw [h] at this; simp at this
    obtain ⟨e0, rest, hfil⟩ := List.exists_cons_of_ne_nil hne
    have h1 : ∃ d f, State.logUnwound p list x v = { x with
        incidents := (⟨.recoveryUnwound, x.tickCounter, some e0.tag, some v, some p, some e0.line, some (list.filter (fun z => z.sequence == v)).length⟩ :: x.incidents).take 8
        dropped := d, flags := f } := by
      unfold State.logUnwound
      rw [hfil]
      dsimp only
      unfold State.log
      by_cases h : x.incidents.length < Config.incidentEntries
      · rw [if_pos h]; refine ⟨x.dropped, x.flags, ?_⟩
        rw [List.take_of_length_le (by simp; exact h)]
        rfl
      · rw [if_neg h]; exact ⟨_, _, rfl⟩
    obtain ⟨d, f, h1⟩ := h1
    rw [List.foldl_cons, h1]
    obtain ⟨d2, f2, h2⟩ := ih (fun v hv' => hv v (by simp [hv'])) { x with
        incidents := (⟨.recoveryUnwound, x.tickCounter, some e0.tag, some v, some p, some e0.line, some (list.filter (fun z => z.sequence == v)).length⟩ :: x.incidents).take 8
        dropped := d, flags := f } (by simp)
    refine ⟨d2, f2, ?_⟩
    rw [h2]
    congr 1
    simp only [List.map_cons, List.reverse_cons, hfil, List.head?_cons, Option.map_some, List.append_assoc, List.singleton_append]
    rw [List.take_append, List.take_append, List.take_take]
    congr 2
    omega

theorem distinctSequences_mem (l : List RecoveryEntry) : ∀ v ∈ distinctSequences l, ∃ e ∈ l, e.sequence = v := by
  induction l with
  | nil => simp [distinctSequences]
  | cons a l ih =>
    intro v hv
    simp only [distinctSequences, List.mem_cons] at hv
    rcases hv with rfl | hv
    · exact ⟨a, by simp, rfl⟩
    · obtain ⟨e, h1, h2⟩ := ih v (List.mem_filter.mp hv).1
      exact ⟨e, by simp [h1], h2⟩

/-- What the success of recovery sets (R135). -/
theorem recoverySucceeds_eq (x : State) : x.recoverySucceeds = { x with
    controller := .active, scanner := Scanner.cleared, claims := [], seqCounter := 1
    cmdStatus := { x.cmdStatus with outcome := .done, reason := none }, flags := x.flags ||| 0x080#9 } := rfl

theorem findPartition_first (f : PartId → Bool) (p : PartId) (h : f p = true) (hq : ∀ q, q < p → f q = false) :
    allPartitions.find? f = some p := by
  have h0 := hq 0; have h1 := hq 1; have h2 := hq 2
  have e : allPartitions = [0, 1, 2, 3] := by decide
  rw [e]
  simp only [List.find?_cons, List.find?_nil]
  fin_cases p
  · simp_all
  · simp_all
  · simp_all
  · simp_all

end Sys2Proof.Machine
end

