-- ==== Sys2Proof/Laws/Controller.lean ====
section
/-! SUPPORT. The commands of the command register, the overlaps of R148, the quiet condition and entry into SHUTDOWN.
-/

namespace Sys2Proof.Machine

theorem listening_direct (s : State) (h : s.listening = true) : s.direct = true := by
  unfold State.listening at h
  simp only [Bool.and_eq_true] at h
  exact h.1.1

/-- A command row at a listening part: its effect is the event's (R147, R182). -/
theorem commandRow_event (s : State) (h : s.listening = true) (code : Byte) (hc : code ≠ 0) (pfw : Bool) (t : State)
    (ht : s.framed.takeCommand code.toNat pfw = t) (hh : t.held = none) :
    s.event (State.commandEvent code pfw) = .next t := by
  unfold State.event
  rw [commandEvent_listening s h code hc, ht, endEvent_of_none _ _ hh]

/-- A command that SHUTDOWN does not refuse is taken and run (R147). -/
theorem takeCommand_known (s : State) (c : Command) (n : Nat) (hn : commandOf n = some c) (pfw : Bool) (hs : s.controller ≠
    .shutdown ∨ c = .softReset) :
    s.framed.takeCommand n pfw = (s.commanded c).runCommand c pfw := by
  unfold State.takeCommand
  rw [hn]
  dsimp only
  unfold State.takeKnown
  dsimp only
  rw [if_neg]
  · rfl
  · rintro ⟨h1, h2⟩
    rcases hs with hs | hs
    · exact hs h1
    · exact h2 hs

theorem listening_held (s : State) (h : s.listening = true) : s.held = none := begin_held s (listening_direct s h)

/-- Partitions overlap when some byte lies in both (R148). -/
theorem partitionsOverlap_iff (s : State) (p q : PartId) : s.partitionsOverlap p q = true ↔ s.partsMeet p q := by
  unfold State.partitionsOverlap Area.overlaps State.partsMeet State.inPart Geometry.area
  rw [decide_eq_true_eq]; dsimp only [Config.unitBytes]
  constructor
  · intro h
    refine ⟨max ((s.geometry[p]).base.toNat * 4096) ((s.geometry[q]).base.toNat * 4096), ?_⟩
    omega
  · rintro ⟨x, h⟩; omega

/-- A partition and a region overlap when some byte lies in both (R148). -/
theorem regionOverlaps_iff (s : State) (p : PartId) (r : RegionId) : s.regionOverlaps p r = true ↔ s.regionMeets p r := by
  unfold State.regionOverlaps Area.overlaps State.regionMeets State.inPart State.inRegion Geometry.area Region.area
  cases (s.regions[r]).enabled
  · simp
  rw [decide_eq_true_eq]; simp only [if_true, true_and]; dsimp only [Config.unitBytes]
  constructor
  · intro h
    refine ⟨max ((s.geometry[p]).base.toNat * 4096) ((s.regions[r]).base.toNat * 4096), ?_⟩
    omega
  · rintro ⟨x, h⟩; omega

theorem find_of_takeWhile {α : Type} [DecidableEq α] (l : List α) (f : α → Bool) (x : α) (hx : x ∈ l) (hf : f x = true)
    (h : ∀ y ∈ l.takeWhile (fun z => decide (z ≠ x)), f y = false) : l.find? f = some x := by
  induction l with
  | nil => simp at hx
  | cons a l ih =>
    rw [List.find?_cons]
    by_cases ha : a = x
    · subst ha; rw [hf]
    · have : f a = false := h a (by rw [List.takeWhile_cons]; simp [ha])
      rw [this]
      apply ih
      · simpa [Ne.symm ha] using hx
      · intro y hy
        exact h y (by rw [List.takeWhile_cons]; simp [ha]; right; simpa using hy)

/-- The first pair that overlaps is the one named (R148). -/
theorem partitionClash_some (s : State) (p q : PartId) (hpq : p < q) (h : s.partsMeet p q)
    (hn : ∀ p' q', p' < q' → p' < p ∨ (p' = p ∧ q' < q) → ¬ s.partsMeet p' q') : s.partitionClash = some (p, q) := by
  unfold State.partitionClash
  apply find_of_takeWhile
  · exact (by decide : ∀ p q : PartId, p < q → (p, q) ∈ partitionPairs) p q hpq
  · exact (partitionsOverlap_iff s p q).2 h
  · intro y hy
    have : ∀ p q : PartId, p < q → ∀ y ∈ partitionPairs.takeWhile (fun z => decide (z ≠ (p, q))), y.1 < y.2 ∧ (y.1 < p ∨ (y.1 = p ∧ y.2 < q)) := by decide
    obtain ⟨h1, h2⟩ := this p q hpq y hy
    have := hn y.1 y.2 h1 h2
    rw [← partitionsOverlap_iff] at this
    simpa using this

theorem partitionClash_none (s : State) (hn : ∀ p q, p < q → ¬ s.partsMeet p q) : s.partitionClash = none := by
  unfold State.partitionClash
  apply List.find?_eq_none.mpr
  intro y hy
  have : ∀ y ∈ partitionPairs, y.1 < y.2 := by decide
  rw [partitionsOverlap_iff]
  exact hn _ _ (this y hy)

set_option maxRecDepth 100000 in
theorem regionPairs_before : ∀ (p : PartId) (r : RegionId), ∀ y ∈ regionPairs.takeWhile (fun z => decide (z ≠ (p,
    r))), (y.1 < p ∨ (y.1 = p ∧ y.2 < r)) := by decide

theorem regionPairs_mem : ∀ (p : PartId) (r : RegionId), (p, r) ∈ regionPairs := by decide

/-- The first partition and region that overlap are the ones named (R148). -/
theorem regionClash_some (s : State) (p : PartId) (r : RegionId) (h : s.regionMeets p r)
    (hn : ∀ p' r', p' < p ∨ (p' = p ∧ r' < r) → ¬ s.regionMeets p' r') : s.regionClash = some (p, r) := by
  unfold State.regionClash
  apply find_of_takeWhile
  · exact regionPairs_mem p r
  · exact (regionOverlaps_iff s p r).2 h
  · intro y hy
    have := hn y.1 y.2 (regionPairs_before p r y hy)
    rw [← regionOverlaps_iff] at this
    simpa using this

theorem regionClash_none (s : State) (hn : ∀ p r, ¬ s.regionMeets p r) : s.regionClash = none := by
  unfold State.regionClash
  apply List.find?_eq_none.mpr
  intro y hy
  rw [regionOverlaps_iff]
  exact hn _ _

theorem findFin_least {n : Nat} (f : Fin n → Bool) (q : Fin n) (h : f q = true) (hn : ∀ x, x < q → f x = false) :
    (List.finRange n).find? f = some q := by
  apply find_of_takeWhile _ _ _ (List.mem_finRange q) h
  intro y hy
  apply hn
  have hs : (List.finRange n).Pairwise (· < ·) := List.pairwise_lt_finRange n
  obtain ⟨as, bs, hsplit⟩ := List.append_of_mem (List.mem_finRange q)
  rw [hsplit] at hs hy
  have hna : q ∉ as := by
    intro hq
    have := (List.pairwise_append.mp hs).2.2 q hq q (by simp)
    exact absurd this (lt_irrefl _)
  have : (as ++ q :: bs).takeWhile (fun z => decide (z ≠ q)) = as := by
    rw [List.takeWhile_append_of_pos]
    · simp
    · intro a ha; simp; rintro rfl; exact hna ha
  rw [this] at hy
  exact (List.pairwise_append.mp hs).2.2 y hy q (by simp)

theorem operandPartition_of_val (s : State) (p : PartId) (h : s.operand.toNat = p.val) : s.operandPartition = some p := by
  unfold State.operandPartition
  rw [dif_pos (by omega)]
  congr 1; exact Fin.ext h

/-- The table, the responses and the partitions after a revocation (R16, R95). -/
theorem revoke_fates (b : State) (t : Tag) (c : RevokeCause) (h4 : b.controller ≠ .shutdown) (hap : c.appliesTo
    (b.groupState t) = true)
    (hn : b.entriesNumbered) :
    (b.revoke t c).responses = b.responses ++ (b.members t).map (fun e => ⟨e.request.hostId, .revoked, []⟩) ∧
        (b.revoke t c).requests = b.requests.filterMap (fun e =>
          if e.group = some t then
            if e.phase = .capturing ∨ e.phase = .storing ∨ e.phase = .loading then
              some { e with answered := true, group := none }
            else none
          else some e) := by
  have : (b.revoke t c).responses = (b.startUnwind t .revoke (some c)).responses ∧ (b.revoke t c).requests = (b.startUnwind t .revoke (some c)).requests := by
    unfold State.revoke
    rw [if_pos (by rw [hap]; simp [h4])]
    obtain ⟨a, d, f, h⟩ := log_only ({ Incident.ofMember .groupRevoked (b.memberOf t) with detail := some (RevokeCause.code c) } : Incident) (b.startUnwind t .revoke (some c))
    rw [h]; exact ⟨rfl, rfl⟩
  rw [this.1, this.2]
  unfold State.startUnwind
  have hsub : (b.members t).Sublist b.requests := List.filter_sublist
  obtain ⟨f1, f2⟩ := revokeFates_table (b.members t) (b.modGroup t fun g => { g with state := .unwinding, unwindOrigin := some .revoke, revokeCause := some c, commitRequest := none }) hn (hn.sublist (hsub.map _)) (fun e he => hsub.subset he)
  constructor
  · show (List.foldl State.revokeFate (b.modGroup t fun g => { g with state := .unwinding, unwindOrigin := some .revoke, revokeCause := some c, commitRequest := none }) (b.members t)).responses = _
    rw [f1]; rfl
  · show (List.foldl State.revokeFate (b.modGroup t fun g => { g with state := .unwinding, unwindOrigin := some .revoke, revokeCause := some c, commitRequest := none }) (b.members t)).requests = _
    rw [f2]
    show b.requests.filterMap _ = _
    apply List.filterMap_congr
    intro e he
    have : e ∈ b.members t ↔ e.group = some t := by simp [State.members, he]
    simp only [this, Entry.revokedAs]

/-- The quiet condition (R151). -/
theorem quietHolds_iff (s : State) : s.quietHolds = true ↔ s.quiet := by
  unfold State.quietHolds State.quiet
  simp only [Bool.and_eq_true, List.all_eq_true, decide_eq_true_eq, Bool.or_eq_true, Bool.not_eq_true', Partition.settled]
  constructor
  · rintro ⟨h1, h2⟩
    refine ⟨fun t => h1 _ ?_, fun p hp => ?_⟩
    · unfold State.group; simp
    · have := h2 p (by unfold allPartitions; exact List.mem_finRange p)
      unfold State.enabled at this
      rcases this with h | h
      · simp [hp] at h
      · exact ⟨h.1.1, h.1.2, h.2⟩
  · rintro ⟨h1, h2⟩
    refine ⟨fun g hg => ?_, fun p _ => ?_⟩
    · obtain ⟨i, hi, rfl⟩ := Vector.mem_iff_getElem.mp (Vector.mem_toList_iff.mp hg)
      exact h1 ⟨i, hi⟩
    · by_cases hp : s.size p = 0
      · left; unfold State.enabled; simp [hp]
      · obtain ⟨a, b, c⟩ := h2 p hp
        right; exact ⟨⟨a, b⟩, c⟩

/-- QUIESCING becomes QUIET when the condition holds (R151). -/
theorem quietTest_yes (x : State) (h1 : x.controller = .quiescing) (h2 : x.quiet) : x.quietTest =
    { x with controller := .quiet, flags := x.flags ||| 0x100#9 } := by
  unfold State.quietTest
  rw [if_pos (by rw [(quietHolds_iff x).2 h2, h1]; rfl)]
  rfl

/-- Otherwise nothing happens (R151). -/
theorem quietTest_no (x : State) (h : x.controller ≠ .quiescing ∨ ¬ x.quiet) : x.quietTest = x := by
  unfold State.quietTest
  rw [if_neg]
  simp only [Bool.and_eq_true, decide_eq_true_eq]
  rintro ⟨h1, h2⟩
  rcases h with h | h
  · exact h h1
  · exact h ((quietHolds_iff x).1 h2)

/-- QUIESCE in ACTIVE with the quiet condition (R150). -/
theorem quiesce_yes (x : State) (h1 : x.controller = .active) (h2 : x.quiet) : x.quiesce = { x with
          cmdStatus := { x.cmdStatus with outcome := .done, reason := none }
          controller := .quiet, flags := x.flags ||| 0x080#9 ||| 0x100#9 } := by
  unfold State.quiesce
  rw [if_neg (by intro h; exact h h1), quietTest_yes _ rfl (by exact h2)]
  rfl

/-- QUIESCE in ACTIVE without it (R150). -/
theorem quiesce_no (x : State) (h1 : x.controller = .active) (h2 : ¬ x.quiet) : x.quiesce = { x with
          cmdStatus := { x.cmdStatus with outcome := .done, reason := none }
          controller := .quiescing, flags := x.flags ||| 0x080#9 } := by
  unfold State.quiesce
  rw [if_neg (by intro h; exact h h1), quietTest_no _ (.inr (by exact h2))]
  rfl

theorem operandTag_of_val (s : State) (t : Tag) (h : s.operand.toNat = t.val + 1) : s.operandTag = some t := by
  unfold State.operandTag
  rw [dif_pos (by omega)]
  congr 1; apply Fin.ext; show s.operand.toNat - 1 = _; omega

theorem operandTag_none (s : State) (h : s.operand.toNat = 0 ∨ 15 < s.operand.toNat) : s.operandTag = none := by
  unfold State.operandTag
  rw [dif_neg (by omega)]

theorem commandOf_unknown (code : Byte) (h : 10 ≤ code.toNat) : commandOf code.toNat = none := by
  have : ∀ n : Nat, 10 ≤ n → commandOf n = none := by
    intro n hn
    unfold commandOf
    split <;> first | omega | rfl
  exact this _ h

theorem fateTable_sublist (a : Entry) (fate : Entry → Option Entry) (hidx : ∀ e z, fate e = some z → z.index = e.index)
    (L : List Entry) :
    List.Sublist ((L.filterMap (fun e => if e = a then fate e else some e)).map (·.index)) (L.map (·.index)) := by
  induction L with
  | nil => simp
  | cons z L ih =>
    rw [List.filterMap_cons, List.map_cons]
    by_cases h : z = a
    · subst h
      simp only [if_true]
      cases hf : fate z with
      | none => exact ih.trans (by simp)
      | some w => simp only [List.map_cons, hidx z w hf]; exact ih.cons_cons _
    · simp only [h, if_false, List.map_cons]; exact ih.cons_cons _

/-- A fold over entries of the table, each step of which answers one entry and leaves the others. -/
theorem foldFates_table (g : State → Entry → State) (fate : Entry → Option Entry) (resp : Entry → List Response)
    (hidx : ∀ e z, fate e = some z → z.index = e.index)
    (hr : ∀ x e, (g x e).responses = x.responses ++ resp e)
    (hq : ∀ x e, (x.requests.map (·.index)).Nodup → e ∈ x.requests → (g x e).requests = x.requests.filterMap (fun z => if z = e then fate e else some z))
    (l : List Entry) : ∀ (x : State), (x.requests.map (·.index)).Nodup → (l.map (·.index)).Nodup → (∀ e ∈ l, e ∈ x.requests) →
   (l.foldl g x).responses = x.responses ++ l.flatMap resp ∧
   (l.foldl g x).requests = x.requests.filterMap (fun e => if e ∈ l then fate e else some e) := by
  induction l with
  | nil => intro x _ _ _; simp
  | cons a l ih =>
    intro x hn hl hm
    have ha := hm a (by simp)
    have h1 := hr x a
    have hy := hq x a hn ha
    rw [List.foldl_cons]
    generalize g x a = y at h1 hy
    have hl' := List.nodup_cons.mp hl
    have hal : a ∉ l := fun h => hl'.1 (List.mem_map.mpr ⟨a, h, rfl⟩)
    have hcongr : x.requests.filterMap (fun z => if z = a then fate a else some z) = x.requests.filterMap (fun z => if z = a then fate z else some z) := by
      apply List.filterMap_congr; intro z _; by_cases h : z = a
      · subst h; rfl
      · simp [h]
    rw [hcongr] at hy
    have hn' : (y.requests.map (·.index)).Nodup := by
      rw [hy]; exact hn.sublist (fateTable_sublist a fate hidx _)
    have hm' : ∀ e ∈ l, e ∈ y.requests := by
      intro e he
      rw [hy]
      refine List.mem_filterMap.mpr ⟨e, hm e (by simp [he]), ?_⟩
      rw [if_neg]; rintro rfl; exact hal he
    obtain ⟨i1, i2⟩ := ih y hn' hl'.2 hm'
    refine ⟨by rw [i1, h1]; simp, ?_⟩
    rw [i2, hy, List.filterMap_filterMap]
    apply List.filterMap_congr
    intro z hz
    by_cases h : z = a
    · subst h
      simp only [if_true, List.mem_cons, true_or]
      cases hf : fate z with
      | none => rfl
      | some w =>
        simp only [Option.bind_some]
        rw [if_neg]
        intro hw
        have : w = z := by
          apply List.inj_on_of_nodup_map hn (hm w (by simp [hw])) hz (hidx z w hf)
        subst this; exact hal hw
    · simp only [h, if_false, Option.bind_some, List.mem_cons, false_or]

def Entry.powerDownAs (hit : Entry → Bool) (e : Entry) : Option Entry :=
  if hit e then if e.phase = .loading ∨ e.phase = .capturing ∨ e.phase = .storing then some { e with answered := true } else none else some e

theorem Phase.outstanding_eq (p : Phase) : p.outstanding = decide (p = .loading ∨ p = .capturing ∨ p = .storing)
    := by cases p <;> rfl

theorem index_eq_iff_of_nodup (x : State) (e : Entry) (hn : (x.requests.map (·.index)).Nodup) (he : e ∈ x.requests) : ∀ z ∈
    x.requests, (z.index = e.index ↔ z = e) :=
  fun z hz => ⟨fun h => List.inj_on_of_nodup_map hn hz he h, fun h => by rw [h]⟩

/-- What POWER_DOWN does to the table (R97). -/
theorem powerDown_requests (x : State) (e : Entry) (hn : (x.requests.map (·.index)).Nodup) (he : e ∈ x.requests) (hit : Entry →
    Bool) (h : hit e = true) :
    (x.powerDown e).requests = x.requests.filterMap (fun z => if z = e then Entry.powerDownAs hit e else some z) := by
  unfold State.powerDown
  have hc := index_eq_iff_of_nodup x e hn he
  rw [Phase.outstanding_eq]
  unfold Entry.powerDownAs
  rw [h]
  by_cases ho : e.phase = .loading ∨ e.phase = .capturing ∨ e.phase = .storing
  · simp only [ho, decide_true, if_true]
    show x.requests.map (fun z => if z.index = e.index then { z with answered := true } else z) = _
    rw [← List.filterMap_eq_map]
    apply List.filterMap_congr
    intro z hz
    by_cases hz' : z = e
    · subst hz'; simp
    · have := mt (hc z hz).1 hz'; simp [hz', this]
  · simp only [ho, decide_false, Bool.false_eq_true, if_false, if_true]
    show x.requests.filter (fun z => z.index != e.index) = _
    rw [← List.filterMap_eq_filter]
    apply List.filterMap_congr
    intro z hz
    by_cases hz' : z = e
    · subst hz'; simp [Option.guard]
    · have := mt (hc z hz).1 hz'; simp [hz', this, Option.guard]

theorem powerDown_responses (x : State) (e : Entry) : (x.powerDown e).responses = x.responses ++
    [⟨e.request.hostId, .powerDown, []⟩] := by
  unfold State.powerDown; split <;> rfl

/-- Entry into SHUTDOWN changes the table and the responses alone (R97). -/
theorem shutdownFates_only (commit : Entry → Bool) (l : List Entry) : ∀ x : State, ∃ r q, l.foldl (State.shutdownFate
    commit) x = { x with responses := r, requests := q } := by
  induction l with
  | nil => intro x; exact ⟨x.responses, x.requests, rfl⟩
  | cons a l ih =>
    intro x
    rw [List.foldl_cons]
    have : ∃ r q, x.shutdownFate commit a = { x with responses := r, requests := q } := by
      unfold State.shutdownFate State.powerDown
      split
      · exact ⟨x.responses, x.requests, rfl⟩
      · split
        · split <;> exact ⟨_, _, rfl⟩
        · exact ⟨x.responses, x.requests, rfl⟩
    obtain ⟨r, q, h⟩ := this
    rw [h]
    obtain ⟨r2, q2, h2⟩ := ih { x with responses := r, requests := q }
    exact ⟨r2, q2, h2⟩

def State.shutdownHits (s : State) (e : Entry) : Bool := !e.answered && (s.isCommitRequest e || !e.phase.completesInShutdown)

theorem shutdownFate_eq (s x : State) (e : Entry) : x.shutdownFate s.isCommitRequest e = if State.shutdownHits s e then x.powerDown e
    else x := by
  unfold State.shutdownFate State.shutdownHits
  cases e.answered <;> simp

/-- The table and the responses at entry into SHUTDOWN (R26, R97). -/
theorem shutdownFates_table (s x : State) (hx : x.requests = s.requests) (hn : s.entriesNumbered) :
    ∃ y : State, s.requests.foldl (State.shutdownFate s.isCommitRequest) x = { x with responses := y.responses, requests := y.requests } ∧
      y.responses = x.responses ++ (s.requests.filter (State.shutdownHits s)).map (fun e => ⟨e.request.hostId, .powerDown, []⟩) ∧
      y.requests = s.requests.filterMap (Entry.powerDownAs (State.shutdownHits s)) := by
  obtain ⟨r, q, h⟩ := shutdownFates_only s.isCommitRequest s.requests x
  refine ⟨{ x with responses := r, requests := q }, h, ?_⟩
  obtain ⟨a, b⟩ := foldFates_table (State.shutdownFate s.isCommitRequest) (Entry.powerDownAs (State.shutdownHits s)) (fun e => if State.shutdownHits s e then [⟨e.request.hostId, .powerDown, []⟩] else [])
    (by intro e z hz; unfold Entry.powerDownAs at hz; split at hz
        · split at hz <;> simp at hz; subst hz; rfl
        · simp at hz; subst hz; rfl)
    (by intro x e; rw [shutdownFate_eq]; split
        · exact powerDown_responses x e
        · simp)
    (by intro x e h1 h2; rw [shutdownFate_eq]
        by_cases hh : State.shutdownHits s e = true
        · rw [if_pos hh]; exact powerDown_requests x e h1 h2 _ hh
        · rw [if_neg hh]
          symm
          conv => rhs; rw [← List.filterMap_some (l := x.requests)]
          apply List.filterMap_congr
          intro z _
          by_cases hz : z = e
          · subst hz; simp [Entry.powerDownAs, hh]
          · simp [hz])
    s.requests x (by rw [hx]; exact hn) hn (by rw [hx]; exact fun e he => he)
  rw [h] at a b
  refine ⟨?_, ?_⟩
  · rw [show (State.responses { x with responses := r, requests := q }) = _ from a]
    congr 1
    generalize s.requests = L
    induction L with
    | nil => rfl
    | cons z L ih => rw [List.flatMap_cons, List.filter_cons, ih]; split <;> simp
  · rw [show (State.requests { x with responses := r, requests := q }) = _ from b, hx]
    apply List.filterMap_congr
    intro z hz
    simp [hz]

theorem stopUnwinding_eq (x : State) : x.stopUnwinding = { x with engine := x.stopUnwinding.engine } := by
  unfold State.stopUnwinding; split <;> rfl

theorem completesLine_iff (e : Engine) : e.completesLine = true ↔ e.state = .restoring ∧ e.lineStep ≠ .waitStores := by
  unfold Engine.completesLine
  cases e.state <;> cases e.lineStep <;> simp

theorem isCommitRequest_iff (s : State) (e : Entry) : s.isCommitRequest e = true ↔ ∃ t, e.group = some t ∧ (s.group
    t).commitRequest = some e.index := by
  unfold State.isCommitRequest
  cases h : e.group with
  | none => simp
  | some t => simp

theorem Phase.completesInShutdown_eq (p : Phase) : p.completesInShutdown = decide (p = .loading ∨ p = .storing)
    := by cases p <;> rfl

theorem shutdownHits_iff (s : State) (e : Entry) : State.shutdownHits s e = true ↔ e.answered = false ∧ ((∃ t, e.group = some t ∧ (s.group
    t).commitRequest = some e.index) ∨ (e.phase ≠ .loading ∧ e.phase ≠ .storing)) := by
  unfold State.shutdownHits
  rw [Bool.and_eq_true, Bool.or_eq_true, isCommitRequest_iff, Phase.completesInShutdown_eq]
  simp

/-- Entry into SHUTDOWN, in terms of how the running command ended. -/
theorem enterShutdown_eq (b u : State) (hu : b.endRunning = u) (hreq : u.requests = b.requests) (hn : b.entriesNumbered) :
    b.enterShutdown = { u with
      controller := .shutdown, flags := u.flags ||| 1#9
      responses := u.responses ++ (b.requests.filter (State.shutdownHits b)).map (fun e => ⟨e.request.hostId, .powerDown, []⟩)
      requests := b.requests.filterMap (Entry.powerDownAs (State.shutdownHits b))
      groups := u.groups.map (fun g => { g with commitRequest := none, parkedAbort := none })
      engine := if u.engine.completesLine then u.engine else
        { u.engine with state := .stopped, currentLine := none, lineStep := .waitStores, restoreData := none, restoreSet := [] } } := by
  unfold State.enterShutdown
  rw [hu]
  dsimp only
  obtain ⟨y, h1, h2, h3⟩ := shutdownFates_table b ((u.enter .shutdown).raise .powerWarning) hreq hn
  rw [show ((u.enter .shutdown).raise .powerWarning).requests = b.requests from hreq, h1, h2, h3]
  unfold State.stopUnwinding
  by_cases hc : u.engine.completesLine = true
  · rw [if_pos hc, if_pos (by exact hc)]; rfl
  · rw [if_neg hc, if_neg (by exact hc)]; rfl

/-- A START that ends at entry into SHUTDOWN: its requests stay outstanding (R137, R168). -/
theorem startFailed_shutdown (x : State) :
    ∃ d f, x.startFailed .shutdown = { x with
      controller := .shutdown, cmdStatus := { x.cmdStatus with outcome := .failed, reason := some .shutdown, first := x.scanner.current }
      partitions := Vector.replicate 4 Partition.cleared, scanner := Scanner.cleared
      incidents := (⟨.startFailed, x.tickCounter, none, none, some (x.scanner.current.getD 0), none, some 2⟩ :: x.incidents).take 8
      dropped := d, flags := f } ∧ f.getLsbD 3 = true := by
  unfold State.startFailed
  simp only
  unfold State.log
  by_cases h : (x.endFailed .shutdown x.scanner.current).incidents.length < Config.incidentEntries
  · rw [if_pos h]
    refine ⟨x.dropped, x.flags ||| 0x008#9, ?_, ?_⟩
    · rw [List.take_of_length_le (by simp; exact h)]
      rfl
    · simp [BitVec.getLsbD_or]
  · rw [if_neg h]
    refine ⟨min 255 (x.dropped + 1), x.flags ||| 0x008#9 ||| 0x020#9, ?_, ?_⟩
    · rfl
    · simp [BitVec.getLsbD_or]

/-- The warning outside SHUTDOWN enters it (R154). -/
theorem powerFail_enter (s : State) (hr : s.resetLine = false) (hc : s.controller ≠ .shutdown) : s.begin.powerFail =
    State.enterShutdown { s with responses := [], mdo := [], joined := 0, pfwLine := true } := by
  unfold State.powerFail
  rw [if_neg (by rw [show s.begin.resetLine = _ from hr]; simp), if_neg (by exact hc)]
  rfl

end Sys2Proof.Machine
end

