-- ==== Sys2Proof/Laws/Failure.lean ====
section
/-! SUPPORT. Entries answered one after another, and everything the report of a failed unwind can do. -/

namespace Sys2Proof.Machine

/-- Entries answered with one status, one after another: the responses stand in that order, and the entries leave. -/
theorem foldl_finish (l : List Entry) (st : Status) : ∀ x : State,
    l.foldl (fun s y => s.finishEntry y st []) x = { x with
      responses := x.responses ++ l.map (fun y => ⟨y.request.hostId, st, []⟩)
      requests := x.requests.filter (fun y => l.all (fun z => y.index != z.index)) } := by
  induction l with
  | nil => intro x; simp
  | cons e l ih =>
    intro x
    rw [List.foldl_cons, ih]
    simp [State.finishEntry, State.answer, State.respond, State.dropEntry, List.filter_filter, Bool.and_comm]

/-- Everything the report FAILED of an unwind can do where no read that waits on the group's lines belongs to a group:
the parked ABORT and those reads are answered BROKEN and leave, RESTORE_FAILED is logged, GROUP_BROKEN raised, the engine
is IDLE, and a RETRY_UNWIND of the group ends (R21, R41, R115, R118). -/
theorem reportFailed_only (x : State) (t : Tag) (h : ∀ e ∈ x.requests, e.phase = .waitUnwind → e.group = none) :
    let parked := ((x.group t).parkedAbort.bind x.entry).toList
    let after := x.requests.filter (fun y => parked.all (fun e => y.index != e.index))
    let reads := after.filter (fun e => decide (e.phase = .waitUnwind) &&
      x.claims.any (fun c => decide (c.tag = t) && decide (c.line = e.line)))
    let retries := x.engine.retryTag = some t
    let failed := x.engine.failedLines
    ∃ a d f, x.reportFailed t = { x with
          responses := x.responses ++ (parked ++ reads).map (fun e => ⟨e.request.hostId, .broken, []⟩)
          requests := after.filter (fun y => reads.all (fun e => y.index != e.index))
          groups := x.groups.set t { x.group t with state := .broken, parkedAbort := none }
          engine := ⟨.idle, x.engine.waiting, none, none, .waitStores, none, 0, none,
            if retries then none else x.engine.retryTag, []⟩
          cmdStatus := if retries then
              { x.cmdStatus with
                outcome := .failed, reason := some (if failed = 0 then .partitionFault else .restore), first := none }
            else x.cmdStatus
          incidents := a, dropped := d, flags := f } ∧
      a = (⟨.restoreFailed, x.tickCounter, some t, some ((x.group t).sequence.getD 0),
          some ((x.group t).partition.getD 0), x.engine.firstFailed, some failed⟩ :: x.incidents).take 8 ∧
      f.getLsbD 2 = true ∧ (retries → f.getLsbD 3 = true) ∧ (∀ i, x.flags.getLsbD i = true → f.getLsbD i = true) := by
  intro parked after reads retries failed
  have hbr : (x.modGroup t (fun g => { g with state := .broken })).answerParked t .broken = { x with
      responses := x.responses ++ parked.map (fun e => ⟨e.request.hostId, .broken, []⟩)
      requests := after
      groups := x.groups.set t { x.group t with state := .broken, parkedAbort := none } } := by
    unfold State.answerParked
    have hgp : ((x.modGroup t (fun g => { g with state := .broken })).group t) = { x.group t with state := .broken } := by
      unfold State.modGroup; rw [group_setGroup, if_pos rfl]
    have hent : (x.modGroup t (fun g => { g with state := .broken })).entry = x.entry := rfl
    rw [hgp, hent]
    simp only [parked, after]
    cases hpk : (x.group t).parkedAbort.bind x.entry with
    | none =>
      unfold State.modGroup
      simp only [group_setGroup, if_true]
      unfold State.setGroup
      simp
    | some e =>
      simp only [Option.toList, List.all_cons, List.all_nil, Bool.and_true, List.map_cons, List.map_nil]
      unfold State.modGroup
      simp only [show ∀ y : State, (y.finishEntry e .broken []).group t = y.group t from fun _ => rfl, group_setGroup, if_true]
      unfold State.setGroup State.finishEntry State.answer State.respond State.dropEntry
      simp
  have hwr : (({ x with
      responses := x.responses ++ parked.map (fun e => ⟨e.request.hostId, .broken, []⟩)
      requests := after
      groups := x.groups.set t { x.group t with state := .broken, parkedAbort := none } } : State)).waitingReads t = reads := by
    unfold State.waitingReads State.claimsOf
    apply List.filter_congr
    intro e _
    rw [Bool.eq_iff_iff]; simp [and_assoc]
  unfold State.reportFailed
  simp only [hbr, hwr]
  have hans : reads.foldl State.answerBrokenRead ({ x with
      responses := x.responses ++ parked.map (fun e => ⟨e.request.hostId, .broken, []⟩)
      requests := after
      groups := x.groups.set t { x.group t with state := .broken, parkedAbort := none } } : State) = { x with
      responses := x.responses ++ (parked ++ reads).map (fun e => ⟨e.request.hostId, .broken, []⟩)
      requests := after.filter (fun y => reads.all (fun e => y.index != e.index))
      groups := x.groups.set t { x.group t with state := .broken, parkedAbort := none } } := by
    have := foldl_finish reads .broken ({ x with
      responses := x.responses ++ parked.map (fun e => ⟨e.request.hostId, .broken, []⟩)
      requests := after
      groups := x.groups.set t { x.group t with state := .broken, parkedAbort := none } } : State)
    refine Eq.trans this ?_
    simp
  rw [hans]
  have hno : ∀ u, reads.any (fun e => e.group == some u) = false := by
    intro u
    rw [Bool.eq_false_iff]; intro hc
    obtain ⟨e, he, hg⟩ := List.any_eq_true.mp hc
    have h1 := List.mem_filter.mp he
    have h2 := (List.mem_filter.mp h1.1).1
    have := h e h2 (by simpa using (by have := h1.2; simp at this; exact this.1))
    simp [this] at hg
  generalize hz : ({ x with
      responses := x.responses ++ (parked ++ reads).map (fun e => ⟨e.request.hostId, .broken, []⟩)
      requests := after.filter (fun y => reads.all (fun e => y.index != e.index))
      groups := x.groups.set t { x.group t with state := .broken, parkedAbort := none } } : State) = z
  have hfold : allTags.foldl (State.breakCommit reads) z = z := by
    apply foldl_still; intro u _; unfold State.breakCommit; rw [hno u]; rfl
  rw [hfold]
  obtain ⟨a, dd, f, hl⟩ := log_only ({ Incident.ofMember .restoreFailed (x.memberOf t) with line := x.engine.firstFailed, detail := some x.engine.failedLines }) z
  have hli := log_take ({ Incident.ofMember .restoreFailed (x.memberOf t) with line := x.engine.firstFailed, detail := some x.engine.failedLines }) z
  have hff : ∀ i, z.flags.getLsbD i = true → f.getLsbD i = true := by
    intro i hi
    have : f = (z.log ({ Incident.ofMember .restoreFailed (x.memberOf t) with line := x.engine.firstFailed, detail := some x.engine.failedLines })).flags := by rw [hl]
    rw [this]
    unfold State.log
    split
    · exact hi
    · unfold State.raise; simp [hi]
  have ha : a = (⟨.restoreFailed, x.tickCounter, some t, some ((x.group t).sequence.getD 0),
          some ((x.group t).partition.getD 0), x.engine.firstFailed, some failed⟩ :: x.incidents).take 8 := by
    rw [hl] at hli; simp only at hli; rw [hli, ← hz]; rfl
  rw [hl]
  have hzf : z.flags = x.flags := by rw [← hz]
  by_cases hr : x.engine.retryTag = some t
  · refine ⟨a, dd, f ||| (1#9 <<< 2) ||| (1#9 <<< 3), ?_, ha, ?_, ?_, ?_⟩
    · unfold State.endRetry
      rw [if_pos (by rw [← hz]; exact hr)]
      simp only [retries, hr, if_true, failed]
      rw [← hz]; rfl
    · simp
    · intro _; simp
    · intro i hi; simp [hff i (by rw [hzf]; exact hi)]
  · refine ⟨a, dd, f ||| (1#9 <<< 2), ?_, ha, ?_, ?_, ?_⟩
    · unfold State.endRetry
      rw [if_neg (by rw [← hz]; exact hr)]
      simp only [retries, hr, if_false]
      rw [← hz]; rfl
    · simp
    · intro h; exact absurd h hr
    · intro i hi; simp [hff i (by rw [hzf]; exact hi)]

end Sys2Proof.Machine
end

