-- ==== Sys2Proof/Laws/Resets.lean ====
section
/-! SUPPORT. SOFT_RESET and the reset line. -/

namespace Sys2Proof.Machine

/-- The part after a SOFT_RESET whose test finds the warning line inactive (R157). -/
def State.softCleared (s : State) (h : Option HostRequest) : State := { s with
      responses := (s.requests.filter (fun e => !e.answered)).map (fun e => ⟨e.request.hostId, .abandoned, []⟩)
      mdo := lowBits 56, joined := 0, controller := .config, held := h
      cmdStatus := ⟨.done, none, none, none, none, some .softReset, some s.operand⟩
      formatJob := none, groups := Vector.replicate 15 Group.cleared, seqCounter := 1, claims := []
      partitions := Vector.replicate 4 Partition.cleared, requests := [], engine := Engine.cleared
      scanner := Scanner.cleared, outstanding := [], link := Link.cleared, flags := 0x080#9, pfwLine := false }

/-- SOFT_RESET before the warning line is tested (R157). -/
theorem clearRun_done (s : State) : State.endDone (State.takeStatus (some .softReset) (s.commanded .softReset).clearRun) =
    { State.softCleared s s.held with pfwLine := s.pfwLine } := by
  have h : (0#9 ||| (1#9 <<< Cause.bit .commandEnded)) = 0x080#9 := by decide
  unfold State.endDone State.raise State.takeStatus State.clearRun State.softCleared
  simp only [State.mk.injEq]
  repeat' apply And.intro
  all_goals first | trivial | exact h | rfl

/-- Entry into SHUTDOWN with an empty table (R158). -/
theorem enterShutdown_of_empty (b : State) (hc : b.controller = .config) (hq : b.requests = []) (hrun : b.running = false) :
    b.enterShutdown = { b with
      controller := .shutdown, flags := b.flags ||| 1#9
      groups := b.groups.map (fun g => { g with commitRequest := none, parkedAbort := none })
      engine := if b.engine.completesLine then b.engine else
        { b.engine with state := .stopped, currentLine := none, lineStep := .waitStores, restoreData := none, restoreSet := [] } } := by
  have hu : b.endRunning = b := by
    unfold State.endRunning
    rw [if_neg (by rw [hc]; simp), hrun]; rfl
  rw [enterShutdown_eq b b hu rfl (by unfold State.entriesNumbered; rw [hq]; simp), hq]
  simp only [List.filter_nil, List.map_nil, List.append_nil, List.filterMap_nil]

theorem clearedGroups_hold_no_request : (Vector.replicate 15 Group.cleared).map (fun g =>
    { g with commitRequest := none, parkedAbort := none }) = Vector.replicate 15 Group.cleared := by
  rw [Vector.map_replicate]; rfl

theorem takeBytes_discarding (snap : Nat → Nat → Bytes) (bytes : Bytes) : ∀ (l : Link) (out : Bytes), l.frame =
    .discarding →
    Link.takeBytes snap bytes (l, out) = (l, out ++ zeroBytes bytes.length) := by
  induction bytes with
  | nil => intro l out _; simp [Link.takeBytes, zeroBytes]
  | cons b rest ih =>
    intro l out h
    unfold Link.takeBytes
    have h1 : Link.takeByte snap l b = l := by unfold Link.takeByte; rw [h]
    have h2 : l.drives = 0 := by unfold Link.drives; rw [h]
    rw [h1, h2, ih l _ h]
    simp [zeroBytes, List.replicate_succ, List.append_assoc]

/-- While the reset line is asserted a frame is discarded (R184). -/
theorem linkFrame_in_reset (s : State) (hr : s.resetLine = true) (bytes : Bytes) (e : Fin 8) (pfw : Bool) :
    s.linkFrame ⟨true, e, true⟩ bytes pfw =
      { s with mdo := lowBits (8 * bytes.length + e.val), link := { s.link with frame := .idle } } := by
  have hs : s.frameStart true = { s.link with frame := .discarding } := by
    unfold State.frameStart; rw [hr]; rfl
  have hb : s.frameBytes true bytes = ({ s.link with frame := .discarding }, [] ++ zeroBytes bytes.length) := by
    unfold State.frameBytes; rw [hs, takeBytes_discarding _ _ _ _ rfl]
  rw [linkFrame_rises _ _ _ _ _ _ _ hb, hs]
  have h0 : bitsOf [Link.drives { s.link with frame := .discarding }] = lowBits 8 := by
    show bitsOf [0#8] = _; decide
  have h1 : min e.val 8 = e.val := by omega
  show (s.drive (pieceBits 0 _ _)).mselRises _ _ = _
  rw [pieceBits_zero, h0, List.nil_append, bitsOf_zeroBytes, lowBits_take, lowBits_append, h1]
  rfl

end Sys2Proof.Machine
end

