-- ==== Sys2Proof/Laws/Frames.lean ====
section
/-! SUPPORT. What a frame does to the link byte by byte, how it ends, and the write frame that is applied. -/

namespace Sys2Proof.Machine

theorem zeroBytes_append (a b : Nat) : zeroBytes a ++ zeroBytes b = zeroBytes (a + b) := by
  unfold zeroBytes; rw [List.replicate_append_replicate]

theorem zeroBytes_snoc (a : Nat) : zeroBytes a ++ [0] = zeroBytes (a + 1) := zeroBytes_append a 1

/-- In TRAILING only the bits are counted, and MDO is low (R173). -/
theorem takeBytes_trailing (snap : Nat → Nat → Bytes) (bytes : Bytes) : ∀ (l : Link) (out : Bytes), l.frame = .trailing →
    l.bitCount % 8 = 0 →
    Link.takeBytes snap bytes (l, out) = ({ l with bitCount := l.bitCount + 8 * bytes.length }, out ++ zeroBytes bytes.length) := by
  induction bytes with
  | nil => intro l out _ _; simp [Link.takeBytes, zeroBytes]
  | cons b rest ih =>
    intro l out h hm
    unfold Link.takeBytes
    have h1 : Link.takeByte snap l b = { l with bitCount := l.bitCount + 8 } := by
      unfold Link.takeByte; rw [h, byteEnd_of_whole l hm]
    have h2 : l.drives = 0 := by unfold Link.drives; rw [h]
    rw [h1, h2, ih _ _ (by exact h) (by dsimp only; omega)]
    simp only [List.length_cons, List.append_assoc]
    rw [show l.bitCount + 8 + 8 * rest.length = l.bitCount + 8 * (rest.length + 1) by omega]
    rw [show ([0] : Bytes) = zeroBytes 1 from rfl, zeroBytes_append, Nat.add_comm 1]

/-- The link when a frame has begun. -/
def Link.started (last : FrameStatus) : Link := ⟨.header, 0, [], none, none, [], last⟩

theorem frameStart_of_idle (s : State) (hr : s.resetLine = false) (hf : s.link.frame = .idle) : s.begin.frameStart
    true = Link.started s.link.lastFrame := by
  unfold State.frameStart
  rw [show s.begin.resetLine = false from hr]
  simp only [Bool.false_eq_true, if_false]
  show s.link.mselFalls = _
  unfold Link.mselFalls; rw [hf]; rfl

/-- What the link and MDO do during the bytes that open a frame on an idle link. -/
theorem frameBytes_of_idle (s : State) (hr : s.resetLine = false) (hf : s.link.frame = .idle) (bytes : Bytes) :
    State.frameBytes true s.begin bytes =
      Link.takeBytes s.windowBytes bytes (Link.started s.link.lastFrame, []) := by
  unfold State.frameBytes; rw [frameStart_of_idle s hr hf]; rfl

/-- Fewer than five bytes leave the header incomplete (R173). -/
theorem takeBytes_short (snap : Nat → Nat → Bytes) (bytes : Bytes) (h : bytes.length < 5) (last : FrameStatus) :
    Link.takeBytes snap bytes (Link.started last, []) = ({ Link.started last with bitCount := 8 * bytes.length, header := bytes }, zeroBytes bytes.length) := by
  match bytes, h with
  | [], _ => rfl
  | [a], _ => rfl
  | [a, b], _ | [a, b, c], _ | [a, b, c, d], _ =>
    simp [Link.started, Link.takeBytes, Link.takeByte, Link.byteEnd, Link.takeHeaderByte, Link.headerWhole,
      Link.drives, zeroBytes, List.replicate]

/-- The link after the header. -/
def Link.afterHeader (snap : Nat → Nat → Bytes) (h : Bytes) (last : FrameStatus) : Link :=
  let l : Link := { Link.started last with bitCount := 40, header := h }
  match l.headerFault with
  | some fault => { l with frame := .trailing, decided := some fault }
  | none => { l with frame := .data, snapshot := if l.reads then some (snap l.windowAddress l.length) else none }

theorem takeBytes_cons (snap : Nat → Nat → Bytes) (b : Byte) (rest : Bytes) (l : Link) (out : Bytes) :
    Link.takeBytes snap (b :: rest) (l, out) = Link.takeBytes snap rest (Link.takeByte snap l b, out ++ [l.drives]) := rfl

theorem takeDataByte_read (b : Byte) (l : Link) (h : l.reads = true) :
    l.takeDataByte b = if l.bitCount = 48 + 8 * l.length then { l with frame := .trailing } else l := by
  unfold Link.takeDataByte; simp only [h, if_true]

theorem takeDataByte_write (b : Byte) (l : Link) (h : l.reads = false) :
    l.takeDataByte b = if l.bitCount = 48 + 8 * l.length then { l with frame := .trailing, buffer := l.buffer ++ [b] } else { l with buffer := l.buffer ++ [b] } := by
  unfold Link.takeDataByte; simp only [h, Bool.false_eq_true, if_false]; rfl

/-- The five header bytes, and what the checks decide (R175). -/
theorem takeBytes_header (snap : Nat → Nat → Bytes) (a b c d e : Byte) (tail : Bytes) (last : FrameStatus) :
    Link.takeBytes snap (a :: b :: c :: d :: e :: tail) (Link.started last, []) =
      Link.takeBytes snap tail (Link.afterHeader snap [a, b, c, d, e] last, zeroBytes 5) := by
  have early : ∀ (n : Nat) (h : Bytes) (x : Byte), h.length < 4 → n % 8 = 0 →
      Link.takeByte snap ⟨.header, n, h, none, none, [], last⟩ x = ⟨.header, n + 8, h ++ [x], none, none, [], last⟩ := by
    intro n h x hl hm
    unfold Link.takeByte Link.takeHeaderByte Link.headerWhole
    rw [byteEnd_of_whole _ hm]
    dsimp only
    rw [if_neg (by simp; omega)]
  have last5 : ∀ (h : Bytes) (x : Byte), h.length = 4 → Link.takeByte snap ⟨.header, 32, h, none, none, [], last⟩ x = Link.afterHeader snap (h ++ [x]) last := by
    intro h x hl
    unfold Link.takeByte Link.takeHeaderByte Link.headerWhole Link.afterHeader Link.started
    rw [byteEnd_of_whole _ (by simp)]
    dsimp only
    rw [if_pos (by simp [hl])]
    all_goals rfl
  have dr : ∀ (n : Nat) (h : Bytes), Link.drives ⟨.header, n, h, none, none, [], last⟩ = 0 := fun _ _ => rfl
  unfold Link.started
  rw [takeBytes_cons, early _ _ _ (by simp) rfl, dr, takeBytes_cons, early _ _ _ (by simp) rfl, dr, takeBytes_cons, early _ _ _ (by simp) rfl, dr, takeBytes_cons, early _ _ _ (by simp) rfl, dr,
    takeBytes_cons, last5 _ _ (by simp), dr]
  rfl

theorem exists_five_bytes (bytes : Bytes) (h : 5 ≤ bytes.length) : ∃ a b c d e tail, bytes = a :: b :: c :: d :: e :: tail := by
  match bytes, h with
  | a :: b :: c :: d :: e :: tail, _ => exact ⟨a, b, c, d, e, tail, rfl⟩

/-- The end of a frame that is not applied, whether it comes whole or this is its last piece. -/
theorem linkFrame_ends (s : State) (hd : s.direct = true) (opens : Bool) (bytes : Bytes) (e : Fin 8) (pfw : Bool)
    (l : Link) (out : Bytes) (hb : State.frameBytes opens s.begin bytes = (l, out))
    (w : List Bool) (hw : pieceBits (s.begin.frameStart opens).inByte (l, out) e = w)
    (hl : l.frame = .header ∨ l.frame = .data ∨ l.frame = .trailing) (hm : l.bitCount % 8 = 0)
    (hn : l.bitCount + e.val ≠ 0) (st : FrameStatus)
    (hst : (s.begin.drive w).frameStatus { l with bitCount := l.bitCount + e.val } = st) (hna : st ≠ .ok ∨ Link.reads l = true) :
    s.event (State.linkFrame ⟨opens, e, true⟩ bytes pfw) = .next { s with
      responses := [], mdo := w, joined := 0, link := ⟨.idle, l.bitCount + e.val, l.header, l.decided, none, [], st⟩
      flags := if st = .ok then s.flags else s.flags ||| 0x040#9 } := by
  have hedges : l.takeEdges e.val = { l with bitCount := l.bitCount + e.val } := takeEdges_of_whole l _ hl hm
  have key : s.begin.linkFrame ⟨opens, e, true⟩ bytes pfw = { s with
      responses := [], mdo := w, joined := 0, link := ⟨.idle, l.bitCount + e.val, l.header, l.decided, none, [], st⟩
      flags := if st = .ok then s.flags else s.flags ||| 0x040#9 } := by
    rw [linkFrame_rises _ _ _ _ _ _ _ hb, hw, hedges]
    unfold State.mselRises
    have hif : ∀ (α : Type) (x y : α), (if ({ l with bitCount := l.bitCount + e.val } : Link).bitCount = 0 then x else y) = y := fun _ _ _ => if_neg hn
    have hcond : ¬ (st = .ok ∧ (!Link.reads { l with bitCount := l.bitCount + e.val }) = true) := by
      rintro ⟨h1, h2⟩
      rcases hna with h | h
      · exact h h1
      · rw [show Link.reads { l with bitCount := l.bitCount + e.val } = Link.reads l from rfl, h] at h2; simp at h2
    have hfr : ({ l with bitCount := l.bitCount + e.val } : Link).frame = l.frame := rfl
    rw [hfr]
    have : (if ({ l with bitCount := l.bitCount + e.val } : Link).bitCount = 0 then ({ (s.begin.drive w) with link := { ({ l with bitCount := l.bitCount + e.val } : Link) with frame := .idle } } : State)
       else
      let status := (s.begin.drive w).frameStatus { l with bitCount := l.bitCount + e.val }
      let ended := (s.begin.drive w).endFrame { l with bitCount := l.bitCount + e.val } status
      if status = .ok ∧ !Link.reads { l with bitCount := l.bitCount + e.val } then ended.applyFrame { l with bitCount := l.bitCount + e.val } pfw else ended) = { s with
      responses := [], mdo := w, joined := 0, link := ⟨.idle, l.bitCount + e.val, l.header, l.decided, none, [], st⟩
      flags := if st = .ok then s.flags else s.flags ||| 0x040#9 } := by
      rw [hif]
      dsimp only
      rw [hst, if_neg (by simpa using hcond)]
      unfold State.endFrame
      dsimp only
      by_cases h : st = .ok
      · rw [if_pos h, if_pos h]; rfl
      · rw [if_neg h, if_neg h]; rfl
    rcases hl with hl | hl | hl <;> (rw [hl]; exact this)
  unfold State.event
  rw [key, endEvent_of_none _ _ (by exact begin_held s hd)]

theorem headerByte_eq (l : Link) (i : Nat) : l.headerByte i = l.header.getD i 0 := rfl

theorem range_all_mapped (a n : Nat) : (((List.range n).map (fun k => a + k)).all mapped) = true ↔ ∀ k, k < n → mapped (a
    + k) = true := by
  simp

theorem not_mapped_high (a : Nat) (h : 4096 ≤ a) : mapped a = false := by
  unfold mapped fieldAt
  rw [if_neg (by omega), dif_neg (by omega), if_neg (by omega), dif_neg (by omega), if_neg (by omega), dif_neg (by omega), dif_neg (by omega), if_neg (by omega), if_neg (by omega)]
  unfold rowAt
  rw [Option.isSome_map, Option.isSome_eq_false_iff, Option.isNone_iff_eq_none, List.find?_eq_none]
  intro x hx
  have : ∀ x ∈ singleRows, x.1 + x.2.width ≤ 2000 := by decide
  have := this x hx
  simp; omega

/-- The header checks, on the header bytes. -/
theorem headerFault_eq (l : Link) : l.headerFault =
    let byte := fun k => (l.header.getD k 0).toNat
    let address := byte 1 * 256 + byte 2
    let n := byte 3
    if l.header.getD 4 0 ≠ linkCheck (l.header.take 4) then some .headerCheck
    else if l.header.getD 0 0 ≠ readKind ∧ l.header.getD 0 0 ≠ writeKind then some .badKind
    else if n = 0 ∨ 16 < n then some .badLength
    else if 4096 ≤ address ∨ 4096 < address % 4096 + n ∨ !((List.range n).map (fun k => address % 4096 + k)).all mapped then some .badAddress
    else none := by
  unfold Link.headerFault
  rfl

/-- The data bytes of a read frame: what MDO carries in each byte time, and in the next (R176). -/
theorem takeBytes_read_data (snap : Nat → Nat → Bytes) (w : Bytes) (tail : Bytes) : ∀ (l : Link) (out : Bytes) (j : Nat),
    l.frame = .data → l.snapshot = some w → l.reads = true →
    l.bitCount = 40 + 8 * j → j ≤ w.length → l.length = w.length →
    ∃ f, (f = .data ∨ f = .trailing) ∧
      Link.drives { l with frame := f, bitCount := l.bitCount + 8 * tail.length } =
        (w ++ [linkCheck w]).getD (j + tail.length) 0 ∧
      Link.takeBytes snap tail (l, out) = ({ l with frame := f, bitCount := l.bitCount + 8 * tail.length },
      out ++ ((w ++ [linkCheck w]).drop j ++ zeroBytes tail.length).take tail.length) := by
  induction tail with
  | nil =>
    intro l out j h1 h2 h3 h4 h5 h6
    have hdr : Link.drives { l with frame := .data, bitCount := l.bitCount + 8 * ([] : Bytes).length } =
        (w ++ [linkCheck w]).getD (j + ([] : Bytes).length) 0 := by
      unfold Link.drives; dsimp only; rw [h2]; dsimp only
      rw [h4, List.length_nil, show (40 + 8 * j + 8 * 0) / 8 - 5 = j + 0 by omega]
    refine ⟨.data, .inl rfl, hdr, ?_⟩
    simp [Link.takeBytes]; exact h1.symm ▸ rfl
  | cons b rest ih =>
    intro l out j h1 h2 h3 h4 h5 h6
    have hdr : l.drives = (w ++ [linkCheck w]).getD j 0 := by
      unfold Link.drives; rw [h1, h2]; dsimp only; rw [h4, show (40 + 8 * j) / 8 - 5 = j by omega]
    have hj : j < (w ++ [linkCheck w]).length := by simp; omega
    have hdrop : (w ++ [linkCheck w]).drop j = (w ++ [linkCheck w]).getD j 0 :: (w ++ [linkCheck w]).drop (j + 1) := by
      rw [List.drop_eq_getElem_cons hj, List.getD_eq_getElem _ _ hj]
    unfold Link.takeBytes
    rw [hdr]
    have hby : Link.takeByte snap l b = if j = w.length then { l with frame := .trailing, bitCount := l.bitCount + 8 } else { l with bitCount := l.bitCount + 8 } := by
      unfold Link.takeByte
      rw [h1, byteEnd_of_whole l (by omega)]
      dsimp only
      rw [takeDataByte_read _ _ (by exact h3), show Link.length { frame := .data, bitCount := l.bitCount + 8, header := l.header, decided := l.decided, snapshot := l.snapshot, buffer := l.buffer, lastFrame := l.lastFrame } = w.length from h6]
      dsimp only
      rw [h4]
      by_cases hjw : j = w.length
      · rw [if_pos (by omega), if_pos hjw]
      · rw [if_neg (by omega), if_neg hjw]
    rw [hby]
    by_cases hjw : j = w.length
    · rw [if_pos hjw, takeBytes_trailing _ _ _ _ rfl (by dsimp only; omega)]
      refine ⟨.trailing, .inr rfl, ?_, ?_⟩
      · rw [List.getD_eq_default _ _ (by simp; omega)]; rfl
      congr 1
      · simp only [List.length_cons]; rw [show l.bitCount + 8 + 8 * rest.length = l.bitCount + 8 * (rest.length + 1) by omega]
      · rw [hdrop, List.drop_of_length_le (by simp; omega), List.append_assoc]
        congr 1
        simp only [List.length_cons, List.cons_append, List.nil_append, List.take_succ_cons]
        congr 1
        simp [zeroBytes]
    · rw [if_neg hjw]
      obtain ⟨f, hf, hn, h⟩ := ih { l with bitCount := l.bitCount + 8 } (out ++ [(w ++ [linkCheck w]).getD j 0]) (j + 1) h1 h2 h3 (by show l.bitCount + 8 = _; omega) (by omega) h6
      refine ⟨f, hf, ?_, ?_⟩
      · rw [List.length_cons, show j + (rest.length + 1) = j + 1 + rest.length by omega, ← hn,
          show l.bitCount + 8 * (rest.length + 1) = l.bitCount + 8 + 8 * rest.length by omega]
      rw [h]
      congr 1
      · simp only [List.length_cons]; rw [show l.bitCount + 8 + 8 * rest.length = l.bitCount + 8 * (rest.length + 1) by omega]
      · rw [hdrop, List.append_assoc]
        congr 1
        simp only [List.length_cons, List.cons_append, List.nil_append, List.take_succ_cons]
        congr 1
        rw [← zeroBytes_snoc, ← List.append_assoc]
        symm
        apply List.take_append_of_le_length
        simp [zeroBytes]

theorem reads_of_kind (l : Link) (h : l.header.getD 0 0 = 0x3C#8) : l.reads = true := by
  unfold Link.reads; rw [headerByte_eq, h]; rfl

/-- The length of a frame whose header is good. -/
theorem shapeFault_eq (l : Link) (h1 : l.decided = none) (h2 : l.headerWhole = true) : l.shapeFault =
    if l.bitCount < 48 + 8 * l.length then some .short else if 48 + 8 * l.length < l.bitCount then some .long else none := by
  unfold Link.shapeFault
  rw [h1]; dsimp only; rw [h2]
  by_cases h : l.bitCount < 48 + 8 * l.length
  · rw [if_pos h, if_pos (by simp [h])]
  · rw [if_neg h, if_neg (by simp [h])]

theorem not_reads_of_kind (l : Link) (h : l.header.getD 0 0 = 0xC3#8) : l.reads = false := by
  unfold Link.reads; rw [headerByte_eq, h]; rfl

/-- The data bytes of a write frame, its last one not yet past the data check. -/
theorem takeBytes_write_data (snap : Nat → Nat → Bytes) (tail : Bytes) : ∀ (l : Link) (out : Bytes), l.frame = .data →
    l.snapshot = none → l.reads = false → l.bitCount % 8 = 0 →
    l.bitCount + 8 * tail.length < 48 + 8 * l.length →
    Link.takeBytes snap tail (l, out) = ({ l with bitCount := l.bitCount + 8 * tail.length, buffer := l.buffer ++ tail }, out ++ zeroBytes tail.length) := by
  induction tail with
  | nil => intro l out h1 h2 h3 hm h4; simp [Link.takeBytes, zeroBytes]
  | cons b rest ih =>
    intro l out h1 h2 h3 hm h4
    simp only [List.length_cons] at h4 ⊢
    rw [takeBytes_cons]
    have hd : l.drives = 0 := by unfold Link.drives; rw [h1, h2]
    have ht : Link.takeByte snap l b = { l with bitCount := l.bitCount + 8, buffer := l.buffer ++ [b] } := by
      unfold Link.takeByte
      rw [h1, byteEnd_of_whole l hm]; dsimp only
      rw [takeDataByte_write _ _ (by exact h3), if_neg (by show ¬ l.bitCount + 8 = 48 + 8 * l.length; omega)]
    rw [ht, hd, ih { l with bitCount := l.bitCount + 8, buffer := l.buffer ++ [b] } _ h1 h2 h3 (by dsimp only; omega) (by show l.bitCount + 8 + 8 * rest.length < 48 + 8 * l.length; omega)]
    dsimp only
    rw [List.append_assoc, List.append_assoc, show ([0] : Bytes) = zeroBytes 1 from rfl, zeroBytes_append, Nat.add_comm 1,
      show l.bitCount + 8 + 8 * rest.length = l.bitCount + 8 * (rest.length + 1) by omega]
    rfl

/-- A good header (R175). -/
theorem headerFault_none (last : FrameStatus) (k : Byte) (hk : k = 0x3C#8 ∨ k = 0xC3#8) (a n : Nat) (h1 : 1 ≤ n) (h2 : n ≤
    16) (ha : a < 4096) (hm : ∀ i, i < n → mapped (a + i) = true) :
    Link.headerFault { Link.started last with bitCount := 40, header := [k, BitVec.ofNat 8 (a / 256), BitVec.ofNat 8 a, BitVec.ofNat 8 n, linkCheck [k, BitVec.ofNat 8 (a / 256), BitVec.ofNat 8 a, BitVec.ofNat 8 n]] } = none := by
  rw [headerFault_eq]
  dsimp only
  rw [if_neg (by show ¬ (linkCheck _ ≠ linkCheck _); simp), if_neg (by show ¬ (k ≠ readKind ∧ k ≠ writeKind); unfold readKind writeKind; rcases hk with h | h <;> simp [h])]
  have hn : (BitVec.ofNat 8 n).toNat = n := by rw [BitVec.toNat_ofNat]; omega
  have haa : (BitVec.ofNat 8 (a / 256)).toNat * 256 + (BitVec.ofNat 8 a).toNat = a := by rw [BitVec.toNat_ofNat, BitVec.toNat_ofNat]; omega
  rw [if_neg (by show ¬ ((BitVec.ofNat 8 n).toNat = 0 ∨ 16 < (BitVec.ofNat 8 n).toNat); omega), if_neg]
  show ¬ (4096 ≤ (BitVec.ofNat 8 (a / 256)).toNat * 256 + (BitVec.ofNat 8 a).toNat ∨ 4096 < ((BitVec.ofNat 8 (a / 256)).toNat * 256 + (BitVec.ofNat 8 a).toNat) % 4096 + (BitVec.ofNat 8 n).toNat ∨ (!((List.range (BitVec.ofNat 8 n).toNat).map (fun i => ((BitVec.ofNat 8 (a / 256)).toNat * 256 + (BitVec.ofNat 8 a).toNat) % 4096 + i)).all mapped) = true)
  rw [haa, hn, Nat.mod_eq_of_lt ha]
  rintro (h | h | h)
  · omega
  · have := hm (4096 - a) (by omega)
    rw [not_mapped_high _ (by omega)] at this; simp at this
  · rw [(range_all_mapped _ _).2 hm] at h; simp at h

/-- The end of a write frame that is applied. -/
theorem linkFrame_applied (s : State) (opens : Bool) (bytes : Bytes) (pfw : Bool) (l : Link) (out : Bytes)
    (hb : State.frameBytes opens s.begin bytes = (l, out))
    (w : List Bool) (hw : pieceBits (s.begin.frameStart opens).inByte (l, out) 0 = w)
    (hl : l.frame = .trailing) (hm : l.bitCount % 8 = 0) (hn : l.bitCount ≠ 0)
    (hst : (s.begin.drive w).frameStatus l = .ok) (hna : Link.reads l = false)
    (hh : (State.applyFrame l pfw { s with responses := [], mdo := w, joined := 0, link := ⟨.idle, l.bitCount, l.header, l.decided, none, [], .ok⟩ }).held = none) :
    s.event (State.linkFrame ⟨opens, 0, true⟩ bytes pfw) = .next (State.applyFrame l pfw { s with
      responses := [], mdo := w, joined := 0, link := ⟨.idle, l.bitCount, l.header, l.decided, none, [], .ok⟩ }) := by
  have hedges : l.takeEdges 0 = l := takeEdges_of_whole l 0 (.inr (.inr hl)) hm
  have key : s.begin.linkFrame ⟨opens, 0, true⟩ bytes pfw = State.applyFrame l pfw { s with
      responses := [], mdo := w, joined := 0, link := ⟨.idle, l.bitCount, l.header, l.decided, none, [], .ok⟩ } := by
    rw [linkFrame_rises _ _ _ _ _ _ _ hb, show ((0 : Fin 8) : Nat) = 0 from rfl, hw, hedges]
    unfold State.mselRises
    rw [hl]
    dsimp only
    rw [if_neg hn, hst, if_pos ⟨rfl, by simp [hna]⟩]
    congr 1
  unfold State.event
  rw [key, endEvent_of_none _ _ hh]

/-- The data bytes of a write frame and its data check (R178). -/
theorem takeBytes_write_check (snap : Nat → Nat → Bytes) (data : Bytes) (check : Byte) (l : Link) (out : Bytes) (h1 : l.frame =
    .data) (h2 : l.snapshot = none) (h3 : l.reads = false)
    (h4 : l.bitCount = 40) (h5 : l.length = data.length) :
    Link.takeBytes snap (data ++ [check]) (l, out) =
      ({ l with frame := .trailing, bitCount := 48 + 8 * data.length, buffer := l.buffer ++ data ++ [check] }, out ++ zeroBytes (data.length + 1)) := by
  have split : ∀ (xs ys : Bytes) (x : Link × Bytes), Link.takeBytes snap (xs ++ ys) x = Link.takeBytes snap ys (Link.takeBytes snap xs x) := by
    intro xs
    induction xs with
    | nil => intro ys x; rfl
    | cons b rest ih => intro ys x; obtain ⟨l, o⟩ := x; exact ih ys _
  rw [split, takeBytes_write_data snap data l out h1 h2 h3 (by omega) (by omega), takeBytes_cons]
  have hd : Link.drives { l with bitCount := l.bitCount + 8 * data.length, buffer := l.buffer ++ data } = 0 := by
    unfold Link.drives; dsimp only; rw [h1, h2]
  have ht : Link.takeByte snap { l with bitCount := l.bitCount + 8 * data.length, buffer := l.buffer ++ data } check =
      { l with frame := .trailing, bitCount := 48 + 8 * data.length, buffer := l.buffer ++ data ++ [check] } := by
    unfold Link.takeByte
    rw [byteEnd_of_whole _ (by dsimp only; omega)]
    dsimp only
    rw [h1]; dsimp only
    rw [takeDataByte_write _ _ (by exact h3), if_pos (by show l.bitCount + 8 * data.length + 8 = 48 + 8 * l.length; omega), h4]
    dsimp only
    rw [show 40 + 8 * data.length + 8 = 48 + 8 * data.length by omega]
  rw [hd, ht]
  rw [show ([0] : Bytes) = zeroBytes 1 from rfl]
  unfold Link.takeBytes
  rw [List.append_assoc out, zeroBytes_append]

theorem commandOf_not_softReset (b : Byte) : commandOf b.toNat ≠ some .softReset ↔ b.toNat ≠ 9 := by
  revert b; decide

theorem runCommand_held (s : State) (c : Command) (pfw : Bool) : (s.runCommand c pfw).held = s.held := by
  cases c
  · exact held_of_setup (start_setup s)
  · exact held_of_setup (format_setup s)
  · exact held_of_setup (quiesce_setup s)
  · exact held_of_setup (resume_setup s)
  · exact held_of_setup (stop_setup s)
  · exact held_of_setup (forceUnwind_setup s)
  · exact held_of_setup (retryUnwind_setup s)
  · exact held_of_setup (clearIncidents_setup s)
  · show (s.softReset pfw).setup.held = _; rw [softReset_setup]; rfl

theorem takeCommand_held (s : State) (n : Nat) (pfw : Bool) : (s.takeCommand n pfw).held = s.held := by
  unfold State.takeCommand
  cases h : commandOf n with
  | none => rfl
  | some c =>
    unfold State.takeKnown
    dsimp only
    split
    · rfl
    · rw [runCommand_held]; rfl

theorem writeField_held (s : State) (f : Field) (v : Nat) : (s.writeField f v).held = s.held := by
  cases f <;> try rfl
  case partition p f => cases f <;> rfl

theorem writeRange_held (s : State) (a : Nat) (d : Bytes) : (s.writeRange a d).held = s.held := by
  unfold State.writeRange
  generalize (List.range d.length).map _ = l
  induction l generalizing s with
  | nil => rfl
  | cons x xs ih =>
    have gen : ∀ (z : State), z.held = s.held → (List.foldl (State.writeByteStep a d) z xs).held = s.held := by
      clear ih
      induction xs with
      | nil => intro z hz; exact hz
      | cons y ys ih2 =>
        intro z hz
        apply ih2
        unfold State.writeByteStep
        split
        · split
          · rw [writeField_held, hz]
          · exact hz
        · exact hz
    apply gen
    unfold State.writeByteStep
    split
    · split
      · rw [writeField_held]
      · rfl
    · rfl

/-! ### Frames in pieces -/

theorem takeBytes_append (snap : Nat → Nat → Bytes) : ∀ (front back : Bytes) (x : Link × Bytes),
    Link.takeBytes snap (front ++ back) x = Link.takeBytes snap back (Link.takeBytes snap front x)
  | [], _, _ => rfl
  | _ :: front, back, (_, _) => takeBytes_append snap front back _

/-- What MDO carries is added to what it carried before, and does not change what the link does. -/
theorem takeBytes_out (snap : Nat → Nat → Bytes) : ∀ (bytes : Bytes) (l : Link) (out : Bytes),
    Link.takeBytes snap bytes (l, out) =
      ((Link.takeBytes snap bytes (l, [])).1, out ++ (Link.takeBytes snap bytes (l, [])).2)
  | [], l, out => by simp [Link.takeBytes]
  | b :: bytes, l, out => by
    rw [takeBytes_cons, takeBytes_cons, takeBytes_out snap bytes _ (out ++ [l.drives]),
      takeBytes_out snap bytes _ ([] ++ [l.drives])]
    simp

theorem takeByte_lastFrame (snap : Nat → Nat → Bytes) (l : Link) (b : Byte) :
    (Link.takeByte snap l b).lastFrame = l.lastFrame := by
  unfold Link.takeByte
  split
  · rfl
  · rfl
  · unfold Link.takeHeaderByte
    dsimp only
    split
    · split <;> rfl
    · rfl
  · unfold Link.takeDataByte
    dsimp only
    split <;> split <;> rfl
  · rfl

/-- No byte changes the last-frame status: only the end of a frame does (R177, R180). -/
theorem takeBytes_lastFrame (snap : Nat → Nat → Bytes) : ∀ (bytes : Bytes) (x : Link × Bytes),
    (Link.takeBytes snap bytes x).1.lastFrame = x.1.lastFrame
  | [], _ => rfl
  | b :: bytes, (l, _) => by rw [takeBytes_cons, takeBytes_lastFrame snap bytes, takeByte_lastFrame]

/-- Of the link the window shows nothing but the last-frame status (R199). -/
theorem windowBytes_of_link (s : State) (l : Link) (h : l.lastFrame = s.link.lastFrame) :
    State.windowBytes { s with link := l } = s.windowBytes := by
  have hb : ∀ a, State.windowByte { s with link := l } a = s.windowByte a := by
    intro a
    unfold State.windowByte
    cases fieldAt a with
    | none => rfl
    | some x =>
      obtain ⟨f, k⟩ := x
      cases f
      case lastFrame => unfold State.readField; dsimp only; rw [h]
      all_goals rfl
  funext a n
  unfold State.windowBytes
  simp only [hb]

/-- No byte begun is lost, and none is taken twice: the bytes that follow some edges of the first are taken as whole
bytes are (R172). -/
theorem takeBytes_takeEdges (snap : Nat → Nat → Bytes) (l : Link) (k : Fin 8) (b : Byte) (rest out : Bytes)
    (h : l.bitCount % 8 = 0) :
    Link.takeBytes snap (b :: rest) (l.takeEdges k.val, out) = Link.takeBytes snap (b :: rest) (l, out) := by
  have hk := k.isLt
  have hd : (l.takeEdges k.val).drives = l.drives := by
    unfold Link.takeEdges
    split
    · rfl
    · rfl
    all_goals
      unfold Link.drives
      dsimp only
      rw [show (l.bitCount + (k.val - l.bitCount % 8)) / 8 = l.bitCount / 8 by omega]
  have ht : Link.takeByte snap (l.takeEdges k.val) b = Link.takeByte snap l b := by
    have e : ∀ f, Link.byteEnd { l with frame := f, bitCount := l.bitCount + (k.val - l.bitCount % 8) } =
        l.byteEnd := by
      intro f; unfold Link.byteEnd; dsimp only; omega
    unfold Link.takeEdges
    split
    · rfl
    · rfl
    all_goals
      rename_i hf
      unfold Link.takeByte
      dsimp only
      rw [hf, e]
  rw [takeBytes_cons, takeBytes_cons, hd, ht]

/-- The first piece of a frame on an idle link: nothing but the link and MDO changes (R173). -/
theorem event_opens (s : State) (hd : s.direct = true) (hf : s.link.frame = .idle) (front : Bytes) (k : Fin 8)
    (pfw : Bool) :
    let taken := Link.takeBytes s.windowBytes front (Link.started s.link.lastFrame, [])
    s.event (State.linkFrame ⟨true, k, false⟩ front pfw) =
      .next { s with responses := [], mdo := pieceBits 0 taken k, joined := 0, link := taken.1.takeEdges k } := by
  intro taken
  have hr : s.resetLine = false := by
    unfold State.direct at hd; simp only [Bool.and_eq_true, Bool.not_eq_true'] at hd; exact hd.1
  unfold State.event
  rw [linkFrame_stays _ _ _ _ _ _ _ (frameBytes_of_idle s hr hf front), frameStart_of_idle s hr hf,
    endEvent_of_none _ _ (by exact begin_held s hd)]
  rfl

theorem takeEdges_lastFrame (l : Link) (k : Nat) : (l.takeEdges k).lastFrame = l.lastFrame := by
  unfold Link.takeEdges; split <;> rfl

/-- The last piece takes the link, and MDO, where the whole frame does. -/
theorem frameBytes_pieces (s : State) (front back : Bytes) (k : Fin 8) (t : State) :
    let opened := Link.takeBytes s.windowBytes front (Link.started s.link.lastFrame, [])
    let whole := Link.takeBytes s.windowBytes (front ++ back) (Link.started s.link.lastFrame, [])
    opened.1.bitCount % 8 = 0 → back ≠ [] ∨ k = 0 →
    t.link = opened.1.takeEdges k →
    t = { s with responses := [], mdo := t.mdo, joined := 0, link := t.link } →
    ∃ out, State.frameBytes false t.begin back = (whole.1, out) ∧ whole.2 = opened.2 ++ out := by
  intro opened whole hm hback hlink ht
  have hl : t.link.lastFrame = s.link.lastFrame := by
    rw [hlink, takeEdges_lastFrame]; exact takeBytes_lastFrame _ _ _
  have hw : t.begin.windowBytes = s.windowBytes := by
    rw [ht]
    exact windowBytes_of_link { s with responses := [], mdo := [], joined := 0 } t.link hl
  have hs : t.begin.frameStart false = opened.1.takeEdges k := by rw [← hlink]; rfl
  have hb : whole = Link.takeBytes s.windowBytes back (opened.1, opened.2) := takeBytes_append _ _ _ _
  rw [takeBytes_out] at hb
  refine ⟨(Link.takeBytes s.windowBytes back (opened.1, [])).2, ?_, by rw [hb]⟩
  unfold State.frameBytes
  rw [hw, hs, hb]
  cases back with
  | cons b rest => rw [takeBytes_takeEdges _ _ _ _ _ _ hm]
  | nil =>
    have hk : k = 0 := by simpa using hback
    subst hk
    have : opened.1.takeEdges (0 : Fin 8).val = opened.1 := by
      unfold Link.takeEdges
      split
      · rfl
      · rfl
      all_goals rw [show ((0 : Fin 8).val - opened.1.bitCount % 8) = 0 from Nat.zero_sub _, Nat.add_zero]
    rw [this]

end Sys2Proof.Machine
end

