-- ==== Sys2Proof/Laws/Window.lean ====
section
/-! SUPPORT. One field of the register window written, and one byte read. -/

namespace Sys2Proof.Machine

/-- A write whose range is exactly one field. -/
theorem writeRange_one_field (s : State) (a : Nat) (data : Bytes) (f : Field) (hw : f.width = data.length) (hn : 1 ≤
    data.length)
    (hf : ∀ k, k < f.width → fieldAt (a + k) = some (f, k)) : s.writeRange a data = s.writeField f (leNat data) := by
  rw [hw] at hf
  have hass : ∀ z : State, z.assembled f (a - 0) a data = leNat data := by
    intro z
    unfold State.assembled
    congr 1
    rw [hw]
    apply List.ext_getElem?
    intro k
    rw [List.getElem?_map]
    by_cases hk : k < data.length
    · rw [List.getElem?_range hk, Option.map_some, List.getElem?_eq_getElem hk]
      unfold frameByte
      rw [if_pos (by omega), show a - 0 + k - a = k by omega, List.getElem?_eq_getElem hk]; rfl
    · rw [List.getElem?_eq_none (by simpa using hk), List.getElem?_eq_none (by simpa using hk)]; rfl
  unfold State.writeRange
  obtain ⟨n, hl⟩ : ∃ n, data.length = n + 1 := ⟨data.length - 1, by omega⟩
  rw [hl, List.range_succ_eq_map, List.map_cons, List.foldl_cons]
  have first : State.writeByteStep a data s (a + 0) = s.writeField f (leNat data) := by
    unfold State.writeByteStep
    rw [hf 0 (by omega)]
    dsimp only
    rw [if_pos (.inl rfl), show a + 0 - 0 = a - 0 by omega, hass]
  rw [first, List.map_map]
  have rest : ∀ (l : List Nat) (z : State), (∀ k ∈ l, k < n) → List.foldl (State.writeByteStep a data) z (l.map ((fun k => a + k) ∘ Nat.succ)) = z := by
    intro l
    induction l with
    | nil => intro z _; rfl
    | cons k ks ih =>
      intro z hk
      rw [List.map_cons, List.foldl_cons]
      have : State.writeByteStep a data z (((fun k => a + k) ∘ Nat.succ) k) = z := by
        unfold State.writeByteStep
        show (match fieldAt (a + (k + 1)) with | some (f, j) => _ | none => _) = z
        rw [hf (k + 1) (by have := hk k (by simp); omega)]
        dsimp only
        rw [if_neg (by simp)]
      rw [this]
      exact ih z (fun x hx => hk x (by simp [hx]))
  exact rest _ _ (by simp)

/-- A write whose range lies inside one field takes that field with the value assembled (R181). -/
theorem writeRange_in_field (s : State) (start i : Nat) (data : Bytes) (f : Field) (hn : 0 < data.length)
    (hw : i + data.length ≤ f.width) (hf : ∀ k, k < f.width → fieldAt (start + k) = some (f, k)) :
    s.writeRange (start + i) data = s.writeField f (s.assembled f start (start + i) data) := by
  unfold State.writeRange
  obtain ⟨n, hl⟩ : ∃ n, data.length = n + 1 := ⟨data.length - 1, by omega⟩
  rw [hl, List.range_succ_eq_map, List.map_cons, List.foldl_cons]
  have first : State.writeByteStep (start + i) data s (start + i + 0) =
      s.writeField f (s.assembled f start (start + i) data) := by
    unfold State.writeByteStep
    rw [Nat.add_zero, hf i (by omega)]
    dsimp only
    rw [if_pos (.inr rfl), Nat.add_sub_cancel]
  rw [first, List.map_map]
  refine List.foldlRecOn (motive := fun z => z = s.writeField f (s.assembled f start (start + i) data)) _ _ rfl
    fun z hz a ha => ?_
  obtain ⟨k, hk, rfl⟩ := List.mem_map.mp ha
  have hk := List.mem_range.mp hk
  unfold State.writeByteStep
  show (match fieldAt (start + i + (k + 1)) with | some (f, j) => _ | none => _) = _
  rw [show start + i + (k + 1) = start + (i + (k + 1)) by omega, hf (i + (k + 1)) (by omega)]
  dsimp only
  rw [if_neg (by simp), hz]

/-- A range cut where no written field of two or more bytes is cut is written in its two parts (R181). -/
theorem writeRange_append (s : State) (first : Nat) (data1 data2 : Bytes)
    (hcut : ∀ a f k, fieldAt a = some (f, k) → a - k < first + data1.length → first + data1.length < a - k + f.width →
      ∀ (z : State) (v : Nat), z.writeField f v = z)
    (hk : ∀ a f k, fieldAt a = some (f, k) → k ≤ a ∧ k < f.width) :
    s.writeRange first (data1 ++ data2) = (s.writeRange first data1).writeRange (first + data1.length) data2 := by
  have hget1 : ∀ b, b < first + data1.length → frameByte first (data1 ++ data2) b = frameByte first data1 b := by
    intro b hb
    unfold frameByte
    split
    · rw [List.getElem?_append_left (by omega)]
    · rfl
  have hget2 : ∀ b, first + data1.length ≤ b →
      frameByte first (data1 ++ data2) b = frameByte (first + data1.length) data2 b := by
    intro b hb
    unfold frameByte
    rw [if_pos (by omega), if_pos hb, List.getElem?_append_right (by omega), Nat.sub_sub]
  have h1 : ∀ (z : State) (a : Nat), a < first + data1.length →
      State.writeByteStep first (data1 ++ data2) z a = State.writeByteStep first data1 z a := by
    intro z a ha
    unfold State.writeByteStep
    cases hfa : fieldAt a with
    | none => rfl
    | some x =>
      obtain ⟨f, k⟩ := x
      obtain ⟨hka, hkw⟩ := hk a f k hfa
      dsimp only
      by_cases hin : first + data1.length < a - k + f.width
      · simp only [hcut a f k hfa (by omega) hin]
      · have : z.assembled f (a - k) first (data1 ++ data2) = z.assembled f (a - k) first data1 := by
          unfold State.assembled
          congr 1
          apply List.map_congr_left
          intro j hj
          rw [hget1 _ (by have := List.mem_range.mp hj; omega)]
        rw [this]
  have h2 : ∀ (z : State) (a : Nat), first + data1.length ≤ a →
      State.writeByteStep first (data1 ++ data2) z a = State.writeByteStep (first + data1.length) data2 z a := by
    intro z a ha
    unfold State.writeByteStep
    cases hfa : fieldAt a with
    | none => rfl
    | some x =>
      obtain ⟨f, k⟩ := x
      obtain ⟨hka, hkw⟩ := hk a f k hfa
      dsimp only
      by_cases hin : a - k < first + data1.length
      · by_cases hin2 : first + data1.length < a - k + f.width
        · simp only [hcut a f k hfa hin hin2, ite_self]
        · omega
      · have e : z.assembled f (a - k) first (data1 ++ data2) =
            z.assembled f (a - k) (first + data1.length) data2 := by
          unfold State.assembled
          congr 1
          apply List.map_congr_left
          intro j hj
          rw [hget2 _ (by omega)]
        rw [e]
        by_cases h0 : k = 0
        · rw [if_pos (.inl h0), if_pos (.inl h0)]
        · rw [if_neg (by omega), if_neg (by omega)]
  unfold State.writeRange
  rw [List.length_append, List.range_add, List.map_append, List.foldl_append, List.map_map]
  have e1 : ∀ (l : List Nat) (z : State), (∀ a ∈ l, a < first + data1.length) →
      l.foldl (State.writeByteStep first (data1 ++ data2)) z = l.foldl (State.writeByteStep first data1) z := by
    intro l
    induction l with
    | nil => intros; rfl
    | cons a l ih =>
      intro z h
      rw [List.foldl_cons, List.foldl_cons, h1 z a (h a (by simp)), ih _ (fun b hb => h b (by simp [hb]))]
  have e2 : ∀ (l : List Nat) (z : State), (∀ a ∈ l, first + data1.length ≤ a) →
      l.foldl (State.writeByteStep first (data1 ++ data2)) z =
        l.foldl (State.writeByteStep (first + data1.length) data2) z := by
    intro l
    induction l with
    | nil => intros; rfl
    | cons a l ih =>
      intro z h
      rw [List.foldl_cons, List.foldl_cons, h2 z a (h a (by simp)), ih _ (fun b hb => h b (by simp [hb]))]
  rw [e1 ((List.range data1.length).map (fun k => first + k)) s
      (by intro a ha; obtain ⟨k, hk, rfl⟩ := List.mem_map.mp ha; have := List.mem_range.mp hk; omega),
    e2 _ _ (by
      intro a ha
      obtain ⟨k, hk, rfl⟩ := List.mem_map.mp ha
      exact Nat.add_le_add_left (Nat.le_add_right _ _) _)]
  congr 1
  apply List.map_congr_left
  intro j _
  exact (Nat.add_assoc _ _ _).symm
/-- A mapped byte reads its field (R176, R199). -/
theorem windowByte_of_field (s : State) (a : Nat) (f : Field) (k : Nat) (h : fieldAt a = some (f, k)) : s.windowByte a =
    byteOf (s.readField f) k := by
  unfold State.windowByte; rw [h]

theorem byteOf_zero (k : Nat) : byteOf 0 k = 0 := by unfold byteOf; simp

end Sys2Proof.Machine
end

