-- ==== Sys2Proof/Laws/Formats.lean ====
section
/-! SUPPORT. The bytes of a slot that has been sealed, field by field. -/

namespace Sys2Proof.Machine

theorem leBytes_length (n : Nat) : ∀ v, (leBytes n v).length = n := by
  induction n with
  | zero => intro v; rfl
  | succ n ih => intro v; simp [leBytes, ih]

/-- A value stored least significant byte first is read back (R194). -/
theorem leNat_leBytes (n : Nat) : ∀ v, leNat (leBytes n v) = v % 256 ^ n := by
  induction n with
  | zero => intro v; simp [leBytes, leNat, Nat.mod_one]
  | succ n ih =>
    intro v
    simp only [leBytes, leNat, ih, BitVec.toNat_ofNat]
    have h2 : (2:Nat)^8 = 256 := by norm_num
    rw [h2, Nat.pow_succ', Nat.mod_mul]

/-- A sealed slot has 64 bytes. -/
theorem sealSlot_length (body more : Bytes) (h : body.length = 60) : (sealSlot body more).length = 64 := by
  unfold sealSlot; simp [leBytes_length, h]

/-- A field of a sealed slot is that of its body. -/
theorem sealSlot_field (body more : Bytes) (h : body.length = 60) (off n : Nat) (hn : off + n ≤ 60) :
    slotField off n (sealSlot body more) = slotField off n body := by
  unfold slotField sealSlot
  rw [List.drop_append_of_le_length (by omega), List.take_append_of_le_length (by simp; omega)]

/-- A sealed slot carries its check value (R197). -/
theorem sealSlot_check (body more : Bytes) (h : body.length = 60) : slotCheckOk (sealSlot body more) more = true := by
  unfold slotCheckOk
  rw [decide_eq_true_eq]
  have h1 : (sealSlot body more).take 60 = body := by unfold sealSlot; rw [List.take_left' h]
  rw [h1]
  unfold slotField sealSlot
  rw [List.drop_left' h, List.take_of_length_le (by rw [leBytes_length]), leNat_leBytes]
  exact Nat.mod_eq_of_lt (journalCheck _).isLt

theorem sealSlot_kind (body more : Bytes) (h : body.length = 60) : slotKindByte (sealSlot body more) = slotKindByte body
    := by
  unfold slotKindByte sealSlot
  cases body with
  | nil => simp at h
  | cons a b => rfl

/-- A field found where it was written. -/
theorem slotField_bytes (pre post : Bytes) (n v : Nat) (hv : v < 256 ^ n) (off : Nat) (h : pre.length = off) : slotField
    off n (pre ++ (leBytes n v ++ post)) = v := by
  unfold slotField
  rw [List.drop_left' h, List.take_left' (leBytes_length n v), leNat_leBytes, Nat.mod_eq_of_lt hv]

theorem slotField_byte (pre post : Bytes) (b : Byte) (off : Nat) (h : pre.length = off) : slotField off 1 (pre ++ (b ::
    post)) = b.toNat := by
  unfold slotField
  rw [List.drop_left' h]; simp [leNat]

theorem recordBody_length (kind : Byte) (a b : Nat) (c d : Word) (e f g h : Nat) : (recordBody kind a b c d e f g
    h).length = 60 := by
  unfold recordBody; simp [leBytes_length, zeroBytes]

/-- The fields of a record's first 60 bytes. -/
theorem record_fields (kind : Byte) (pad tag : Nat) (epoch lap : Word) (sequence index undo line : Nat) (h1 : pad <
    256) (h2 : tag < 256) (h3 : sequence < 2 ^ 32) (h4 : index < 65536) (h5 : undo < 65536) (h6 : line < 2 ^ 40)
    (more : Bytes) :
    let slot := sealSlot (recordBody kind pad tag epoch lap sequence index undo line) more
    slotKindByte slot = kind ∧ slotPadLength slot = pad ∧ slotTag slot = tag ∧ slotEpoch slot = epoch ∧ slotLap slot = lap ∧ slotSequence slot = sequence ∧
      slotIndex slot = index ∧ slotUndoCount slot = undo ∧ slotLine slot = line := by
  have hl := recordBody_length kind pad tag epoch lap sequence index undo line
  have hs := fun off n hn => sealSlot_field _ more hl off n hn
  have body : recordBody kind pad tag epoch lap sequence index undo line =
    [kind] ++ (BitVec.ofNat 8 pad :: (BitVec.ofNat 8 tag :: (0#8 :: (leBytes 4 epoch.toNat ++ (leBytes 4 lap.toNat ++ (leBytes 4 sequence ++ (leBytes 2 index ++ (leBytes 2 undo ++ (zeroBytes 4 ++ (leBytes 5 line ++ zeroBytes 31)))))))))) := by
    unfold recordBody; simp only [List.append_assoc, List.cons_append, List.nil_append]
  refine ⟨?_, ?_, ?_, ?_, ?_, ?_, ?_, ?_, ?_⟩
  · rw [sealSlot_kind _ _ hl, body]; rfl
  · unfold slotPadLength; rw [hs _ _ (by omega), body, slotField_byte _ _ _ _ (by rfl)]; simp; omega
  · unfold slotTag; rw [hs _ _ (by omega), body]
    rw [show ∀ p : Bytes, [kind] ++ (BitVec.ofNat 8 pad :: p) = [kind, BitVec.ofNat 8 pad] ++ p from fun _ => rfl, slotField_byte _ _ _ _ (by rfl)]; simp; omega
  · unfold slotEpoch; rw [hs _ _ (by omega), body]
    rw [show ∀ p : Bytes, [kind] ++ (BitVec.ofNat 8 pad :: (BitVec.ofNat 8 tag :: (0#8 :: p))) = [kind, BitVec.ofNat 8 pad, BitVec.ofNat 8 tag, 0#8] ++ p from fun _ => rfl, slotField_bytes _ _ _ _ (by exact epoch.isLt) _ (by rfl)]; simp
  · unfold slotLap; rw [hs _ _ (by omega), body]
    rw [show ∀ p : Bytes, [kind] ++ (BitVec.ofNat 8 pad :: (BitVec.ofNat 8 tag :: (0#8 :: (leBytes 4 epoch.toNat ++ p)))) = ([kind, BitVec.ofNat 8 pad, BitVec.ofNat 8 tag, 0#8] ++ leBytes 4 epoch.toNat) ++ p from fun _ => by simp, slotField_bytes _ _ _ _ (by exact lap.isLt) _ (by simp [leBytes_length])]; simp
  · unfold slotSequence; rw [hs _ _ (by omega), body]
    rw [show ∀ p : Bytes, [kind] ++ (BitVec.ofNat 8 pad :: (BitVec.ofNat 8 tag :: (0#8 :: (leBytes 4 epoch.toNat ++ (leBytes 4 lap.toNat ++ p))))) = ([kind, BitVec.ofNat 8 pad, BitVec.ofNat 8 tag, 0#8] ++ leBytes 4 epoch.toNat ++ leBytes 4 lap.toNat) ++ p from fun _ => by simp, slotField_bytes _ _ _ _ (by omega) _ (by simp [leBytes_length])]
  · unfold slotIndex; rw [hs _ _ (by omega), body]
    rw [show ∀ p : Bytes, [kind] ++ (BitVec.ofNat 8 pad :: (BitVec.ofNat 8 tag :: (0#8 :: (leBytes 4 epoch.toNat ++ (leBytes 4 lap.toNat ++ (leBytes 4 sequence ++ p)))))) = ([kind, BitVec.ofNat 8 pad, BitVec.ofNat 8 tag, 0#8] ++ leBytes 4 epoch.toNat ++ leBytes 4 lap.toNat ++ leBytes 4 sequence) ++ p from fun _ => by simp, slotField_bytes _ _ _ _ (by omega) _ (by simp [leBytes_length])]
  · unfold slotUndoCount; rw [hs _ _ (by omega), body]
    rw [show ∀ p : Bytes, [kind] ++ (BitVec.ofNat 8 pad :: (BitVec.ofNat 8 tag :: (0#8 :: (leBytes 4 epoch.toNat ++ (leBytes 4 lap.toNat ++ (leBytes 4 sequence ++ (leBytes 2 index ++ p))))))) = ([kind, BitVec.ofNat 8 pad, BitVec.ofNat 8 tag, 0#8] ++ leBytes 4 epoch.toNat ++ leBytes 4 lap.toNat ++ leBytes 4 sequence ++ leBytes 2 index) ++ p from fun _ => by simp, slotField_bytes _ _ _ _ (by omega) _ (by simp [leBytes_length])]
  · unfold slotLine; rw [hs _ _ (by omega), body]
    rw [show ∀ p : Bytes, [kind] ++ (BitVec.ofNat 8 pad :: (BitVec.ofNat 8 tag :: (0#8 :: (leBytes 4 epoch.toNat ++ (leBytes 4 lap.toNat ++ (leBytes 4 sequence ++ (leBytes 2 index ++ (leBytes 2 undo ++ (zeroBytes 4 ++ p))))))))) = ([kind, BitVec.ofNat 8 pad, BitVec.ofNat 8 tag, 0#8] ++ leBytes 4 epoch.toNat ++ leBytes 4 lap.toNat ++ leBytes 4 sequence ++ leBytes 2 index ++ leBytes 2 undo ++ zeroBytes 4) ++ p from fun _ => by simp, slotField_bytes _ _ _ _ (by omega) _ (by simp [leBytes_length, zeroBytes])]

end Sys2Proof.Machine
end

