-- ==== Sys2Proof/Laws/Held.lean ====
section
/-! SUPPORT. What an event does never looks at the held request, which only the end of the event takes again (R81):
each operation answers the same of a state with another held request, and leaves that in place. -/

namespace Sys2Proof.Machine

variable (h : Option HostRequest)

/-- A state with its held request replaced (R81). -/
def State.holding (h : Option HostRequest) (s : State) : State :=
  { s with held := h }

/-- A fold of steps that never look at the held request. -/
theorem foldl_holding {α : Type} (h : Option HostRequest) (f : State → α → State)
    (hf : ∀ s a, f (s.holding h) a = State.holding h (f s a)) (l : List α) (s : State) :
    l.foldl f (s.holding h) = State.holding h (l.foldl f s) := by
  induction l generalizing s with
  | nil => rfl
  | cons a l ih => simp [hf, ih]

@[simp] theorem ite_holding {p : Prop} [Decidable p] (a b : State) :
    (if p then State.holding h a else State.holding h b) = State.holding h (if p then a else b) := by split <;> rfl

@[simp] theorem State.holding_resetLine (s : State) : (s.holding h).resetLine = s.resetLine := rfl
@[simp] theorem State.holding_controller (s : State) : (s.holding h).controller = s.controller := rfl
@[simp] theorem State.holding_formatJob (s : State) : (s.holding h).formatJob = s.formatJob := rfl
@[simp] theorem State.holding_ageLimit (s : State) : (s.holding h).ageLimit = s.ageLimit := rfl
@[simp] theorem State.holding_requests (s : State) : (s.holding h).requests = s.requests := rfl
@[simp] theorem State.holding_engine (s : State) : (s.holding h).engine = s.engine := rfl
@[simp] theorem State.holding_scanner (s : State) : (s.holding h).scanner = s.scanner := rfl
@[simp] theorem State.holding_outstanding (s : State) : (s.holding h).outstanding = s.outstanding := rfl
@[simp] theorem State.holding_joined (s : State) : (s.holding h).joined = s.joined := rfl

/-! ### The tables and the array port -/

@[simp] theorem State.size_holding (s : State) (p : PartId) : (s.holding h).size p = s.size p := (rfl)
@[simp] theorem State.capacity_holding (s : State) (p : PartId) : (s.holding h).capacity p = s.capacity p := (rfl)
@[simp] theorem State.enabled_holding (s : State) (p : PartId) : (s.holding h).enabled p = s.enabled p := (rfl)
@[simp] theorem State.slotAddr_holding (s : State) (p : PartId) (slot : Nat) :
    (s.holding h).slotAddr p slot = s.slotAddr p slot := (rfl)
@[simp] theorem State.part_holding (s : State) (p : PartId) : (s.holding h).part p = s.part p := (rfl)
@[simp] theorem State.setPart_holding (s : State) (p : PartId) (x : Partition) :
    (s.holding h).setPart p x = (s.setPart p x).holding h := (rfl)
@[simp] theorem State.modPart_holding (s : State) (p : PartId) (f : Partition → Partition) :
    (s.holding h).modPart p f = (s.modPart p f).holding h := (rfl)
@[simp] theorem State.journalRuns_holding (s : State) (p : PartId) :
    (s.holding h).journalRuns p = s.journalRuns p := (rfl)
@[simp] theorem State.group_holding (s : State) (t : Tag) : (s.holding h).group t = s.group t := (rfl)
@[simp] theorem State.setGroup_holding (s : State) (t : Tag) (g : Group) :
    (s.holding h).setGroup t g = (s.setGroup t g).holding h := (rfl)
@[simp] theorem State.modGroup_holding (s : State) (t : Tag) (f : Group → Group) :
    (s.holding h).modGroup t f = (s.modGroup t f).holding h := (rfl)
@[simp] theorem State.groupState_holding (s : State) (t : Tag) : (s.holding h).groupState t = s.groupState t := (rfl)
@[simp] theorem State.freeGroup_holding (s : State) (t : Tag) :
    (s.holding h).freeGroup t = (s.freeGroup t).holding h := (rfl)
@[simp] theorem State.claimOf_holding (s : State) (line : Addr) : (s.holding h).claimOf line = s.claimOf line := (rfl)
@[simp] theorem State.dropClaim_holding (s : State) (line : Addr) :
    (s.holding h).dropClaim line = (s.dropClaim line).holding h := (rfl)
@[simp] theorem State.entry_holding (s : State) (i : EntryId) : (s.holding h).entry i = s.entry i := (rfl)
@[simp] theorem State.modEntry_holding (s : State) (i : EntryId) (f : Entry → Entry) :
    (s.holding h).modEntry i f = (s.modEntry i f).holding h := (rfl)
@[simp] theorem State.dropEntry_holding (s : State) (i : EntryId) :
    (s.holding h).dropEntry i = (s.dropEntry i).holding h := (rfl)
@[simp] theorem State.finishEntry_holding (s : State) (e : Entry) (status : Status) (data : Bytes) :
    (s.holding h).finishEntry e status data = (s.finishEntry e status data).holding h := (rfl)
@[simp] theorem State.answerEarly_holding (s : State) (e : Entry) (status : Status) :
    (s.holding h).answerEarly e status = (s.answerEarly e status).holding h := (rfl)
@[simp] theorem State.issue_holding (s : State) (purpose : Purpose) (ref : Ref) (address : Addr)
    (length : Nat) (data : Bytes) :
    (s.holding h).issue purpose ref address length data = (s.issue purpose ref address length data).holding h :=
      (rfl)
@[simp] theorem State.recordOf_holding (s : State) (number : Word) :
    (s.holding h).recordOf number = s.recordOf number := (rfl)
@[simp] theorem State.forget_holding (s : State) (number : Word) :
    (s.holding h).forget number = (s.forget number).holding h := (rfl)
@[simp] theorem State.forgetScanner_holding (s : State) : (s.holding h).forgetScanner = s.forgetScanner.holding h :=
  (rfl)

/-! ### The flags, the incident list and the command status -/

@[simp] theorem State.raise_holding (s : State) (c : Cause) : (s.holding h).raise c = (s.raise c).holding h := (rfl)
@[simp] theorem State.log_holding (s : State) (i : Incident) : (s.holding h).log i = (s.log i).holding h := by
  unfold State.log
  by_cases hc : s.incidents.length < Config.incidentEntries
  · rw [if_pos hc, if_pos (show (s.holding h).incidents.length < _ from hc)]; rfl
  · rw [if_neg hc, if_neg (show ¬(s.holding h).incidents.length < _ from hc)]; rfl
@[simp] theorem State.enter_holding (s : State) (c : CtrlState) : (s.holding h).enter c = (s.enter c).holding h := (rfl)
@[simp] theorem State.takeStatus_holding (s : State) (echo : Option Command) :
    (s.holding h).takeStatus echo = (s.takeStatus echo).holding h := (rfl)
@[simp] theorem State.endDone_holding (s : State) : (s.holding h).endDone = s.endDone.holding h := (rfl)
@[simp] theorem State.endRefused_holding (s : State) (reason : Reason) :
    (s.holding h).endRefused reason = (s.endRefused reason).holding h := (rfl)
@[simp] theorem State.endOverlap_holding (s : State) (reason : Reason) (check : Option OverlapCheck)
    (first : PartId) (second : Nat) :
    (s.holding h).endOverlap reason check first second = (s.endOverlap reason check first second).holding h := (rfl)
@[simp] theorem State.endFailed_holding (s : State) (reason : Reason) (first : Option PartId) :
    (s.holding h).endFailed reason first = (s.endFailed reason first).holding h := (rfl)
@[simp] theorem State.operandTag_holding (s : State) : (s.holding h).operandTag = s.operandTag := (rfl)

/-! ### The journal engine -/

@[simp] theorem State.decideUndo_holding (s : State) (u : UndoRef) (old : Bytes) :
    (s.holding h).decideUndo u old = (s.decideUndo u old).holding h := by unfold State.decideUndo; simp
@[simp] theorem State.padUndo_holding (s : State) (u : UndoRef) :
    (s.holding h).padUndo u = (s.padUndo u).holding h := by unfold State.padUndo; simp
@[simp] theorem State.issueSlot_holding (s : State) (p : PartId) (slot : Nat) (contents : Bytes) :
    (s.holding h).issueSlot p slot contents = (s.issueSlot p slot contents).holding h := (rfl)
@[simp] theorem State.issueSlots_holding (p : PartId) (s : State) :
    (s.holding h).issueSlots p = (s.issueSlots p).holding h := by
  unfold State.issueSlots
  simp only [State.journalRuns_holding, State.part_holding, State.capacity_holding, State.setPart_holding]
  split
  · exact foldl_holding h _ (fun s a => by simp) _ _
  · rfl
@[simp] theorem State.placeClosing_holding (s : State) (t : Tag) (kind : SlotKind) (code : Byte) :
    (s.holding h).placeClosing t kind code = (s.placeClosing t kind code).holding h := by
  unfold State.placeClosing; split <;> simp_all
@[simp] theorem State.releaseReservation_holding (s : State) (p : PartId) :
    (s.holding h).releaseReservation p = (s.releaseReservation p).holding h := (rfl)
@[simp] theorem State.issueHeader_holding (s : State) (p : PartId) (w : HeaderWrite) :
    (s.holding h).issueHeader p w = (s.issueHeader p w).holding h := (rfl)
@[simp] theorem State.considerHeader_holding (s : State) (p : PartId) :
    (s.holding h).considerHeader p = (s.considerHeader p).holding h := by unfold State.considerHeader; simp
@[simp] theorem State.retire_holding (p : PartId) (s : State) : (s.holding h).retire p =
    (s.retire p).holding h := by
  unfold State.retire
  simp only [State.journalRuns_holding, State.part_holding, State.capacity_holding, State.setPart_holding,
    State.considerHeader_holding]
  split <;> rfl
@[simp] theorem State.memberOf_holding (s : State) (t : Tag) : (s.holding h).memberOf t = s.memberOf t := (rfl)

/-! ### The groups and the unwind engine -/

@[simp] theorem State.joinWaiting_holding (s : State) (t : Tag) :
    (s.holding h).joinWaiting t = (s.joinWaiting t).holding h := (rfl)
@[simp] theorem State.revokeFate_holding (s : State) (e : Entry) :
    (s.holding h).revokeFate e = (s.revokeFate e).holding h := by
  unfold State.revokeFate; (split <;> try split) <;> simp_all
@[simp] theorem State.members_holding (s : State) (t : Tag) : (s.holding h).members t = s.members t := (rfl)
@[simp] theorem State.startUnwind_holding (t : Tag) (o : UnwindOrigin) (c : Option RevokeCause) (s : State) :
    (s.holding h).startUnwind t o c = (s.startUnwind t o c).holding h := by
  unfold State.startUnwind
  simp only [State.members_holding, State.modGroup_holding]
  rw [foldl_holding h _ (fun s a => State.revokeFate_holding h s a), State.joinWaiting_holding]
@[simp] theorem State.revoke_holding (s : State) (t : Tag) (cause : RevokeCause) :
    (s.holding h).revoke t cause = (s.revoke t cause).holding h := by
  unfold State.revoke; split <;> split <;> simp_all
@[simp] theorem State.releaseClaims_holding (s : State) (t : Tag) :
    (s.holding h).releaseClaims t = (s.releaseClaims t).holding h := (rfl)
@[simp] theorem State.completeGroup_holding (s : State) (t : Tag) :
    (s.holding h).completeGroup t = (s.completeGroup t).holding h := by
  unfold State.completeGroup; split <;> split <;> simp_all
@[simp] theorem State.answerParked_holding (s : State) (t : Tag) (status : Status) :
    (s.holding h).answerParked t status = (s.answerParked t status).holding h := by
  unfold State.answerParked; split <;> split <;> simp_all
@[simp] theorem State.engineIdle_holding (s : State) : (s.holding h).engineIdle = s.engineIdle.holding h := (rfl)
@[simp] theorem State.endRetry_holding (t : Tag) (f : State → State)
    (hf : ∀ s, f (s.holding h) = State.holding h (f s)) (s : State) :
    (s.holding h).endRetry t f = (s.endRetry t f).holding h := by
  unfold State.endRetry
  by_cases hc : s.engine.retryTag = some t
  · simp only [State.holding_engine, hc, if_true]; exact hf { s with engine := { s.engine with retryTag := none } }
  · simp only [State.holding_engine, hc, if_false]
@[simp] theorem State.takeRestored_holding (s : State) (t : Tag) :
    (s.holding h).takeRestored t = (s.takeRestored t).holding h := by unfold State.takeRestored; simp
@[simp] theorem State.reportRestored_holding (s : State) (t : Tag) :
    (s.holding h).reportRestored t = (s.reportRestored t).holding h := by unfold State.reportRestored; simp
@[simp] theorem State.answerBrokenRead_holding (s : State) (e : Entry) :
    (s.holding h).answerBrokenRead e = (s.answerBrokenRead e).holding h := (rfl)
@[simp] theorem State.breakCommit_holding (s : State) (reads : List Entry) (t : Tag) :
    (s.holding h).breakCommit reads t = (s.breakCommit reads t).holding h := by unfold State.breakCommit; simp
@[simp] theorem State.waitingReads_holding (s : State) (t : Tag) :
    (s.holding h).waitingReads t = s.waitingReads t := (rfl)
theorem State.reportFailed_holding (t : Tag) (s : State) :
    (s.holding h).reportFailed t = (s.reportFailed t).holding h := by
  unfold State.reportFailed
  simp only [State.modGroup_holding, State.answerParked_holding, State.waitingReads_holding, State.holding_engine,
    State.memberOf_holding]
  rw [foldl_holding h _ (fun s a => State.answerBrokenRead_holding h s a),
    foldl_holding h _ (fun s a => State.breakCommit_holding h s _ a), State.log_holding, State.raise_holding,
    State.endRetry_holding h _ _ (fun s => State.endFailed_holding h s _ _)]
  exact State.engineIdle_holding h _
@[simp] theorem State.revokePartition_holding (p : PartId) (s : State) :
    (s.holding h).revokePartition p = (s.revokePartition p).holding h := by
  unfold State.revokePartition
  simp only [State.group_holding]
  exact foldl_holding h _ (fun s a => State.revoke_holding h s a _) _ _
@[simp] theorem State.faultPartition_holding (s : State) (p : PartId) (slot : Nat) :
    (s.holding h).faultPartition p slot = (s.faultPartition p slot).holding h := by
  unfold State.faultPartition; simp
@[simp] theorem State.modEngine_holding (s : State) (f : Engine → Engine) :
    (s.holding h).modEngine f = (s.modEngine f).holding h := (rfl)
@[simp] theorem State.takeGroup_holding (s : State) (t : Tag) (rest : List Tag) :
    (s.holding h).takeGroup t rest = (s.takeGroup t rest).holding h := (rfl)
@[simp] theorem State.groupSettled_holding (s : State) (t : Tag) :
    (s.holding h).groupSettled t = s.groupSettled t := (rfl)
@[simp] theorem State.restoreSetOf_holding (s : State) (t : Tag) :
    (s.holding h).restoreSetOf t = s.restoreSetOf t := (rfl)
@[simp] theorem State.restoresOver_holding (t : Tag) (s : State) :
    (s.holding h).restoresOver t = (s.restoresOver t).holding h := by
  unfold State.restoresOver
  simp only [State.group_holding, State.part_holding, State.holding_engine, State.placeClosing_holding,
    State.modEngine_holding, State.reportFailed_holding]
  cases (s.group t).partition <;> simp only <;> exact (ite_holding h _ _)
@[simp] theorem State.takeNextLine_holding (s : State) : (s.holding h).takeNextLine = s.takeNextLine.holding h := by
  unfold State.takeNextLine; simp only [State.holding_engine]
  cases s.engine.current with
  | none => rfl
  | some t => cases s.engine.restoreSet with
    | nil => exact State.restoresOver_holding h t s
    | cons c r => rfl
@[simp] theorem State.enterRestoring_holding (s : State) (t : Tag) :
    (s.holding h).enterRestoring t = (s.enterRestoring t).holding h := by unfold State.enterRestoring; simp
@[simp] theorem State.storesClear_holding (s : State) (line : Addr) :
    (s.holding h).storesClear line = s.storesClear line := (rfl)
@[simp] theorem State.issueUnwindRead_holding (s : State) (c : Claim) (attempt : Nat) :
    (s.holding h).issueUnwindRead c attempt = (s.issueUnwindRead c attempt).holding h := by
  unfold State.issueUnwindRead; split <;> simp_all
@[simp] theorem State.issueRestoreWrite_holding (s : State) (c : Claim) (data : Bytes) (attempt : Nat) :
    (s.holding h).issueRestoreWrite c data attempt = (s.issueRestoreWrite c data attempt).holding h := (rfl)
@[simp] theorem State.stopEngine_holding (s : State) : (s.holding h).stopEngine = s.stopEngine.holding h := (rfl)
@[simp] theorem State.lineEnded_holding (s : State) : (s.holding h).lineEnded = s.lineEnded.holding h := by
  unfold State.lineEnded; simp
@[simp] theorem State.lineFailed_holding (s : State) (c : Claim) :
    (s.holding h).lineFailed c = (s.lineFailed c).holding h := by unfold State.lineFailed; simp
@[simp] theorem State.unwindReadOutcome_holding (s : State) (o : PortOutcome) :
    (s.holding h).unwindReadOutcome o = (s.unwindReadOutcome o).holding h := by
  unfold State.unwindReadOutcome; split <;> split <;> simp_all
@[simp] theorem State.restoreWriteOutcome_holding (s : State) (o : PortOutcome) :
    (s.holding h).restoreWriteOutcome o = (s.restoreWriteOutcome o).holding h := by
  unfold State.restoreWriteOutcome; split <;> split <;> simp_all
@[simp] theorem State.engineTakes_holding (s : State) :
    (s.holding h).engineTakes = s.engineTakes.map (State.holding h) := by
  unfold State.engineTakes; split <;> simp_all
@[simp] theorem State.engineSettles_holding (s : State) :
    (s.holding h).engineSettles = s.engineSettles.map (State.holding h) := by
  unfold State.engineSettles; split <;> simp_all
@[simp] theorem State.engineReads_holding (s : State) :
    (s.holding h).engineReads = s.engineReads.map (State.holding h) := by
  unfold State.engineReads; split <;> simp_all
@[simp] theorem State.engineFails_holding (s : State) :
    (s.holding h).engineFails = s.engineFails.map (State.holding h) := by
  unfold State.engineFails
  simp only [State.holding_engine, State.group_holding, State.part_holding, State.reportFailed_holding]
  split
  · split
    · split <;> rfl
    · rfl
  · rfl
@[simp] theorem State.engineAdvance_holding (s : State) :
    (s.holding h).engineAdvance = s.engineAdvance.map (State.holding h) := by
  unfold State.engineAdvance
  simp only [State.holding_controller, State.engineFails_holding, State.engineTakes_holding,
    State.engineSettles_holding, State.engineReads_holding]
  split
  · rfl
  · cases s.engineFails <;> cases s.engineTakes <;> cases s.engineSettles <;> rfl

/-! ### The request table and the settling of an event -/

@[simp] theorem State.heldBack_holding (s : State) (e : Entry) : (s.holding h).heldBack e = s.heldBack e := (rfl)
@[simp] theorem State.closedTo_holding (s : State) (line : Addr) : (s.holding h).closedTo line = s.closedTo line :=
  (rfl)
@[simp] theorem State.issueHomeWrite_holding (s : State) (e : Entry) :
    (s.holding h).issueHomeWrite e = (s.issueHomeWrite e).holding h := (rfl)
@[simp] theorem State.issueAccess_holding (s : State) (e : Entry) :
    (s.holding h).issueAccess e = (s.issueAccess e).holding h := by
  unfold State.issueAccess; split <;> split <;> simp_all
@[simp] theorem State.leaveOrdered_holding (i : EntryId) (s : State) :
    (s.holding h).leaveOrdered i = (s.leaveOrdered i).holding h := by
  unfold State.leaveOrdered
  simp only [State.entry_holding, State.heldBack_holding, State.holding_controller, State.issueAccess_holding]
  cases s.entry i with
  | none => rfl
  | some e => exact ite_holding h _ _
@[simp] theorem State.leaveAll_holding (s : State) : (s.holding h).leaveAll = s.leaveAll.holding h := by
  unfold State.leaveAll
  simp only [State.holding_requests]
  exact foldl_holding h _ (fun s a => State.leaveOrdered_holding h a s) _ _
@[simp] theorem State.drained_holding (s : State) (t : Tag) : (s.holding h).drained t = s.drained t := (rfl)
@[simp] theorem State.drain_holding (s : State) (t : Tag) : (s.holding h).drain t = (s.drain t).holding h := by
  unfold State.drain; split <;> split <;> simp_all
@[simp] theorem State.drainAll_holding (s : State) : (s.holding h).drainAll = s.drainAll.holding h := by
  unfold State.drainAll; exact foldl_holding h _ (fun s a => State.drain_holding h s a) _ _
@[simp] theorem State.issueAll_holding (s : State) : (s.holding h).issueAll = s.issueAll.holding h := by
  unfold State.issueAll; exact foldl_holding h _ (fun s a => State.issueSlots_holding h a s) _ _
theorem State.settleRound_holding (s : State) :
    (s.holding h).settleRound = (s.settleRound.1.holding h, s.settleRound.2) := by
  unfold State.settleRound; rw [State.leaveAll_holding, State.drainAll_holding, State.engineAdvance_holding]
  generalize s.leaveAll.drainAll = x
  cases x.engineAdvance <;> rfl
theorem State.settleLoop_holding (n : Nat) (s : State) : (s.holding h).settleLoop n =
    (s.settleLoop n).holding h := by
  induction n generalizing s with
  | zero => simp only [State.settleLoop, State.leaveAll_holding, State.drainAll_holding, State.issueAll_holding]
  | succ n ih =>
    simp only [State.settleLoop, State.settleRound_holding, ih, State.issueAll_holding]
    exact ite_holding h _ _
@[simp] theorem State.quietHolds_holding (s : State) : (s.holding h).quietHolds = s.quietHolds := (rfl)
@[simp] theorem State.quietTest_holding (s : State) : (s.holding h).quietTest = s.quietTest.holding h := by
  unfold State.quietTest; split <;> split <;> simp_all
@[simp] theorem State.settle_holding (s : State) : (s.holding h).settle = s.settle.holding h := by
  unfold State.settle; rw [State.settleLoop_holding, State.quietTest_holding]
@[simp] theorem State.completeAccess_holding (s : State) (e : Entry) (data : Bytes) :
    (s.holding h).completeAccess e data = (s.completeAccess e data).holding h := by
  unfold State.completeAccess; split <;> first | rfl | (split <;> first | rfl | (split <;> rfl))
@[simp] theorem State.isCommitRequest_holding (s : State) (e : Entry) :
    (s.holding h).isCommitRequest e = s.isCommitRequest e := (rfl)
@[simp] theorem State.dropCommit_holding (s : State) (t : Tag) :
    (s.holding h).dropCommit t = (s.dropCommit t).holding h := (rfl)
@[simp] theorem State.readFailed_holding (s : State) (e : Entry) :
    (s.holding h).readFailed e = (s.readFailed e).holding h := by
  unfold State.readFailed; (split <;> try split) <;> simp_all
@[simp] theorem State.waiting_holding (s : State) (i : EntryId) (phase : Phase) :
    (s.holding h).waiting i phase = s.waiting i phase := (rfl)
@[simp] theorem State.hostReadOutcome_holding (s : State) (i : EntryId) (o : PortOutcome) :
    (s.holding h).hostReadOutcome i o = (s.hostReadOutcome i o).holding h := by
  unfold State.hostReadOutcome; split <;> split <;> simp_all
@[simp] theorem State.logHomeWrite_holding (s : State) (e : Entry) :
    (s.holding h).logHomeWrite e = (s.logHomeWrite e).holding h := by unfold State.logHomeWrite; split <;> simp
@[simp] theorem State.homeWriteFailed_holding (s : State) (e : Entry) :
    (s.holding h).homeWriteFailed e = (s.homeWriteFailed e).holding h := by
  unfold State.homeWriteFailed; (split <;> try split) <;> simp_all
@[simp] theorem State.homeWriteOutcome_holding (s : State) (i : EntryId) (o : PortOutcome) :
    (s.holding h).homeWriteOutcome i o = (s.homeWriteOutcome i o).holding h := by
  unfold State.homeWriteOutcome; split <;> split <;> simp_all
@[simp] theorem State.relying_holding (s : State) (t : Tag) (line : Addr) :
    (s.holding h).relying t line = s.relying t line := (rfl)
@[simp] theorem State.removeClaim_holding (s : State) (t : Tag) (line : Addr) :
    (s.holding h).removeClaim t line = (s.removeClaim t line).holding h := by
  unfold State.removeClaim; split <;> simp_all
@[simp] theorem State.afterRemoval_holding (t : Tag) (l : Bool) (s : State) :
    (s.holding h).afterRemoval t l = (s.afterRemoval t l).holding h := by
  unfold State.afterRemoval
  simp only [State.group_holding, State.freeGroup_holding, State.releaseReservation_holding,
    State.dropCommit_holding, State.revoke_holding]
  cases (s.group t).partition <;> simp only <;> (split <;> first | rfl | exact ite_holding h _ _)
@[simp] theorem State.captureRemoval_holding (e : Entry) (t : Tag) (s : State) :
    (s.holding h).captureRemoval e t = (s.captureRemoval e t).holding h := by
  unfold State.captureRemoval
  simp only [State.relying_holding, State.isCommitRequest_holding, State.finishEntry_holding]
  have hi : (s.holding h).isCommitRequest = s.isCommitRequest := rfl
  cases e.member <;> cases e.undo <;> simp only [State.log_holding, State.padUndo_holding,
    State.removeClaim_holding, hi] <;>
    rw [foldl_holding h _ (fun s a => State.finishEntry_holding h s a _ _)] <;> exact State.afterRemoval_holding h
      t _ _
@[simp] theorem State.captureFailed_holding (e : Entry) (s : State) :
    (s.holding h).captureFailed e = (s.captureFailed e).holding h := by
  unfold State.captureFailed
  have ha : (s.holding h).aliveGroup e = s.aliveGroup e := rfl
  rw [ha]
  cases s.aliveGroup e with
  | some t => exact State.captureRemoval_holding h e t s
  | none => cases e.undo <;> simp
@[simp] theorem State.captureReturned_holding (e : Entry) (d : Bytes) (s : State) :
    (s.holding h).captureReturned e d = (s.captureReturned e d).holding h := by
  unfold State.captureReturned
  cases e.undo <;> simp only [Option.elim, State.decideUndo_holding, State.dropEntry_holding,
    State.modEntry_holding] <;> exact ite_holding h _ _
@[simp] theorem State.captureOutcome_holding (s : State) (i : EntryId) (o : PortOutcome) :
    (s.holding h).captureOutcome i o = (s.captureOutcome i o).holding h := by
  unfold State.captureOutcome; split <;> split <;> simp_all
@[simp] theorem State.undoPassed_holding (p : PartId) (k : Nat) (i : RecordInfo) (s : State) :
    (s.holding h).undoPassed p k i = (s.undoPassed p k i).holding h := by
  unfold State.undoPassed; simp only [State.holding_requests]
  cases s.requests.find? (fun e => decide (e.phase = .logging) && decide (e.undo = some ⟨p, k⟩)) with
  | some e =>
    exact State.issueHomeWrite_holding h { s with claims := s.claims.map fun c => if c.tag = i.tag ∧ c.undoSlot = k
      then { c with logged := true } else c } e
  | none => rfl
@[simp] theorem State.commitPassed_holding (i : RecordInfo) (s : State) :
    (s.holding h).commitPassed i = (s.commitPassed i).holding h := by
  unfold State.commitPassed
  have ht : (s.holding h).takesCommit i = s.takesCommit i := rfl
  simp only [ht, State.completeGroup_holding]; exact ite_holding h _ _
@[simp] theorem State.unwoundPassed_holding (i : RecordInfo) (s : State) :
    (s.holding h).unwoundPassed i = (s.unwoundPassed i).holding h := by
  unfold State.unwoundPassed
  have ht : (s.holding h).takesUnwound i = s.takesUnwound i := rfl
  simp only [ht, State.reportRestored_holding]; exact ite_holding h _ _
@[simp] theorem State.handOn_holding (p : PartId) (x : Nat × Mark) (s : State) :
    (s.holding h).handOn p x = (s.handOn p x).holding h := by
  unfold State.handOn
  simp only [State.journalRuns_holding, State.undoPassed_holding, State.commitPassed_holding,
    State.unwoundPassed_holding]
  split
  · rfl
  · exact ite_holding h _ _
  · exact ite_holding h _ _
  · rfl
@[simp] theorem State.slotAcknowledged_holding (p : PartId) (k : Nat) (s : State) :
    (s.holding h).slotAcknowledged p k = (s.slotAcknowledged p k).holding h := by
  unfold State.slotAcknowledged
  simp only [State.part_holding, State.capacity_holding, State.modPart_holding]
  have ht : ∀ y : State, (State.holding h y).triggersRetirement = y.triggersRetirement := fun _ => rfl
  rw [foldl_holding h _ (fun s a => State.handOn_holding h p a s), ht, State.retire_holding]
  exact ite_holding h _ _
@[simp] theorem State.logRetried_holding (s : State) (p : PartId) (slot : Nat) (attempt : Nat)
    (record : Option RecordInfo) :
    (s.holding h).logRetried p slot attempt record = (s.logRetried p slot attempt record).holding h := by
  unfold State.logRetried; simp
@[simp] theorem State.slotOutcome_holding (s : State) (p : PartId) (slot : Nat) (o : PortOutcome) :
    (s.holding h).slotOutcome p slot o = (s.slotOutcome p slot o).holding h := by
  unfold State.slotOutcome; split <;> split <;> simp_all
@[simp] theorem State.headerAcknowledged_holding (p : PartId) (w : HeaderWrite) (s : State) :
    (s.holding h).headerAcknowledged p w = (s.headerAcknowledged p w).holding h := by
  unfold State.headerAcknowledged
  simp only [State.capacity_holding, State.modPart_holding, State.logRetried_holding, State.considerHeader_holding]
@[simp] theorem State.headerFailed_holding (s : State) (p : PartId) (w : HeaderWrite) :
    (s.holding h).headerFailed p w = (s.headerFailed p w).holding h := by unfold State.headerFailed; simp
@[simp] theorem State.headerOutcome_holding (s : State) (p : PartId) (o : PortOutcome) :
    (s.holding h).headerOutcome p o = (s.headerOutcome p o).holding h := by
  unfold State.headerOutcome; split <;> split <;> simp_all
@[simp] theorem State.modScanner_holding (s : State) (f : Scanner → Scanner) :
    (s.holding h).modScanner f = (s.modScanner f).holding h := (rfl)
@[simp] theorem State.clearScanner_holding (s : State) : (s.holding h).clearScanner = s.clearScanner.holding h := (rfl)

/-! ### Recovery and FORMAT -/

@[simp] theorem State.partitionsOff_holding (s : State) : (s.holding h).partitionsOff = s.partitionsOff.holding h :=
  (rfl)
@[simp] theorem State.startFailed_holding (s : State) (reason : Reason) :
    (s.holding h).startFailed reason = (s.startFailed reason).holding h := by unfold State.startFailed; simp
@[simp] theorem State.recoverySucceeds_holding (s : State) :
    (s.holding h).recoverySucceeds = s.recoverySucceeds.holding h := (rfl)
@[simp] theorem State.issueScanner_holding (s : State) (purpose : Purpose) (p : PartId) (slot : Nat)
    (data : Bytes) :
    (s.holding h).issueScanner purpose p slot data = (s.issueScanner purpose p slot data).holding h := (rfl)
@[simp] theorem State.issueHeaderRead_holding (s : State) (p : PartId) (copySlot : Nat) :
    (s.holding h).issueHeaderRead p copySlot = (s.issueHeaderRead p copySlot).holding h := (rfl)
@[simp] theorem State.takePartition_holding (s : State) (p : PartId) :
    (s.holding h).takePartition p = (s.takePartition p).holding h := (rfl)
@[simp] theorem State.takeFirst_holding (f : PartId → Bool) (s : State) :
    (s.holding h).takeFirst f = (s.takeFirst f).holding h := by
  unfold State.takeFirst
  simp only [State.enabled_holding, State.takePartition_holding, State.recoverySucceeds_holding]
  split <;> rfl
@[simp] theorem State.chooseHeader_holding (s : State) (p : PartId) (copy0 : Bytes) (copy1 : Bytes) :
    (s.holding h).chooseHeader p copy0 copy1 = (s.chooseHeader p copy0 copy1).holding h := by
  unfold State.chooseHeader; split <;> simp
@[simp] theorem State.headerReadOutcome_holding (p : PartId) (k : Nat) (o : PortOutcome) (s : State) :
    (s.holding h).headerReadOutcome p k o = (s.headerReadOutcome p k o).holding h := by
  unfold State.headerReadOutcome
  simp only [State.holding_scanner, State.modScanner_holding, State.issueHeaderRead_holding,
    State.startFailed_holding]
  split
  · cases o with
    | okay d => simp only; split
                · exact State.chooseHeader_holding h _ _ _ _
                · rfl
    | failed => simp only; exact ite_holding h _ _
  · rfl
@[simp] theorem State.issueRewrite_holding (s : State) (p : PartId) (generation : Word) (bytes : Bytes) :
    (s.holding h).issueRewrite p generation bytes = (s.issueRewrite p generation bytes).holding h := (rfl)
@[simp] theorem State.logUnwound_holding (p : PartId) (l : List RecoveryEntry) (s : State) (v : Word) :
    (s.holding h).logUnwound p l v = (s.logUnwound p l v).holding h := by
  unfold State.logUnwound; simp only [State.log_holding]; split <;> rfl
@[simp] theorem State.restoresDone_holding (p : PartId) (s : State) :
    (s.holding h).restoresDone p = (s.restoresDone p).holding h := by
  unfold State.restoresDone; simp only [State.holding_scanner]
  split
  · rw [foldl_holding h _ (fun s a => State.logUnwound_holding h p _ s a), State.modScanner_holding,
      State.issueRewrite_holding]
    rfl
  · rfl
@[simp] theorem State.headerRewriteOutcome_holding (s : State) (o : PortOutcome) :
    (s.holding h).headerRewriteOutcome o = (s.headerRewriteOutcome o).holding h := by
  unfold State.headerRewriteOutcome; split <;> split <;> simp_all
@[simp] theorem State.issueRecoveryRead_holding (s : State) (p : PartId) (e : RecoveryEntry) :
    (s.holding h).issueRecoveryRead p e = (s.issueRecoveryRead p e).holding h := (rfl)
@[simp] theorem State.issueRecoveryWrite_holding (s : State) (e : RecoveryEntry) (data : Bytes) :
    (s.holding h).issueRecoveryWrite e data = (s.issueRecoveryWrite e data).holding h := (rfl)
@[simp] theorem State.takeRestore_holding (p : PartId) (s : State) :
    (s.holding h).takeRestore p = (s.takeRestore p).holding h := by
  unfold State.takeRestore
  simp only [State.holding_scanner, State.modScanner_holding, State.issueRecoveryRead_holding,
    State.restoresDone_holding]
  split <;> rfl
@[simp] theorem State.enterRestore_holding (p : PartId) (s : State) :
    (s.holding h).enterRestore p = (s.enterRestore p).holding h := by
  unfold State.enterRestore; rw [State.modPart_holding, State.modScanner_holding, State.takeRestore_holding]
@[simp] theorem State.recoveryReadOutcome_holding (s : State) (o : PortOutcome) :
    (s.holding h).recoveryReadOutcome o = (s.recoveryReadOutcome o).holding h := by
  unfold State.recoveryReadOutcome; split <;> split <;> simp_all
@[simp] theorem State.recoveryWriteOutcome_holding (o : PortOutcome) (s : State) :
    (s.holding h).recoveryWriteOutcome o = (s.recoveryWriteOutcome o).holding h := by
  unfold State.recoveryWriteOutcome; simp only [State.holding_scanner]
  split
  · cases o with
    | okay d => simp only [State.modScanner_holding, State.takeRestore_holding]
    | failed =>
      simp only [State.modScanner_holding, State.issueRecoveryWrite_holding, State.startFailed_holding]
      exact ite_holding h _ _
  · rfl
@[simp] theorem State.voidNext_holding (p : PartId) (c : ChosenHeader) (q : Pos) (s : State) :
    (s.holding h).voidNext p c q = (s.voidNext p c q).holding h := by
  unfold State.voidNext
  simp only [State.capacity_holding, State.modScanner_holding, State.issueScanner_holding,
    State.enterRestore_holding]
  exact ite_holding h _ _
@[simp] theorem State.voidJudge_holding (p : PartId) (c : ChosenHeader) (q : Pos) (b : Bytes) (s : State) :
    (s.holding h).voidJudge p c q b = (s.voidJudge p c q b).holding h := by
  unfold State.voidJudge
  simp only [State.modScanner_holding, State.issueScanner_holding, State.voidNext_holding]
  exact ite_holding h _ _
@[simp] theorem State.voidReadOutcome_holding (o : PortOutcome) (s : State) :
    (s.holding h).voidReadOutcome o = (s.voidReadOutcome o).holding h := by
  unfold State.voidReadOutcome; simp only [State.holding_scanner]
  split
  · cases o with
    | okay d => simp only [State.voidJudge_holding]
    | failed =>
      simp only [State.modScanner_holding, State.issueScanner_holding, State.startFailed_holding]
      exact ite_holding h _ _
  · rfl
@[simp] theorem State.voidWriteOutcome_holding (o : PortOutcome) (s : State) :
    (s.holding h).voidWriteOutcome o = (s.voidWriteOutcome o).holding h := by
  unfold State.voidWriteOutcome; simp only [State.holding_scanner]
  split
  · cases o with
    | okay d => simp only [State.voidNext_holding]
    | failed =>
      simp only [State.modScanner_holding, State.issueScanner_holding, State.startFailed_holding]
      exact ite_holding h _ _
  · rfl
@[simp] theorem State.endScan_holding (p : PartId) (c : ChosenHeader) (q : Pos) (b : Bytes) (s : State) :
    (s.holding h).endScan p c q b = (s.endScan p c q b).holding h := by
  unfold State.endScan; rw [State.modScanner_holding, State.voidJudge_holding]
@[simp] theorem State.advanceScan_holding (s : State) (p : PartId) (chosen : ChosenHeader) (pos : Pos)
    (length : Nat) :
    (s.holding h).advanceScan p chosen pos length = (s.advanceScan p chosen pos length).holding h := by
  unfold State.advanceScan; simp
@[simp] theorem State.takeRecord_holding (p : PartId) (c : ChosenHeader) (q : Pos) (b : Bytes) (s : State) :
    (s.holding h).takeRecord p c q b = (s.takeRecord p c q b).holding h := by
  unfold State.takeRecord
  have hi : ∀ a, (s.holding h).inPartition a = s.inPartition a := fun _ => rfl
  simp only [State.holding_scanner, hi, State.modScanner_holding, State.advanceScan_holding,
    State.startFailed_holding]
  split
  · exact ite_holding h _ _
  · exact ite_holding h _ _
@[simp] theorem State.scanDecide_holding (p : PartId) (c : ChosenHeader) (q : Pos) (b d : Bytes) (s : State) :
    (s.holding h).scanDecide p c q b d = (s.scanDecide p c q b d).holding h := by
  unfold State.scanDecide
  simp only [State.size_holding, State.capacity_holding, State.takeRecord_holding, State.endScan_holding]
  exact ite_holding h _ _
@[simp] theorem State.scanReadOutcome_holding (o : PortOutcome) (s : State) :
    (s.holding h).scanReadOutcome o = (s.scanReadOutcome o).holding h := by
  unfold State.scanReadOutcome; simp only [State.holding_scanner, State.size_holding]
  split
  · cases o with
    | okay d =>
      simp only
      split
      · rw [State.modScanner_holding, State.scanDecide_holding]
      · rw [State.modScanner_holding, State.issueScanner_holding, State.scanDecide_holding]; exact ite_holding h _ _
    | failed =>
      simp only [State.modScanner_holding, State.issueScanner_holding, State.startFailed_holding]
      exact ite_holding h _ _
  · rfl
@[simp] theorem State.issueFormat_holding (s : State) (j : FormatJob) :
    (s.holding h).issueFormat j = (s.issueFormat j).holding h := (rfl)
@[simp] theorem State.formatOutcome_holding (o : PortOutcome) (s : State) :
    (s.holding h).formatOutcome o = (s.formatOutcome o).holding h := by
  unfold State.formatOutcome; simp only [State.holding_formatJob]
  split
  · rfl
  · cases o with
    | okay d =>
      simp only [State.issueFormat_holding]
      exact ite_holding h _ (State.endDone { s with formatJob := none })
    | failed =>
      simp only [State.issueFormat_holding]
      exact ite_holding h _ (State.endFailed .arrayError none { s with formatJob := none })

/-! ### The controller -/

@[simp] theorem State.start_holding (s : State) : (s.holding h).start = s.start.holding h := by
  unfold State.start
  have h1 : (s.holding h).partitionClash = s.partitionClash := rfl
  have h2 : (s.holding h).regionClash = s.regionClash := rfl
  simp only [h1, h2, State.holding_controller, State.endRefused_holding, State.endOverlap_holding,
    State.enter_holding, State.takeFirst_holding]
  split
  · rfl
  · cases s.partitionClash <;> cases s.regionClash <;> rfl
@[simp] theorem State.format_holding (s : State) : (s.holding h).format = s.format.holding h := by
  unfold State.format
  have h1 : (s.holding h).operandPartition = s.operandPartition := rfl
  have h2 : ∀ p, (s.holding h).formatClash p = s.formatClash p := fun _ => rfl
  have h3 : ∀ p, (s.holding h).formatRegionClash p = s.formatRegionClash p := fun _ => rfl
  have h4 : ∀ p, (s.holding h).newFormat p = s.newFormat p := fun _ => rfl
  simp only [h1, h2, h3, h4, State.endRefused_holding, State.holding_controller, State.enabled_holding,
    State.endOverlap_holding, State.issueFormat_holding]
  cases s.operandPartition with
  | none => rfl
  | some p =>
    simp only
    cases s.formatClash p <;> cases s.formatRegionClash p <;> simp only <;>
      (split <;> first | rfl | exact ite_holding h _ _)
@[simp] theorem State.quiesce_holding (s : State) : (s.holding h).quiesce = s.quiesce.holding h := by
  unfold State.quiesce; simp
@[simp] theorem State.resume_holding (s : State) : (s.holding h).resume = s.resume.holding h := by
  unfold State.resume; simp
@[simp] theorem State.restartSequence_holding (s : State) :
    (s.holding h).restartSequence = s.restartSequence.holding h := (rfl)
@[simp] theorem State.stop_holding (s : State) : (s.holding h).stop = s.stop.holding h := by
  unfold State.stop; simp
@[simp] theorem State.forceUnwind_holding (s : State) : (s.holding h).forceUnwind = s.forceUnwind.holding h := by
  unfold State.forceUnwind; split <;> simp_all
@[simp] theorem State.groupPartFaulted_holding (s : State) (t : Tag) :
    (s.holding h).groupPartFaulted t = s.groupPartFaulted t := (rfl)
@[simp] theorem State.retryGroup_holding (s : State) (t : Tag) :
    (s.holding h).retryGroup t = (s.retryGroup t).holding h := (rfl)
@[simp] theorem State.retryUnwind_holding (s : State) : (s.holding h).retryUnwind = s.retryUnwind.holding h := by
  unfold State.retryUnwind; split <;> simp_all
@[simp] theorem State.clearIncidents_holding (s : State) :
    (s.holding h).clearIncidents = s.clearIncidents.holding h := (rfl)
@[simp] theorem State.endRunning_holding (s : State) : (s.holding h).endRunning = s.endRunning.holding h := by
  unfold State.endRunning
  have h1 : (s.holding h).running = s.running := rfl
  simp only [h1, State.holding_controller, State.startFailed_holding]
  split
  · rfl
  · exact ite_holding h (State.endFailed .shutdown none
      { s with formatJob := none, engine := { s.engine with retryTag := none } }) _
@[simp] theorem State.powerDown_holding (s : State) (e : Entry) :
    (s.holding h).powerDown e = (s.powerDown e).holding h := by unfold State.powerDown; simp
@[simp] theorem State.shutdownFate_holding (s : State) (commit : Entry → Bool) (e : Entry) :
    (s.holding h).shutdownFate commit e = (s.shutdownFate commit e).holding h := by unfold State.shutdownFate; simp
@[simp] theorem State.dropRequests_holding (s : State) : (s.holding h).dropRequests = s.dropRequests.holding h := (rfl)
@[simp] theorem State.stopUnwinding_holding (s : State) :
    (s.holding h).stopUnwinding = s.stopUnwinding.holding h := by unfold State.stopUnwinding; simp
@[simp] theorem State.enterShutdown_holding (s : State) :
    (s.holding h).enterShutdown = s.enterShutdown.holding h := by
  unfold State.enterShutdown
  have h1 : (s.holding h).isCommitRequest = s.isCommitRequest := rfl
  simp only [State.endRunning_holding, State.enter_holding, State.raise_holding, h1, State.holding_requests]
  rw [foldl_holding h _ (fun s a => State.shutdownFate_holding h s _ a), State.dropRequests_holding,
    State.stopUnwinding_holding]
@[simp] theorem State.powerFail_holding (s : State) : (s.holding h).powerFail = s.powerFail.holding h := by
  unfold State.powerFail
  dsimp only
  by_cases h1 : s.resetLine = true
  · rw [if_pos h1, if_pos (show (s.holding h).resetLine = true from h1)]; rfl
  · rw [if_neg h1, if_neg (show ¬(s.holding h).resetLine = true from h1)]
    by_cases h2 : s.controller = .shutdown
    · rw [if_pos h2, if_pos (show (s.holding h).controller = .shutdown from h2)]; rfl
    · rw [if_neg h2, if_neg (show ¬(s.holding h).controller = .shutdown from h2)]
      exact State.enterShutdown_holding h { s with pfwLine := true }
@[simp] theorem State.testPowerFail_holding (b : Bool) (s : State) :
    (s.holding h).testPowerFail b = (s.testPowerFail b).holding h := by
  unfold State.testPowerFail; split
  · exact State.enterShutdown_holding h { s with pfwLine := b }
  · rfl
@[simp] theorem State.clearRun_holding (s : State) : (s.holding h).clearRun = s.clearRun.holding h := (rfl)
@[simp] theorem State.softReset_holding (s : State) (pfw : Bool) :
    (s.holding h).softReset pfw = (s.softReset pfw).holding h := by unfold State.softReset; simp
@[simp] theorem State.releaseReset_holding (a b : Bool) (s : State) :
    (s.holding h).releaseReset a b = (s.releaseReset a b).holding h := by
  unfold State.releaseReset
  by_cases h1 : s.resetLine
  · simp only [State.holding_resetLine, h1, if_true]
    exact State.testPowerFail_holding h a
      { s with resetLine := false, link := { s.link with frame := (Link.afterReset b).frame } }
  · simp only [State.holding_resetLine, h1]; rfl
@[simp] theorem State.runCommand_holding (s : State) (c : Command) (pfw : Bool) :
    (s.holding h).runCommand c pfw = (s.runCommand c pfw).holding h := by unfold State.runCommand; split <;> simp
@[simp] theorem State.takeKnown_holding (s : State) (c : Command) (pfw : Bool) :
    (s.holding h).takeKnown c pfw = (s.takeKnown c pfw).holding h := by unfold State.takeKnown; simp
@[simp] theorem State.takeCommand_holding (s : State) (code : Nat) (pfw : Bool) :
    (s.holding h).takeCommand code pfw = (s.takeCommand code pfw).holding h := by
  unfold State.takeCommand; split <;> simp

/-! ### The array port and the tick -/

@[simp] theorem State.deliver_holding (r : PortRecord) (o : PortOutcome) (s : State) :
    (s.holding h).deliver r o = (s.deliver r o).holding h := by
  unfold State.deliver
  simp only [State.hostReadOutcome_holding, State.captureOutcome_holding, State.homeWriteOutcome_holding,
    State.slotOutcome_holding, State.headerOutcome_holding, State.unwindReadOutcome_holding,
    State.restoreWriteOutcome_holding, State.headerReadOutcome_holding, State.scanReadOutcome_holding,
    State.voidReadOutcome_holding, State.voidWriteOutcome_holding, State.recoveryReadOutcome_holding,
    State.recoveryWriteOutcome_holding, State.headerRewriteOutcome_holding, State.formatOutcome_holding]
  split <;> rfl
@[simp] theorem State.report_holding (r : PortRecord) (o : PortOutcome) (s : State) :
    (s.holding h).report r o = (s.report r o).holding h := by
  unfold State.report; simp only [State.deliver_holding, State.settle_holding]; exact ite_holding h _ _
@[simp] theorem State.takeResponse_holding (n : Word) (a : ArrayResult) (s : State) :
    (s.holding h).takeResponse n a = (s.takeResponse n a).holding h := by
  unfold State.takeResponse
  simp only [State.recordOf_holding, State.forget_holding, State.report_holding]
  split <;> rfl
@[simp] theorem State.timeoutIncident_holding (s : State) (r : PortRecord) :
    (s.holding h).timeoutIncident r = s.timeoutIncident r := (rfl)
@[simp] theorem State.timeOut_holding (s : State) (r : PortRecord) :
    (s.holding h).timeOut r = (s.timeOut r).holding h := by unfold State.timeOut; simp
@[simp] theorem State.timeOutNumber_holding (s : State) (n : Word) :
    (s.holding h).timeOutNumber n = (s.timeOutNumber n).holding h := by
  unfold State.timeOutNumber
  have h1 : (s.holding h).expiredOf n = s.expiredOf n := rfl
  simp only [h1, State.timeOut_holding, State.report_holding]; split <;> rfl
@[simp] theorem State.handOver_holding (s : State) : (s.holding h).handOver = s.handOver.holding h := (rfl)
@[simp] theorem State.engineInTick_holding (s : State) :
    (s.holding h).engineInTick = s.engineInTick.map (State.holding h) := by
  unfold State.engineInTick; simp; split <;> rfl
@[simp] theorem State.engineGoesOn_holding (n : Nat) (s : State) :
    (s.holding h).engineGoesOn n = (s.engineGoesOn n).holding h := by
  induction n generalizing s with
  | zero => rfl
  | succ n ih => simp only [State.engineGoesOn, State.engineInTick_holding]; cases s.engineInTick with
    | none => rfl
    | some x => exact ih x
@[simp] theorem State.timeOutInTick_holding (s : State) (n : Word) :
    (s.holding h).timeOutInTick n = (s.timeOutInTick n).holding h := by
  unfold State.timeOutInTick
  have h1 : (s.holding h).expiredOf n = s.expiredOf n := rfl
  simp only [h1, State.timeOut_holding, State.deliver_holding, State.engineGoesOn_holding]; split <;> rfl
@[simp] theorem State.tickPort_holding (s : State) : (s.holding h).tickPort = s.tickPort.holding h := by
  unfold State.tickPort; simp only [State.holding_outstanding]
  exact foldl_holding h _ (fun s a => State.timeOutInTick_holding h s a) _
    { s with outstanding := s.outstanding.map PortRecord.tick }
@[simp] theorem State.expire_holding (s : State) (t : Tag) : (s.holding h).expire t = (s.expire t).holding h := by
  unfold State.expire; split <;> split <;> simp_all
@[simp] theorem State.tickGroup_holding (s : State) (t : Tag) :
    (s.holding h).tickGroup t = (s.tickGroup t).holding h := by unfold State.tickGroup; simp
@[simp] theorem State.tickGroups_holding (s : State) : (s.holding h).tickGroups = s.tickGroups.holding h := by
  unfold State.tickGroups; simp only [State.holding_controller]
  rw [foldl_holding h _ (fun s a => State.tickGroup_holding h s a)]; exact ite_holding h _ _
@[simp] theorem State.tick_holding (s : State) : (s.holding h).tick = s.tick.holding h := by
  unfold State.tick
  exact (congrArg (fun x => (State.tickGroups x).settle) (State.tickPort_holding h
    { s with tickCounter := s.tickCounter + 1, divisionCount := 0 })).trans
      (by rw [State.tickGroups_holding, State.settle_holding])

/-! ### The window and the link -/

@[simp] theorem State.writeField_holding (s : State) (f : Field) (v : Nat) :
    (s.holding h).writeField f v = (s.writeField f v).holding h := by unfold State.writeField; split <;> rfl
@[simp] theorem State.assembled_holding (s : State) (f : Field) (start : Nat) (first : Nat) (data : Bytes) :
    (s.holding h).assembled f start first data = s.assembled f start first data := (rfl)
@[simp] theorem State.writeByteStep_holding (s : State) (first : Nat) (data : Bytes) (a : Nat) :
    (s.holding h).writeByteStep first data a = (s.writeByteStep first data a).holding h := by
  unfold State.writeByteStep; split <;> simp
@[simp] theorem State.writeRange_holding (a : Nat) (d : Bytes) (s : State) :
    (s.holding h).writeRange a d = (s.writeRange a d).holding h := by
  unfold State.writeRange; exact foldl_holding h _ (fun s k => State.writeByteStep_holding h s a d k) _ _
@[simp] theorem State.frameStatus_holding (s : State) (l : Link) : (s.holding h).frameStatus l = s.frameStatus l :=
  (rfl)
@[simp] theorem State.endFrame_holding (s : State) (l : Link) (status : FrameStatus) :
    (s.holding h).endFrame l status = (s.endFrame l status).holding h := by unfold State.endFrame; split <;> rfl
@[simp] theorem State.applyFrame_holding (s : State) (l : Link) (pfw : Bool) :
    (s.holding h).applyFrame l pfw = (s.applyFrame l pfw).holding h := by unfold State.applyFrame; split <;> simp
@[simp] theorem State.mselRises_holding (s : State) (l : Link) (pfw : Bool) :
    (s.holding h).mselRises l pfw = (s.mselRises l pfw).holding h := by
  unfold State.mselRises; split <;> first | rfl | (split <;> first | rfl | simp)
@[simp] theorem State.frameStart_holding (s : State) (opens : Bool) :
    (s.holding h).frameStart opens = s.frameStart opens := (rfl)
@[simp] theorem State.drive_holding (s : State) (out : List Bool) :
    (s.holding h).drive out = (s.drive out).holding h := (rfl)
@[simp] theorem State.frameBytes_holding (s : State) (opens : Bool) (bytes : Bytes) :
    (s.holding h).frameBytes opens bytes = s.frameBytes opens bytes := (rfl)
@[simp] theorem State.linkFrame_holding (s : State) (piece : Piece) (bytes : Bytes) (pfw : Bool) :
    (s.holding h).linkFrame piece bytes pfw = (s.linkFrame piece bytes pfw).holding h := by
  unfold State.linkFrame; split <;> first | rfl | simp
@[simp] theorem State.commandEvent_holding (s : State) (code : Byte) (pfw : Bool) :
    (s.holding h).commandEvent code pfw = (s.commandEvent code pfw).holding h := by unfold State.commandEvent; simp

/-! ### The events -/

@[simp] theorem State.whenever_holding (c : Bool) (f : State → State)
    (hf : ∀ s, f (s.holding h) = State.holding h (f s)) (s : State) :
    (s.holding h).whenever c f = (s.whenever c f).holding h := by
  unfold State.whenever; rw [hf, State.settle_holding]; exact ite_holding h _ _
@[simp] theorem State.canLeave_holding (s : State) (i : EntryId) : (s.holding h).canLeave i = s.canLeave i := (rfl)
@[simp] theorem State.canDrain_holding (s : State) (t : Tag) : (s.holding h).canDrain t = s.canDrain t := (rfl)
@[simp] theorem State.engineEvent_holding (f : State → Option State)
    (hf : ∀ s, f (s.holding h) = (f s).map (State.holding h)) (s : State) :
    (s.holding h).engineEvent f = (s.engineEvent f).holding h := by
  unfold State.engineEvent; simp only [State.holding_controller, hf]; split
  · rfl
  · cases f s with
    | none => rfl
    | some x => exact State.settle_holding h x

/-- The end of an event whose effect never looks at the held request: of a state that holds `r`, its outcome is the
event's without the held request, followed by the retake where R81 has it. -/
theorem State.event_held (f : State → State)
    (hf : ∀ (h : Option HostRequest) (s : State), f (s.holding h) = (f s).holding h) (s : State)
    (r : HostRequest) (hs : s.held = some r) :
    ∃ t, State.event f (s.holding none) = .next t ∧ s.event f = .next
      (if t.freeEntry.isSome = true ∨ t.controller ≠ s.controller then t.intake r else t.holding (some r)) := by
  have h1 : s.begin = ((s.holding none).begin).holding (some r) := by
    cases s; cases hs; rfl
  have h2 : f (s.holding none).begin = (f (s.holding none).begin).holding none :=
    hf none ((s.holding none).begin)
  refine ⟨f (s.holding none).begin, ?_, ?_⟩
  · have h3 : (f (s.holding none).begin).retakeHeld = f (s.holding none).begin := by rw [h2]; rfl
    simp only [State.event, State.endEvent, h3, ite_self]
  · simp only [State.event, h1, hf]
    generalize f (s.holding none).begin = x at h2 ⊢
    have h3 : (x.holding (some r)).retakeHeld = x.intake r := by rw [h2]; rfl
    have h4 : (x.holding (some r)).endEvent s.controller =
        if (x.freeEntry.isSome || decide (x.controller ≠ s.controller)) = true then (x.holding (some r)).retakeHeld
        else x.holding (some r) := rfl
    rw [h4, h3]
    simp only [Bool.or_eq_true, decide_eq_true_eq]

end Sys2Proof.Machine
end

