-- ==== Sys2Proof/Tests/Slice0.lean ====
section
/-! SUPPORT. Tests: what WellFormed refuses, the check values and frames of the manual, single steps of its worked
examples, and for each statement a state and operands that meet its hypotheses. -/

namespace Sys2Proof.Tests

-- One theorem at a time: many kernel evaluations at once would need more threads than memory has room for.
set_option Elab.async false

open Sys2Proof Sys2Proof.Machine

/-! ### Helpers -/

/-- A command answers a next state of which `f` holds. -/
def after (c : Instr) (s : State) (f : State → Bool) : Bool :=
  match exec c s with
  | .next t => f t
  | .fault _ => false
  | .refused _ => false

/-- An ACTIVE part: partition 0 is READY and one unit long, unit 1 is GUARDED, unit 2 SHARED, unit 3 unprotected. -/
def on : State :=
  { State.reset with
    controller := .active
    geometry := State.reset.geometry.set 0 ⟨16, 1⟩
    regions := (State.reset.regions.set 0 ⟨1, 1, .guarded, true⟩).set 1 ⟨2, 1, .shared, true⟩
    partitions := State.reset.partitions.set 0 (readyPartition 7 1 ⟨2, 1⟩) }

/-- A one-byte write. -/
def wr (a : Addr) (tag : BitVec 4) (intent : BitVec 2) : HostRequest :=
  ⟨9, .write, a, 1, [0xAA], tag, intent⟩

/-- A one-byte read. -/
def rd (a : Addr) (tag : BitVec 4) (intent : BitVec 2) : HostRequest :=
  ⟨9, .read, a, 1, [], tag, intent⟩

/-- A group with one claim in partition 0. -/
def member (st : GroupState) : Group :=
  ⟨st, some 1, some 0, 1, some 1, 0, none, none, none, none⟩

/-- The part with group 1 in a state, claiming line 0x1000. -/
def claimed (st : GroupState) : State :=
  { on with groups := on.groups.set 0 (member st), claims := [⟨0x1000, 0, true, 1, 2⟩] }

/-- An entry on line 0x1000. -/
def entry (i : EntryId) (path : Path) (phase : Phase) : Entry :=
  ⟨i, wr 0x1000 0 0, 0x1000, path, phase, none, none, false, none, none⟩

/-- The part with every entry of the request table occupied by a store to line 0x3000. -/
def full : State :=
  { on with requests := (List.finRange 32).map (fun i => { entry i .unjournaled .storing with line := 0x3000 }) }

/-- An outstanding record that has been handed over. -/
def sent (n : Word) (purpose : Purpose) (ref : Ref) : PortRecord :=
  ⟨n, purpose, ref, 0x1000, 64, [], true, 0, 0⟩

/-! ### WellFormed refuses ill-formed terms -/

theorem test_request_of_length_0_is_ill_formed :
    (Instr.hostRequest ⟨9, .read, 0x1000, 0, [], 0, 0⟩).wellFormed = false := by decide

theorem test_request_of_length_65_is_ill_formed :
    (Instr.hostRequest ⟨9, .read, 0x1000, 65, [], 0, 0⟩).wellFormed = false := by decide

theorem test_write_with_missing_data_is_ill_formed :
    (Instr.hostRequest ⟨9, .write, 0x1000, 2, [1], 0, 0⟩).wellFormed = false := by decide

theorem test_read_with_data_is_ill_formed :
    (Instr.hostRequest ⟨9, .read, 0x1000, 1, [1], 0, 0⟩).wellFormed = false := by decide

theorem test_request_of_length_64_is_well_formed :
    (Instr.hostRequest ⟨9, .read, 0x1000, 64, [], 0, 0⟩).wellFormed = true := by decide

theorem test_response_of_65_bytes_is_ill_formed :
    (Instr.hostReadDone 0 (.okay (List.replicate 65 0))).wellFormed = false := by decide

theorem test_code_of_a_command_is_no_unknown_command : (Instr.unknownCommand 9).wellFormed = false := by decide

theorem test_read_kind_is_no_bad_kind : (Instr.badKindFrame [0x3C] ⟨true, 0, true⟩).wellFormed = false := by decide

theorem test_write_kind_is_no_bad_kind : (Instr.badKindFrame [0xC3] ⟨true, 0, true⟩).wellFormed = false := by decide

theorem test_malformed_request_is_refused :
    exec (.hostRequest ⟨9, .read, 0x1000, 0, [], 0, 0⟩) on = .refused .malformedRequest := rfl

/-! ### Check values and example frames (R197, R198 and section 11.3 give each result) -/

/-- The nine ASCII digits 1 to 9. -/
def digits : Bytes := [0x31, 0x32, 0x33, 0x34, 0x35, 0x36, 0x37, 0x38, 0x39]

theorem test_journal_check_of_digits : journalCheck digits = 0xE3069283 := by decide +kernel

theorem test_link_check_of_digits : linkCheck digits = 0xF4 := by decide +kernel

theorem test_link_check_of_zeros : linkCheck [0, 0, 0, 0] = 0 := by decide +kernel

theorem test_header_check_of_read_example : linkCheck [0x3C, 0x00, 0x10, 0x04] = 0x0A := by decide +kernel

theorem test_header_check_of_write_example : linkCheck [0xC3, 0x00, 0x02, 0x02] = 0xB4 := by decide +kernel

theorem test_data_check_of_write_example : linkCheck [0x00, 0x02] = 0x0E := by decide +kernel

/-- Section 11.3's first example: 80 edges, the four counter bytes and their check after five low bytes. -/
theorem test_read_frame_returns_counter :
    after (.readFrame [0x00, 0x10, 0x04, 0x0A, 0, 0, 0, 0, 0] ⟨true, 0, true⟩) { on with tickCounter := 0x01020304 }
      (fun t => t.mdo.take 72 == lowBits 40 ++ bitsOf [4, 3, 2, 1] && t.link.bitCount == 80 &&
        t.link.lastFrame == .ok) = true := by decide +kernel

/-- R176: a frame cut three edges into its first data byte drives that byte's three first bits. -/
theorem test_cut_byte_drives_its_first_bits :
    after (.readFrame [0x00, 0x10, 0x04, 0x0A] ⟨true, 3, true⟩) { on with tickCounter := 0xA0 }
      (fun t => t.mdo == lowBits 40 ++ [true, false, true] && t.link.lastFrame == .short) = true := by decide +kernel

/-- R172, R176: three edges of a byte are counted and MDO carries their bits although no edge of the byte follows, and
the reset line that then cuts the frame finds them counted. -/
theorem test_edges_of_unfinished_byte_are_counted :
    after (.readFrame [0x00, 0x10, 0x04, 0x0A] ⟨true, 3, false⟩) { on with tickCounter := 0xA0 }
      (fun t => t.mdo == lowBits 40 ++ [true, false, true] && t.link.bitCount == 43 && t.link.frame == .data &&
        after (.resetLineAssert true) t (fun u => u.link.frame == .discarding && u.mdo == [])) = true := by
  decide +kernel

/-- R174, R176: the rest of a read frame drives the snapshot that its header took, whatever happened in between. -/
theorem test_rest_of_read_frame_drives_snapshot :
    after (.readFrame [0, 0, 0, 0, 0] ⟨false, 0, true⟩)
      { on with link := ⟨.data, 40, [0x3C, 0x00, 0x10, 0x04, 0x0A], none, some [4, 3, 2, 1], [], .ok⟩ }
      (fun t => t.mdo == bitsOf [4, 3, 2, 1, linkCheck [4, 3, 2, 1]] && t.link.lastFrame == .ok) = true := by
  decide +kernel

/-- Section 11.3's second example: FORMAT of partition 0 is taken. -/
theorem test_write_frame_takes_format :
    after (.writeFrame [0x00, 0x02, 0x02, 0xB4, 0x00, 0x02, 0x0E] ⟨true, 0, true⟩ false) { on with controller := .config }
      (fun t => t.cmdStatus.outcome == .running && t.cmdStatus.echo == some .format && t.operand == 0 &&
        (t.outstanding.map (·.address)) == [0x10040]) = true := by decide +kernel

/-- Section 9.10, event 5: a claim limit of 2000 is stored as 1024. -/
theorem test_claim_limit_is_cut :
    (State.reset.writeRange 0x01C [0xD0, 0x07]).claimLimit = 1024 := by decide +kernel

/-- Section 9.10, event 6: a command while FORMAT is RUNNING is COMMAND_BUSY and the operand stays. -/
theorem test_command_while_running_is_busy :
    after (.writeFrame [0x00, 0x02, 0x02, 0xB4, 0x01, 0x02, linkCheck [0x01, 0x02]] ⟨true, 0, true⟩ false)
      { State.reset with cmdStatus := ⟨.running, none, none, none, none, some .format, some 0⟩ }
      (fun t => t.link.lastFrame == .commandBusy && t.operand == 0 && t.flags == 0x040) = true := by decide +kernel

/-! ### Single steps of the worked examples -/

/-- The part of section 1.12 before its first event. -/
def beforeExample : State :=
  { State.reset with
    controller := .active, ageLimit := 500, seqCounter := 41
    geometry := State.reset.geometry.set 1 ⟨16, 1⟩
    regions := State.reset.regions.set 0 ⟨0x40000, 1, .guarded, true⟩
    tagMap := State.reset.tagMap.set 2 1
    partitions := State.reset.partitions.set 1 (readyPartition 7 1 ⟨14, 2⟩) }

/-- The write of event 1 of section 1.12, and its group's entry after it. -/
theorem test_first_write_opens_group :
    after (.hostRequest ⟨0x21, .write, 0x40000108, 8, List.replicate 8 0, 3, 0⟩) beforeExample
      (fun t => t.group 2 == ⟨.opened, some 41, some 1, 1, some 1, 0, none, none, none, none⟩ &&
        t.claims == [⟨0x40000100, 2, false, 1, 14⟩] && t.seqCounter == 42 && (t.part 1).head == ⟨16, 2⟩ &&
        (t.part 1).reserved == 1) = true := by decide +kernel

/-- Event 16 of section 1.12: the COMMIT record is acknowledged, the group is FREE, and the tail moves from 14 to 19. -/
theorem test_commit_completes :
    after (.slotWriteDone 0 (.okay []))
      { beforeExample with
        groups := beforeExample.groups.set 2 ⟨.sealing, some 41, some 1, 2, some 2, 2, none, none, some 0, none⟩
        claims := [⟨0x40000100, 2, true, 1, 14⟩, ⟨0x40000140, 2, true, 2, 16⟩]
        requests := [⟨0, ⟨0x24, .write, 0x40000160, 8, List.replicate 8 0, 3, 1⟩, 0x40000140, .ownClaim,
          .awaitOutcome, some 2, none, false, none, some ⟨2, 41, 1⟩⟩]
        outstanding := [⟨0, .slotWrite, .slot 1 18, 0x10480, 64, [], true, 0, 0⟩], issueCounter := 1
        partitions := beforeExample.partitions.set 1
          { readyPartition 7 1 ⟨14, 2⟩ with
            head := ⟨19, 2⟩, spans := [⟨some 41, 5⟩]
            marks := List.replicate 4 ⟨.undoData, .acknowledged, 1, [], none⟩ ++
              [⟨.commit, .inFlight, 1, [], some ⟨2, 41, 2, none⟩⟩] } }
      (fun t => t.group 2 == .cleared && t.claims == [] && t.requests == [] &&
        t.responses == [⟨0x24, .committed, []⟩] && (t.part 1).workingTail == ⟨19, 2⟩ &&
        (t.outstanding.map (·.purpose)) == [.headerWrite]) = true := by decide +kernel

/-- Event 6 of section 8.7: the tick times record 500 out, ARRAY_TIMEOUT is logged, and the host is told. -/
theorem test_tick_times_out :
    after .tick
      { on with
        requests := [⟨4, ⟨0x11, .read, 0x3000, 16, [], 0, 0⟩, 0x3000, .read, .loading, none, none, false, none, none⟩]
        outstanding := [⟨500, .hostRead, .entry 4, 0x3000, 16, [], true, 2, 3⟩], issueCounter := 503 }
      (fun t => t.outstanding == [] && t.responses == [⟨0x11, .arrayError, []⟩] && t.requests == [] &&
        (t.incidents.map (·.kind)) == [.arrayTimeout] && (t.incidents.map (·.line)) == [some 0x3000]) = true := by
  decide +kernel

/-- R2: the sequence counter wraps from 0xFFFFFFFF to 1. -/
theorem test_sequence_counter_wraps :
    after (.hostRequest (wr 0x1000 1 0)) { on with seqCounter := 0xFFFFFFFF }
      (fun t => t.seqCounter == 1 && (t.group 0).sequence == some 0xFFFFFFFF) = true := by decide +kernel

/-- R7: an age of 65535 stays. -/
theorem test_age_saturates :
    after .tick { claimed .opened with groups := on.groups.set 0 { member .opened with age := 65535 } }
      (fun t => (t.group 0).age == 65535 && t.tickCounter == 1) = true := by decide +kernel

/-- R185: one period before the divider, and the period that reaches it. -/
theorem test_clock_period_reaches_divider :
    (match step { State.reset with divisionCount := 24999 } with
      | .next t => t.tickCounter == 1 && t.divisionCount == 0
      | .fault _ => false
      | .refused _ => false) = true := by decide +kernel

/-- R161: the issue counter steps over a number that is still in the set. -/
theorem test_issue_skips_used_number :
    (State.issue .hostRead (.entry 0) 0 1 [] { on with
      issueCounter := 0xFFFFFFFF, outstanding := [sent 0 .hostRead (.entry 1)] }).issueCounter = 1 := by
  decide +kernel

/-- R148: START with two partitions on the same unit is refused, and both are named. -/
theorem test_start_names_overlap :
    after .start { State.reset with geometry := Vector.replicate 4 ⟨16, 1⟩ }
      (fun t => t.cmdStatus == ⟨.refused, some .configInvalid, some .partitionOverlap, some 0, some 1, some .start,
        some 0⟩ && t.controller == .config) = true := by decide +kernel

/-- R49, R59: an UNDO record that would lie across the ring's end is put behind a one-slot PAD, in the next lap. -/
theorem test_undo_record_is_padded_at_ring_end :
    after (.hostRequest (wr 0x1000 1 0))
      { on with partitions := on.partitions.set 0 (readyPartition 7 1 ⟨63, 1⟩) }
      (fun t => (t.claims.map (·.undoSlot)) == [2] && (t.part 0).head == ⟨4, 2⟩ &&
        ((t.part 0).marks.map (·.kind)).head? == some (.padFirst 1)) = true := by decide +kernel

/-- R102: of the groups that join the waiting order in one event the lower tag stands first. -/
theorem test_groups_join_by_ascending_tag :
    (State.joinWaiting 2 { on with engine := { Engine.cleared with waiting := [4, 7] }, joined := 1 }).engine.waiting =
      [4, 2, 7] := by decide +kernel

/-! ### Witnesses: the queue and intake -/

theorem witness_StepTakesFront :
    let held : State := { State.reset with resetLine := true }
    let last : State := { State.reset with divisionCount := 24999 }
    let first : State := { State.reset with divisionCount := 24998 }
    ({ on with pending := [.tick, .start] } : State).pending = .tick :: [.start] ∧
    (held.pending = [] ∧ held.resetLine = true) ∧
    (first.pending = [] ∧ first.resetLine = false ∧ first.divisionCount + 1 < first.tickDivider.toNat) ∧
    last.pending = [] ∧ last.resetLine = false ∧ last.tickDivider.toNat ≤ last.divisionCount + 1 := by
  decide +kernel

theorem witness_IntakeChecksOneToThree :
    on.direct = true ∧ (wr 0x1000 1 3).wellFormed = true ∧
    (intentOk (wr 0x1000 1 3) = false ∧ intentOk (wr 0x1000 0 1) = false) ∧
    (let r : HostRequest := ⟨9, .write, 0x103F, 2, [1, 2], 1, 0⟩;
      r.wellFormed = true ∧ intentOk r = true ∧ spanOk r = false) ∧
    (let r := wr 0x103F 1 0;
      intentOk r = true ∧ spanOk r = true ∧ on.protectedLine (lineOf r.address) = true) ∧
    ({ on with controller := .shutdown } : State).direct = true ∧ { on with controller := .quiet }.direct = true ∧
    { on with controller := .config }.direct = true ∧ { on with controller := .recovering }.direct = true := by
  decide +kernel

theorem witness_FullTableHoldsRequest :
    (full.resetLine = false ∧ full.freeEntry = none ∧ full.held = none ∧
      full.earlyRefusal (rd 0x3000 0 0) = none) ∧
    ({ full with held := some (rd 0x3000 0 0) } : State).freeEntry = none ∧
    (rd 0x3000 0 0).wellFormed = true ∧ intentOk (rd 0x3000 0 0) = true ∧ spanOk (rd 0x3000 0 0) = true ∧
    ({ full with held := some (rd 0x3000 0 0), controller := .shutdown } : State).held =
      some (rd 0x3000 0 0) := by
  decide +kernel

/-- The full part with a request held, and the home write of its first entry outstanding. -/
def holding : State :=
  { full with held := some (rd 0x3000 0 0), outstanding := [sent 0 .homeWrite (.entry 0)] }

/-- Another event: one that frees an entry, one that enters SHUTDOWN, and one that does neither. -/
theorem witness_FullTableHoldsRequest_of_other_events :
    (holding.resetLine = false ∧ holding.held = some (rd 0x3000 0 0)) ∧
    (∃ t, exec (.homeWriteDone 0 (.okay [])) { holding with held := none } = .next t ∧ t.freeEntry.isSome = true) ∧
    (∃ t, exec .pfwAssert { holding with held := none } = .next t ∧ t.controller ≠ holding.controller) ∧
    (∃ t, exec .requestHandedOver { holding with held := none } = .next t ∧ t.freeEntry = none ∧
      t.controller = holding.controller) :=
  ⟨by decide +kernel, ⟨_, rfl, by decide +kernel⟩, ⟨_, rfl, by decide +kernel⟩, ⟨_, rfl, by decide +kernel⟩⟩

/-- R81: the entry whose home write ends leaves, and the held read takes its place in the same event. -/
theorem test_held_request_takes_the_freed_entry :
    (match exec (.homeWriteDone 0 (.okay [])) holding with
      | .next t => decide (t.held = none) && t.freeEntry.isNone && (t.requests.map (·.request.kind)).getLast? == some .read
      | _ => false) = true := by
  decide +kernel

/-- One clause for each state of the claiming group, by itself and carried by a COMMIT, and an unclaimed line. -/
theorem witness_ReadFollowsTheClaim :
    (∀ st ∈ [GroupState.broken, .unwinding, .opened, .draining, .sealing],
      let s := claimed st
      s.admits (rd 0x103F 0 0) = true ∧ s.admits (rd 0x1000 2 1) = true ∧ s.freeEntry = some 0 ∧
        s.claimOf (lineOf 0x103F) = some ⟨0x1000, 0, true, 1, 2⟩ ∧ s.groupState 0 = st ∧
        s.groupState 1 = .free) ∧
    intentOf (rd 0x1000 2 1).intent = some .commit ∧ tagOf (rd 0x1000 2 1).tag = some 1 ∧
    on.admits (rd 0x1040 0 0) = true ∧ on.claimOf (lineOf 0x1040) = none ∧ on.requests = [] ∧
    (State.issue .hostRead (.entry 0) 0x1040 1 []
      { on with responses := [], mdo := [], requests := [newEntry 0 (rd 0x1040 0 0) .read .loading] }).atRest =
      true := by
  decide +kernel

theorem witness_UnjournaledWriteIsAdmittedAndIssued :
    (on.admits (wr 0x3000 0 0) = true ∧ on.admits (wr 0x2FFF 0 0) = true ∧ on.freeEntry = some 0 ∧
      on.regionOf (lineOf 0x3000) = none ∧ on.regionOf (lineOf 0x2FFF) = some ⟨2, 1, .shared, true⟩ ∧
      on.claimOf (lineOf 0x2FFF) = none ∧ tagOf 0 = none) ∧
    (State.issue .homeWrite (.entry 0) 0x3000 1 [0xAA]
      { on with responses := [], mdo := [], requests := [newEntry 0 (wr 0x3000 0 0) .unjournaled .storing] }).atRest =
      true := by
  decide +kernel

theorem witness_AccessPathRefusals :
    (on.admits (wr 0x1000 0 0) = true ∧ on.regionOf (lineOf 0x1000) = some ⟨1, 1, .guarded, true⟩) ∧
    (let s : State := { claimed .opened with claims := [⟨0x2000, 0, true, 1, 2⟩] };
      s.admits (wr 0x2000 0 0) = true ∧ s.regionOf (lineOf 0x2000) = some ⟨2, 1, .shared, true⟩ ∧
        (s.claimOf (lineOf 0x2000)).isSome = true) ∧
    (∀ st ∈ [GroupState.draining, .sealing, .unwinding, .halted, .broken],
      (claimed st).admits (wr 0x1000 1 0) = true ∧ (claimed st).groupState 0 = st) ∧
    (claimed .opened).admits (wr 0x1000 15 0) = true ∧ (claimed .opened).groupState 14 = .free ∧
    (claimed .opened).claimOf (lineOf 0x1000) = some ⟨0x1000, 0, true, 1, 2⟩ ∧
    (claimed .opened).admits (wr 0x1000 15 1) = true ∧ (claimed .broken).admits (rd 0x1000 0 0) = true := by
  decide +kernel

/-- Partition 0 of the part with its head before a slot of the first lap, and nothing retired. -/
def ringTo (s : State) (head : Nat) : State :=
  { s with partitions := on.partitions.set 0 { readyPartition 7 1 ⟨2, 1⟩ with head := ⟨head, 1⟩ } }

/-- A new claim of a FREE group, refused by each check in turn: QUIESCING, no journal, FAULTED, 1024 claims, and the
last head at which the ring has no room. -/
theorem witness_AccessPathRefusals_of_free_group :
    (∀ s ∈ [{ on with controller := .quiescing }, { on with tagMap := Vector.replicate 15 1 },
        { on with partitions := on.partitions.set 0 { readyPartition 7 1 ⟨2, 1⟩ with state := .faulted } },
        { on with claims := List.replicate 1024 ⟨0x2000, 0, true, 1, 2⟩ }, ringTo on 62],
      s.admits (wr 0x1000 1 0) = true ∧ s.admits (wr 0x1000 1 1) = true ∧ s.protectedLine (lineOf 0x1000) = true ∧
        s.groupState 0 = .free ∧ s.claimOf (lineOf 0x1000) = none) ∧
    ({ on with tagMap := Vector.replicate 15 1 } : State).size 1 = 0 ∧ on.size 0 = 1 ∧
    (let part := (ringTo on 62).part 0;
      part.head.slot ≠ 63 ∧ 62 < part.occupancy 62 + 2 + part.reserved + 1) := by
  decide +kernel

/-- A new claim of an OPEN group, refused by each check in turn: the claim limit, 1024 UNDO records, 1024 claims, and
the last head at which the ring has no room. -/
theorem witness_AccessPathRefusals_of_open_group :
    (∀ s ∈ [{ claimed .opened with claimLimit := 1 },
        { claimed .opened with groups := on.groups.set 0 { member .opened with undoCount := some 1024 } },
        { claimed .opened with claims := List.replicate 1024 ⟨0x2000, 0, true, 1, 2⟩ }, ringTo (claimed .opened) 63],
      s.admits (wr 0x1040 1 0) = true ∧ s.protectedLine (lineOf 0x1040) = true ∧ s.groupState 0 = .opened ∧
        s.claimOf (lineOf 0x1040) = none ∧ (s.group 0).partition = some 0 ∧ (s.group 0).sequence = some 1) ∧
    (member .opened).claimsHeld = 1 ∧ (claimed .opened).claimLimit.toNat = 1024 ∧
    (let part := (ringTo (claimed .opened) 63).part 0;
      part.head.slot = 63 ∧ 62 < part.occupancy 62 + 3 + part.reserved + 0) := by
  decide +kernel

/-- The lowest and the highest tag, and the last sequence with one slot left before the ring's end. -/
theorem witness_OpeningWriteOpensGroup :
    ∀ s ∈ [on, { on with
        seqCounter := 0xFFFFFFFF, partitions := on.partitions.set 0 (readyPartition 7 1 ⟨63, 1⟩) }],
      ∀ t ∈ [(0 : Tag), 14],
        let r := wr 0x1000 (BitVec.ofNat 4 (t.val + 1)) 0
        s.admits r = true ∧ s.freeEntry = some 0 ∧ r.kind = .write ∧ intentOf r.intent = some .plain ∧
          tagOf r.tag = some t ∧ s.protectedLine (lineOf r.address) = true ∧
          s.claimOf (lineOf r.address) = none ∧ s.groupState t = .free ∧ s.claimRefusal t = none ∧
          s.seqCounter ≠ 0 ∧ ∀ q, (s.part q).spans.length ≤ 64 := by
  decide +kernel

theorem witness_WriteJoinsOpenGroup :
    let s := claimed .opened
    (s.admits (wr 0x1040 1 0) = true ∧ s.freeEntry = some 0 ∧ s.protectedLine (lineOf 0x1040) = true ∧
      s.groupState 0 = .opened ∧ (s.group 0).sequence = some 1 ∧ (s.group 0).partition = some 0 ∧
      (s.group 0).undoCount = some 1 ∧ s.claimOf (lineOf 0x1040) = none ∧ s.claimRefusal 0 = none) ∧
    s.admits (wr 0x1000 1 0) = true ∧ s.claimOf (lineOf 0x1000) = some ⟨0x1000, 0, true, 1, 2⟩ := by
  decide +kernel

theorem witness_CommitByGroupState :
    (∀ st ∈ [GroupState.draining, .sealing, .unwinding, .halted, .broken],
      (claimed st).admits (wr 0x1000 1 1) = true ∧ (claimed st).groupState 0 = st) ∧
    intentOf 1 = some .commit ∧ tagOf 1 = some 0 ∧
    ((claimed .opened).admits (rd 0x1040 1 1) = true ∧ (claimed .opened).freeEntry = some 0 ∧
      (claimed .opened).claimOf (lineOf 0x1040) = none ∧ (claimed .opened).groupState 0 = .opened) ∧
    on.admits (rd 0x1040 1 1) = true ∧ on.claimOf (lineOf 0x1040) = none ∧ on.groupState 0 = .free := by
  decide +kernel

/-- A COMMIT that carries a write: to an unprotected line, to a line its group claims, of a new claim, and opening. -/
theorem witness_CommitByGroupState_of_writes :
    (∀ s ∈ [claimed .opened, on], s.admits (wr 0x3000 1 1) = true ∧ s.regionOf (lineOf 0x3000) = none) ∧
    (let s := claimed .opened;
      s.admits (wr 0x1000 1 1) = true ∧ s.admits (wr 0x1040 1 1) = true ∧ s.freeEntry = some 0 ∧
        s.protectedLine (lineOf 0x1000) = true ∧ s.protectedLine (lineOf 0x1040) = true ∧
        (s.group 0).sequence = some 1 ∧ (s.group 0).partition = some 0 ∧ (s.group 0).undoCount = some 1 ∧
        s.claimOf (lineOf 0x1000) = some ⟨0x1000, 0, true, 1, 2⟩ ∧ s.claimOf (lineOf 0x1040) = none ∧
        s.claimRefusal 0 = none) ∧
    on.admits (wr 0x1000 1 1) = true ∧ on.protectedLine (lineOf 0x1000) = true ∧
    on.claimOf (lineOf 0x1000) = none ∧ on.claimRefusal 0 = none := by
  decide +kernel

/-- A COMMIT that carries a read of a line its own group claims or of one that another group claims. -/
theorem witness_CommitByGroupState_of_claimed_reads :
    ∀ g ∈ [member .opened, Group.cleared], ∀ st ∈ [GroupState.opened, .draining, .sealing, .unwinding],
      let s : State := { on with
        groups := (on.groups.set 0 g).set 1 (member st)
        claims := [⟨0x1000, 0, true, 1, 2⟩, ⟨0x1040, 1, true, 1, 4⟩] }
      s.admits (rd 0x1000 1 1) = true ∧ s.admits (rd 0x1040 1 1) = true ∧ s.freeEntry = some 0 ∧
        s.groupState 0 = g.state ∧ s.groupState 1 = st ∧
        s.claimOf (lineOf 0x1000) = some ⟨0x1000, 0, true, 1, 2⟩ ∧
        s.claimOf (lineOf 0x1040) = some ⟨0x1040, 1, true, 1, 4⟩ := by
  decide +kernel

theorem witness_AbortByGroupState :
    (∀ st ∈ [GroupState.draining, .sealing, .unwinding, .halted, .broken, .opened],
      (claimed st).admits (wr 0x1000 1 2) = true ∧ (claimed st).freeEntry = some 0 ∧ (claimed st).groupState 0 = st ∧
        (claimed st).members 0 = []) ∧
    intentOf 2 = some .abort ∧ on.admits (wr 0x1000 1 2) = true ∧ on.groupState 0 = .free ∧
    (∀ g ∈ [{ member .unwinding with unwindOrigin := some .host },
        { member .unwinding with unwindOrigin := some .revoke, parkedAbort := some 3 },
        { member .unwinding with unwindOrigin := some .revoke }],
      ({ on with groups := on.groups.set 0 g } : State).admits (wr 0x1000 1 2) = true) := by
  decide +kernel

/-- An OPEN group with an entry whose access is outstanding and one in ORDERED that took a new claim. -/
theorem witness_AbortByGroupState_of_members :
    let s : State := { claimed .opened with
      requests := [{ entry 0 .ownClaim .storing with group := some 0 },
        { entry 1 .newClaim .ordered with group := some 0, undo := some ⟨0, 2⟩ }, entry 2 .read .loading] }
    s.admits (wr 0x1000 1 2) = true ∧ s.freeEntry = some 3 ∧ s.groupState 0 = .opened ∧
      (s.members 0).map (·.index) = [0, 1] ∧ (s.requests.map (·.index)).Nodup := by
  decide +kernel

/-! ### Witnesses: the request table -/

/-- An entry held back by an earlier one on its line, one in SHUTDOWN, one on a closed line, and one of each path. -/
theorem witness_EntryLeavesOrdered :
    (let s : State := { on with requests := [entry 0 .unjournaled .storing, entry 1 .read .ordered] };
      s.direct = true ∧ s.requests = [entry 0 .unjournaled .storing] ++ entry 1 .read .ordered :: [] ∧
        (∀ x ∈ [entry 0 .unjournaled .storing], x.index ≠ (entry 1 .read .ordered).index) ∧
        (entry 0 .unjournaled .storing).phase ≠ .awaitOutcome) ∧
    (∀ path ∈ [Path.read, .newClaim, .ownClaim, .unjournaled], ∀ c ∈ [CtrlState.active, .shutdown, .config],
      let s : State := { on with controller := c, requests := [entry 1 path .ordered] }
      s.direct = true ∧ s.requests = [] ++ entry 1 path .ordered :: [] ∧
        s.protectedLine (entry 1 path .ordered).line = true) ∧
    ({ on with controller := .config } : State).protectedLine 0x3000 = false := by
  decide +kernel

/-- A host read in flight, and the entry it is for. -/
def reading (e : Entry) : State :=
  { claimed .draining with
    groups := on.groups.set 0 { member .draining with commitRequest := some 0 }
    requests := [e], outstanding := [sent 0 .hostRead (.entry 0)] }

/-- The entry a host read is for. -/
def read0 : Entry := { entry 0 .read .loading with request := rd 0x1000 1 1 }

theorem witness_HostReadReturns :
    ∀ e ∈ [{ read0 with answered := true }, entry 0 .read .loading, read0, { read0 with group := some 0 }],
      (reading e).direct = true ∧ (reading e).recordOf 0 = some (sent 0 .hostRead (.entry 0)) ∧
        (reading e).entry 0 = some e ∧ e.phase = .loading ∧ ((reading e).group 0).commitRequest = some e.index := by
  decide +kernel

/-- An UNDO allocation of slots 2 and 3, its record's capture read in flight. -/
def capturing (e : Entry) : State :=
  { on with
    requests := [e], outstanding := [sent 0 .captureRead (.entry 0)]
    groups := on.groups.set 0 { member .opened with claimsHeld := 2 }
    claims := [⟨0x1000, 0, false, 1, 2⟩, ⟨0x1040, 0, true, 2, 4⟩]
    partitions := on.partitions.set 0 { readyPartition 7 1 ⟨2, 1⟩ with
      head := ⟨4, 1⟩, reserved := 1
      marks := [⟨.undoHeader, .waiting, 1, [], some ⟨0, 1, 1, some 0x1000⟩⟩, ⟨.undoData, .waiting, 1, [], none⟩] } }

/-- The entry a capture read is for. -/
def capture0 : Entry :=
  { entry 0 .newClaim .capturing with undo := some ⟨0, 2⟩, group := some 0, member := some ⟨0, 1, 0⟩ }

/-- An unanswered entry and an answered one: in a READY partition, in SHUTDOWN and in a FAULTED partition. -/
theorem witness_CaptureReturns :
    ∀ e ∈ [capture0, { capture0 with answered := true, group := none }],
      let s := capturing e
      let faulted : State :=
        { s with partitions := s.partitions.set 0 { s.partitions[0] with state := .faulted } }
      (∀ x ∈ [s, { s with controller := .shutdown }, faulted],
        x.direct = true ∧ x.recordOf 0 = some (sent 0 .captureRead (.entry 0)) ∧ x.entry 0 = some e) ∧
      e.phase = .capturing ∧ e.undo = some ⟨0, 2⟩ ∧ (faulted.part 0).state ≠ .ready ∧
      s.controller ≠ .shutdown ∧ (s.part 0).state = .ready ∧ (s.part 0).markIndex (s.capacity 0) 2 = 0 ∧
        (s.part 0).markIndex (s.capacity 0) 3 = 1 ∧
        (s.part 0).marks[0]? = some ⟨.undoHeader, .waiting, 1, [], some ⟨0, 1, 1, some 0x1000⟩⟩ ∧
        (s.part 0).marks[1]? = some ⟨.undoData, .waiting, 1, [], none⟩ := by
  decide +kernel

/-- The capturing part with its group in a state, holding a number of claims, with a commit request or none, and a
later entry in ORDERED that relies on the claim. -/
def failing (e : Entry) (st : GroupState) (held : Nat) (commit : Option EntryId) : State :=
  { capturing e with
    groups := on.groups.set 0 { member st with claimsHeld := held, commitRequest := commit }
    requests := [e, { entry 1 .ownClaim .ordered with group := some 0 }] }

/-- The part with a full incident list. -/
def fullLog : State :=
  { on with incidents := List.replicate 8 ⟨.arrayTimeout, 0, none, none, none, none, none⟩, dropped := 255 }

/-- An entry already answered, one of a group no longer alive, and a live one: its claim the last of its group or not,
the commit request the entry itself, the relying entry, or none. -/
theorem witness_CaptureFails :
    (∀ e ∈ [{ capture0 with answered := true }, { capture0 with group := none }, capture0],
      ∀ x ∈ [(GroupState.opened, 1, (none : Option EntryId)), (.opened, 2, none), (.draining, 1, none),
          (.draining, 1, some 1), (.draining, 2, some 0), (.draining, 2, some 1), (.unwinding, 1, none)],
        let s := failing e x.1 x.2.1 x.2.2
        s.direct = true ∧ s.recordOf 0 = some (sent 0 .captureRead (.entry 0)) ∧ s.entry 0 = some e ∧
          e.phase = .capturing ∧ e.undo = some ⟨0, 2⟩ ∧ s.groupState 0 = x.1 ∧ (s.group 0).claimsHeld = x.2.1 ∧
          (s.group 0).commitRequest = x.2.2 ∧ (s.group 0).partition = some 0 ∧
          s.claimOf 0x1000 = some ⟨0x1000, 0, false, 1, 2⟩ ∧
          s.relying 0 0x1000 = [{ entry 1 .ownClaim .ordered with group := some 0 }]) ∧
    capture0.answered = false ∧ capture0.group = some 0 ∧ capture0.member = some ⟨0, 1, 0⟩ ∧
    (on.incidents.length < 8 ∧ 8 ≤ fullLog.incidents.length) ∧
    (let s := capturing capture0;
      s.journalRuns 0 = true ∧ (s.part 0).markIndex (s.capacity 0) 2 = 0 ∧
        (s.part 0).markIndex (s.capacity 0) 3 = 1 ∧ (s.part 0).marks.length = 2) := by
  decide +kernel

/-- A home write in flight, and the entry it is for. -/
def storing (e : Entry) : State :=
  { claimed .draining with requests := [e], outstanding := [sent 0 .homeWrite (.entry 0)] }

/-- The entry a home write is for. -/
def store0 : Entry := entry 0 .ownClaim .storing

theorem witness_HomeWriteEnds :
    let commit := wr 0x1000 1 1
    (on.incidents.length < 8 ∧ 8 ≤ fullLog.incidents.length) ∧
    ∀ e ∈ [{ store0 with answered := true }, store0, { store0 with request := commit },
        { store0 with request := commit, group := some 0 }, { store0 with member := some ⟨0, 1, 0⟩, answered := true },
        { store0 with member := some ⟨0, 1, 0⟩, group := some 0 }],
      (storing e).direct = true ∧ (storing e).recordOf 0 = some (sent 0 .homeWrite (.entry 0)) ∧
        (storing e).entry 0 = some e ∧ e.phase = .storing ∧ ((storing e).group 0).commitRequest ≠ some e.index ∧
        (({ storing e with groups := on.groups.set 0 { member .draining with commitRequest := some 0 } } :
          State).group 0).commitRequest = some e.index := by
  decide +kernel

/-- What logging does to a list with room and to a full one, whose dropped count stands at its end (R192). -/
theorem test_full_list_drops_its_oldest :
    ((on.log ⟨.arrayTimeout, 0, none, none, none, none, none⟩).incidents.length = 1 ∧
      (on.log ⟨.arrayTimeout, 0, none, none, none, none, none⟩).flags = on.flags) ∧
    (let s := fullLog.log ⟨.homeWriteFailed, 0, none, none, none, none, none⟩;
      s.incidents.map (·.kind) = .homeWriteFailed :: List.replicate 7 .arrayTimeout ∧ s.dropped = 255 ∧
        s.flags = 0x020#9) := by
  decide +kernel

theorem witness_DrainPlacesCommit :
    (let s := claimed .draining;
      s.direct = true ∧ s.groupState 0 = .draining ∧ (∀ e ∈ s.requests, e.group = some 0 → e.phase = .awaitOutcome) ∧
        s.controller ≠ .shutdown ∧ (s.group 0).partition = some 0 ∧ (s.part 0).state = .ready ∧
        (s.group 0).sequence = some 1 ∧ (s.group 0).undoCount = some 1) ∧
    (claimed .opened).groupState 0 ≠ .draining ∧
    ({ claimed .draining with controller := .shutdown } : State).direct = true ∧
    (∃ e ∈ (storing { store0 with group := some 0 }).requests, e.group = some 0 ∧ e.phase ≠ .awaitOutcome) := by
  decide +kernel

/-! ### Witnesses: the journal and its front -/

/-- A ring of two marks from slot 2 on, with the write of slot `2 + k` in flight. -/
def ring (k : Nat) (m0 m1 : Mark) (st : PartState) : State :=
  { claimed .sealing with
    outstanding := [sent 0 .slotWrite (.slot 0 (2 + k))]
    partitions := on.partitions.set 0 { readyPartition 7 1 ⟨2, 1⟩ with
      state := st, head := ⟨4, 1⟩, marks := [m0, m1], spans := [⟨some 1, 2⟩] } }

/-- A mark without a record. -/
def mark (p : Progress) (attempt : Nat) : Mark := ⟨.undoData, p, attempt, [], none⟩

theorem witness_ReadyRunIsIssued :
    (ring 0 (mark .ready 1) (mark .ready 1) .ready).direct = true ∧
    (ring 0 (mark .ready 1) (mark .ready 1) .ready).journalRuns 0 = true ∧
    (ring 0 (mark .ready 1) (mark .ready 1) .faulted).journalRuns 0 = false := by
  decide +kernel

/-- `slotAnswered` of a record, part by part. -/
theorem slotAnswered_of {s : State} {n : Word} {p : PartId} {k : Nat} {m : Mark} (r : PortRecord)
    (h : s.recordOf n = some r ∧ r.purpose = .slotWrite ∧
      r.ref = .slot p ((s.part p).durableTail.advance (s.capacity p) k).slot ∧
      (s.part p).markIndex (s.capacity p) ((s.part p).durableTail.advance (s.capacity p) k).slot = k ∧
      (s.part p).marks[k]? = some m) : s.slotAnswered n p k m :=
  ⟨⟨r, h.1, h.2.1, h.2.2.1⟩, h.2.2.2⟩

/-- Of each attempt of a write, the first and the second. -/
theorem at_each_attempt {P : Nat → Prop} (h1 : P 1) (h2 : P 2) : ∀ a ∈ [1, 2], P a := by
  simp [h1, h2]

/-- `frontMeets` of the second slot of a ring of two, part by part. -/
theorem front_meets (s : State) {m0 m1 : Mark} (hm : (s.part 0).marks = [m0, m1]) (h0 : m0.progress = .acknowledged)
    (h1 : m1.progress = .inFlight) : s.frontMeets 0 1 := by
  refine ⟨?_, ?_, ?_⟩ <;> simp [hm, h0, h1]

/-- The second slot acknowledged before the first, at each attempt, and a first attempt that fails, in a partition that
runs or not. -/
theorem witness_SlotWriteEnds :
    (∀ attempt ∈ [1, 2], (let s := ring 1 (mark .inFlight 1) (mark .inFlight attempt) .ready;
      s.direct = true ∧ s.slotAnswered 0 0 1 (mark .inFlight attempt) ∧
        (∃ x ∈ (s.part 0).marks.take 1, x.progress ≠ .acknowledged) ∧ s.journalRuns 0 = true)) ∧
    (let s := ring 0 (mark .inFlight 1) (mark .inFlight 1) .faulted;
      s.direct = true ∧ s.slotAnswered 0 0 0 (mark .inFlight 1) ∧ s.journalRuns 0 = false) :=
  ⟨at_each_attempt
      ⟨rfl, slotAnswered_of (sent 0 .slotWrite (.slot 0 3)) (by decide +kernel),
        ⟨mark .inFlight 1, .head _, by decide⟩, rfl⟩
      ⟨rfl, slotAnswered_of (sent 0 .slotWrite (.slot 0 3)) (by decide +kernel),
        ⟨mark .inFlight 1, .head _, by decide⟩, rfl⟩,
    rfl, slotAnswered_of (sent 0 .slotWrite (.slot 0 2)) (by decide +kernel), rfl⟩

/-- A slot with an acknowledged one behind it, at the end of the ring, and one with none. -/
theorem witness_SlotWriteEnds_of_passed_slots :
    (let s := ring 0 (mark .inFlight 1) (mark .acknowledged 1) .ready;
      s.direct = true ∧ s.slotAnswered 0 0 0 (mark .inFlight 1) ∧ (mark .inFlight 1).progress ≠ .acknowledged ∧
        (∀ x ∈ (s.part 0).marks.take 0, x.progress = .acknowledged) ∧
        [mark .acknowledged 1] <+: (s.part 0).marks.drop 1 ∧ (s.part 0).marks[0 + 1 + 1]? = none) ∧
    (let s := ring 0 (mark .inFlight 1) (mark .inFlight 1) .ready;
      s.slotAnswered 0 0 0 (mark .inFlight 1) ∧ [] <+: (s.part 0).marks.drop 1 ∧
        (s.part 0).marks[0 + 1 + 0]? = some (mark .inFlight 1)) :=
  ⟨⟨rfl, slotAnswered_of (sent 0 .slotWrite (.slot 0 2)) (by decide +kernel), by decide, by simp,
      ⟨[], rfl⟩, rfl⟩,
    slotAnswered_of (sent 0 .slotWrite (.slot 0 2)) (by decide +kernel), ⟨_, rfl⟩, rfl⟩

/-- The header slot of an UNDO record, and a slot that ends a PAD, acknowledged behind an acknowledged slot. -/
theorem witness_SlotWriteEnds_of_header_or_pad :
    ∀ attempt ∈ [1, 2], ∀ kind ∈ [SlotKind.undoHeader, .padFirst 1, .padSecond],
      let m : Mark := ⟨kind, .inFlight, attempt, [], none⟩
      let s := ring 1 (mark .acknowledged 1) m .ready
      s.direct = true ∧ s.slotAnswered 0 0 1 m ∧ s.frontMeets 0 1 := by
  rintro attempt h kind h'
  fin_cases h <;> fin_cases h' <;>
    exact ⟨rfl, slotAnswered_of (sent 0 .slotWrite (.slot 0 3)) (by decide +kernel), front_meets _ rfl rfl rfl⟩

theorem witness_SecondSlotFailureFaultsPartition :
    let s := ring 1 (mark .inFlight 1) (mark .inFlight 2) .ready
    s.direct = true ∧ s.slotAnswered 0 0 1 (mark .inFlight 2) ∧ s.journalRuns 0 = true ∧
      (mark .inFlight 2).attempt = 2 :=
  ⟨rfl, slotAnswered_of (sent 0 .slotWrite (.slot 0 3)) (by decide +kernel), rfl, rfl⟩

/-- An UNDO record whose second slot is acknowledged last, at each attempt, without and with an entry that waits for
it. -/
theorem witness_FrontPassesUndo : ∀ attempt ∈ [1, 2],
    let m : Mark := ⟨.undoData, .inFlight, attempt, [], some ⟨0, 1, 1, some 0x1000⟩⟩
    let s := ring 1 (mark .acknowledged 1) m .ready
    let waits := { capture0 with phase := .logging }
    s.direct = true ∧ s.slotAnswered 0 0 1 m ∧ s.frontMeets 0 1 ∧ m.kind = .undoData ∧ s.requests = [] ∧
      waits.phase = .logging ∧ waits.undo = some ⟨0, 2⟩ ∧
      { s with requests := [waits] }.slotAnswered 0 0 1 m :=
  at_each_attempt
    ⟨rfl, slotAnswered_of (sent 0 .slotWrite (.slot 0 3)) (by decide +kernel), front_meets _ rfl rfl rfl, rfl, rfl,
      rfl, rfl, slotAnswered_of (sent 0 .slotWrite (.slot 0 3)) (by decide +kernel)⟩
    ⟨rfl, slotAnswered_of (sent 0 .slotWrite (.slot 0 3)) (by decide +kernel), front_meets _ rfl rfl rfl, rfl, rfl,
      rfl, rfl, slotAnswered_of (sent 0 .slotWrite (.slot 0 3)) (by decide +kernel)⟩

theorem witness_FrontPassesCommit : ∀ attempt ∈ [1, 2],
    let info : RecordInfo := ⟨0, 1, 1, none⟩
    let m : Mark := ⟨.commit, .inFlight, attempt, [], some info⟩
    let e := { store0 with phase := .awaitOutcome, request := wr 0x1000 1 1, group := some 0 }
    let s : State := { ring 1 (mark .acknowledged 1) m .ready with
      requests := [e], groups := on.groups.set 0 { member .sealing with commitRequest := some 0 } }
    s.direct = true ∧ s.slotAnswered 0 0 1 m ∧ s.frontMeets 0 1 ∧ s.journalRuns 0 = true ∧
      s.groupState 0 = .sealing ∧ (s.group 0).sequence = some info.sequence ∧
      (s.group 0).commitRequest = some e.index ∧ s.entry e.index = some e :=
  at_each_attempt
    ⟨rfl, slotAnswered_of (sent 0 .slotWrite (.slot 0 3)) (by decide +kernel), front_meets _ rfl rfl rfl,
      by decide +kernel⟩
    ⟨rfl, slotAnswered_of (sent 0 .slotWrite (.slot 0 3)) (by decide +kernel), front_meets _ rfl rfl rfl,
      by decide +kernel⟩

/-- The COMMIT record where it is not handed on: in a FAULTED partition, in SHUTDOWN, and of a group that is no longer
in SEALING or has another sequence. -/
theorem witness_FrontPassesCommit_of_record_not_handed_on :
    let info : RecordInfo := ⟨0, 1, 1, none⟩
    let m : Mark := ⟨.commit, .inFlight, 2, [], some info⟩
    let s := ring 1 (mark .acknowledged 1) m .ready
    let s' := ring 1 (mark .acknowledged 1) m .faulted
    (s'.direct = true ∧ s'.slotAnswered 0 0 1 m ∧ s'.frontMeets 0 1 ∧ s'.journalRuns 0 = false) ∧
    (∀ t ∈ [{ s with controller := .shutdown }], t.journalRuns 0 = false ∧ t.direct = true) ∧
    ({ s with groups := on.groups.set 0 (member .unwinding) } : State).groupState 0 ≠ .sealing ∧
    (({ s with groups := on.groups.set 0 { member .sealing with sequence := some 2 } } : State).group 0).sequence ≠
      some info.sequence :=
  ⟨⟨rfl, slotAnswered_of (sent 0 .slotWrite (.slot 0 3)) (by decide +kernel), front_meets _ rfl rfl rfl, rfl⟩,
    by decide +kernel⟩

/-- A ring whose front has passed a span of a FREE group, with and without a header write in flight. -/
theorem witness_RetirementAdvancesTail :
    let s : State := { on with
      partitions := on.partitions.set 0 { readyPartition 7 1 ⟨2, 1⟩ with
        head := ⟨4, 1⟩, marks := [mark .acknowledged 1, mark .acknowledged 1], spans := [⟨some 1, 2⟩] } }
    s.journalRuns 0 = true ∧ on.journalRuns 0 = true ∧
      (s.part 0).workingTail.advance (s.capacity 0) 2 ≠ (s.part 0).durableTail ∧ (s.part 0).headerWrite = none := by
  decide +kernel

/-- A header write in flight at each attempt, in ACTIVE and in SHUTDOWN, with the working tail at its tail or ahead. -/
theorem witness_HeaderWriteEnds :
    ∀ attempt ∈ [1, 2], ∀ c ∈ [CtrlState.active, .shutdown], ∀ working ∈ [4, 6],
      let w : HeaderWrite := ⟨⟨4, 1⟩, 2, attempt, []⟩
      let s : State := { on with
        controller := c, outstanding := [sent 0 .headerWrite (.header 0 0)]
        partitions := on.partitions.set 0 { readyPartition 7 1 ⟨2, 1⟩ with
          head := ⟨6, 1⟩, workingTail := ⟨working, 1⟩, headerWrite := some w
          marks := List.replicate 4 (mark .acknowledged 1) } }
      s.direct = true ∧ s.recordOf 0 = some (sent 0 .headerWrite (.header 0 0)) ∧
        (s.part 0).headerWrite = some w ∧ ((s.part 0).workingTail = w.tail ↔ working = 4) ∧
        (s.journalRuns 0 = true ↔ c = .active) := by
  decide +kernel
/-! ### Witnesses: revocation and the unwind engine -/

/-- An OPEN group of an age, with an entry whose access is outstanding and one in ORDERED. -/
def aged (limit : BitVec 16) (age : Nat) : State :=
  { on with
    ageLimit := limit, groups := on.groups.set 0 { member .opened with age := age }
    requests := [{ entry 0 .newClaim .capturing with group := some 0 },
      { entry 1 .ownClaim .ordered with group := some 0 }] }

theorem witness_AgeExpiryRevokes :
    (claimed .draining).groupState 0 ≠ .opened ∧ on.ageLimit = 0 ∧ (aged 1 1).direct = true ∧
    (aged 1 1).groupState 0 = .opened ∧ (aged 1 1).ageLimit ≠ 0 ∧ ((aged 1 1).group 0).age = 1 ∧
    (aged 1 1).controller ≠ .shutdown ∧ ((aged 1 1).requests.map (·.index)).Nodup := by
  decide +kernel

/-- The largest limit. -/
theorem witness_AgeExpiryRevokes_at_top :
    (aged 65535 65535).direct = true ∧ ((aged 65535 65535).group 0).age = (aged 65535 65535).ageLimit.toNat :=
  ⟨rfl, rfl⟩

/-- The engine at work on group 1, whose claim is on line 0x1000. -/
def engineIn (st : EngineState) (step : LineStep) (set : List Claim) : State :=
  { claimed .unwinding with
    engine := ⟨st, [], some 0, some ⟨0x1000, 0, true, 1, 2⟩, step, some [1], 0, none, none, set⟩ }

/-- A claim whose capture has not been logged. -/
def unlogged : Claim := ⟨0x1000, 0, false, 1, 2⟩

theorem witness_EngineSteps :
    ({ on with controller := .shutdown } : State).direct = true ∧ on.engine.waiting = [] ∧
    (let s : State := { claimed .unwinding with engine := { Engine.cleared with waiting := [0] } };
      s.direct = true ∧ s.controller ≠ .shutdown ∧ s.engine.state = .idle ∧ s.engine.waiting = [0]) ∧
    (let s : State := { engineIn .settling .waitStores [] with claims := [unlogged] };
      s.direct = true ∧ s.engine.state = .settling ∧ s.engine.current = some 0 ∧ (s.group 0).partition = some 0 ∧
        (∃ c ∈ s.claims, c.tag = 0 ∧ c.logged = false ∧ s.claimPadded 0 c = false) ∧
        (s.part 0).state ≠ .faulted) ∧
    (let s : State := { engineIn .restoring .waitStores [] with requests := [store0] };
      s.engine.currentLine = some ⟨0x1000, 0, true, 1, 2⟩ ∧ s.engine.lineStep = .waitStores ∧
        ∃ e ∈ s.requests, e.line = 0x1000 ∧ e.phase = .storing) ∧
    (engineIn .restoring .waitStores []).requests = [] ∧
    ((engineIn .restoring .waitStores []).group 0).partition = some 0 ∧
    (on.engine.state ≠ .settling ∧ on.engine.current = none ∧ on.engine.state ≠ .restoring ∧
      on.engine.currentLine = none) ∧
    (engineIn .restoring (.reading 1) []).engine.lineStep ≠ .waitStores ∧
    (let s := engineIn .settling .waitStores [];
      s.direct = true ∧ s.controller ≠ .shutdown ∧ (s.group 0).partition = some 0 ∧
        (∀ c ∈ s.claims, c.tag = 0 → c.logged = true) ∧ (∃ c ∈ s.claims, c.tag = 0 ∧ c.logged = true) ∧
        s.commitPlaced 0 = false) := by
  decide +kernel

/-- A mark of group 1's COMMIT record. -/
def commitMark : Mark := ⟨.commit, .ready, 1, [], some ⟨0, 1, 1, none⟩⟩

/-- Settled without a claim, with two logged ones, with an unlogged one in a FAULTED partition, and with the COMMIT
record placed. -/
theorem witness_SettledGroupIsRestored :
    ∀ x ∈ [(([] : List Claim), PartState.ready, ([] : List Mark)),
        ([⟨0x1000, 0, true, 1, 2⟩, ⟨0x1040, 0, true, 2, 4⟩], .ready, []),
        ([unlogged, ⟨0x1040, 0, true, 2, 4⟩], .faulted, []),
        ([⟨0x1000, 0, true, 1, 2⟩], .ready, [commitMark])],
      let s : State := { engineIn .settling .waitStores [] with
        claims := x.1
        partitions := on.partitions.set 0 { readyPartition 7 1 ⟨2, 1⟩ with state := x.2.1, marks := x.2.2 } }
      s.direct = true ∧ s.controller ≠ .shutdown ∧ s.engine.state = .settling ∧ s.engine.current = some 0 ∧
        (s.group 0).partition = some 0 ∧
        (∀ c ∈ s.claims, c.tag = 0 → c.logged = true ∨ s.claimPadded 0 c = true ∨ (s.part 0).state = .faulted) ∧
        (s.commitPlaced 0 = true ↔ x.2.2 = [commitMark]) ∧ (s.part 0).state = x.2.1 ∧ s.engine.failedLines = 0 ∧
        (s.group 0).sequence = some 1 ∧ (s.group 0).undoCount = some 1 := by
  decide +kernel

/-- The mark of an earlier group's COMMIT record of the same sequence, behind the working tail: the group has placed
none, so its logged claim is restored (R2, R66, R105). -/
theorem test_stale_commit_mark_does_not_count :
    let s : State := { engineIn .settling .waitStores [] with
      partitions := on.partitions.set 0
        { readyPartition 7 1 ⟨2, 1⟩ with
          workingTail := ⟨3, 1⟩, head := ⟨3, 1⟩, marks := [{ commitMark with progress := .acknowledged }] } }
    s.commitPlaced 0 = false ∧
      after .groupSettled s (fun t => t.engine.currentLine == some ⟨0x1000, 0, true, 1, 2⟩) = true := by
  decide +kernel

theorem witness_LineIsRestored :
    ∀ a ∈ [1, 2], ∀ c ∈ [CtrlState.active, .shutdown],
      ∀ x ∈ [(Purpose.unwindRead, LineStep.reading a), (.restoreWrite, .writing a)],
        let s : State := { engineIn .restoring x.2 [⟨0x1040, 0, true, 2, 4⟩] with
          controller := c, outstanding := [sent 0 x.1 .unwindLine] }
        s.direct = true ∧ s.recordOf 0 = some (sent 0 x.1 .unwindLine) ∧ s.engine.current = some 0 ∧
          s.engine.currentLine = some ⟨0x1000, 0, true, 1, 2⟩ ∧ (s.group 0).partition = some 0 ∧
          s.engine.lineStep = x.2 ∧ s.engine.restoreSet ≠ [] ∧ s.engine.restoreData = some [1] := by
  decide +kernel

/-- The write of the last line, with none failed and a READY partition. -/
theorem witness_LineIsRestored_of_last_line :
    let s : State := { engineIn .restoring (.writing 1) [] with outstanding := [sent 0 .restoreWrite .unwindLine] }
    s.direct = true ∧ s.recordOf 0 = some (sent 0 .restoreWrite .unwindLine) ∧ s.engine.lineStep = .writing 1 ∧
      s.controller ≠ .shutdown ∧ s.engine.restoreSet = [] ∧ s.engine.failedLines = 0 ∧
      (s.group 0).partition = some 0 ∧ (s.part 0).state = .ready ∧ (s.group 0).sequence = some 1 ∧
      (s.group 0).undoCount = some 1 := by
  decide +kernel

/-- The UNWOUND record of group 1 in flight at an attempt, the group with or without a parked ABORT, unwound for the
host or not. -/
def unwound (attempt : Nat) (g : Group) (retry : Option Tag) : State :=
  { ring 1 (mark .acknowledged 1) ⟨.unwound, .inFlight, attempt, [], some ⟨0, 1, 1, none⟩⟩ .ready with
    groups := on.groups.set 0 g, requests := [{ entry 0 .abort .awaitOutcome with request := wr 0x1000 1 2 }]
    engine := ⟨.closing, [], some 0, none, .waitStores, none, 0, none, retry, []⟩ }

theorem witness_FrontPassesUnwound :
    let parked := { member .unwinding with parkedAbort := some 0, unwindOrigin := some .revoke }
    (∀ attempt ∈ [1, 2],
      let m : Mark := ⟨.unwound, .inFlight, attempt, [], some ⟨0, 1, 1, none⟩⟩
      let s := unwound attempt parked (some 0)
      s.direct = true ∧ s.slotAnswered 0 0 1 m ∧ s.frontMeets 0 1 ∧ s.journalRuns 0 = true ∧
        s.groupState 0 = .unwinding ∧ (s.group 0).sequence = some 1 ∧ s.engine.state = .closing ∧
        s.engine.current = some 0) ∧
    (∃ e, ((unwound 1 parked none).group 0).parkedAbort = some e.index ∧
      (unwound 1 parked none).entry e.index = some e ∧ e.phase = .awaitOutcome) ∧
    (∀ origin ∈ [UnwindOrigin.host, .revoke],
      (unwound 1 { member .unwinding with unwindOrigin := some origin } none).groupState 0 = .unwinding) :=
  ⟨at_each_attempt
      ⟨rfl, slotAnswered_of (sent 0 .slotWrite (.slot 0 3)) (by decide +kernel), front_meets _ rfl rfl rfl,
        by decide +kernel⟩
      ⟨rfl, slotAnswered_of (sent 0 .slotWrite (.slot 0 3)) (by decide +kernel), front_meets _ rfl rfl rfl,
        by decide +kernel⟩,
    ⟨{ entry 0 .abort .awaitOutcome with request := wr 0x1000 1 2 }, rfl, rfl, rfl⟩, by decide +kernel⟩

/-- The UNWOUND record where it is not handed on: in SHUTDOWN, and of a group that is not in UNWINDING or has another
sequence. -/
theorem witness_FrontPassesUnwound_of_record_not_handed_on :
    let m : Mark := ⟨.unwound, .inFlight, 1, [], some ⟨0, 1, 1, none⟩⟩
    let s : State := { unwound 1 (member .unwinding) none with controller := .shutdown }
    (s.direct = true ∧ s.slotAnswered 0 0 1 m ∧ s.frontMeets 0 1 ∧ s.journalRuns 0 = false) ∧
    (unwound 1 (member .broken) none).groupState 0 ≠ .unwinding ∧
    ((unwound 1 { member .unwinding with sequence := some 2 } none).group 0).sequence ≠ some 1 :=
  ⟨⟨rfl, slotAnswered_of (sent 0 .slotWrite (.slot 0 3)) (by decide +kernel), front_meets _ rfl rfl rfl, rfl⟩,
    by decide +kernel⟩

/-- The UNWOUND record's own slot, at its second attempt, with an ABORT parked and a RETRY_UNWIND of the group. -/
theorem witness_FaultFailsClosingUnwind :
    let m : Mark := ⟨.unwound, .inFlight, 2, [], some ⟨0, 1, 1, none⟩⟩
    let s := unwound 2 { member .unwinding with parkedAbort := some 0, unwindOrigin := some .revoke } (some 0)
    s.slotAnswered 0 0 1 m ∧ m.attempt = 2 ∧
    s.direct = true ∧ s.journalRuns 0 = true ∧ s.engine.state = .closing ∧ s.engine.current = some 0 ∧
      (s.group 0).partition = some 0 ∧ s.groupState 0 = .unwinding ∧ s.engine.waiting = [] ∧
      s.engine.failedLines = 0 ∧
      (∀ v, (s.group v).partition = some 0 → s.groupState v ≠ .opened ∧ s.groupState v ≠ .sealing) ∧
      (∀ v, s.groupState v ≠ .draining) ∧ (∀ e ∈ s.requests, e.phase ≠ .ordered ∧ e.phase ≠ .waitUnwind) ∧
      ∀ q, q ≠ 0 → ∀ x ∈ (s.part q).marks, x.progress ≠ .ready :=
  ⟨slotAnswered_of (sent 0 .slotWrite (.slot 0 3)) (by decide +kernel), rfl, by decide +kernel⟩

/-- The current line's last read and last write fail, or its write is acknowledged after a failed line; one of the
waiting reads is the commit request of another group. -/
theorem witness_FailedUnwindBreaksGroup :
    ∀ retry ∈ [none, some 0], ∀ parked ∈ [none, some (0 : EntryId)], ∀ failed ∈ [0, 1],
      ∀ x ∈ [(LineStep.reading 2, Purpose.unwindRead), (.writing 2, .restoreWrite), (.writing 1, .restoreWrite)],
        let s : State := { engineIn .restoring x.1 [] with
          engine := { (engineIn .restoring x.1 []).engine with retryTag := retry, failedLines := failed }
          groups := (on.groups.set 0 { member .unwinding with parkedAbort := parked }).set 1
            { member .draining with commitRequest := some 2 }
          requests := [{ entry 0 .abort .awaitOutcome with request := wr 0x1000 1 2 }, entry 1 .read .waitUnwind,
            { entry 2 .read .waitUnwind with request := rd 0x1000 2 1, group := some 1 }]
          outstanding := [sent 0 x.2 .unwindLine] }
        s.direct = true ∧ s.recordOf 0 = some (sent 0 x.2 .unwindLine) ∧ s.controller ≠ .shutdown ∧
          s.engine.current = some 0 ∧ s.engine.currentLine = some ⟨0x1000, 0, true, 1, 2⟩ ∧
          s.engine.lineStep = x.1 ∧ s.engine.restoreSet = [] ∧
          (∃ e ∈ s.requests, e.phase = .waitUnwind ∧ e.group = some 1 ∧
            (s.group 1).commitRequest = some e.index ∧ s.claimOf e.line = some ⟨0x1000, 0, true, 1, 2⟩) ∧
          s.entry 0 = some { entry 0 .abort .awaitOutcome with request := wr 0x1000 1 2 } := by
  decide +kernel

/-- The group is settled with no line to restore in a FAULTED partition. -/
theorem witness_FailedUnwindBreaksGroup_of_settled :
    let s : State := { engineIn .settling .waitStores [] with
      claims := [unlogged]
      partitions := on.partitions.set 0 { readyPartition 7 1 ⟨2, 1⟩ with state := .faulted } }
    s.direct = true ∧ s.controller ≠ .shutdown ∧ s.engine.state = .settling ∧ s.engine.current = some 0 ∧
      (s.group 0).partition = some 0 ∧ (s.part 0).state ≠ .ready ∧ (s.part 0).state = .faulted ∧
      (∀ c ∈ s.claims, c.tag = 0 → c.logged = false) ∧ s.requests = [] := by
  decide +kernel

/-! ### Witnesses: the array port and the tick -/

/-- A record that the next tick brings to its limit. -/
def due (r : PortRecord) : PortRecord :=
  { r with ticks := 2, limit := 3 }

/-- The records of a state that the next tick brings to their limit. -/
def lateIn (s : State) : List PortRecord :=
  s.outstanding.filter (fun r => r.limit != 0 && decide (r.limit ≤ r.ticks + 1))

/-- The tick with records that have a limit or none; with an age that reaches its limit, one that does not, and in
SHUTDOWN. -/
theorem witness_TickIsTaken :
    ({ State.reset with resetLine := true } : State).resetLine = true ∧ State.reset.resetLine = false ∧
    (∀ c ∈ [CtrlState.active, .shutdown], ∀ limit ∈ [0, 1, 2],
      let s : State := { aged (BitVec.ofNat 16 limit) 0 with
        controller := c
        outstanding := [sent 0 .homeWrite (.entry 0),
          { sent 1 .captureRead (.entry 1) with ticks := 1, limit := 3 }] }
      s.direct = true ∧ s.resetLine = false ∧ s.groupState 0 = .opened ∧ lateIn s = []) ∧
    ((aged 1 0).group 0).age + 1 = (aged 1 0).ageLimit.toNat := by
  decide +kernel

/-- A host read and a home write of no group, answered already or not, that reach their limit in one tick. -/
theorem witness_TickIsTaken_of_late_records :
    let r0 := due (sent 0 .hostRead (.entry 0))
    let r1 := due (sent 1 .homeWrite (.entry 1))
    let s : State := { on with
      requests := [entry 0 .read .loading, { entry 1 .unjournaled .storing with answered := true }]
      outstanding := [r0, sent 2 .homeWrite (.entry 2), r1] }
    s.direct = true ∧ lateIn s = [r0, r1] ∧ (s.outstanding.map (·.number)).Nodup ∧ s.controller ≠ .shutdown ∧
      s.engine.state = .idle ∧ s.engine.waiting = [] ∧ s.engine.currentLine = none ∧
      (s.requests.map (·.index)).Nodup ∧ ([r0, r1].map (·.ref)).Nodup ∧
      (∀ r ∈ [r0, r1], ∃ e ∈ s.requests, r.ref = .entry e.index ∧ e.group = none ∧ e.member = none ∧
        (r.purpose = .hostRead ∧ e.phase = .loading ∨ r.purpose = .homeWrite ∧ e.phase = .storing)) ∧
      ({ s with controller := .shutdown } : State).scanner.current = none := by
  decide +kernel

/-- The home write of an OPEN group's entry that is late at the tick that would bring the group's age to its limit. -/
theorem witness_TickIsTaken_of_home_write :
    let r := due (sent 0 .homeWrite (.entry 0))
    let e := { store0 with group := some 0, member := some ⟨0, 1, 0⟩ }
    let s : State := { claimed .opened with ageLimit := 1, requests := [e], outstanding := [r] }
    s.direct = true ∧ lateIn s = [r] ∧ (s.outstanding.map (·.number)).Nodup ∧ s.controller ≠ .shutdown ∧
      s.engine.state = .idle ∧ s.engine.waiting = [] ∧ s.engine.currentLine = none ∧ s.entry 0 = some e ∧
      e.phase = .storing ∧ e.answered = false ∧ s.groupState 0 = .opened ∧ (s.group 0).commitRequest ≠ some 0 ∧
      (s.group 0).age + 1 = s.ageLimit.toNat := by
  decide +kernel

/-- One late record and no OPEN group: of the memory path, of the scanner, and of FORMAT. -/
theorem witness_TickIsTaken_of_expired :
    (let r := due (sent 0 .homeWrite (.entry 0));
      let s : State := { claimed .draining with
        requests := [store0], outstanding := [r, sent 1 .hostRead (.entry 1)] }
      s.direct = true ∧ lateIn s = [r] ∧ (s.outstanding.map (·.number)).Nodup ∧ s.controller ≠ .shutdown ∧
        s.engine.state = .idle ∧ s.engine.waiting = [] ∧ s.engine.currentLine = none ∧
        ∀ t, s.groupState t ≠ .opened) ∧
    (∀ x ∈ [(CtrlState.recovering, Purpose.scanRead, Ref.scanner 0 2), (.config, .formatWrite, .format 0 0)],
      let s : State := { on with
        controller := x.1, outstanding := [due (sent 0 x.2.1 x.2.2)]
        scanner := { Scanner.cleared with current := some 0, stage := some .scan } }
      s.direct = true ∧ lateIn s = [due (sent 0 x.2.1 x.2.2)] ∧ (∀ t, s.groupState t = .free) ∧
        (∀ e ∈ s.requests, e.phase ≠ .ordered) ∧ (∀ p, (s.part p).marks = []) ∧ s.engine.state = .idle ∧
        s.engine.waiting = [] ∧ s.engine.currentLine = none) := by
  decide +kernel

/-- An unwind read that is late at its second attempt, with a group of a FAULTED partition waiting and an age that
reaches its limit. -/
theorem witness_TickIsTaken_of_unwind_read :
    let r := due (sent 0 .unwindRead .unwindLine)
    let c : Claim := ⟨0x1000, 0, true, 1, 2⟩
    let s : State := { engineIn .restoring (.reading 2) [] with
      ageLimit := 1, outstanding := [r]
      groups := ((on.groups.set 0 (member .unwinding)).set 1 { member .unwinding with partition := some 1 }).set 2
        (member .opened)
      partitions := on.partitions.set 1 { readyPartition 7 1 ⟨2, 1⟩ with state := .faulted }
      engine := { (engineIn .restoring (.reading 2) []).engine with waiting := [1] } }
    s.direct = true ∧ lateIn s = [r] ∧ (s.outstanding.map (·.number)).Nodup ∧ s.controller ≠ .shutdown ∧
      s.engine.state = .restoring ∧ s.engine.current = some 0 ∧ s.engine.currentLine = some c ∧
      s.engine.lineStep = .reading 2 ∧ s.engine.restoreSet = [] ∧ s.engine.waiting = [1] ∧
      s.groupState 0 = .unwinding ∧ s.groupState 1 = .unwinding ∧ (s.group 1).partition = some 1 ∧
      (s.part 1).state = .faulted ∧ (∀ x ∈ s.claims, x.tag = 1 → x.logged = false) ∧
      (∀ e ∈ s.requests, e.phase ≠ .waitUnwind) ∧ s.groupState 2 = .opened ∧ (s.group 2).age + 1 = 1 := by
  decide +kernel

/-- A record without a limit, one short of its limit, and one at it, in ACTIVE and in SHUTDOWN, of each kind of
purpose. -/
theorem witness_ExpiredRecordTimesOut :
    on.direct = true ∧ on.recordOf 0 = none ∧
    (∀ y ∈ [(Purpose.slotWrite, Ref.slot 0 2), (.headerWrite, .header 3 1), (.scanRead, .scanner 0 2),
        (.formatWrite, .format 3 1), (.unwindRead, .unwindLine), (.recoveryRead, .restoreEntry),
        (.homeWrite, .entry 0)],
      ∀ x ∈ [(0, 0), (2, 3), (3, 3)], ∀ c ∈ [CtrlState.active, .shutdown],
        let r := { sent 0 y.1 y.2 with ticks := x.1, limit := x.2 }
        let s : State := { claimed .unwinding with
          controller := c, outstanding := [r], engine := (engineIn .restoring (.reading 1) []).engine }
        s.direct = true ∧ s.recordOf 0 = some r ∧ s.engine.current = some 0) := by
  decide +kernel

theorem witness_ResponseWithoutRecordIsDiscarded :
    on.direct = true ∧ on.recordOf 0 = none ∧ on.recordOf 0xFFFFFFFF = none := by decide +kernel

theorem witness_RequestsAreHandedOverInOrder :
    (let r := { sent 1 .hostRead (.entry 0) with passed := false };
      let s : State := { on with outstanding := [sent 0 .hostRead (.entry 1)] ++ r :: [] };
      s.direct = true ∧ (∀ x ∈ [sent 0 .hostRead (.entry 1)], x.passed = true) ∧ r.passed = false) ∧
    (∀ x ∈ on.outstanding, x.passed = true) ∧
    (on.outstanding.map (·.number)).Nodup ∧ on.issueCounter ∉ on.outstanding.map (·.number) ∧
    on.outstanding.length + 2 < 2 ^ 32 := by
  decide +kernel

/-! ### Witnesses: recovery and FORMAT -/

/-- A part in RECOVERING whose scanner is at work on partition 0, one record of the scanner's in flight. -/
def recovering (sc : Scanner) (purpose : Purpose) (ref : Ref) : State :=
  { on with
    controller := .recovering, outstanding := [sent 0 purpose ref], scanner := { sc with current := some 0 }
    cmdStatus := ⟨.running, none, none, none, none, some .start, some 0⟩
    partitions := on.partitions.set 0 { Partition.cleared with state := .scanning } }

/-- Both header slots, the other copy missing, ill-formed or well-formed, of the right size or not, at each attempt. -/
theorem witness_HeaderReadsChooseCopy :
    (∀ k ∈ [0, 1], ∀ attempt ∈ [1, 2],
      let s := recovering { Scanner.cleared with stage := some .headers, attempt0 := attempt, attempt1 := attempt }
        .headerRead (.header 0 k)
      s.direct = true ∧ s.recordOf 0 = some (sent 0 .headerRead (.header 0 k)) ∧ s.scanner.current = some 0 ∧
        s.scanner.stage = some .headers ∧ s.scanner.copy0 = none ∧ s.scanner.copy1 = none) ∧
    headerWellFormed 0 [] = false ∧ headerWellFormed 1 [] = false ∧ on.size 0 = 1 ∧
    headerWellFormed 0 (headerCopy 1 7 2 ⟨2, 1⟩) = true ∧ headerSize (headerCopy 1 7 2 ⟨2, 1⟩) = 1 ∧
    headerWellFormed 1 (headerCopy 1 7 3 ⟨63, 1⟩) = true ∧ headerSize (headerCopy 2 7 2 ⟨2, 1⟩) = 2 ∧
    ((headerCopy 1 7 2 ⟨2, 1⟩).take 64 = headerCopy 1 7 2 ⟨2, 1⟩) := by
  decide +kernel

/-- The scan at slot 2 of lap 1, at its first or second attempt, with or without a held header. -/
def scanning (header : Option Bytes) (list : List RecoveryEntry) (attempt : Nat) (slot : Nat) : State :=
  recovering { Scanner.cleared with
    stage := some .scan, chosen := some ⟨7, 2, ⟨2, 1⟩, 1⟩, position := some ⟨slot, 1⟩, heldHeader := header
    list := list, attempt := attempt } .scanRead (.scanner 0 slot)

/-- The header slot of an UNDO record for line 0x1000 or, in the partition itself, 0x10040. -/
def undoSlot (line : Addr) : Bytes := undoSlotBytes 7 1 ⟨0, 9, 1, some line⟩ (List.replicate 64 0)

set_option maxRecDepth 8000 in
theorem witness_ScanTakesRecords :
    (∀ attempt ∈ [1, 2], ∀ slot ∈ [2, 63],
      let s := scanning none [] attempt slot
      s.direct = true ∧ s.recordOf 0 = some (sent 0 .scanRead (.scanner 0 slot)) ∧ s.scanner.current = some 0 ∧
        s.scanner.stage = some .scan ∧ s.scanner.position = some ⟨slot, 1⟩) ∧
    (let s := scanning (some (undoSlot 0x1000)) [] 1 2;
      s.direct = true ∧ slotKindByte (undoSlot 0x1000) = 0xA1#8 ∧
        recordValid 7 ⟨2, 1⟩ 63 (undoSlot 0x1000) (List.replicate 64 0) = true ∧
        recordLength (undoSlot 0x1000) ≤ s.capacity 0 ∧
        s.inPartition (BitVec.ofNat 40 (slotLine (undoSlot 0x1000))) = false ∧
        s.inPartition (BitVec.ofNat 40 (slotLine (undoSlot 0x10040))) = true ∧
        recordValid 7 ⟨2, 1⟩ 63 (undoSlot 0x10040) (List.replicate 64 0) = true ∧
        Pos.dist (s.capacity 0) ⟨2, 1⟩ (Pos.advance (s.capacity 0) 2 ⟨2, 1⟩) < s.capacity 0) ∧
    (∀ slot ∈ [closingSlotBytes 0xA2 7 1 ⟨0, 9, 1, none⟩, closingSlotBytes 0xA3 7 1 ⟨0, 9, 1, none⟩,
        padSlotBytes 1 7 1, padSlotBytes 2 7 1],
      recordValid 7 ⟨2, 1⟩ 63 slot [] = true ∧ recordLength slot ≤ on.capacity 0) ∧
    recordValid 7 ⟨2, 1⟩ 63 (List.replicate 64 0) [] = false ∧
    ¬ (slotEpoch (List.replicate 64 0) = 7 ∧ slotLap (List.replicate 64 0) = 1) := by
  decide +kernel

set_option maxRecDepth 8000 in
/-- A broken record in each way, the last position before the limit of the ring capacity, and a record that would end
beyond it. -/
theorem witness_ScanTakesRecords_of_broken_record :
    slotCheckOk (undoSlot 0x1000) (List.replicate 64 1) = false ∧
    (slotEpoch (undoSlotBytes 8 1 ⟨0, 9, 1, some 0x1000⟩ []) ≠ 7 ∧
      slotLap (undoSlotBytes 7 2 ⟨0, 9, 1, some 0x1000⟩ []) ≠ 1) ∧
    (slotSequence (undoSlotBytes 7 1 ⟨0, 0, 1, some 0x1000⟩ []) = 0 ∧
      slotIndex (undoSlotBytes 7 1 ⟨0, 9, 0, some 0x1000⟩ []) = 0 ∧
      slotIndex (undoSlotBytes 7 1 ⟨0, 9, 1025, some 0x1000⟩ []) = 1025 ∧
      slotLine (undoSlotBytes 7 1 ⟨0, 9, 1, some 0x1001⟩ []) % 64 ≠ 0) ∧
    (slotUndoCount (closingSlotBytes 0xA2 7 1 ⟨0, 9, 0, none⟩) = 0 ∧
      slotPadLength (padSlotBytes 0 7 1) = 0 ∧ slotPadLength (padSlotBytes 3 7 1) = 3) ∧
    (let tail : Pos := ⟨10, 1⟩;
      let last : Pos := ⟨9, 2⟩;
      Pos.dist (on.capacity 0) tail last + 1 = on.capacity 0 ∧
        on.capacity 0 < Pos.dist (on.capacity 0) tail last + 2 ∧
        on.capacity 0 ≤ Pos.dist (on.capacity 0) tail (last.advance (on.capacity 0) 1)) ∧
    (slotEpoch (undoSlot 0x1000) = 7 ∧ slotLap (undoSlot 0x1000) = 1) := by
  decide +kernel

/-- A recovery list in full storage. -/
theorem witness_ScanTakesRecords_full_list :
    1024 ≤ (scanning (some (undoSlot 0x1000)) (List.replicate 1024 ⟨9, 0, 2, 0x1000⟩) 1 2).scanner.list.length :=
  Nat.le_of_eq (List.length_replicate ..).symm

/-- The void pass before the last position and at it, of each purpose, at each attempt. -/
theorem witness_VoidPassClearsSlots :
    (∀ purpose ∈ [Purpose.voidRead, .voidWrite], ∀ attempt ∈ [1, 2], ∀ pos ∈ [(⟨3, 1⟩ : Pos), ⟨63, 1⟩],
      let s := recovering { Scanner.cleared with
        stage := some .void, chosen := some ⟨7, 2, ⟨2, 1⟩, 1⟩, position := some pos, attempt := attempt
        list := [] ++ [⟨9, 0, 2, 0x1000⟩] } purpose (.scanner 0 pos.slot)
      s.direct = true ∧ s.recordOf 0 = some (sent 0 purpose (.scanner 0 pos.slot)) ∧
        s.scanner.stage = some .void ∧ s.scanner.position = some pos ∧ s.scanner.list = [] ++ [⟨9, 0, 2, 0x1000⟩]) ∧
    (let s := recovering { Scanner.cleared with
        stage := some .void, chosen := some ⟨7, 2, ⟨2, 1⟩, 1⟩, position := some ⟨63, 1⟩, scanEnd := some ⟨4, 1⟩ }
        .voidRead (.scanner 0 63);
      s.direct = true ∧ s.scanner.list = [] ∧ s.scanner.scanEnd = some ⟨4, 1⟩) ∧
    Pos.dist (on.capacity 0) ⟨2, 1⟩ (Pos.advance (on.capacity 0) 1 ⟨3, 1⟩) < on.capacity 0 ∧
    on.capacity 0 ≤ Pos.dist (on.capacity 0) ⟨2, 1⟩ (Pos.advance (on.capacity 0) 1 ⟨63, 1⟩) ∧
    (slotEpoch (padSlotBytes 1 7 1) = 7 ∧ slotLap (padSlotBytes 1 7 1) = 1) ∧
    slotEpoch (List.replicate 64 0) ≠ 7 := by
  decide +kernel

/-- A restore's read and its write, with another entry to restore or none, at each attempt. -/
theorem witness_RecoveryRestoresLines :
    ∀ x ∈ [(Purpose.recoveryRead, RestoreStep.reading), (.recoveryWrite, .writing)], ∀ attempt ∈ [1, 2],
      ∀ rest ∈ [[], [(⟨9, 0, 2, 0x1000⟩ : RecoveryEntry)]],
        let s := recovering { Scanner.cleared with
          stage := some .restore, chosen := some ⟨7, 2, ⟨2, 1⟩, 1⟩, scanEnd := some ⟨4, 1⟩
          restoreEntry := some ⟨9, 0, 4, 0x1040⟩, restoreStep := some x.2, attempt := attempt, toRestore := rest
          writeData := some [1] } x.1 .restoreEntry
        s.direct = true ∧ s.recordOf 0 = some (sent 0 x.1 .restoreEntry) ∧ s.scanner.current = some 0 ∧
          s.scanner.restoreEntry = some ⟨9, 0, 4, 0x1040⟩ ∧ s.scanner.restoreStep = some x.2 ∧
          s.scanner.toRestore = rest ∧ s.incidents.length ≤ 8 ∧ s.scanner.writeData = some [1] := by
  decide +kernel

/-- The rewrite of the last enabled partition, and of one with partition 3 enabled behind it. -/
theorem witness_RewriteMakesReady :
    (∀ attempt ∈ [1, 2],
      let s := recovering { Scanner.cleared with
        stage := some .rewrite, chosen := some ⟨7, 2, ⟨2, 1⟩, 1⟩, scanEnd := some ⟨4, 1⟩, attempt := attempt
        writeData := some [1] } .headerRewrite (.header 0 1)
      s.direct = true ∧ s.recordOf 0 = some (sent 0 .headerRewrite (.header 0 1)) ∧ s.scanner.current = some 0 ∧
        s.scanner.stage = some .rewrite ∧ s.scanner.chosen = some ⟨7, 2, ⟨2, 1⟩, 1⟩ ∧
        s.scanner.scanEnd = some ⟨4, 1⟩ ∧ (∀ x : PartId, 0 < x → s.size x = 0) ∧ s.scanner.writeData = some [1]) ∧
    (let s : State := { on with geometry := on.geometry.set 3 ⟨32, 1⟩ };
      s.size 3 ≠ 0 ∧ ∀ y : PartId, 0 < y → y < 3 → s.size y = 0) := by
  decide +kernel

theorem witness_FormatWritesCopies :
    ∀ k ∈ [0, 1], ∀ attempt ∈ [1, 2],
      let j : FormatJob := ⟨0, 16, 1, 7, k, attempt⟩
      let s : State := { State.reset with
        formatJob := some j, outstanding := [sent 0 .formatWrite (.format 0 k)] }
      s.direct = true ∧ s.recordOf 0 = some (sent 0 .formatWrite (.format 0 k)) ∧ s.formatJob = some j ∧
        (j.copySlot = 0 ∨ j.copySlot = 1) := by
  decide +kernel

/-! ### Witnesses: the controller -/

/-- A part in CONFIG with partition 0 on one unit, partition 1 on another, and region 0 on a third. -/
def configured (base0 base1 : Word) (region : Word) : State :=
  { State.reset with
    geometry := (State.reset.geometry.set 0 ⟨base0, 1⟩).set 1 ⟨base1, 1⟩
    regions := State.reset.regions.set 0 ⟨region, 1, .guarded, true⟩ }

/-- No two partitions overlap, by the check of the model. -/
theorem no_partitions_meet (s : State) (h : ∀ p q : PartId, p < q → s.partitionsOverlap p q = false) :
    ∀ p q, p < q → ¬ s.partsMeet p q := fun p q hpq hm => by
  have := (partitionsOverlap_iff s p q).2 hm
  rw [h p q hpq] at this
  cases this

/-- No partition and region overlap, by the check of the model. -/
theorem no_regions_meet (s : State) (h : ∀ p r, s.regionOverlaps p r = false) : ∀ p r, ¬ s.regionMeets p r :=
  fun p r hm => by
  have := (regionOverlaps_iff s p r).2 hm
  rw [h p r] at this
  cases this

/-- Partitions that meet; a partition and a region that meet; none that do, with a partition enabled or none. -/
theorem witness_StartBegins :
    ((configured 16 16 1).listening = true ∧ (configured 16 16 1).controller = .config ∧
      (configured 16 16 1).partsMeet 0 1) ∧
    ((∀ p q, p < q → ¬ (configured 16 32 32).partsMeet p q) ∧ (configured 16 32 32).regionMeets 1 0 ∧
      ¬ (configured 16 32 32).regionMeets 0 0) ∧
    ((∀ p q, p < q → ¬ (configured 16 32 1).partsMeet p q) ∧ (∀ p r, ¬ (configured 16 32 1).regionMeets p r) ∧
      (configured 16 32 1).size 0 ≠ 0) ∧
    State.reset.listening = true ∧ (∀ p, State.reset.size p = 0) ∧ ∀ p q, p < q → ¬ State.reset.partsMeet p q :=
  ⟨⟨by decide +kernel, rfl, (partitionsOverlap_iff _ 0 1).1 (by decide +kernel)⟩,
    ⟨no_partitions_meet _ (by decide +kernel), (regionOverlaps_iff _ 1 0).1 (by decide +kernel), fun h => by
      have := (regionOverlaps_iff _ 0 0).2 h
      revert this; decide +kernel⟩,
    ⟨no_partitions_meet _ (by decide +kernel), no_regions_meet _ (by decide +kernel), by decide +kernel⟩,
    by decide +kernel, by decide +kernel, no_partitions_meet _ (by decide +kernel)⟩

theorem witness_FormatBegins :
    (let s : State := { State.reset with operand := 4 };
      s.listening = true ∧ 4 ≤ s.operand.toNat ∧ s.controller ≠ .shutdown) ∧
    (let s : State := { State.reset with operand := 3 };
      s.listening = true ∧ s.controller = .config ∧ s.operand.toNat = (3 : PartId).val ∧ s.size 3 = 0) ∧
    ((configured 16 16 1).operand.toNat = (0 : PartId).val ∧ (configured 16 16 1).size 0 ≠ 0 ∧
      (configured 16 16 1).partsMeet 0 1) ∧
    ((configured 16 32 16).regionMeets 0 0 ∧ (∀ q, q ≠ 0 → ¬ (configured 16 32 16).partsMeet 0 q)) ∧
    ((∀ q, q ≠ 0 → ¬ (configured 16 32 1).partsMeet 0 q) ∧ ∀ p r, ¬ (configured 16 32 1).regionMeets p r) :=
  have apart (base1 region : Word) (h : ∀ p q, p < q → ¬ (configured 16 base1 region).partsMeet p q) (q : PartId)
      (hq : q ≠ 0) : ¬ (configured 16 base1 region).partsMeet 0 q := h 0 q (Fin.pos_iff_ne_zero.2 hq)
  ⟨by decide +kernel, by decide +kernel,
    ⟨rfl, by decide +kernel, (partitionsOverlap_iff _ 0 1).1 (by decide +kernel)⟩,
    ⟨(regionOverlaps_iff _ 0 0).1 (by decide +kernel), apart 32 16 (no_partitions_meet _ (by decide +kernel))⟩,
    apart 32 1 (no_partitions_meet _ (by decide +kernel)), no_regions_meet _ (by decide +kernel)⟩

/-- The quiet condition holds of the part in service, and does not with a group OPEN. -/
theorem witness_ModeCommands :
    (∀ c ∈ [CtrlState.quiescing, .active, .quiet],
      ({ on with controller := c } : State).listening = true ∧ ({ on with controller := c } : State).direct = true) ∧
    ({ on with controller := .quiescing } : State).quiet ∧ on.quiet ∧ ¬ (claimed .opened).quiet :=
  ⟨by decide +kernel, (quietHolds_iff _).1 (by decide +kernel), (quietHolds_iff _).1 (by decide +kernel), fun h => by
    have := (quietHolds_iff _).2 h
    revert this; decide +kernel⟩

/-- Operands outside and at the ends of the tags, an OPEN and a BROKEN group, a partition READY and FAULTED. -/
theorem witness_GroupCommands :
    (∀ x ∈ [(0 : Byte), 1, 15, 16],
      ({ on with operand := x } : State).listening = true ∧ ({ on with operand := x } : State).controller ≠ .shutdown) ∧
    ((1 : Byte).toNat = (0 : Tag).val + 1 ∧ (15 : Byte).toNat = (14 : Tag).val + 1 ∧ 15 < (16 : Byte).toNat) ∧
    ((claimed .opened).groupState 0 = .opened ∧ ((claimed .opened).requests.map (·.index)).Nodup) ∧
    (claimed .broken).groupState 0 = .broken ∧ ((claimed .broken).group 0).partition = some 0 ∧
    ((claimed .broken).part 0).state ≠ .faulted ∧
    (let s : State := { claimed .broken with
        partitions := on.partitions.set 0 { readyPartition 7 1 ⟨2, 1⟩ with state := .faulted } };
      s.listening = true ∧ (s.part 0).state = .faulted) := by
  decide +kernel

theorem witness_CommandRefusals :
    (∀ c ∈ [CtrlState.shutdown, .config, .active, .quiescing, .quiet],
      ({ on with controller := c } : State).listening = true ∧
        ({ on with controller := c } : State).operand.toNat < 4) ∧
    10 ≤ (10 : Byte).toNat ∧ 10 ≤ (255 : Byte).toNat ∧
    (let s : State := { on with cmdStatus := { on.cmdStatus with outcome := .running } };
      s.direct = true ∧ s.link.frame = .idle ∧ s.cmdStatus.outcome = .running) := by
  decide +kernel

theorem witness_SoftResetClearsRunState :
    full.resetLine = false ∧ full.link.frame = .idle ∧ full.held = none ∧
    ({ full with held := some (rd 0x3000 0 0) } : State).held = some (rd 0x3000 0 0) ∧
    (rd 0x3000 0 0).wellFormed = true := by
  decide +kernel

theorem witness_PowerFailEntersShutdown :
    (∀ c ∈ [CtrlState.shutdown, .active, .recovering], ∀ r ∈ [CmdOutcome.running, .done],
      let s : State := { full with controller := c, cmdStatus := { full.cmdStatus with outcome := r } }
      s.resetLine = false ∧ s.held = none ∧ (s.requests.map (·.index)).Nodup) ∧
    ((engineIn .restoring (.reading 1) []).engine.state = .restoring ∧
      (engineIn .restoring (.reading 1) []).engine.lineStep ≠ .waitStores ∧
      (engineIn .restoring .waitStores []).engine.lineStep = .waitStores) ∧
    intentOk (rd 0x3000 0 0) = true ∧ spanOk (rd 0x3000 0 0) = true := by
  decide +kernel

/-- The reset state with the line asserted again meets the premises of the second and the third part. -/
theorem witness_ResetLineResets :
    ({ State.reset with resetLine := true } : State).resetHeld ∧
    ({ State.reset with resetLine := true } : State).resetLine = true ∧ (rd 0x3000 0 0).wellFormed = true :=
  ⟨fun _ => ⟨rfl, .inl rfl, fun _ h => by cases h⟩, rfl, rfl⟩

/-! ### Witnesses: the management link -/

/-- Frames one byte short of a header, with a wrong check, of lengths 0, 1, 16 and 17, at unmapped and over-long
addresses, and read frames one edge short, exact, and one edge over. -/
theorem witness_ReadFrameReturnsSnapshot :
    on.direct = true ∧ on.link.frame = .idle ∧
    ([0x3C#8, 0, 0, 1] : Bytes).length < 5 ∧
    linkCheck [0x3C, 0, 0x10, 4] ≠ 0 ∧
    (∀ n ∈ [(0 : Byte), 1, 16, 17], linkCheck ([0x3C#8, 0, 0, n, linkCheck [0x3C, 0, 0, n]].take 4) =
      linkCheck [0x3C, 0, 0, n]) ∧
    ((∀ k, k < 16 → mapped k = true) ∧ mapped 0xFFF = false ∧ 4096 ≤ (0x10 : Byte).toNat * 256) ∧
    ([0, 0, 0, 1] : Bytes) = [0, 0] ++ [0, 1] ∧
    (([] : Bytes) ≠ [] ∨ (3 : Fin 8) ≤ 7) ∧
    8 * (6 : Nat) + 7 < 48 + 8 * 1 ∧ 8 * (7 : Nat) + 0 = 48 + 8 * 1 ∧ 48 + 8 * 1 < 8 * (7 : Nat) + 1 := by
  decide +kernel

theorem witness_WindowReads :
    (State.reset.part 3).state = .off ∧ State.reset.flags &&& State.reset.mask = 0 ∧
    (∀ i ∈ [0, 8],
      let s : State := { on with flags := 1#9 <<< i, mask := 0x1FF#9 }
      (s.flags &&& s.mask).getLsbD i = true ∧ ∀ j, j < i → (s.flags &&& s.mask).getLsbD j = false) ∧
    (State.reset.group 14).sequence = none ∧ State.reset.incidents.length ≤ 0 ∧ (on.part 0).state ≠ .off ∧
    fullLog.incidents[7]?.isSome = true := by
  decide +kernel

/-- A field covered in part, at each end, and a range cut between the operand and the command register. -/
theorem witness_WrittenFieldsAreLimited :
    (0 < [(1 : Byte)].length ∧ 1 + [(1 : Byte)].length ≤ 2) ∧ 0 + [(1 : Byte), 2, 3].length ≤ 4 ∧
    0x002 + [(1 : Byte)].length ≤ 0x00C ∧ 0x014 + 2 ≤ 0x014 + [(1 : Byte), 2].length := by
  decide

/-- R181: the high byte alone of the divider 25000, 0x61A8, is written. -/
theorem test_partial_write_keeps_the_other_byte :
    (State.reset.writeRange 0x015 [1]).tickDivider = 0x01A8#16 := by
  decide +kernel

/-- R34, R181: the value assembled, 0xFF00, is limited. -/
theorem test_partial_write_is_then_limited : (State.reset.writeRange 0x01D [0xFF]).claimLimit = 1024#16 := by
  decide +kernel

/-- Frames of each class of field, locked and not, one that names a command and one that a RUNNING command stops. -/
theorem witness_WriteFrameIsDecided :
    (on.direct = true ∧ on.link.frame = .idle) ∧
    ((∀ k, k < 4 → mapped (0x010 + k) = true) ∧ ∃ k, k < 4 ∧ classAt (0x010 + k) = some .readOnly) ∧
    ((∀ k, k < 2 → mapped (0x01C + k) = true) ∧ (∃ k, k < 2 ∧ classAt (0x01C + k) = some .configuration) ∧
      ¬ (∃ k, k < 2 ∧ classAt (0x01C + k) = some .readOnly) ∧ on.controller ≠ .config) ∧
    ((∀ k, k < 2 → mapped (0x002 + k) = true) ∧ ¬ (∃ k, k < 2 ∧ classAt (0x002 + k) = some .readOnly) ∧
      ¬ (∃ k, k < 2 ∧ classAt (0x002 + k) = some .configuration)) ∧
    State.reset.controller = .config ∧ ([0x02#8, 0x03] : Bytes).length ≤ 16 ∧
    (let rest : Bytes := (cleanWriteFrame 0x002 [0x02, 0x03]).drop 1; rest = rest.take 5 ++ rest.drop 5) ∧
    8 * ([0xAA] : Bytes).length + 0 ≠ 0 ∧ 8 * ([] : Bytes).length + 1 ≠ 0 ∧ (([] : Bytes) ≠ [] ∨ (3 : Fin 8) ≤ 3) := by
  decide +kernel

theorem witness_FaultyFramesChangeNothing :
    on.direct = true ∧ on.link.frame = .idle ∧ on.link.frame ≠ .discarding ∧
    ({ on with link := { Link.cleared with frame := .discarding } } : State).link.frame = .discarding ∧
    (badKind [0x00, 0, 0, 0] = true ∧ ([0x00, 0, 0, 0] : Bytes).length < 5) ∧
    (badKind [0x3D, 0, 0, 0, 0] = true ∧ ([0x3D, 0, 0, 0, 0] : Bytes).getD 4 0 ≠ linkCheck [0x3D, 0, 0, 0]) ∧
    badKind [0x00, 0, 0, 0, 0] = true ∧ ([0x00, 0, 0, 0, 0] : Bytes).getD 4 0 = linkCheck [0x00, 0, 0, 0] ∧
    (∀ k, k < 16 → mapped (0x000 + k) = true) ∧ mapped 0x001 = true ∧
    (([0x00#8, 2, 2, 0xB5] : Bytes).length = 4 ∧
      ([0xC3#8, 0, 2, 2, 0xB5] : Bytes).getD 4 0 ≠ linkCheck [0xC3, 0, 2, 2]) ∧
    (∀ n ∈ [(0 : Byte), 1, 16, 17],
      ([0xC3#8, 0, 2, n, linkCheck [0xC3, 0, 2, n]] : Bytes).getD 4 0 = linkCheck [0xC3, 0, 2, n]) ∧
    4096 ≤ (0x10 : Byte).toNat * 256 ∧ mapped 0xFFF = false := by
  decide +kernel

/-! ### Witnesses: formats and invariants -/

/-- The smallest and the largest header, record index, line and undo count. -/
theorem witness_SlotsReadBack :
    (1 ≤ 1 ∧ 2 ≤ (⟨2, 1⟩ : Pos).slot ∧ (⟨63, 1⟩ : Pos).slot ≤ 64 * 1 - 1) ∧
    ((⟨262143, 1⟩ : Pos).slot ≤ 64 * 4096 - 1) ∧
    (let info : RecordInfo := ⟨14, 0xFFFFFFFF, 1024, some 0xFFFFFFFFC0⟩;
      info.sequence ≠ 0 ∧ 1 ≤ info.index ∧ info.index ≤ 1024 ∧ (0xFFFFFFFFC0 : Addr).toNat % 64 = 0) ∧
    (let info : RecordInfo := ⟨0, 1, 1, none⟩;
      info.sequence ≠ 0 ∧ 1 ≤ info.index ∧ info.index ≤ 1024) := by
  decide +kernel

/-- A part in service: group 1 is OPEN with one claim, whose UNDO record has been passed by the front, and holds a
reservation; group 2 waits to be unwound in a partition that has FAULTED. -/
def inService : State :=
  { claimed .opened with
    seqCounter := 3, geometry := on.geometry.set 1 ⟨32, 1⟩
    groups := (on.groups.set 0 (member .opened)).set 1
      { Group.cleared with state := .unwinding, sequence := some 2, partition := some 1 }
    engine := { Engine.cleared with waiting := [1] }
    partitions := (on.partitions.set 0 { readyPartition 7 1 ⟨2, 1⟩ with
      head := ⟨4, 1⟩, reserved := 1, spans := [⟨some 1, 2⟩]
      marks := List.replicate 2 ⟨.undoData, .acknowledged, 1, [], none⟩ }).set 1
        { readyPartition 7 1 ⟨2, 1⟩ with state := .faulted, reserved := 1 } }

/-- Every group but the groups 1 and 2 is FREE. -/
theorem inService_free : ∀ t : Tag, t = 0 ∨ t = 1 ∨ inService.groupState t = .free := by decide +kernel

/-- Every partition but the partitions 0 and 1 is cleared and of size 0. -/
theorem inService_cleared :
    ∀ p : PartId, p = 0 ∨ p = 1 ∨ inService.part p = .cleared ∧ inService.size p = 0 := by decide +kernel

/-- The group table of the part in service. -/
theorem witness_StepKeepsGroupTable : inService.GroupsSound where
  claims_counted := by decide +kernel
  lines_once := by decide +kernel
  sequences_differ := by decide +kernel
  sequence_given t h := by
    obtain rfl | rfl | hf := inService_free t
    · exact ⟨1, rfl, by decide, by decide⟩
    · exact ⟨2, rfl, by decide, by decide⟩
    · exact absurd hf h
  counter_given := by decide
  unwinding_waits := by decide +kernel
  waits_once := by decide +kernel
  idle_alone _ := rfl
  free_cleared := by decide +kernel
  halted_bare := by decide +kernel
  quiet_free := by decide +kernel
  spans_stored := by decide +kernel
  scanner_idle _ := rfl

/-- The rings of the part in service. -/
theorem witness_StepKeepsRingLaw : inService.JournalSound where
  ring_law p h := by
    obtain rfl | rfl | ⟨hp, -⟩ := inService_cleared p
    · decide +kernel
    · decide +kernel
    · rw [hp] at h; exact absurd h (by unfold Partition.inUse; decide)
  span_law := by decide +kernel
  reservations_counted := by decide +kernel
  positions p h := by
    obtain rfl | rfl | ⟨hp, -⟩ := inService_cleared p
    · exact ⟨by decide +kernel, by unfold State.inRing; decide +kernel, by decide +kernel, by decide +kernel,
        by decide +kernel, fun _ h => by cases h⟩
    · exact ⟨by decide +kernel, by unfold State.inRing; decide +kernel, by decide +kernel, by decide +kernel,
        by decide +kernel, fun _ h => by cases h⟩
    · rw [hp] at h; exact absurd h (by unfold Partition.inUse; decide)
  unused_cleared p h := by
    obtain rfl | rfl | ⟨hp, -⟩ := inService_cleared p
    · exact absurd (.inl rfl) h
    · exact absurd (.inr rfl) h
    · rw [hp]
  groups_placed t h := by
    obtain rfl | rfl | hf := inService_free t
    · exact ⟨0, rfl, .inl rfl, fun _ => rfl⟩
    · exact ⟨1, rfl, .inr rfl, by decide +kernel⟩
    · exact absurd hf h
  sealing_completed _ h := by cases h
  entries_numbered := List.nodup_nil
  line_restoring h := absurd rfl h
  config_off h := absurd h (by decide)
  enabled_used _ p h := by
    obtain rfl | rfl | ⟨-, hs⟩ := inService_cleared p
    · exact .inl rfl
    · exact .inr rfl
    · exact absurd hs h
  scanned_before _ h := by cases h
  scanning_unused _ h := by cases h
  scan_in_ring _ h := by cases h

/-- The part in service, and the reset state with the reset line asserted, meet the other invariants, and a step of
each answers a next state: the premises of StepKeepsBounds and StepKeepsResetValues. -/
theorem witness_invariants :
    (inService.incidentsBounded ∧ inService.configInRange ∧ inService.entriesNumbered ∧ inService.claimsByLine ∧
      inService.scannerIdle ∧ inService.linkSound ∧ ∃ t, step inService = .next t) ∧
    (let held : State := { State.reset with resetLine := true };
      held.resetHeld ∧ held.linkSound ∧ held.betweenFrames ∧ ∃ t, step held = .next t) :=
  ⟨⟨by unfold State.incidentsBounded; decide, by unfold State.configInRange; decide +kernel, List.nodup_nil,
      ⟨by decide, by decide⟩, fun _ => rfl, ⟨⟨rfl, rfl⟩, fun h => by cases h⟩, _, rfl⟩,
    fun _ => ⟨rfl, .inl rfl, fun _ h => by cases h⟩, ⟨⟨rfl, rfl⟩, fun _ => .inl rfl⟩, .inl rfl, _, rfl⟩

/-- A write frame in CONFIG changes the configuration; SOFT_RESET leaves SHUTDOWN; START reaches RECOVERING; and
QUIESCE reaches QUIET: each premise of ControllerLaws that names a change is met, and the states and commands meet the
premises on them. -/
theorem witness_ControllerLaws :
    (∀ s ∈ [State.reset, { on with controller := .shutdown }, configured 16 32 1, on,
        { on with controller := .quiet }],
      (s.controller ≠ .recovering ∧ s.scanner = .cleared) ∧ s.link.frame = .idle) ∧
    (∀ c ∈ [Instr.writeFrame ((cleanWriteFrame 0x01C [1, 0]).drop 1) ⟨true, 0, true⟩ false, .softReset false, .start,
        .quiesce, .resume],
      c.wellFormed = true) ∧
    (after (.writeFrame ((cleanWriteFrame 0x01C [1, 0]).drop 1) ⟨true, 0, true⟩ false) State.reset
      (fun t => decide (t.configuration ≠ State.reset.configuration)) = true) ∧
    after (.softReset false) { on with controller := .shutdown } (fun t => t.controller == .config) = true ∧
    after .start (configured 16 32 1) (fun t => t.controller == .recovering) = true ∧
    after .quiesce on (fun t => t.controller == .quiet) = true ∧
    after .resume { on with controller := .quiet } (fun t => t.controller == .active) = true := by
  decide +kernel

end Sys2Proof.Tests
end

section
/-! What the access path refuses: its branches for a write and a read (R83, R84), the checks of a new claim in their
order (R4, R34, R55), and AccessPathRefusals from them. -/

namespace Sys2Proof.Machine

/-! ### From the access path to the outcome of the request -/

theorem accessPath_begin (s : State) (r : HostRequest) (carried : Bool) :
    s.begin.accessPath r carried = s.accessPath r carried := rfl

/-- A COMMIT whose carried access is refused leaves no other trace (R82). -/
theorem commitRequest_refused (s : State) (r : HostRequest) (t : Tag) (st : Status) (h : s.admits r = true)
    (hp : intentOf r.intent = some .commit) (ht : tagOf r.tag = some t)
    (hg : s.groupState t = .free ∨ s.groupState t = .opened) (he : s.accessPath r true = .error st) :
    exec (.hostRequest r) s = s.refusing r st := by
  obtain ⟨-, -, -, hf⟩ := (admits_iff s r).1 h
  obtain ⟨i, hi⟩ := Option.isSome_iff_exists.mp hf
  rw [commit_takes_access s r i t h hi hp ht hg]
  simp only [State.takeAccess, accessPath_begin, he]
  rfl

theorem accessPath_write (s : State) (r : HostRequest) (carried : Bool) (hk : r.kind = .write) :
    s.accessPath r carried = s.writePath (lineOf r.address) (tagOf r.tag) carried := by
  simp only [State.accessPath, hk]

theorem accessPath_read (s : State) (r : HostRequest) (carried : Bool) (hk : r.kind = .read) :
    s.accessPath r carried = s.readPath (lineOf r.address) := by
  simp only [State.accessPath, hk]

/-! ### The branches of the access path -/

theorem readPath_of_broken (s : State) (l : Addr) (c : Claim) (hc : s.claimOf l = some c)
    (hg : s.groupState c.tag = .broken) : s.readPath l = .error .broken := by
  simp only [State.readPath, hc, hg]

theorem writePath_untagged_guarded (s : State) (l : Addr) (g : Region) (carried : Bool) (hl : s.regionOf l = some g)
    (hm : g.mode = .guarded) : s.writePath l none carried = .error .untagged := by
  simp only [State.writePath, hl, hm]

theorem writePath_untagged_shared (s : State) (l : Addr) (g : Region) (carried : Bool) (hl : s.regionOf l = some g)
    (hm : g.mode = .shared) (hc : (s.claimOf l).isSome = true) : s.writePath l none carried = .error .conflict := by
  simp only [State.writePath, hl, hm, hc, if_true]

/-- A PLAIN write to a protected line meets its group's state first (R3, R84). -/
theorem writePath_of_plainWrite (s : State) (l : Addr) (t : Tag) (st : Status) (hl : s.protectedLine l = true)
    (hg : (s.groupState t).plainWrite = some st) : s.writePath l (some t) false = .error st := by
  obtain ⟨g, hr⟩ := regionOf_of_protected s l hl
  simp [State.writePath, hr, hg]

/-- A tagged write of a FREE or OPEN group to a protected line, PLAIN or carried, goes on to the claims (R84). -/
theorem writePath_journaled (s : State) (l : Addr) (t : Tag) (carried : Bool) (hl : s.protectedLine l = true)
    (hg : s.groupState t = .free ∨ s.groupState t = .opened) :
    s.writePath l (some t) carried = s.journaledPath l t := by
  obtain ⟨g, hr⟩ := regionOf_of_protected s l hl
  have hp : (s.groupState t).plainWrite = none := by
    rcases hg with hg | hg <;> rw [hg] <;> rfl
  simp [State.writePath, hr, hp]

theorem journaledPath_of_foreign (s : State) (l : Addr) (t : Tag) (c : Claim) (hc : s.claimOf l = some c)
    (hn : c.tag ≠ t) : s.journaledPath l t = .error .conflict := by
  simp only [State.journaledPath, hc, if_neg hn]

theorem journaledPath_of_claimRefusal (s : State) (l : Addr) (t : Tag) (st : Status) (hc : s.claimOf l = none)
    (hr : s.claimRefusal t = some st) : s.journaledPath l t = .error st := by
  simp only [State.journaledPath, hc, hr]

/-- A write that the access path refuses: PLAIN, or carried by a COMMIT of a FREE or OPEN group (R82, R84). -/
theorem taggedWrite_refused (s : State) (r : HostRequest) (t : Tag) (st : Status) (h : s.admits r = true)
    (hp : intentOf r.intent = some .plain ∨ intentOf r.intent = some .commit) (hk : r.kind = .write)
    (hl : s.protectedLine (lineOf r.address) = true) (ht : tagOf r.tag = some t)
    (hg : s.groupState t = .free ∨ s.groupState t = .opened)
    (he : s.journaledPath (lineOf r.address) t = .error st) : exec (.hostRequest r) s = s.refusing r st := by
  have path : ∀ carried, s.accessPath r carried = .error st := fun carried => by
    rw [accessPath_write s r carried hk, ht, writePath_journaled s _ t carried hl hg, he]
  rcases hp with hp | hp
  · exact plainRequest_refused s r st h hp (path false)
  · exact commitRequest_refused s r t st h hp ht hg (path true)

/-! ### The checks of a new claim -/

/-- The ring or the span list of partition `p` has no room for an UNDO record of sequence `v`, its PAD and every
reservation, with `opening` of them still to be taken (R54, R55). -/
def State.lacksRoom (s : State) (p : PartId) (v : Word) (opening : Nat) : Prop :=
  let part := s.part p
  let pad := part.head.slot = 64 * s.size p - 1
  let slots := if pad then 3 else 2
  let spans := if pad then 2 else if part.spans.getLast?.map (·.sequence) = some (some v) then 0 else 1
  64 * s.size p - 2 < part.occupancy (s.capacity p) + slots + part.reserved + opening ∨
    64 < part.spans.length + spans + part.reserved + opening

theorem padNeeded_iff (part : Partition) (size : Nat) :
    part.padNeeded size = true ↔ part.head.slot = 64 * size - 1 := decide_eq_true_iff

theorem undoSlots_eq (part : Partition) (size : Nat) :
    part.undoSlots size = if part.head.slot = 64 * size - 1 then 3 else 2 := by
  simp only [Partition.undoSlots, padNeeded_iff]

theorem undoSpans_eq (part : Partition) (size : Nat) (v : Word) :
    part.undoSpans size v = if part.head.slot = 64 * size - 1 then 2
      else if part.spans.getLast?.map (·.sequence) = some (some v) then 0 else 1 := by
  simp only [Partition.undoSpans, padNeeded_iff]
  cases part.spans.getLast? with
  | none => simp
  | some last => simp

/-- The space check and the span check fail exactly where room is lacking (R55). -/
theorem hasRoom_eq_false_iff_lacksRoom (s : State) (p : PartId) (v : Word) (opens : Bool) :
    (s.part p).hasRoom (s.size p) v opens = false ↔ s.lacksRoom p v (if opens then 1 else 0) := by
  unfold Partition.hasRoom State.lacksRoom
  simp only [undoSlots_eq, undoSpans_eq, Bool.and_eq_false_iff, decide_eq_false_iff_not, Nat.not_le]
  rfl

/-- The last checks of a new claim, which a FREE and an OPEN group share: CLAIMS_FULL (R34), then JOURNAL_FULL (R55). -/
def State.roomRefusal (s : State) (p : PartId) (v : Word) (opens : Bool) : Option Status :=
  if 1024 ≤ s.claims.length then some .claimsFull
  else if (s.part p).hasRoom (s.size p) v opens then none
  else some .journalFull

theorem roomRefusal_of_claims_full (s : State) (p : PartId) (v : Word) (opens : Bool) (h : 1024 ≤ s.claims.length) :
    s.roomRefusal p v opens = some .claimsFull := if_pos h

theorem roomRefusal_of_lacksRoom (s : State) (p : PartId) (v : Word) (opens : Bool) (h : s.claims.length < 1024)
    (hl : s.lacksRoom p v (if opens then 1 else 0)) : s.roomRefusal p v opens = some .journalFull := by
  simp [State.roomRefusal, Nat.not_le.mpr h, (hasRoom_eq_false_iff_lacksRoom s p v opens).mpr hl]

/-- A group in progress is at its limit by its claims or by its UNDO records (R34). -/
theorem atClaimLimit_iff (s : State) (t : Tag) : s.atClaimLimit t = true ↔ s.groupState t ≠ .free ∧
    ((s.group t).claimsHeld = s.claimLimit.toNat ∨ (s.group t).undoCount = some 1024) := by
  rw [State.atClaimLimit, Bool.and_eq_true, Bool.or_eq_true]
  exact and_congr decide_eq_true_iff (or_congr decide_eq_true_iff decide_eq_true_iff)

/-- A FREE group meets the opening checks, is never at the claim limit, and takes the tag map's partition and the
counter's sequence (R4, R34). -/
theorem claimRefusal_of_free (s : State) (t : Tag) (hg : s.groupState t = .free) :
    s.claimRefusal t = (s.openingRefusal t).or (s.roomRefusal s.tagMap[t] s.seqCounter true) := by
  unfold State.claimRefusal State.claimPartition State.claimSequence
  cases s.openingRefusal t <;> simp [hg, atClaimLimit_iff, State.roomRefusal, Config.claimEntries]

/-- An OPEN group meets the claim limit first, and keeps its partition and sequence (R5, R34). -/
theorem claimRefusal_of_opened (s : State) (t : Tag) (p : PartId) (v : Word) (hg : s.groupState t = .opened)
    (hp : (s.group t).partition = some p) (hv : (s.group t).sequence = some v) :
    s.claimRefusal t =
      if (s.group t).claimsHeld = s.claimLimit.toNat ∨ (s.group t).undoCount = some 1024 then some .claimLimit
      else s.roomRefusal p v false := by
  unfold State.claimRefusal State.claimPartition State.claimSequence
  simp [hg, hp, hv, atClaimLimit_iff, State.roomRefusal, Config.claimEntries]

theorem enabled_iff (s : State) (p : PartId) : s.enabled p = true ↔ s.size p ≠ 0 := decide_eq_true_iff

theorem openingRefusal_of_quiescing (s : State) (t : Tag) (h : s.controller = .quiescing) :
    s.openingRefusal t = some .quiescing := if_pos h

theorem openingRefusal_of_size_zero (s : State) (t : Tag) (h : s.controller ≠ .quiescing)
    (hs : s.size s.tagMap[t] = 0) : s.openingRefusal t = some .noJournal := by
  have he : s.enabled s.tagMap[t] = false := Bool.eq_false_iff.mpr fun he => (enabled_iff s _).mp he hs
  rw [State.openingRefusal, if_neg h, he]
  rfl

/-- An enabled partition of a part that is not QUIESCING refuses an opening only when it is FAULTED (R4). -/
theorem openingRefusal_of_enabled (s : State) (t : Tag) (h : s.controller ≠ .quiescing)
    (hs : s.size s.tagMap[t] ≠ 0) :
    s.openingRefusal t = if (s.part s.tagMap[t]).state = .faulted then some .journalFault else none := by
  rw [State.openingRefusal, if_neg h, (enabled_iff s _).mpr hs]
  rfl

/-! ### The refusals -/

/-- The PLAIN refusals: an untagged write, a write of a group that is not FREE or OPEN, a read of a BROKEN group's
line. -/
theorem plain_refusals (s : State) (r : HostRequest) (h : s.admits r = true) (hp : intentOf r.intent = some .plain) :
    (∀ g, r.kind = .write → s.regionOf (lineOf r.address) = some g → tagOf r.tag = none →
      (g.mode = .guarded → exec (.hostRequest r) s = s.refusing r .untagged) ∧
      (g.mode = .shared → (s.claimOf (lineOf r.address)).isSome = true →
        exec (.hostRequest r) s = s.refusing r .conflict)) ∧
    (∀ t st, r.kind = .write → s.protectedLine (lineOf r.address) = true → tagOf r.tag = some t →
      (s.groupState t).plainWrite = some st → exec (.hostRequest r) s = s.refusing r st) ∧
    (∀ c, r.kind = .read → s.claimOf (lineOf r.address) = some c → s.groupState c.tag = .broken →
      exec (.hostRequest r) s = s.refusing r .broken) := by
  refine ⟨fun g hk hl ht => ⟨fun hm => ?_, fun hm hc => ?_⟩, fun t st hk hl ht hg => ?_, fun c hk hc hg => ?_⟩ <;>
    refine plainRequest_refused s r _ h hp ?_
  · exact (accessPath_write s r false hk).trans (ht ▸ writePath_untagged_guarded s _ g false hl hm)
  · exact (accessPath_write s r false hk).trans (ht ▸ writePath_untagged_shared s _ g false hl hm hc)
  · exact (accessPath_write s r false hk).trans (ht ▸ writePath_of_plainWrite s _ t st hl hg)
  · exact (accessPath_read s r false hk).trans (readPath_of_broken s _ c hc hg)

/-- Settles O6: each refusal is the first check of the access path that fails. -/
theorem accessPathRefusals : Obligations.AccessPathRefusals := by
  intro s r h
  refine ⟨fun hp => ?_, fun t hp hk hl ht hg => ?_⟩
  · obtain ⟨untagged, tagged, read⟩ := plain_refusals s r h hp
    refine ⟨untagged, fun t hk hl ht => ?_, read⟩
    refine ⟨fun hg => tagged t _ hk hl ht ?_, fun hg => tagged t _ hk hl ht ?_, fun hg => tagged t _ hk hl ht ?_⟩
    · rcases hg with hg | hg <;> rw [hg] <;> rfl
    · rcases hg with hg | hg <;> rw [hg] <;> rfl
    · rw [hg]; rfl
  · have refused : ∀ st, s.journaledPath (lineOf r.address) t = .error st → _ := fun st =>
      taggedWrite_refused s r t st h hp hk hl ht hg
    refine ⟨fun c hc hn => refused _ (journaledPath_of_foreign s _ t c hc hn), fun hc => ?_⟩
    have newClaim : ∀ st, s.claimRefusal t = some st → exec (.hostRequest r) s = s.refusing r st := fun st hr =>
      refused st (journaledPath_of_claimRefusal s _ t st hc hr)
    refine ⟨fun hg => ?_, fun p v hg hp hv => ?_⟩
    · rw [claimRefusal_of_free s t hg] at newClaim
      refine ⟨fun hq => newClaim _ ?_, fun hq hs => newClaim _ ?_, fun hq hs => ?_⟩
      · rw [openingRefusal_of_quiescing s t hq]; rfl
      · rw [openingRefusal_of_size_zero s t hq hs]; rfl
      · rw [openingRefusal_of_enabled s t hq hs] at newClaim
        refine ⟨fun hf => newClaim _ (by rw [if_pos hf]; rfl), fun hf => ?_⟩
        rw [if_neg hf, Option.none_or] at newClaim
        exact ⟨fun hn => newClaim _ (roomRefusal_of_claims_full s _ _ true hn),
          fun hn hr => newClaim _ (roomRefusal_of_lacksRoom s _ _ true hn hr)⟩
    · rw [claimRefusal_of_opened s t p v hg hp hv] at newClaim
      refine ⟨fun hlim => newClaim _ (if_pos hlim), fun hlim => ?_⟩
      rw [if_neg hlim] at newClaim
      exact ⟨fun hn => newClaim _ (roomRefusal_of_claims_full s _ _ false hn),
        fun hn hr => newClaim _ (roomRefusal_of_lacksRoom s _ _ false hn hr)⟩

end Sys2Proof.Machine
end

section
/-! Where a read on the access path goes (R83): the claim table's answer, what an admitted read adds to the request
table, by itself or carried by a COMMIT, its array READ where nothing holds it back (R89), and ReadFollowsTheClaim from
them. -/

namespace Sys2Proof.Machine

/-! ### What the claim table answers -/

theorem readPath_of_unclaimed (s : State) (l : Addr) (hc : s.claimOf l = none) :
    s.readPath l = .ok (.read, .ordered) := by
  simp only [State.readPath, hc]

theorem readPath_of_unwinding (s : State) (l : Addr) (c : Claim) (hc : s.claimOf l = some c)
    (hg : s.groupState c.tag = .unwinding) : s.readPath l = .ok (.read, .waitUnwind) := by
  simp only [State.readPath, hc, hg]

theorem readPath_of_in_progress (s : State) (l : Addr) (c : Claim) (hc : s.claimOf l = some c)
    (hg : s.groupState c.tag = .opened ∨ s.groupState c.tag = .draining ∨ s.groupState c.tag = .sealing) :
    s.readPath l = .ok (.read, .ordered) := by
  rcases hg with hg | hg | hg <;> simp only [State.readPath, hc, hg]

/-! ### Admission of a read -/

/-- A COMMIT of a FREE or OPEN group whose carried access the access path lets through (R82). -/
theorem commitRequest_admitted (s : State) (r : HostRequest) (i : EntryId) (t : Tag) (path : Path) (phase : Phase)
    (h : s.admits r = true) (hi : s.freeEntry = some i) (hp : intentOf r.intent = some .commit)
    (ht : tagOf r.tag = some t) (hg : s.groupState t = .free ∨ s.groupState t = .opened)
    (he : s.accessPath r true = .ok (path, phase)) :
    exec (.hostRequest r) s = .next (s.begin.admitAccess i r path phase true).settle := by
  rw [commit_takes_access s r i t h hi hp ht hg]
  simp only [State.takeAccess, accessPath_begin, he]

/-- A read adds one entry to the table; which group the entry joins is the COMMIT's business (R10, R86). -/
theorem admitAccess_read_requests (s : State) (r : HostRequest) (i : EntryId) (phase : Phase) (carried : Bool) :
    ∃ group member, (s.admitAccess i r .read phase carried).requests =
      s.requests ++ [{ newEntry i r .read phase with group := group, member := member }] := by
  unfold State.admitAccess
  cases tagOf r.tag with
  | none => exact ⟨none, none, rfl⟩
  | some t =>
    cases hc : carried && decide (s.groupState t = .opened) with
    | true => exact ⟨some t, some (s.memberOf t), by simp [Path.journaled, State.modGroup, hc, newEntry]⟩
    | false => exact ⟨none, none, by simp [Path.journaled, hc, newEntry]⟩

/-- A PLAIN read that the claim table lets through changes the request table alone, before the event settles. -/
theorem plainRead_admitted (s : State) (r : HostRequest) (i : EntryId) (phase : Phase) (h : s.admits r = true)
    (hi : s.freeEntry = some i) (hk : r.kind = .read) (hp : intentOf r.intent = some .plain)
    (hr : s.readPath (lineOf r.address) = .ok (.read, phase)) :
    exec (.hostRequest r) s = .next (State.settle { s with
      responses := [], mdo := [], joined := 0, requests := s.requests ++ [newEntry i r .read phase] }) := by
  rw [plainRequest_admitted s r i h hi hp .read phase ((accessPath_read s r false hk).trans hr), admitAccess_read]

theorem commitRead_admitted (s : State) (r : HostRequest) (i : EntryId) (t : Tag) (phase : Phase)
    (h : s.admits r = true) (hi : s.freeEntry = some i) (hk : r.kind = .read)
    (hp : intentOf r.intent = some .commit) (ht : tagOf r.tag = some t)
    (hg : s.groupState t = .free ∨ s.groupState t = .opened)
    (hr : s.readPath (lineOf r.address) = .ok (.read, phase)) :
    ∃ (x : State) (e : Entry), exec (.hostRequest r) s = .next x.settle ∧ x.requests = s.requests ++ [e] ∧
      e.index = i ∧ e.request = r ∧ e.path = .read ∧ e.phase = phase := by
  obtain ⟨group, member, added⟩ := admitAccess_read_requests s.begin r i phase true
  exact ⟨_, _, commitRequest_admitted s r i t .read phase h hi hp ht hg ((accessPath_read s r true hk).trans hr),
    added, rfl, rfl, rfl, rfl⟩

/-- A read of a BROKEN group's line is refused, by itself or carried by a COMMIT (R42, R83). -/
theorem read_refused_broken (s : State) (r : HostRequest) (c : Claim) (h : s.admits r = true) (hk : r.kind = .read)
    (hc : s.claimOf (lineOf r.address) = some c) (hg : s.groupState c.tag = .broken)
    (hp : intentOf r.intent = some .plain ∨ ∃ t, intentOf r.intent = some .commit ∧ tagOf r.tag = some t ∧
      (s.groupState t = .free ∨ s.groupState t = .opened)) :
    exec (.hostRequest r) s = s.refusing r .broken := by
  have path : ∀ carried, s.accessPath r carried = .error .broken := fun carried =>
    (accessPath_read s r carried hk).trans (readPath_of_broken s _ c hc hg)
  rcases hp with hp | ⟨t, hp, ht, hf⟩
  · exact plainRequest_refused s r _ h hp (path false)
  · exact commitRequest_refused s r t _ h hp ht hf (path true)

/-! ### A read that leaves ORDERED -/

/-- The point of issue of a read: its entry enters LOADING and its array READ is issued (R89). -/
theorem issueAccess_read (s : State) (e : Entry) (hp : e.path = .read) (ho : s.closedTo e.line = false) :
    s.issueAccess e = (s.modEntry e.index (fun x => { x with phase := .loading })).issue .hostRead (.entry e.index)
      e.request.address e.request.length [] := by
  rw [State.issueAccess, if_neg (by simp [ho]), hp]

/-- The only entry of the table, a read in ORDERED of a line that is not closed, leaves it at once (R88, R89). -/
theorem leaveAll_of_only_read (x : State) (r : HostRequest) (i : EntryId)
    (hx : x.requests = [newEntry i r .read .ordered]) (hn : x.controller ≠ .shutdown)
    (ho : x.closedTo (lineOf r.address) = false) :
    x.leaveAll = State.issue .hostRead (.entry i) r.address r.length []
      { x with requests := [newEntry i r .read .loading] } := by
  rw [leaveAll_single x _ hx rfl hn, issueAccess_read x (newEntry i r .read .ordered) rfl ho]
  simp only [State.modEntry, hx, newEntry, List.map_cons, List.map_nil, if_true]

/-- Settles O4: the claim table's answer decides, by itself or carried by a COMMIT. -/
theorem readFollowsTheClaim : Obligations.ReadFollowsTheClaim := by
  intro s r i h hi hk claimed plain commits admittedTo
  have admitted : ∀ phase, s.readPath (lineOf r.address) = .ok (.read, phase) → admittedTo phase :=
    fun phase hr => ⟨fun hp => plainRead_admitted s r i phase h hi hk hp hr,
      fun ⟨t, hp, ht, hg⟩ => commitRead_admitted s r i t phase h hi hk hp ht hg hr⟩
  refine ⟨fun c hc hg => read_refused_broken s r c h hk hc hg,
    fun c hc hg => admitted _ (readPath_of_unwinding s _ c hc hg),
    fun c hc hg => admitted _ (readPath_of_in_progress s _ c hc hg),
    fun hc => admitted _ (readPath_of_unclaimed s _ hc), fun hc hp hempty => ?_⟩
  intro t hrest
  obtain ⟨-, -, he, -⟩ := (admits_iff s r).1 h
  rw [plainRead_admitted s r i .ordered h hi hk hp (readPath_of_unclaimed s _ hc), hempty, List.nil_append]
  refine congrArg _ (settle_of_leave _ t (leaveAll_of_only_read _ r i rfl ?_ ?_) hrest)
  · exact earlyRefusal_not_shutdown s r he
  · exact earlyRefusal_open_line s r he

end Sys2Proof.Machine
end

section
/-! SUPPORT. Everything that an event can do to the tables of the part, as a list of moves, and each function of the
model as a run of them. The invariants are then checked move by move. -/

namespace Sys2Proof.Machine

/-! ### The tables -/

/-- The fields that the invariants of the tables speak of. -/
structure Tables where
  configuration : Configuration
  controller    : CtrlState
  groups        : Vector Group 15
  seqCounter    : Word
  claims        : List Claim
  partitions    : Vector Partition 4
  requests      : List Entry
  engine        : Engine
  scanner       : Scanner
  incidents     : List Incident
  dropped       : Nat

/-- The tables of a state. -/
def State.tables (s : State) : Tables where
  configuration := s.configuration
  controller := s.controller
  groups := s.groups
  seqCounter := s.seqCounter
  claims := s.claims
  partitions := s.partitions
  requests := s.requests
  engine := s.engine
  scanner := s.scanner
  incidents := s.incidents
  dropped := s.dropped

/-- What the request table can become without an admission: entries leave or change, but none changes its number. -/
def Entry.fates (before after : List Entry) : Prop :=
  (after.map (·.index)).Sublist (before.map (·.index))

/-- A group in one of these states has not yet closed, and no revocation or abort has met it. -/
def GroupState.runs (g : GroupState) : Prop :=
  g = .opened ∨ g = .draining ∨ g = .sealing

/-- A group entry whose sequence and claims held stay, that keeps its state or goes from OPEN towards SEALING, and that
stays FREE with every field cleared. -/
def Group.agrees (g h : Group) : Prop :=
  h.sequence = g.sequence ∧ h.claimsHeld = g.claimsHeld ∧ (h.state = g.state ∨ g.state.runs ∧ h.state.runs) ∧
    (g = Group.cleared → h = Group.cleared)

/-- What the engine can become while it keeps its group and the waiting order: it does not become IDLE. -/
def State.steers (s : State) (e : Engine) : Prop :=
  e.waiting = s.engine.waiting ∧ e.current = s.engine.current ∧ (e.state = .idle → s.engine.state = .idle)

/-- The engine has ended a group: it is IDLE and keeps the waiting order (R103). -/
def Engine.ended (e : Engine) : Engine :=
  { e with
    state := .idle, current := none, currentLine := none, lineStep := .waitStores, restoreData := none
    failedLines := 0, firstFailed := none, restoreSet := [] }

/-- A group's entry when it has left for UNWINDING (R14, R16). -/
def Group.unwound (origin : UnwindOrigin) (cause : Option RevokeCause) (g : Group) : Group :=
  { g with state := .unwinding, unwindOrigin := some origin, revokeCause := cause, commitRequest := none }

/-- No entry of the request table has this number (R86). -/
def State.unused (s : State) (i : EntryId) : Prop :=
  ∀ x ∈ s.requests, x.index ≠ i

/-- The moves. -/
inductive State.Move (s : State) : State → Prop
  /-- Responses, array requests, flags, the command status: no table changes. -/
  | outputs {t : State} (h : t.tables = s.tables) : Move s t
  | logs (i : Incident) : Move s (s.log i)
  | fates (l : List Entry) (h : Entry.fates s.requests l) : Move s { s with requests := l }
  | admits (e : Entry) (hf : s.unused e.index) : Move s (s.addEntry e)
  | touches (g : Vector Group 15) (h : ∀ u : Tag, (s.group u).agrees g[u]) : Move s { s with groups := g }
  | logsClaims (f : Claim → Claim) (hl : ∀ c, (f c).line = c.line) (ht : ∀ c, (f c).tag = c.tag) :
      Move s { s with claims := s.claims.map f }
  | claims (t : Tag) (line : Addr) (hc : s.claimOf line = none) (hr : s.claimRefusal t = none)
      (hg : s.groupState t = .free ∨ s.groupState t = .opened)
      (ho : s.controller = .active ∨ s.controller = .quiescing) : Move s (s.takeClaim t line)
  | releases (t : Tag) : Move s (s.releaseClaims t)
  | removes (t : Tag) (line : Addr) : Move s (s.removeClaim t line)
  | frees (t : Tag) (h0 : (s.group t).claimsHeld = 0 ∨ s.groupState t = .halted) (h : s.groupState t ≠ .unwinding) :
      Move s (s.freeGroup t)
  | unwinds (t : Tag) (origin : UnwindOrigin) (cause : Option RevokeCause) (h : (s.groupState t).runs) :
      Move s ((s.modGroup t (Group.unwound origin cause)).joinWaiting t)
  | retries (t : Tag) (h : s.groupState t = .broken) : Move s (s.retryGroup t)
  /-- A partition changes, and its span list keeps within its storage (R52). -/
  | rings (p : PartId) (x : Partition) (h : (s.part p).spans.length ≤ 64 → x.spans.length ≤ 64) :
      Move s (s.setPart p x)
  | takes (t : Tag) (rest : List Tag) (hi : s.engine.state = .idle) (hw : s.engine.waiting = t :: rest) :
      Move s (s.takeGroup t rest)
  | steers (e : Engine) (h : s.steers e) : Move s { s with engine := e }
  | restores (t : Tag) (g : Group) (hc : s.engine.current = some t)
      (hg : g = Group.cleared ∨ g = { s.group t with state := .halted })
      (h0 : (s.group t).claimsHeld = 0) : Move s ((s.setGroup t g).modEngine Engine.ended)
  | breaks (t : Tag) (hc : s.engine.current = some t) :
      Move s ((s.modGroup t (fun g => { g with state := .broken })).modEngine Engine.ended)
  | quiets : Move s s.quietTest
  /-- The scanner goes on with its partition (R123 to R132). -/
  | scans (p : PartId) (sc : Scanner) (hc : s.scanner.current = some p) : Move s { s with scanner := sc }
  /-- START fails (R136). -/
  | fails (p : PartId) (hc : s.scanner.current = some p) : Move s (s.partitionsOff.clearScanner.enter .config)
  /-- The partition is READY and the next one that is enabled is taken, or recovery has succeeded (R134, R135). -/
  | readies (p : PartId) (epoch generation : Word) (x : Pos) (hc : s.scanner.current = some p) :
      Move s (((s.setPart p (readyPartition epoch generation x)).clearScanner).takeFirst (fun q => decide (p < q)))
  /-- START (R148): the first enabled partition is taken, or recovery succeeds at once. -/
  | starts (h : s.controller = .config) : Move s ((s.enter .recovering).takeFirst (fun _ => true))
  | quiesces (h : s.controller = .active) : Move s (s.enter .quiescing)
  | resumes (h : s.controller = .quiescing ∨ s.controller = .quiet) : Move s (s.enter .active)
  | stops (h : s.controller = .quiet) : Move s (s.partitionsOff.restartSequence.enter .config)
  | clearsIncidents : Move s { s with incidents := [], dropped := 0 }
  /-- A configuration value is written (R181). -/
  | configures {t : State} (ht : t.tables = { s.tables with configuration := t.configuration })
      (hr : s.configInRange → t.configInRange) : Move s t
  /-- The controller enters SHUTDOWN (R154), and in RECOVERING the recovery ends (R137). -/
  | shuts (h : s.controller ≠ .recovering) : Move s (s.enter .shutdown)
  | shutsRecovery (h : s.controller = .recovering) : Move s (s.partitionsOff.clearScanner.enter .shutdown)
  | clears : Move s s.clearRun
  | resets (mselLow : Bool) : Move s (s.assertReset mselLow)

/-- A run of moves. -/
abbrev State.Moves : State → State → Prop := Relation.ReflTransGen State.Move

theorem State.Move.moves {s t : State} (h : s.Move t) : s.Moves t := .single h

theorem moves_refl (s : State) : s.Moves s := .refl

theorem moves_outputs {s t : State} (h : t.tables = s.tables) : s.Moves t := (State.Move.outputs h).moves

theorem foldl_moves {α : Type} (f : State → α → State) (h : ∀ (s : State) x, s.Moves (f s x)) (l : List α) (s : State) :
    s.Moves (l.foldl f s) := by
  induction l generalizing s with
  | nil => exact .refl
  | cons x l ih => exact (h s x).trans (ih _)

/-- A property that every move keeps is kept by a run of them. -/
theorem State.Moves.keeps {P : State → Prop} (h : ∀ s t, s.Move t → P s → P t) {s t : State} (hm : State.Moves s t)
    (hs : P s) : P t := by
  induction hm with
  | refl => exact hs
  | tail _ hb ih => exact h _ _ hb ih

end Sys2Proof.Machine
end

section
/-! SUPPORT. Each function of the memory path as a run of moves: the tables, the journal, the group table, the unwind
engine. -/

namespace Sys2Proof.Machine

/-! ### The request table -/

theorem fates_filter (l : List Entry) (f : Entry → Bool) : Entry.fates l (l.filter f) :=
  List.filter_sublist.map _

theorem fates_map (l : List Entry) (f : Entry → Entry) (hi : ∀ x, (f x).index = x.index) : Entry.fates l (l.map f) := by
  rw [Entry.fates, List.map_map, show ((fun e : Entry => e.index) ∘ f) = (fun e => e.index) from funext hi]

theorem dropEntry_moves (s : State) (i : EntryId) : s.Moves (s.dropEntry i) :=
  (State.Move.fates _ (fates_filter _ _)).moves

theorem modEntry_moves (s : State) (i : EntryId) (f : Entry → Entry) (hi : ∀ x, (f x).index = x.index) :
    s.Moves (s.modEntry i f) :=
  (State.Move.fates _ (fates_map _ _ fun x => by split <;> simp [hi])).moves

theorem finishEntry_moves (s : State) (e : Entry) (st : Status) (d : Bytes) : s.Moves (s.finishEntry e st d) :=
  (moves_outputs (s := s) (t := s.answer e st d) rfl).trans (dropEntry_moves (s.answer e st d) e.index)

theorem answerEarly_moves (s : State) (e : Entry) (st : Status) : s.Moves (s.answerEarly e st) :=
  (moves_outputs (s := s) (t := s.answer e st []) rfl).trans
    (modEntry_moves _ e.index (fun x => { x with answered := true }) (fun _ => rfl))

theorem phase_moves (s : State) (i : EntryId) (p : Phase) : s.Moves (s.modEntry i (fun x => { x with phase := p })) :=
  modEntry_moves s i _ fun _ => rfl

/-! ### The journal engine -/

/-- A change of a partition that leaves its spans. -/
theorem part_moves (s : State) (p : PartId) (x : Partition) (h : x.spans = (s.part p).spans) :
    s.Moves (s.setPart p x) :=
  (State.Move.rings p x fun hl => h ▸ hl).moves

theorem log_moves (s : State) (i : Incident) : s.Moves (s.log i) := (State.Move.logs i).moves

theorem raise_moves (s : State) (c : Cause) : s.Moves (s.raise c) := moves_outputs rfl

theorem modPart_moves (s : State) (p : PartId) (f : Partition → Partition) (h : (f (s.part p)).spans = (s.part p).spans) :
    s.Moves (s.modPart p f) :=
  part_moves s p _ h

theorem issueSlot_moves (s : State) (p : PartId) (slot : Nat) (d : Bytes) : s.Moves (s.issueSlot p slot d) :=
  moves_outputs rfl

theorem decideUndo_moves (s : State) (u : UndoRef) (d : Bytes) : s.Moves (s.decideUndo u d) := by
  unfold State.decideUndo
  split
  · exact part_moves s u.partition _ rfl
  · exact .refl

theorem padUndo_moves (s : State) (u : UndoRef) : s.Moves (s.padUndo u) := by
  unfold State.padUndo
  split
  · exact part_moves s u.partition _ rfl
  · exact .refl

theorem issueSlots_moves (s : State) (p : PartId) : s.Moves (s.issueSlots p) := by
  unfold State.issueSlots
  split
  · refine (part_moves s p { s.part p with marks := issueMarks (s.part p).marks } rfl).trans ?_
    exact foldl_moves (fun (x : State) (c : Nat × Bytes) =>
      x.issueSlot p ((s.part p).durableTail.advance (s.capacity p) c.1).slot c.2) (fun _ _ => moves_outputs rfl) _ _
  · exact .refl

theorem issueHeader_moves (s : State) (p : PartId) (w : HeaderWrite) : s.Moves (s.issueHeader p w) :=
  moves_outputs rfl

theorem considerHeader_moves (s : State) (p : PartId) : s.Moves (s.considerHeader p) := by
  unfold State.considerHeader
  dsimp only
  split
  · refine (part_moves s p _ ?_).trans (issueHeader_moves _ p _)
    rfl
  · exact .refl

theorem keptSpans_length (f : Span → Bool) : ∀ (l : List Span) (n : Nat), (keptSpans f n l).length ≤ l.length
  | [], _ => le_rfl
  | x :: l, n => by
    unfold keptSpans
    split
    · exact (keptSpans_length f l _).trans (Nat.le_succ _)
    · exact le_rfl

theorem retire_moves (s : State) (p : PartId) : s.Moves (s.retire p) := by
  unfold State.retire
  split
  · refine .trans (State.Move.rings p _ fun h => ?_).moves (considerHeader_moves _ p)
    exact (keptSpans_length _ _ _).trans h
  · exact .refl

theorem addSpan_length (x : Span) (l : List Span) (h : l.length ≤ 64) : (addSpan x l).length ≤ 64 := by
  unfold addSpan
  split
  · rename_i hl
    simpa [Config.spanEntries] using hl
  · exact h

theorem extendSpans_length (v : Word) (n : Nat) (l : List Span) (h : l.length ≤ 64) :
    (extendSpans v n l).length ≤ 64 := by
  unfold extendSpans
  split
  · rename_i x hx
    split
    · have : l ≠ [] := fun hl => by simp [hl] at hx
      have := List.length_pos_iff.mpr this
      simp
      omega
    · exact addSpan_length _ _ h
  · exact addSpan_length _ _ h

theorem placeClosing_moves (s : State) (t : Tag) (k : SlotKind) (c : Byte) : s.Moves (s.placeClosing t k c) := by
  unfold State.placeClosing
  split
  · exact .refl
  · split
    · exact (State.Move.rings _ _ fun h => extendSpans_length _ _ _ h).moves
    · exact .refl

/-! ### Revocation -/

/-- What the group table changes does not depend on the waiting order: an entry's fate is the same before and after its
group has joined it. -/
theorem revokeFate_joinWaiting (s : State) (t : Tag) (e : Entry) :
    (s.joinWaiting t).revokeFate e = (s.revokeFate e).joinWaiting t := by
  have pad : ∀ (x : State) (u : UndoRef), (x.joinWaiting t).padUndo u = (x.padUndo u).joinWaiting t := fun x u => by
    unfold State.padUndo
    rw [apply_ite (State.joinWaiting t)]
    rfl
  unfold State.revokeFate
  cases e.phase with
  | ordered =>
    cases e.path <;> cases e.undo
    case newClaim.some u => exact pad (s.finishEntry e .revoked []) u
    all_goals rfl
  | _ => rfl

theorem revokeFates_joinWaiting (t : Tag) (l : List Entry) (s : State) :
    l.foldl State.revokeFate (s.joinWaiting t) = (l.foldl State.revokeFate s).joinWaiting t := by
  induction l generalizing s with
  | nil => rfl
  | cons e l ih => rw [List.foldl_cons, revokeFate_joinWaiting, ih, List.foldl_cons]

theorem revokeFate_moves (s : State) (e : Entry) : s.Moves (s.revokeFate e) := by
  unfold State.revokeFate
  cases e.phase with
  | ordered =>
    dsimp only
    split
    · exact (finishEntry_moves _ _ _ _).trans (padUndo_moves _ _)
    · exact finishEntry_moves _ _ _ _
  | waitUnwind | logging | awaitOutcome => exact finishEntry_moves _ _ _ _
  | loading | capturing | storing =>
    exact (answerEarly_moves _ _ _).trans
      (modEntry_moves _ _ (fun x => { x with group := none }) (fun _ => rfl))

theorem startUnwind_moves (s : State) (t : Tag) (o : UnwindOrigin) (c : Option RevokeCause)
    (h : (s.groupState t).runs) : s.Moves (s.startUnwind t o c) := by
  refine .trans (State.Move.unwinds t o c h).moves ?_
  rw [State.startUnwind, ← revokeFates_joinWaiting]
  exact foldl_moves _ revokeFate_moves _ _

theorem appliesTo_states {c : RevokeCause} {g : GroupState} (h : c.appliesTo g = true) : g.runs := by
  unfold GroupState.runs
  cases g <;> cases c <;> simp_all [RevokeCause.appliesTo]

theorem revoke_moves (s : State) (t : Tag) (c : RevokeCause) : s.Moves (s.revoke t c) := by
  unfold State.revoke
  split
  · rename_i h
    rw [Bool.and_eq_true] at h
    exact ((startUnwind_moves s t _ _ (appliesTo_states h.2)).tail (.logs _)).trans (moves_outputs rfl)
  · exact .refl

/-! ### Groups that end -/

theorem agrees_refl (g : Group) : g.agrees g := ⟨rfl, rfl, .inl rfl, id⟩

/-- A change of one group entry that leaves its sequence and claims held. -/
theorem modGroup_moves (s : State) (t : Tag) (f : Group → Group) (h : (s.group t).agrees (f (s.group t))) :
    s.Moves (s.modGroup t f) := by
  refine (State.Move.touches _ fun u => ?_).moves
  by_cases hu : u = t
  · subst hu; simpa using h
  · have : (s.groups.set t (f (s.group t)))[u] = s.group u := by
      have := group_setGroup s t u (f (s.group t))
      rw [if_neg hu] at this
      exact this
    rw [this]
    exact agrees_refl _

theorem agrees_commitRequest (g : Group) : g.agrees { g with commitRequest := none } :=
  ⟨rfl, rfl, .inl rfl, fun h => by rw [h]; rfl⟩

theorem agrees_parkedAbort (g : Group) : g.agrees { g with parkedAbort := none } :=
  ⟨rfl, rfl, .inl rfl, fun h => by rw [h]; rfl⟩

theorem dropCommit_moves (s : State) (t : Tag) : s.Moves (s.dropCommit t) :=
  modGroup_moves s t _ (agrees_commitRequest _)

theorem completeGroup_moves (s : State) (t : Tag) (h : s.groupState t = .sealing) : s.Moves (s.completeGroup t) := by
  unfold State.completeGroup
  refine .trans (State.Move.releases t).moves ?_
  have hs : (s.releaseClaims t).groupState t = .sealing ∧ ((s.releaseClaims t).group t).claimsHeld = 0 := by
    simp [State.groupState, State.releaseClaims, State.modGroup, group_setGroup]
    exact h
  have free : ∀ x : State, x.groups = (s.releaseClaims t).groups → x.Moves (x.freeGroup t) := fun x hx => by
    have hg : x.group t = (s.releaseClaims t).group t := by unfold State.group; rw [hx]
    refine (State.Move.frees t (.inl (by rw [hg]; exact hs.2)) ?_).moves
    rw [State.groupState, hg]
    exact fun h => nomatch hs.1.symm.trans h
  dsimp only
  split
  · exact (finishEntry_moves _ _ _ _).trans (free _ rfl)
  · exact free _ rfl

theorem answerParked_moves (s : State) (t : Tag) (st : Status) : s.Moves (s.answerParked t st) := by
  unfold State.answerParked
  dsimp only
  split
  · exact (finishEntry_moves _ _ _ _).trans (modGroup_moves _ _ _ (agrees_parkedAbort _))
  · exact modGroup_moves _ _ _ (agrees_parkedAbort _)

/-- A change of the engine that leaves its group and the waiting order, and after which it is not newly IDLE. -/
theorem engine_moves (s : State) (e : Engine) (hw : e.waiting = s.engine.waiting) (hc : e.current = s.engine.current)
    (hs : e.state = .idle → s.engine.state = .idle) : s.Moves { s with engine := e } :=
  (State.Move.steers e ⟨hw, hc, hs⟩).moves

theorem endRetry_moves (s : State) (t : Tag) (f : State → State) (hf : ∀ x : State, (f x).tables = x.tables) :
    s.Moves (s.endRetry t f) := by
  unfold State.endRetry
  split
  · exact (engine_moves s { s.engine with retryTag := none } rfl rfl id).trans (moves_outputs (hf _))
  · exact .refl

end Sys2Proof.Machine
end

section
/-! SUPPORT. The unwind engine as a run of moves. -/

namespace Sys2Proof.Machine

/-! ### The end of an unwind -/

theorem releaseClaims_group (s : State) (t u : Tag) :
    (s.releaseClaims t).group u = if u = t then { s.group u with claimsHeld := 0 } else s.group u := by
  unfold State.releaseClaims State.modGroup
  rw [group_setGroup]
  split
  · subst_vars; rfl
  · rfl

theorem reportRestored_moves (s : State) (t : Tag) (hc : s.engine.current = some t) :
    s.Moves (s.reportRestored t) := by
  refine .trans (State.Move.releases t).moves ?_
  unfold State.reportRestored
  generalize hx : s.releaseClaims t = x
  have h0 : (x.group t).claimsHeld = 0 := by rw [← hx, releaseClaims_group, if_pos rfl]
  have hxc : x.engine.current = some t := by rw [← hx]; exact hc
  -- the group's entry and the engine change together; the end of the command before or after them is the same
  have ends : ∀ (y : State) (g : Group), y.engine = x.engine → (y.group t).claimsHeld = 0 →
      (g = Group.cleared ∨ g = { y.group t with state := .halted }) →
      y.Moves ((y.setGroup t g).endRetry t State.endDone).engineIdle := fun y g hy hy0 hg => by
    have main := (State.Move.restores t g (by rw [hy]; exact hxc) hg hy0).moves
    refine main.trans ?_
    unfold State.endRetry
    split
    · exact (engine_moves ((y.setGroup t g).modEngine Engine.ended)
        { y.engine.ended with retryTag := none } rfl rfl id).trans (moves_outputs rfl)
    · exact .refl
  unfold State.takeRestored
  split
  · refine (answerParked_moves x t .unwound).trans (ends (x.answerParked t .unwound) Group.cleared ?_ ?_ (.inl rfl))
    · unfold State.answerParked; dsimp only; split <;> rfl
    · unfold State.answerParked
      dsimp only
      split <;> simp [State.modGroup, group_setGroup] <;> exact h0
  · exact ends x _ rfl h0 (.inr rfl)

theorem finishEntry_engineIdle (s : State) (e : Entry) (st : Status) (d : Bytes) :
    s.engineIdle.finishEntry e st d = (s.finishEntry e st d).engineIdle := rfl

/-- A revocation and the end of the engine's work on its group touch different fields of the engine. -/
theorem revoke_engineIdle (s : State) (t : Tag) (c : RevokeCause) :
    s.engineIdle.revoke t c = (s.revoke t c).engineIdle := by
  have pad : ∀ (x : State) (u : UndoRef), x.engineIdle.padUndo u = (x.padUndo u).engineIdle := fun x u => by
    unfold State.padUndo
    rw [apply_ite State.engineIdle]
    rfl
  have fate : ∀ (x : State) (e : Entry), x.engineIdle.revokeFate e = (x.revokeFate e).engineIdle := fun x e => by
    unfold State.revokeFate
    cases e.phase with
    | ordered =>
      cases e.path <;> cases e.undo
      case newClaim.some u => exact pad (x.finishEntry e .revoked []) u
      all_goals rfl
    | _ => rfl
  have fates : ∀ (l : List Entry) (x : State),
      l.foldl State.revokeFate x.engineIdle = (l.foldl State.revokeFate x).engineIdle := fun l => by
    induction l with
    | nil => exact fun _ => rfl
    | cons e l ih => exact fun x => by rw [List.foldl_cons, fate, ih, List.foldl_cons]
  have logs : ∀ (x : State) (i : Incident), x.engineIdle.log i = (x.log i).engineIdle := fun x i => by
    unfold State.log
    dsimp only
    rw [apply_ite State.engineIdle]
    rfl
  have start : ∀ (o : UnwindOrigin) (k : Option RevokeCause),
      s.engineIdle.startUnwind t o k = (s.startUnwind t o k).engineIdle := fun o k => by
    exact congrArg (State.joinWaiting t) (fates _ (s.modGroup t (Group.unwound o k)))
  unfold State.revoke
  rw [start, logs, apply_ite State.engineIdle]
  rfl

theorem breakCommit_engineIdle (reads : List Entry) (s : State) (t : Tag) :
    State.breakCommit reads s.engineIdle t = (State.breakCommit reads s t).engineIdle := by
  unfold State.breakCommit
  rw [apply_ite State.engineIdle, ← revoke_engineIdle]
  rfl

theorem foldl_engineIdle {α : Type} (f : State → α → State)
    (hf : ∀ s x, f (State.engineIdle s) x = (f s x).engineIdle) (l : List α) (s : State) :
    l.foldl f s.engineIdle = (l.foldl f s).engineIdle := by
  induction l generalizing s with
  | nil => rfl
  | cons x l ih => rw [List.foldl_cons, hf, ih, List.foldl_cons]

theorem breakCommit_moves (reads : List Entry) (s : State) (t : Tag) : s.Moves (State.breakCommit reads s t) := by
  unfold State.breakCommit
  split
  · exact (modGroup_moves _ _ _ (agrees_commitRequest _)).trans (revoke_moves _ _ _)
  · exact .refl

theorem log_engineIdle (s : State) (i : Incident) : s.engineIdle.log i = (s.log i).engineIdle := by
  unfold State.log
  dsimp only
  rw [apply_ite State.engineIdle]
  rfl

theorem answerParked_engineIdle (s : State) (t : Tag) (st : Status) :
    s.engineIdle.answerParked t st = (s.answerParked t st).engineIdle := by
  unfold State.answerParked
  dsimp only
  rw [show (s.engineIdle.group t) = s.group t from rfl, show s.engineIdle.entry = s.entry from rfl]
  cases (s.group t).parkedAbort.bind s.entry <;> rfl

/-- What a failed unwind brings about once its group is BROKEN, before a RETRY_UNWIND ends and the engine rests: the
parked ABORT and the reads that waited are answered, the groups that lose their commit are revoked, and `i` is logged. -/
def State.brokenEffects (t : Tag) (i : Incident) (s : State) : State :=
  let broken := s.answerParked t .broken
  let reads := broken.waitingReads t
  ((allTags.foldl (State.breakCommit reads) (reads.foldl State.answerBrokenRead broken)).log i).raise .groupBroken

theorem reportFailed_eq (s : State) (t : Tag) : s.reportFailed t =
    (((s.modGroup t (fun g => { g with state := .broken })).brokenEffects t
      { Incident.ofMember .restoreFailed (s.memberOf t) with
        line := s.engine.firstFailed, detail := some s.engine.failedLines }).endRetry t
      (State.endFailed (if s.engine.failedLines = 0 then .partitionFault else .restore) none)).engineIdle := rfl

theorem brokenEffects_engineIdle (s : State) (t : Tag) (i : Incident) :
    s.engineIdle.brokenEffects t i = (s.brokenEffects t i).engineIdle := by
  have reads : (s.engineIdle.answerParked t .broken).waitingReads t = (s.answerParked t .broken).waitingReads t := by
    rw [answerParked_engineIdle]
    rfl
  unfold State.brokenEffects
  dsimp only
  rw [reads, answerParked_engineIdle, foldl_engineIdle State.answerBrokenRead (fun _ _ => rfl),
    foldl_engineIdle _ (breakCommit_engineIdle _), log_engineIdle]
  rfl

theorem brokenEffects_moves (s : State) (t : Tag) (i : Incident) : s.Moves (s.brokenEffects t i) := by
  unfold State.brokenEffects
  dsimp only
  refine .trans (.trans (.trans (answerParked_moves s t .broken) ?_) (log_moves _ _)) (raise_moves _ _)
  exact (foldl_moves _ (fun y e => finishEntry_moves y e _ _) _ _).trans (foldl_moves _ (breakCommit_moves _) _ _)

theorem endRetry_engineIdle_moves (s : State) (t : Tag) (k : Reason) :
    s.engineIdle.Moves ((s.endRetry t (State.endFailed k none)).engineIdle) := by
  unfold State.endRetry
  split
  · exact (engine_moves s.engineIdle { s.engine.ended with retryTag := none } rfl rfl id).trans (moves_outputs rfl)
  · exact .refl

/-- The report of a failed unwind: the group is BROKEN and the engine IDLE first, and the rest follows (R115). -/
theorem reportFailed_moves (s : State) (t : Tag) (hc : s.engine.current = some t) : s.Moves (s.reportFailed t) := by
  rw [reportFailed_eq]
  have idle : s.Moves (s.modGroup t (fun g => { g with state := .broken })).engineIdle := (State.Move.breaks t hc).moves
  refine (idle.trans ?_).trans (endRetry_engineIdle_moves _ t _)
  rw [← brokenEffects_engineIdle]
  exact brokenEffects_moves _ _ _

/-! ### The lines of a group -/

theorem restoresOver_moves (s : State) (t : Tag) (hc : s.engine.current = some t) : s.Moves (s.restoresOver t) := by
  have closes : s.Moves ((s.placeClosing t .unwound kindUnwound).modEngine fun e =>
      { e with state := .closing, currentLine := none, lineStep := .waitStores, restoreData := none }) :=
    (placeClosing_moves _ _ _ _).trans (engine_moves _ _ rfl rfl nofun)
  unfold State.restoresOver
  cases (s.group t).partition with
  | none => simpa using reportFailed_moves s t hc
  | some p =>
    dsimp only
    split
    · exact closes
    · exact reportFailed_moves s t hc

theorem takeNextLine_moves (s : State) : s.Moves s.takeNextLine := by
  unfold State.takeNextLine
  split
  · exact .refl
  · split
    · exact restoresOver_moves s _ ‹_›
    · exact engine_moves _ _ rfl rfl nofun

theorem enterRestoring_moves (s : State) (t : Tag) : s.Moves (s.enterRestoring t) :=
  (engine_moves s { s.engine with state := .restoring, restoreSet := s.restoreSetOf t } rfl rfl nofun).trans
    (takeNextLine_moves _)

theorem issueUnwindRead_moves (s : State) (c : Claim) (n : Nat) : s.Moves (s.issueUnwindRead c n) := by
  unfold State.issueUnwindRead
  split
  · exact .refl
  · exact (engine_moves s { s.engine with lineStep := .reading n } rfl rfl id).trans (moves_outputs rfl)

theorem issueRestoreWrite_moves (s : State) (c : Claim) (d : Bytes) (n : Nat) :
    s.Moves (s.issueRestoreWrite c d n) :=
  (engine_moves s { s.engine with lineStep := .writing n, restoreData := some d } rfl rfl id).trans
    (moves_outputs rfl)

theorem stopEngine_moves (s : State) : s.Moves s.stopEngine := engine_moves s _ rfl rfl nofun

theorem lineEnded_moves (s : State) : s.Moves s.lineEnded := by
  unfold State.lineEnded
  split
  · exact stopEngine_moves s
  · exact takeNextLine_moves s

theorem lineFailed_moves (s : State) (c : Claim) : s.Moves (s.lineFailed c) :=
  (engine_moves s { s.engine with
      failedLines := s.engine.failedLines + 1
      firstFailed := some (s.engine.firstFailed.getD c.line)
      restoreData := none } rfl rfl id).trans (lineEnded_moves _)

theorem unwindReadOutcome_moves (s : State) (o : PortOutcome) : s.Moves (s.unwindReadOutcome o) := by
  unfold State.unwindReadOutcome
  split
  · split
    · exact issueRestoreWrite_moves _ _ _ _
    · split
      · exact issueUnwindRead_moves _ _ _
      · exact lineFailed_moves _ _
  · exact .refl

theorem restoreWriteOutcome_moves (s : State) (o : PortOutcome) : s.Moves (s.restoreWriteOutcome o) := by
  unfold State.restoreWriteOutcome
  split
  · split
    · exact (engine_moves s { s.engine with restoreData := none } rfl rfl id).trans (lineEnded_moves _)
    · split
      · exact issueRestoreWrite_moves _ _ _ _
      · exact lineFailed_moves _ _
  · exact .refl

theorem engineTakes_moves {s t : State} (h : s.engineTakes = some t) : s.Moves t := by
  unfold State.engineTakes at h
  split at h
  · cases h; exact (State.Move.takes _ _ ‹_› ‹_›).moves
  · cases h

theorem engineSettles_moves {s t : State} (h : s.engineSettles = some t) : s.Moves t := by
  unfold State.engineSettles at h
  split at h
  · split at h
    · cases h; exact enterRestoring_moves s _
    · cases h
  · cases h

theorem engineReads_moves {s t : State} (h : s.engineReads = some t) : s.Moves t := by
  unfold State.engineReads at h
  split at h
  · split at h
    · cases h; exact issueUnwindRead_moves _ _ _
    · cases h
  · cases h

theorem engineFails_moves {s t : State} (h : s.engineFails = some t) : s.Moves t := by
  unfold State.engineFails at h
  split at h
  · rename_i u hs hc
    split at h
    · split at h
      · cases h; exact reportFailed_moves s u hc
      · cases h
    · cases h
  · cases h

theorem engineAdvance_moves {s t : State} (h : s.engineAdvance = some t) : s.Moves t := by
  obtain ⟨-, h | h | h | h⟩ := engineAdvance_cases h
  · exact engineFails_moves h
  · exact engineTakes_moves h
  · exact engineSettles_moves h
  · exact engineReads_moves h

end Sys2Proof.Machine
end

section
/-! SUPPORT. The request table and the front of the journal as runs of moves. -/

namespace Sys2Proof.Machine

/-! ### Leaving ORDERED and settling -/

theorem issueHomeWrite_moves (s : State) (e : Entry) : s.Moves (s.issueHomeWrite e) :=
  (phase_moves s e.index .storing).trans (moves_outputs rfl)

theorem issueAccess_moves (s : State) (e : Entry) : s.Moves (s.issueAccess e) := by
  unfold State.issueAccess
  split
  · exact finishEntry_moves _ _ _ _
  · split
    · exact (phase_moves s e.index .loading).trans (moves_outputs rfl)
    · exact issueHomeWrite_moves s e
    · exact issueHomeWrite_moves s e
    · exact (phase_moves s e.index .capturing).trans (moves_outputs rfl)
    · exact .refl

theorem leaveOrdered_moves (s : State) (i : EntryId) : s.Moves (s.leaveOrdered i) := by
  unfold State.leaveOrdered
  split
  · exact .refl
  · split
    · exact issueAccess_moves s _
    · exact .refl

theorem agrees_shift (g h : Group) (hg : g.state.runs) (hh : h.state.runs) (hs : h.sequence = g.sequence)
    (hc : h.claimsHeld = g.claimsHeld) : g.agrees h := by
  refine ⟨hs, hc, .inr ⟨hg, hh⟩, fun h => ?_⟩
  rw [h] at hg
  rcases hg with hg | hg | hg <;> cases hg

theorem drain_moves (s : State) (t : Tag) : s.Moves (s.drain t) := by
  unfold State.drain
  split
  · rename_i h
    simp only [Bool.and_eq_true, decide_eq_true_eq] at h
    refine .trans (modGroup_moves s t (fun g => { g with state := .sealing }) ?_) (placeClosing_moves _ _ _ _)
    exact agrees_shift _ _ (.inr (.inl h.1.1)) (.inr (.inr rfl)) rfl rfl
  · exact .refl

theorem settle_moves (s : State) : s.Moves s.settle :=
  settle_keeps (fun x => s.Moves x) (fun x i h => h.trans (leaveOrdered_moves x i))
    (fun x t h => h.trans (drain_moves x t)) (fun _ _ h hx => hx.trans (engineAdvance_moves h))
    (fun x p h => h.trans (issueSlots_moves x p)) (fun _ h => h.tail .quiets) s .refl

/-! ### The outcomes of accesses -/

theorem completeAccess_moves (s : State) (e : Entry) (d : Bytes) : s.Moves (s.completeAccess e d) := by
  unfold State.completeAccess
  split
  · exact dropEntry_moves _ _
  · split
    · split
      · exact modEntry_moves s e.index _ fun _ => rfl
      · exact finishEntry_moves _ _ _ _
    · exact finishEntry_moves _ _ _ _

theorem readFailed_moves (s : State) (e : Entry) : s.Moves (s.readFailed e) := by
  unfold State.readFailed
  split
  · exact dropEntry_moves _ _
  · dsimp only
    split
    · split
      · exact ((finishEntry_moves _ _ _ _).trans (dropCommit_moves _ _)).trans (revoke_moves _ _ _)
      · exact finishEntry_moves _ _ _ _
    · exact finishEntry_moves _ _ _ _

theorem hostReadOutcome_moves (s : State) (i : EntryId) (o : PortOutcome) : s.Moves (s.hostReadOutcome i o) := by
  unfold State.hostReadOutcome
  split
  · exact .refl
  · rename_i e _
    split
    · exact completeAccess_moves s e _
    · exact readFailed_moves s e

theorem logHomeWrite_moves (s : State) (e : Entry) : s.Moves (s.logHomeWrite e) := by
  unfold State.logHomeWrite
  split
  · exact (State.Move.logs _).moves
  · exact .refl

theorem homeWriteFailed_moves (s : State) (e : Entry) : s.Moves (s.homeWriteFailed e) := by
  unfold State.homeWriteFailed
  split
  · exact (dropEntry_moves _ _).trans (logHomeWrite_moves _ _)
  · dsimp only
    have answered := (finishEntry_moves s e .arrayError []).trans (logHomeWrite_moves _ e)
    split
    · refine .trans ?_ (revoke_moves _ _ _)
      split
      · exact answered.trans (dropCommit_moves _ _)
      · exact answered
    · exact answered

theorem homeWriteOutcome_moves (s : State) (i : EntryId) (o : PortOutcome) : s.Moves (s.homeWriteOutcome i o) := by
  unfold State.homeWriteOutcome
  split
  · exact .refl
  · rename_i e _
    split
    · exact completeAccess_moves s e _
    · exact homeWriteFailed_moves s e

theorem afterRemoval_moves (s : State) (t : Tag) (lost : Bool) : s.Moves (s.afterRemoval t lost) := by
  unfold State.afterRemoval
  dsimp only
  split
  · rename_i h
    obtain ⟨h0, h⟩ := h
    have frees : s.Moves (s.freeGroup t) := by
      refine (State.Move.frees t (.inl h0) fun hu => ?_).moves
      rcases h with h | ⟨h, -⟩ <;> cases h.symm.trans hu
    split
    · exact frees.trans (part_moves (s.freeGroup t) _ _ rfl)
    · exact frees
  · split
    · exact (dropCommit_moves _ _).trans (revoke_moves _ _ _)
    · exact .refl

theorem captureRemoval_moves (s : State) (e : Entry) (t : Tag) : s.Moves (s.captureRemoval e t) := by
  unfold State.captureRemoval
  dsimp only
  refine .trans ?_ (afterRemoval_moves _ _ _)
  refine .trans ?_ (foldl_moves _ (fun x y => finishEntry_moves x y _ _) _ _)
  refine .tail ?_ (.removes _ _)
  have logged : s.Moves (match e.member with
      | some m => (s.finishEntry e .arrayError []).log { Incident.ofMember .captureFailed m with line := some e.line }
      | none => s.finishEntry e .arrayError []) := by
    split
    · exact (finishEntry_moves s e .arrayError []).tail (.logs _)
    · exact finishEntry_moves s e .arrayError []
  cases e.undo with
  | some u => exact logged.trans (padUndo_moves _ _)
  | none => exact logged

theorem captureFailed_moves (s : State) (e : Entry) : s.Moves (s.captureFailed e) := by
  unfold State.captureFailed
  split
  · exact captureRemoval_moves _ _ _
  · cases e.undo with
    | some u => exact (padUndo_moves _ _).trans (dropEntry_moves _ _)
    | none => exact dropEntry_moves _ _

theorem captureReturned_moves (s : State) (e : Entry) (d : Bytes) : s.Moves (s.captureReturned e d) := by
  unfold State.captureReturned
  have decided : s.Moves (e.undo.elim s (fun u => s.decideUndo u d)) := by
    cases e.undo with
    | some u => exact decideUndo_moves _ _ _
    | none => exact .refl
  dsimp only
  split
  · exact decided.trans (dropEntry_moves _ _)
  · exact decided.trans (phase_moves _ e.index .logging)

theorem captureOutcome_moves (s : State) (i : EntryId) (o : PortOutcome) : s.Moves (s.captureOutcome i o) := by
  unfold State.captureOutcome
  split
  · exact .refl
  · split
    · exact captureReturned_moves s _ _
    · exact captureFailed_moves s _

/-! ### The front and the header writes -/

theorem undoPassed_moves (s : State) (p : PartId) (slot : Nat) (info : RecordInfo) :
    s.Moves (s.undoPassed p slot info) := by
  unfold State.undoPassed
  have logged := (State.Move.logsClaims (s := s)
    (fun c => if c.tag = info.tag ∧ c.undoSlot = slot then { c with logged := true } else c)
    (fun c => by split <;> rfl) (fun c => by split <;> rfl)).moves
  dsimp only
  split
  · exact logged.trans (issueHomeWrite_moves _ _)
  · exact logged

theorem handOn_moves (p : PartId) (s : State) (x : Nat × Mark) : s.Moves (State.handOn p s x) := by
  unfold State.handOn
  split
  · exact undoPassed_moves _ _ _ _
  · split
    · unfold State.commitPassed
      split
      · rename_i h; exact completeGroup_moves s _ h.1
      · exact .refl
    · exact .refl
  · split
    · unfold State.unwoundPassed
      split
      · rename_i h; exact reportRestored_moves s _ h.2.2.2
      · exact .refl
    · exact .refl
  · exact .refl

theorem slotAcknowledged_moves (s : State) (p : PartId) (slot : Nat) : s.Moves (s.slotAcknowledged p slot) := by
  unfold State.slotAcknowledged
  dsimp only
  have acked : s.Moves (s.modPart p fun part =>
      part.modMark (s.capacity p) slot (fun m => { m with progress := .acknowledged })) :=
    part_moves s p _ rfl
  have handed := fun l => acked.trans (foldl_moves _ (handOn_moves p) l _)
  split
  · exact (handed _).trans (retire_moves _ p)
  · exact handed _

theorem logRetried_moves (s : State) (p : PartId) (slot n : Nat) (r : Option RecordInfo) :
    s.Moves (s.logRetried p slot n r) := by
  unfold State.logRetried
  split
  · exact (State.Move.logs _).moves
  · exact .refl

theorem headerAcknowledged_moves (s : State) (p : PartId) (w : HeaderWrite) : s.Moves (s.headerAcknowledged p w) := by
  unfold State.headerAcknowledged
  dsimp only
  refine .trans (.trans (modPart_moves s p _ ?_) (logRetried_moves _ _ _ _ _)) (considerHeader_moves _ p)
  rfl

theorem headerFailed_moves (s : State) (p : PartId) (w : HeaderWrite) : s.Moves (s.headerFailed p w) := by
  unfold State.headerFailed
  dsimp only
  have ended : s.Moves (s.modPart p (fun part => { part with headerWrite := none })) := modPart_moves s p _ rfl
  have again : s.Moves (s.modPart p (fun part => { part with headerWrite := some { w with attempt := 2 } })) :=
    modPart_moves s p _ rfl
  split
  · split
    · exact ended
    · exact again.trans (issueHeader_moves _ p _)
  · exact ended.tail (.logs _)

theorem headerOutcome_moves (s : State) (p : PartId) (o : PortOutcome) : s.Moves (s.headerOutcome p o) := by
  unfold State.headerOutcome
  split
  · exact .refl
  · split
    · exact headerAcknowledged_moves s p _
    · exact headerFailed_moves s p _

theorem revokePartition_moves (s : State) (p : PartId) : s.Moves (s.revokePartition p) :=
  foldl_moves _ (fun x t => revoke_moves x t _) _ _

theorem faultPartition_moves (s : State) (p : PartId) (slot : Nat) : s.Moves (s.faultPartition p slot) := by
  unfold State.faultPartition
  dsimp only
  refine (((modPart_moves s p _ ?_).trans (log_moves _ _)).trans (raise_moves _ _)).trans (revokePartition_moves _ p)
  rfl

theorem slotOutcome_moves (s : State) (p : PartId) (slot : Nat) (o : PortOutcome) :
    s.Moves (s.slotOutcome p slot o) := by
  unfold State.slotOutcome
  split
  · exact .refl
  · split
    · exact (logRetried_moves _ _ _ _ _).trans (slotAcknowledged_moves _ _ _)
    · split
      · split
        · refine .trans (modPart_moves s p _ ?_) (issueSlot_moves _ p slot _)
          rfl
        · exact faultPartition_moves s p slot
      · exact .refl

end Sys2Proof.Machine
end

section
/-! SUPPORT. Intake as a run of moves. -/

namespace Sys2Proof.Machine

/-! ### Intake -/

/-- What the access path lets through: a new claim only of an unclaimed line, past every check of R84, by a group that
is FREE or OPEN, in ACTIVE or QUIESCING. -/
theorem accessPath_newClaims {s : State} {r : HostRequest} {t : Tag} {carried : Bool} {phase : Phase}
    (ht : tagOf r.tag = some t) (hg : carried = true → s.groupState t = .free ∨ s.groupState t = .opened)
    (he : s.stateRefusal r = none) (h : s.accessPath r carried = .ok (.newClaim, phase)) :
    s.claimOf (lineOf r.address) = none ∧ s.claimRefusal t = none ∧
      (s.groupState t = .free ∨ s.groupState t = .opened) ∧ (s.controller = .active ∨ s.controller = .quiescing) := by
  unfold State.accessPath at h
  cases hk : r.kind with
  | read =>
    simp only [hk, State.readPath] at h
    split at h
    · cases h
    · split at h <;> cases h
  | write =>
    simp only [hk, State.writePath, ht] at h
    split at h
    · cases h
    · rename_i hx; cases hx
    · rename_i region u hregion hu
      cases hu
      have running : s.controller = .active ∨ s.controller = .quiescing := by
        have covered : s.protectedLine (lineOf r.address) = true := by rw [State.protectedLine, hregion]; rfl
        unfold State.stateRefusal at he
        cases hc : s.controller <;> simp [hc, covered, hk] at he ⊢
      split at h
      · cases h
      · rename_i hw
        have runs : s.groupState t = .free ∨ s.groupState t = .opened := by
          cases carried with
          | true => exact hg rfl
          | false =>
            revert hw
            cases s.groupState t <;> simp [GroupState.plainWrite]
        unfold State.journaledPath at h
        split at h
        · split at h <;> cases h
        · split at h
          · cases h
          · exact ⟨‹_›, ‹_›, runs, running⟩

theorem takeClaim_requests (s : State) (t : Tag) (line : Addr) : (s.takeClaim t line).requests = s.requests := by
  unfold State.takeClaim
  dsimp only
  split <;> rfl

theorem freeEntry_unused {s : State} {i : EntryId} (h : s.freeEntry = some i) : s.unused i := by
  have h := List.find?_some h
  simpa [State.unused] using h

theorem admitAccess_moves (s : State) (i : EntryId) (r : HostRequest) (path : Path) (phase : Phase) (carried : Bool)
    (hf : s.unused i)
    (hn : ∀ t, tagOf r.tag = some t → path = .newClaim → s.claimOf (lineOf r.address) = none ∧
      s.claimRefusal t = none ∧ (s.groupState t = .free ∨ s.groupState t = .opened) ∧
      (s.controller = .active ∨ s.controller = .quiescing)) :
    s.Moves (s.admitAccess i r path phase carried) := by
  unfold State.admitAccess
  dsimp only
  split
  · exact (State.Move.admits (newEntry i r path phase) hf).moves
  · rename_i t ht
    generalize hx : (if path = .newClaim then s.takeClaim t (lineOf r.address) else s) = x
    have claimed : s.Moves x ∧ x.unused i := by
      rw [← hx]
      split
      · rename_i hp
        obtain ⟨hc, hr, hg, ho⟩ := hn t ht hp
        refine ⟨(State.Move.claims t _ hc hr hg ho).moves, ?_⟩
        rw [State.unused, takeClaim_requests]
        exact hf
      · exact ⟨.refl, hf⟩
    obtain ⟨moved, free⟩ := claimed
    generalize hc : (carried && decide (x.groupState t = .opened)) = commits
    have opened : commits = true → x.groupState t = .opened := fun h => by
      rw [← hc, Bool.and_eq_true] at h
      exact of_decide_eq_true h.2
    generalize hy : (if (path.journaled || commits) = true then _ else x.addEntry (newEntry i r path phase)) = y
    have added : x.Moves y ∧ y.groupState t = x.groupState t := by
      rw [← hy]
      split
      · exact ⟨(State.Move.admits _ free).moves, rfl⟩
      · exact ⟨(State.Move.admits (newEntry i r path phase) free).moves, rfl⟩
    split
    · refine (moved.trans added.1).trans (modGroup_moves y t _ (agrees_shift _ _ ?_ (.inr (.inl rfl)) rfl rfl))
      exact .inl (added.2.trans (opened ‹_›))
    · exact moved.trans added.1

theorem agrees_parked (g : Group) (i : EntryId) (h : g.state ≠ .free) : g.agrees { g with parkedAbort := some i } :=
  ⟨rfl, rfl, .inl rfl, fun hg => absurd (by rw [hg]; rfl) h⟩

theorem parkAbort_moves (s : State) (i : EntryId) (r : HostRequest) (t : Tag) (hf : s.unused i)
    (hg : s.groupState t ≠ .free) : s.Moves (s.parkAbort i r t) :=
  .trans (State.Move.admits (abortEntry i r) hf).moves
    (modGroup_moves _ t _ (agrees_parked _ i hg))

theorem refuse_moves (s : State) (r : HostRequest) (st : Status) : s.Moves (s.refuse r st) := moves_outputs rfl


theorem revokeFate_unused (s : State) (e : Entry) (i : EntryId) (h : s.unused i) : (s.revokeFate e).unused i := by
  have pad : ∀ (x : State) (u : UndoRef), (x.padUndo u).requests = x.requests := fun x u => by
    unfold State.padUndo
    split <;> rfl
  have finished : ∀ st, (s.finishEntry e st []).unused i := fun st x hx => h x (List.mem_of_mem_filter hx)
  have early : ∀ (x : State) (f : Entry → Entry), (∀ y, (f y).index = y.index) → x.unused i →
      (x.modEntry e.index f).unused i := fun x f hf hx y hy => by
    obtain ⟨z, hz, rfl⟩ := List.mem_map.mp hy
    have := hx z hz
    split
    · rwa [hf]
    · exact this
  have left : ((s.answerEarly e .revoked).modEntry e.index (fun x => { x with group := none })).unused i :=
    early (s.answerEarly e .revoked) (fun x => { x with group := none }) (fun _ => rfl)
      (early (s.answer e .revoked []) (fun x => { x with answered := true }) (fun _ => rfl) h)
  unfold State.revokeFate
  split
  · split
    · rw [State.unused, pad]; exact finished _
    · exact finished _
  · exact finished _
  · exact finished _
  · exact finished _
  all_goals exact left

theorem startUnwind_unused (s : State) (t : Tag) (i : EntryId) (o : UnwindOrigin) (c : Option RevokeCause)
    (h : s.unused i) : (s.startUnwind t o c).unused i :=
  foldl_keeps (State.unused · i) State.revokeFate (fun x e hx => revokeFate_unused x e i hx) (s.members t) _ h

theorem startUnwind_groupState (s : State) (t : Tag) (o : UnwindOrigin) (c : Option RevokeCause) :
    (s.startUnwind t o c).groupState t = .unwinding := by
  obtain ⟨r, q, a, h, -⟩ := startUnwind_only s t o c
  rw [h]
  simp [State.groupState, State.group]

theorem takeAbort_moves (s : State) (i : EntryId) (r : HostRequest) (t : Tag) (hf : s.unused i) :
    s.Moves (s.takeAbort i r t) := by
  unfold State.takeAbort
  split
  · rename_i h
    have parked := parkAbort_moves (s.startUnwind t .host none) i r t (startUnwind_unused s t i _ _ hf)
      (by rw [startUnwind_groupState]; nofun)
    exact ((startUnwind_moves s t .host none (.inl h)).trans parked).trans (settle_moves _)
  · rename_i h
    split
    · exact parkAbort_moves s i r t hf (by rw [h]; nofun)
    · exact refuse_moves _ _ _
  · exact refuse_moves _ _ _
  · rename_i h
    have frees : (s.refuse r .released).Moves ((s.refuse r .released).freeGroup t) :=
      (State.Move.frees (s := s.refuse r .released) t (.inr h) fun hu => nomatch h.symm.trans hu).moves
    exact ((refuse_moves s r .released).trans frees).trans (settle_moves _)
  · exact refuse_moves _ _ _
  · exact refuse_moves _ _ _
  · exact refuse_moves _ _ _

theorem takeAccess_moves (s : State) (i : EntryId) (r : HostRequest) (carried : Bool) (hf : s.unused i)
    (he : s.stateRefusal r = none) (hg : carried = true → ∀ t, tagOf r.tag = some t → s.groupState t = .free ∨ s.groupState t = .opened) :
    s.Moves (s.takeAccess i r carried) := by
  unfold State.takeAccess
  split
  · exact refuse_moves _ _ _
  · rename_i path phase h
    refine .trans (admitAccess_moves s i r path phase carried hf fun t ht hp => ?_) (settle_moves _)
    subst hp
    exact accessPath_newClaims ht (fun hc => hg hc t ht) he h

theorem takeIntent_moves (s : State) (i : EntryId) (r : HostRequest) (hf : s.unused i)
    (he : s.stateRefusal r = none) : s.Moves (s.takeIntent i r) := by
  unfold State.takeIntent
  split
  · exact takeAbort_moves s i r _ hf
  · rename_i t _ ht
    split
    · exact refuse_moves _ _ _
    · rename_i hc
      refine takeAccess_moves s i r true hf he fun _ u hu => ?_
      rw [ht] at hu
      cases hu
      revert hc
      cases s.groupState t <;> simp [GroupState.commitCheck]
  · exact takeAccess_moves s i r false hf he nofun

theorem stateRefusal_of_early {s : State} {r : HostRequest} (h : s.earlyRefusal r = none) : s.stateRefusal r = none := by
  unfold State.earlyRefusal at h
  split at h
  · cases h
  · split at h
    · cases h
    · exact h

theorem intake_moves (s : State) (r : HostRequest) : s.Moves (s.intake r) := by
  unfold State.intake
  split
  · exact refuse_moves _ _ _
  · split
    · exact moves_outputs rfl
    · exact takeIntent_moves s _ r (freeEntry_unused ‹_›) (stateRefusal_of_early ‹_›)

theorem retakeHeld_moves (s : State) : s.Moves s.retakeHeld := by
  unfold State.retakeHeld
  split
  · exact .refl
  · exact (moves_outputs (s := s) (t := { s with held := none }) rfl).trans (intake_moves _ _)

theorem endEvent_moves (s : State) (before : CtrlState) : s.Moves (s.endEvent before) := by
  unfold State.endEvent
  split
  · exact retakeHeld_moves s
  · exact .refl

end Sys2Proof.Machine
end

section
/-! SUPPORT. The recovery scanner, the array port and the tick as runs of moves. -/

namespace Sys2Proof.Machine

/-! ### The recovery scanner -/

/-- A change of the scanner that has a partition. -/
theorem scans_moves (s : State) (p : PartId) (f : Scanner → Scanner) (hc : s.scanner.current = some p) :
    s.Moves (s.modScanner f) :=
  (State.Move.scans p _ hc).moves

/-- The array request of the scanner's next access changes no table. -/
theorem issue_moves (s : State) (u : Purpose) (r : Ref) (a : Addr) (n : Nat) (d : Bytes) :
    s.Moves (s.issue u r a n d) := moves_outputs rfl

theorem log_scanner (s : State) (i : Incident) : (s.log i).scanner = s.scanner := by
  unfold State.log
  dsimp only
  split <;> rfl

theorem startFailed_moves (s : State) (p : PartId) (r : Reason) (hc : s.scanner.current = some p)
    (hr : r ≠ .shutdown) : s.Moves (s.startFailed r) := by
  unfold State.startFailed
  dsimp only
  rw [if_neg hr]
  have failed : s.Moves (s.endFailed r s.scanner.current) := moves_outputs rfl
  have logged := (State.Move.logs (s := s.endFailed r s.scanner.current)
    { Incident.bare .startFailed with partition := some (s.scanner.current.getD 0), detail := some r.code }).moves
  refine ((failed.trans logged).tail (.fails p ?_)).trans (moves_outputs rfl)
  rw [log_scanner]
  exact hc

theorem logUnwound_moves (p : PartId) (l : List RecoveryEntry) (s : State) (v : Word) :
    s.Moves (State.logUnwound p l s v) := by
  unfold State.logUnwound
  dsimp only
  split
  · exact .refl
  · exact (State.Move.logs _).moves

theorem logUnwound_scanner (p : PartId) (l : List RecoveryEntry) (s : State) (v : Word) :
    (State.logUnwound p l s v).scanner = s.scanner := by
  unfold State.logUnwound
  dsimp only
  split
  · rfl
  · exact log_scanner _ _

theorem restoresDone_moves (s : State) (p : PartId) (hc : s.scanner.current = some p) : s.Moves (s.restoresDone p) := by
  unfold State.restoresDone
  split
  · rename_i chosen scanEnd h1 h2
    dsimp only
    generalize hl : (distinctSequences s.scanner.list).foldl (State.logUnwound p s.scanner.list) s = x
    have logged : s.Moves x := hl ▸ (foldl_moves _ (logUnwound_moves p _) _ _)
    have hx : x.scanner = s.scanner := hl ▸ foldl_keeps (·.scanner = s.scanner) _
      (fun y v hy => (logUnwound_scanner p _ y v).trans hy) _ _ rfl
    exact (logged.trans (scans_moves x p _ (hx ▸ hc))).trans (issue_moves ..)
  · exact .refl

theorem takeRestore_moves (s : State) (p : PartId) (hc : s.scanner.current = some p) : s.Moves (s.takeRestore p) := by
  unfold State.takeRestore
  split
  · exact restoresDone_moves s p hc
  · exact (scans_moves s p _ hc).trans (issue_moves ..)

theorem enterRestore_moves (s : State) (p : PartId) (hc : s.scanner.current = some p) :
    s.Moves (s.enterRestore p) := by
  unfold State.enterRestore
  refine .trans (.trans (modPart_moves s p _ ?_) (scans_moves _ p _ hc)) (takeRestore_moves _ p hc)
  rfl

theorem voidNext_moves (s : State) (p : PartId) (c : ChosenHeader) (x : Pos) (hc : s.scanner.current = some p) :
    s.Moves (s.voidNext p c x) := by
  unfold State.voidNext
  dsimp only
  split
  · exact enterRestore_moves s p hc
  · exact (scans_moves s p _ hc).trans (issue_moves ..)

theorem voidJudge_moves (s : State) (p : PartId) (c : ChosenHeader) (x : Pos) (b : Bytes)
    (hc : s.scanner.current = some p) : s.Moves (s.voidJudge p c x b) := by
  unfold State.voidJudge
  split
  · exact (scans_moves s p _ hc).trans (issue_moves ..)
  · exact voidNext_moves s p c x hc

theorem endScan_moves (s : State) (p : PartId) (c : ChosenHeader) (x : Pos) (b : Bytes)
    (hc : s.scanner.current = some p) : s.Moves (s.endScan p c x b) :=
  (scans_moves s p _ hc).trans (voidJudge_moves _ p c x b hc)

theorem advanceScan_moves (s : State) (p : PartId) (c : ChosenHeader) (x : Pos) (n : Nat)
    (hc : s.scanner.current = some p) : s.Moves (s.advanceScan p c x n) := by
  unfold State.advanceScan
  dsimp only
  split
  · exact (scans_moves s p _ hc).trans (enterRestore_moves _ p hc)
  · exact (scans_moves s p _ hc).trans (issue_moves ..)

theorem takeRecord_moves (s : State) (p : PartId) (c : ChosenHeader) (x : Pos) (b : Bytes)
    (hc : s.scanner.current = some p) : s.Moves (s.takeRecord p c x b) := by
  unfold State.takeRecord
  split
  · split
    · exact startFailed_moves s p _ hc nofun
    · exact (scans_moves s p _ hc).trans (advanceScan_moves _ p c x 2 hc)
  · split
    · exact advanceScan_moves s p c x _ hc
    · exact (scans_moves s p _ hc).trans (advanceScan_moves _ p c x 1 hc)

theorem scanDecide_moves (s : State) (p : PartId) (c : ChosenHeader) (x : Pos) (b d : Bytes)
    (hc : s.scanner.current = some p) : s.Moves (s.scanDecide p c x b d) := by
  unfold State.scanDecide
  split
  · exact takeRecord_moves s p c x b hc
  · exact endScan_moves s p c x b hc

theorem scanReadOutcome_moves (s : State) (o : PortOutcome) : s.Moves (s.scanReadOutcome o) := by
  unfold State.scanReadOutcome
  split
  · rename_i p chosen pos hc _ _ _
    split
    · split
      · exact (scans_moves s p _ hc).trans (scanDecide_moves _ p chosen pos _ _ hc)
      · split
        · exact (scans_moves s p _ hc).trans (issue_moves ..)
        · exact scanDecide_moves s p chosen pos _ _ hc
    · split
      · exact (scans_moves s p _ hc).trans (issue_moves ..)
      · exact startFailed_moves s p _ hc nofun
  · exact .refl

theorem voidReadOutcome_moves (s : State) (o : PortOutcome) : s.Moves (s.voidReadOutcome o) := by
  unfold State.voidReadOutcome
  split
  · rename_i p chosen pos hc _ _ _
    split
    · exact voidJudge_moves s p chosen pos _ hc
    · split
      · exact (scans_moves s p _ hc).trans (issue_moves ..)
      · exact startFailed_moves s p _ hc nofun
  · exact .refl

theorem voidWriteOutcome_moves (s : State) (o : PortOutcome) : s.Moves (s.voidWriteOutcome o) := by
  unfold State.voidWriteOutcome
  split
  · rename_i p chosen pos hc _ _ _
    split
    · exact voidNext_moves s p chosen pos hc
    · split
      · exact (scans_moves s p _ hc).trans (issue_moves ..)
      · exact startFailed_moves s p _ hc nofun
  · exact .refl

theorem recoveryReadOutcome_moves (s : State) (o : PortOutcome) : s.Moves (s.recoveryReadOutcome o) := by
  unfold State.recoveryReadOutcome
  split
  · rename_i p e hc _ _
    split
    · exact (scans_moves s p _ hc).trans (issue_moves ..)
    · split
      · exact (scans_moves s p _ hc).trans (issue_moves ..)
      · exact startFailed_moves s p _ hc nofun
  · exact .refl

theorem recoveryWriteOutcome_moves (s : State) (o : PortOutcome) : s.Moves (s.recoveryWriteOutcome o) := by
  unfold State.recoveryWriteOutcome
  split
  · rename_i p e hc _ _
    split
    · exact (scans_moves s p _ hc).trans (takeRestore_moves _ p hc)
    · split
      · exact (scans_moves s p _ hc).trans (issue_moves ..)
      · exact startFailed_moves s p _ hc nofun
  · exact .refl

theorem headerRewriteOutcome_moves (s : State) (o : PortOutcome) : s.Moves (s.headerRewriteOutcome o) := by
  unfold State.headerRewriteOutcome
  split
  · rename_i p chosen scanEnd hc _ _ _
    split
    · exact (State.Move.readies p _ _ scanEnd hc).moves
    · split
      · exact (scans_moves s p _ hc).trans (issue_moves ..)
      · exact startFailed_moves s p _ hc nofun
  · exact .refl

theorem chooseHeader_moves (s : State) (p : PartId) (c0 c1 : Bytes) (hc : s.scanner.current = some p) :
    s.Moves (s.chooseHeader p c0 c1) := by
  unfold State.chooseHeader
  split
  · exact startFailed_moves s p _ hc nofun
  · dsimp only
    split
    · exact startFailed_moves s p _ hc nofun
    · refine .trans (.trans (modPart_moves s p _ ?_) (scans_moves _ p _ hc)) (issue_moves ..)
      rfl

theorem headerReadOutcome_moves (s : State) (p : PartId) (k : Nat) (o : PortOutcome) :
    s.Moves (s.headerReadOutcome p k o) := by
  unfold State.headerReadOutcome
  split
  · rename_i h
    obtain ⟨hc, -⟩ := h
    split
    · dsimp only
      rename_i data
      have held : s.Moves (s.modScanner fun sc =>
          if k = 0 then { sc with copy0 := some data } else { sc with copy1 := some data }) := by
        by_cases hk : k = 0
        · simp only [hk, if_true]
          exact scans_moves s p _ hc
        · simp only [hk, if_false]
          exact scans_moves s p _ hc
      split
      · refine held.trans (chooseHeader_moves _ p _ _ ?_)
        simp only [State.modScanner]
        split <;> exact hc
      · exact held
    · by_cases hk : k = 0
      · simp only [hk, if_true]
        split
        · exact (scans_moves s p _ hc).trans (issue_moves ..)
        · exact startFailed_moves s p _ hc nofun
      · simp only [hk, if_false]
        split
        · exact (scans_moves s p _ hc).trans (issue_moves ..)
        · exact startFailed_moves s p _ hc nofun
  · exact .refl

theorem formatOutcome_moves (s : State) (o : PortOutcome) : s.Moves (s.formatOutcome o) := by
  unfold State.formatOutcome
  split
  · exact .refl
  · split
    · split <;> exact moves_outputs rfl
    · split <;> exact moves_outputs rfl

/-! ### The array port -/

theorem deliver_moves (s : State) (r : PortRecord) (o : PortOutcome) : s.Moves (s.deliver r o) := by
  unfold State.deliver
  split
  · exact (hostReadOutcome_moves ..)
  · exact (captureOutcome_moves ..)
  · exact (homeWriteOutcome_moves ..)
  · exact slotOutcome_moves ..
  · exact (headerOutcome_moves ..)
  · exact (unwindReadOutcome_moves ..)
  · exact (restoreWriteOutcome_moves ..)
  · exact headerReadOutcome_moves ..
  · exact scanReadOutcome_moves ..
  · exact voidReadOutcome_moves ..
  · exact voidWriteOutcome_moves ..
  · exact recoveryReadOutcome_moves ..
  · exact recoveryWriteOutcome_moves ..
  · exact headerRewriteOutcome_moves ..
  · exact formatOutcome_moves ..
  · exact .refl

theorem report_moves (s : State) (r : PortRecord) (o : PortOutcome) : s.Moves (s.report r o) := by
  unfold State.report
  split
  · exact (deliver_moves s r o).trans (settle_moves _)
  · exact deliver_moves s r o

theorem takeResponse_moves (s : State) (n : Word) (a : ArrayResult) : s.Moves (s.takeResponse n a) := by
  unfold State.takeResponse
  split
  · exact (moves_outputs (s := s) (t := s.forget n) rfl).trans (report_moves _ _ _)
  · exact .refl

theorem timeOut_moves (s : State) (r : PortRecord) : s.Moves (s.timeOut r) := by
  unfold State.timeOut
  dsimp only
  have left : s.Moves (s.forget r.number) := moves_outputs rfl
  split
  · exact left
  · exact left.tail (.logs _)

theorem timeOutNumber_moves (s : State) (n : Word) : s.Moves (s.timeOutNumber n) := by
  unfold State.timeOutNumber
  split
  · exact (timeOut_moves s _).trans (report_moves _ _ _)
  · exact .refl

theorem engineGoesOn_moves (n : Nat) : ∀ s : State, s.Moves (s.engineGoesOn n) := by
  induction n with
  | zero => exact fun _ => .refl
  | succ n ih =>
    intro s
    unfold State.engineGoesOn
    split
    · rename_i t h
      refine .trans ((engineAdvance_moves ?_)) (ih t)
      unfold State.engineInTick at h
      split at h
      · cases h
      · exact h
    · exact .refl

theorem timeOutInTick_moves (s : State) (n : Word) : s.Moves (s.timeOutInTick n) := by
  unfold State.timeOutInTick
  split
  · exact ((timeOut_moves s _).trans (deliver_moves _ _ _)).trans (engineGoesOn_moves _ _)
  · exact .refl

/-! ### The tick -/

theorem agrees_tick (g : Group) : g.agrees g.tick := by
  unfold Group.tick
  split
  · exact ⟨rfl, rfl, .inl rfl, fun h => by subst h; contradiction⟩
  · exact agrees_refl g

theorem expire_moves (s : State) (t : Tag) : s.Moves (s.expire t) := by
  unfold State.expire
  split
  · exact revoke_moves s t .age
  · exact .refl

theorem tickGroups_moves (s : State) : s.Moves s.tickGroups := by
  unfold State.tickGroups
  split
  · exact .refl
  · exact foldl_moves State.tickGroup
      (fun x t => (modGroup_moves x t Group.tick (agrees_tick _)).trans (expire_moves _ t)) _ _

theorem tick_moves (s : State) : s.Moves s.tick := by
  unfold State.tick
  generalize hx : ({ s with tickCounter := s.tickCounter + 1, divisionCount := 0 } : State) = x
  have counted : s.Moves x := hx ▸ moves_outputs rfl
  have port : x.Moves x.tickPort := by
    unfold State.tickPort
    exact (moves_outputs (s := x) (t := { x with outstanding := x.outstanding.map PortRecord.tick }) rfl).trans
      (foldl_moves _ timeOutInTick_moves _ _)
  exact ((counted.trans port).trans ((tickGroups_moves _))).trans (settle_moves _)

/-! ### The events of the part -/

theorem whenever_moves (s : State) (b : Bool) (f : State → State) (h : s.Moves (f s)) : s.Moves (s.whenever b f) := by
  unfold State.whenever
  split
  · exact (h.trans (settle_moves _))
  · exact .refl

theorem engineEvent_moves (s : State) (next : State → Option State)
    (h : s.controller ≠ .shutdown → ∀ t, next s = some t → s.Moves t) : s.Moves (s.engineEvent next) := by
  unfold State.engineEvent
  split
  · exact .refl
  · split
    · exact ((h ‹_› _ ‹_›).trans (settle_moves _))
    · exact .refl

theorem begin_moves (s : State) : s.Moves s.begin := moves_outputs rfl

/-- An event whose effect is work is work. -/
theorem event_moves {s t : State} (f : State → State) (hf : ∀ x : State, x.Moves (f x)) (h : s.event f = .next t) :
    s.Moves t := by
  cases h
  exact ((begin_moves s).trans (hf _)).trans (endEvent_moves _ _)

theorem lineEvent_moves {s t : State} (f : State → State) (hf : ∀ x : State, x.Moves (f x))
    (h : s.lineEvent f = .next t) : s.Moves t := by
  unfold State.lineEvent at h
  split at h
  · cases h; exact begin_moves s
  · exact event_moves f hf h

end Sys2Proof.Machine
end

section
/-! SUPPORT. Every step of the part as a run of moves: the commands, the writes of the configuration, the entry into SHUTDOWN,
the resets and the frames. -/

namespace Sys2Proof.Machine

/-! ### The commands -/

theorem endDone_moves (s : State) : s.Moves s.endDone := moves_outputs rfl

theorem start_moves (s : State) : s.Moves s.start := by
  unfold State.start
  split
  · exact moves_outputs rfl
  · split
    · exact moves_outputs rfl
    · split
      · exact moves_outputs rfl
      · exact (State.Move.starts (not_not.mp ‹_›)).moves

theorem format_moves (s : State) : s.Moves s.format := by
  unfold State.format
  split
  · exact moves_outputs rfl
  · split
    · exact moves_outputs rfl
    · split
      · exact moves_outputs rfl
      · split
        · exact moves_outputs rfl
        · split <;> exact moves_outputs rfl

theorem quiesce_moves (s : State) : s.Moves s.quiesce := by
  unfold State.quiesce
  split
  · exact moves_outputs rfl
  · exact ((State.Move.quiesces (not_not.mp ‹_›)).moves.trans (endDone_moves _)).tail .quiets

theorem resume_moves (s : State) : s.Moves s.resume := by
  unfold State.resume
  split
  · exact (State.Move.resumes ‹_›).moves.trans (moves_outputs rfl)
  · exact moves_outputs rfl

theorem stop_moves (s : State) : s.Moves s.stop := by
  unfold State.stop
  split
  · exact moves_outputs rfl
  · exact (State.Move.stops (not_not.mp ‹_›)).moves.trans (moves_outputs rfl)

theorem forceUnwind_moves (s : State) : s.Moves s.forceUnwind := by
  unfold State.forceUnwind
  split
  · exact moves_outputs rfl
  · split
    · exact ((revoke_moves s _ .forced).trans (endDone_moves _)).trans (settle_moves _)
    · exact moves_outputs rfl

theorem retryUnwind_moves (s : State) : s.Moves s.retryUnwind := by
  unfold State.retryUnwind
  split
  · exact moves_outputs rfl
  · split
    · exact moves_outputs rfl
    · split
      · exact moves_outputs rfl
      · exact ((State.Move.retries _ (not_not.mp ‹_›)).moves.trans (settle_moves _))

theorem clearIncidents_moves (s : State) : s.Moves s.clearIncidents :=
  State.Move.clearsIncidents.moves.trans (moves_outputs rfl)

/-! ### The entry into SHUTDOWN and the resets -/

theorem powerDown_moves (s : State) (e : Entry) : s.Moves (s.powerDown e) := by
  unfold State.powerDown
  split
  · exact answerEarly_moves _ _ _
  · exact finishEntry_moves _ _ _ _

theorem shutdownFate_moves (f : Entry → Bool) (s : State) (e : Entry) : s.Moves (State.shutdownFate f s e) := by
  unfold State.shutdownFate
  split
  · exact .refl
  · split
    · exact powerDown_moves s e
    · exact .refl

theorem dropRequests_moves (s : State) : s.Moves s.dropRequests := by
  refine (State.Move.touches _ fun u => ?_).moves
  have h : (s.groups.map Group.dropRequests)[u] = (s.group u).dropRequests := by simp [State.group]
  rw [h]
  exact ⟨rfl, rfl, .inl rfl, fun h => by rw [h]; rfl⟩

theorem stopUnwinding_moves (s : State) : s.Moves s.stopUnwinding := by
  unfold State.stopUnwinding
  split
  · exact .refl
  · exact stopEngine_moves s

/-- A RUNNING command ends and the controller is in SHUTDOWN. -/
theorem endRunning_moves (s : State) : s.Moves (s.endRunning.enter .shutdown) := by
  unfold State.endRunning
  split
  · rename_i h
    unfold State.startFailed
    dsimp only
    rw [if_pos rfl]
    have failed : s.Moves (s.endFailed .shutdown s.scanner.current) := moves_outputs rfl
    have logged := failed.trans ((State.Move.logs
      { Incident.bare .startFailed with
        partition := some (s.scanner.current.getD 0), detail := some Reason.shutdown.code }).moves)
    refine ((logged.tail (.shutsRecovery ?_)).trans (moves_outputs rfl))
    obtain ⟨a, d, f, hl⟩ := log_only
      { Incident.bare .startFailed with
        partition := some (s.scanner.current.getD 0), detail := some Reason.shutdown.code }
      (s.endFailed .shutdown s.scanner.current)
    rw [hl]
    exact h
  · rename_i h
    split
    · have ended : s.Moves (State.endFailed .shutdown none
          { s with formatJob := none, engine := { s.engine with retryTag := none } }) :=
        (engine_moves s { s.engine with retryTag := none } rfl rfl id).trans (moves_outputs rfl)
      refine ended.tail (.shuts ?_)
      exact h
    · exact (State.Move.shuts h).moves

theorem enterShutdown_moves (s : State) : s.Moves s.enterShutdown := by
  unfold State.enterShutdown
  dsimp only
  refine .trans (.trans (endRunning_moves s) (raise_moves _ .powerWarning)) ?_
  exact ((foldl_moves _ (shutdownFate_moves s.isCommitRequest) _ _).trans (dropRequests_moves _)).trans
    (stopUnwinding_moves _)

theorem powerFail_moves (s : State) : s.Moves s.powerFail := by
  unfold State.powerFail
  dsimp only
  have lowered : s.Moves { s with pfwLine := true } := moves_outputs rfl
  split
  · exact lowered
  · split
    · exact lowered.trans (moves_outputs rfl)
    · exact lowered.trans (enterShutdown_moves _)

theorem testPowerFail_moves (s : State) (pfw : Bool) : s.Moves (s.testPowerFail pfw) := by
  unfold State.testPowerFail
  have level : s.Moves { s with pfwLine := pfw } := moves_outputs rfl
  split
  · exact level.trans (enterShutdown_moves _)
  · exact level

theorem softReset_moves (s : State) (pfw : Bool) : s.Moves (s.softReset pfw) := by
  unfold State.softReset
  refine .trans (State.Move.clears.moves.trans ?_) (testPowerFail_moves _ pfw)
  exact moves_outputs rfl

theorem releaseReset_moves (s : State) (pfw low : Bool) : s.Moves (s.releaseReset pfw low) := by
  unfold State.releaseReset
  split
  · refine .trans (moves_outputs ?_) (testPowerFail_moves _ pfw)
    rfl
  · exact .refl

theorem runCommand_moves (s : State) (c : Command) (pfw : Bool) : s.Moves (s.runCommand c pfw) := by
  cases c
  · exact start_moves s
  · exact format_moves s
  · exact quiesce_moves s
  · exact resume_moves s
  · exact stop_moves s
  · exact forceUnwind_moves s
  · exact retryUnwind_moves s
  · exact clearIncidents_moves s
  · exact softReset_moves s pfw

theorem takeCommand_moves (s : State) (code : Nat) (pfw : Bool) : s.Moves (s.takeCommand code pfw) := by
  have taken : ∀ c, s.Moves (s.takeStatus c) := fun _ => moves_outputs rfl
  unfold State.takeCommand
  split
  · unfold State.takeKnown
    dsimp only
    split
    · exact moves_outputs rfl
    · exact (taken _).trans (runCommand_moves _ _ _)
  · exact moves_outputs rfl

/-! ### The register window -/

theorem limitClaims_range (v : Nat) : 1 ≤ (limitClaims v).toNat ∧ (limitClaims v).toNat ≤ 1024 := by
  simp only [limitClaims, Config.claimEntries, BitVec.toNat_ofNat]
  omega

/-- A value of 16 bits is all that a divider's two bytes give. -/
theorem limitDivider_range (v : Nat) (h : v < 65536) : 1 ≤ (limitDivider v).toNat := by
  simp only [limitDivider, BitVec.toNat_ofNat]
  omega

theorem region_write_range (r : Region) (f : RegionField) (v : Nat)
    (h : r.base.toNat ≤ 0x0FFFFFFF ∧ r.size.toNat ≤ 0x10000000) :
    (r.write f v).base.toNat ≤ 0x0FFFFFFF ∧ (r.write f v).size.toNat ≤ 0x10000000 := by
  cases f with
  | base => exact ⟨by simp only [Region.write, regionBaseTop, BitVec.toNat_ofNat]; omega, h.2⟩
  | size => exact ⟨h.1, by simp only [Region.write, regionSizeTop, BitVec.toNat_ofNat]; omega⟩
  | mode => exact h
  | enable => exact h

/-- The write of a region or of a geometry leaves every value in its range. -/
theorem modRegion_range (s : State) (r : RegionId) (f : Region → Region) (h : s.configInRange)
    (hf : (f s.regions[r]).base.toNat ≤ 0x0FFFFFFF ∧ (f s.regions[r]).size.toNat ≤ 0x10000000) :
    (s.modRegion r f).configInRange := by
  obtain ⟨h1, h2, h3, h4, h5⟩ := h
  refine ⟨h1, h2, h3, h4, fun q => ?_⟩
  by_cases hq : q = r
  · subst hq; simpa [State.modRegion] using hf
  · have : (s.modRegion r f).regions[q] = s.regions[q] := by
      simp only [State.modRegion]
      exact Vector.getElem_set_ne _ _ (fun h => hq (Fin.ext h.symm))
    rw [this]
    exact h5 q

theorem modGeometry_range (s : State) (p : PartId) (f : Geometry → Geometry) (h : s.configInRange)
    (hf : (f s.geometry[p]).base.toNat ≤ 0x0FFFF000 ∧ (f s.geometry[p]).size.toNat ≤ 4096) :
    (s.modGeometry p f).configInRange := by
  obtain ⟨h1, h2, h3, h4, h5⟩ := h
  refine ⟨h1, h2, h3, fun q => ?_, h5⟩
  by_cases hq : q = p
  · subst hq; simpa [State.modGeometry] using hf
  · have : (s.modGeometry p f).geometry[q] = s.geometry[q] := by
      simp only [State.modGeometry]
      exact Vector.getElem_set_ne _ _ (fun h => hq (Fin.ext h.symm))
    rw [this]
    exact h4 q

theorem leNat_lt (l : Bytes) : leNat l < 256 ^ l.length := by
  induction l with
  | nil => simp [leNat]
  | cons b l ih =>
    have := b.isLt
    simp only [leNat, List.length_cons, pow_succ]
    omega

theorem assembled_lt (s : State) (f : Field) (start first : Nat) (data : Bytes) :
    s.assembled f start first data < 256 ^ f.width :=
  lt_of_lt_of_eq (leNat_lt _) (by simp)

theorem writeField_moves (s : State) (f : Field) (v : Nat) (hv : v < 256 ^ f.width) : s.Moves (s.writeField f v) := by
  have set {t : State} (ht : t.tables = { s.tables with configuration := t.configuration })
      (hr : s.configInRange → t.configInRange) : s.Moves t := (State.Move.configures ht hr).moves
  cases f with
  | operand => exact moves_outputs rfl
  | flags => exact moves_outputs rfl
  | mask => exact moves_outputs rfl
  | tickDivider =>
    exact set rfl fun h => ⟨h.1, h.2.1, limitDivider_range v (by simpa [Field.width] using hv), h.2.2.2⟩
  | formatEpoch => exact set rfl id
  | claimLimit => exact set rfl fun h => ⟨(limitClaims_range v).1, (limitClaims_range v).2, h.2.2⟩
  | ageLimit => exact set rfl id
  | arrayTimeout => exact set rfl id
  | tagMap t => exact set rfl id
  | region r x => exact set rfl fun h => modRegion_range s r _ h (region_write_range _ x v (h.2.2.2.2 r))
  | partition p x =>
    cases x with
    | base =>
      refine set rfl fun h => modGeometry_range s p _ h ⟨?_, (h.2.2.2.1 p).2⟩
      simp only [partitionBaseTop, BitVec.toNat_ofNat]
      omega
    | size =>
      refine set rfl fun h => modGeometry_range s p _ h ⟨(h.2.2.2.1 p).1, ?_⟩
      simp only [partitionSizeTop, BitVec.toNat_ofNat]
      omega
    | _ => exact .refl
  | _ => exact .refl

theorem writeRange_moves (s : State) (first : Nat) (data : Bytes) : s.Moves (s.writeRange first data) := by
  refine foldl_moves _ (fun x a => ?_) _ _
  unfold State.writeByteStep
  split
  · split
    · exact writeField_moves x _ _ (assembled_lt ..)
    · exact .refl
  · exact .refl

/-! ### The management link -/

theorem applyFrame_moves (s : State) (l : Link) (pfw : Bool) : s.Moves (s.applyFrame l pfw) := by
  unfold State.applyFrame
  have written := writeRange_moves s l.windowAddress l.dataBytes
  dsimp only
  split
  · split
    · exact written
    · exact written.trans (takeCommand_moves _ _ _)
  · exact written

theorem endFrame_moves (s : State) (l : Link) (st : FrameStatus) : s.Moves (s.endFrame l st) := by
  unfold State.endFrame
  dsimp only
  split
  · exact moves_outputs rfl
  · exact moves_outputs rfl

theorem mselRises_moves (s : State) (l : Link) (pfw : Bool) : s.Moves (s.mselRises l pfw) := by
  have ended (st : FrameStatus) :
      s.Moves (if st = .ok ∧ !l.reads then (s.endFrame l st).applyFrame l pfw else s.endFrame l st) := by
    split
    · exact (endFrame_moves _ _ _).trans (applyFrame_moves _ _ _)
    · exact endFrame_moves _ _ _
  unfold State.mselRises
  cases l.frame with
  | idle | discarding => exact moves_outputs rfl
  | header | data | trailing =>
    dsimp only
    split
    · exact moves_outputs rfl
    · exact ended _

theorem drive_moves (s : State) (out : List Bool) : s.Moves (s.drive out) := moves_outputs rfl

theorem linkFrame_moves (s : State) (piece : Piece) (bytes : Bytes) (pfw : Bool) :
    s.Moves (s.linkFrame piece bytes pfw) := by
  unfold State.linkFrame
  dsimp only
  split
  · exact (drive_moves s _).trans (mselRises_moves _ _ _)
  · exact moves_outputs rfl

/-! ### The step -/

theorem exec_moves {i : Instr} {s t : State} (h : exec i s = .next t) : s.Moves t := by
  cases i
  case hostRequest r =>
    change execHostRequest r s = _ at h
    unfold execHostRequest at h
    split at h
    · refine lineEvent_moves _ (fun x => ?_) h
      split
      · exact .refl
      · exact intake_moves x r
    · cases h
  case heldRequestRetaken => exact lineEvent_moves _ retakeHeld_moves h
  case leaveOrdered i => exact lineEvent_moves _ (fun x => whenever_moves x _ _ (leaveOrdered_moves x i)) h
  case drainComplete t => exact lineEvent_moves _ (fun x => whenever_moves x _ _ (drain_moves x t)) h
  case slotIssue p => exact lineEvent_moves _ (fun x => issueSlots_moves x p) h
  case unwindTakeGroup => exact lineEvent_moves _ (fun x => engineEvent_moves x State.engineTakes fun _ _ => engineTakes_moves) h
  case groupSettled => exact lineEvent_moves _ (fun x => engineEvent_moves x State.engineSettles fun _ _ => engineSettles_moves) h
  case storesCleared => exact lineEvent_moves _ (fun x => engineEvent_moves x State.engineReads fun _ _ => engineReads_moves) h
  case tick => exact lineEvent_moves _ tick_moves h
  case ageExpiry t => exact lineEvent_moves _ (fun x => whenever_moves x _ _ (expire_moves x t)) h
  case arrayTimeout n => exact lineEvent_moves _ (fun x => timeOutNumber_moves x n) h
  case requestHandedOver => exact lineEvent_moves State.handOver (fun _ => moves_outputs rfl) h
  case quietCondition => exact lineEvent_moves _ (fun x => State.Move.quiets.moves) h
  case pfwAssert => exact event_moves _ powerFail_moves h
  case resetLineAssert low => exact event_moves _ (fun x => (State.Move.resets low).moves) h
  case resetLineRelease pfw low => exact event_moves _ (fun x => releaseReset_moves x pfw low) h
  case discardedFrameEnds =>
    exact event_moves (fun x => { x with link := x.link.discardEnds }) (fun _ => moves_outputs rfl) h
  case readFrame | writeFrame | badKindFrame | start | format | quiesce | resume | stop | forceUnwind | retryUnwind
      | clearIncidents | softReset | unknownCommand =>
    exact event_moves _ (fun x => linkFrame_moves x _ _ _) h
  all_goals exact lineEvent_moves _ (fun x => takeResponse_moves x _ _) h

/-- Every step is a run of moves. -/
theorem step_moves {s t : State} (h : step s = .next t) : s.Moves t := by
  unfold step at h
  split at h
  · unfold clockPeriod at h
    split at h
    · cases h; exact .refl
    · split at h
      · cases h; exact moves_outputs rfl
      · exact exec_moves h
  · rename_i c rest _
    exact (moves_outputs (s := s) (t := { s with pending := rest }) rfl).trans (exec_moves h)

end Sys2Proof.Machine
end

section
/-! O56: the bounds of the incident list, the configuration, the request table and the claim table, move by move. -/

namespace Sys2Proof.Machine

/-! ### What the composite moves leave -/

/-- What a new claim changes of the tables: a claim, a group, a partition and the sequence counter. -/
theorem takeClaim_only (s : State) (t : Tag) (line : Addr) : ∃ c : Claim, ∃ g x n, c.line = line ∧ c.tag = t ∧
    s.takeClaim t line =
      { s with claims := s.claims ++ [c], groups := g, partitions := x, seqCounter := n } := by
  unfold State.takeClaim
  dsimp only
  split <;> exact ⟨_, _, _, _, rfl, rfl, rfl⟩

theorem removeClaim_only (s : State) (t : Tag) (line : Addr) : ∃ l g, l.Sublist s.claims ∧
    s.removeClaim t line = { s with claims := l, groups := g } := by
  unfold State.removeClaim
  split
  · split
    · exact ⟨_, _, List.filter_sublist, rfl⟩
    · exact ⟨_, _, .refl _, rfl⟩
  · exact ⟨_, _, .refl _, rfl⟩

theorem quietTest_only (s : State) : ∃ c f, s.quietTest = { s with controller := c, flags := f } := by
  unfold State.quietTest
  split <;> exact ⟨_, _, rfl⟩

/-- The scanner takes a partition, or recovery succeeds: the partitions, the scanner and the array requests change, or
the claim table is emptied. -/
theorem takeFirst_only (s : State) (f : PartId → Bool) :
    (∃ x sc o n, s.takeFirst f = { s with partitions := x, scanner := sc, outstanding := o, issueCounter := n }) ∨
      ∃ c m, s.takeFirst f =
        { s with controller := .active, scanner := .cleared, claims := [], seqCounter := 1, cmdStatus := c, flags := m } := by
  unfold State.takeFirst
  split
  · exact .inl ⟨_, _, _, _, rfl⟩
  · exact .inr ⟨_, _, rfl⟩

/-! ### The incident list -/

theorem log_incidentsBounded (s : State) (i : Incident) (h : s.incidentsBounded) : (s.log i).incidentsBounded := by
  obtain ⟨h8, hd⟩ := h
  unfold State.log
  dsimp only
  split
  · rename_i hl
    exact ⟨by simpa [Config.incidentEntries] using hl, hd⟩
  · exact ⟨by simp [State.raise, Config.incidentEntries], by simp [State.raise]⟩

theorem move_incidentsBounded {s t : State} (hm : s.Move t) (h : s.incidentsBounded) : t.incidentsBounded := by
  cases hm
  case outputs ht =>
    rw [State.incidentsBounded, show t.incidents = s.incidents from congrArg Tables.incidents ht,
      show t.dropped = s.dropped from congrArg Tables.dropped ht]
    exact h
  case configures ht _ =>
    rw [State.incidentsBounded, show t.incidents = s.incidents from congrArg Tables.incidents ht,
      show t.dropped = s.dropped from congrArg Tables.dropped ht]
    exact h
  case logs i => exact log_incidentsBounded s i h
  case claims u line _ _ _ _ =>
    obtain ⟨c, g, x, n, -, -, he⟩ := takeClaim_only s u line
    rw [he]; exact h
  case removes u line =>
    obtain ⟨l, g, -, he⟩ := removeClaim_only s u line
    rw [he]; exact h
  case quiets =>
    obtain ⟨c, f, he⟩ := quietTest_only s
    rw [he]; exact h
  case readies =>
    obtain ⟨x, sc, o, n, he⟩ | ⟨c, m, he⟩ := takeFirst_only _ _ <;> rw [he] <;> exact h
  case starts =>
    obtain ⟨x, sc, o, n, he⟩ | ⟨c, m, he⟩ := takeFirst_only _ _ <;> rw [he] <;> exact h
  case clearsIncidents => exact ⟨Nat.zero_le _, Nat.zero_le _⟩
  case resets => exact ⟨Nat.zero_le _, Nat.zero_le _⟩
  all_goals exact h

/-! ### The configuration -/

theorem configInRange_of_configuration {s t : State} (hc : t.configuration = s.configuration) (h : s.configInRange) :
    t.configInRange := by
  have hl : t.claimLimit = s.claimLimit := congrArg Configuration.claimLimit hc
  have hd : t.tickDivider = s.tickDivider := congrArg Configuration.tickDivider hc
  have hg : t.geometry = s.geometry := congrArg Configuration.geometry hc
  have hr : t.regions = s.regions := congrArg Configuration.regions hc
  rw [State.configInRange, hl, hd, hg, hr]
  exact h

theorem reset_configInRange : State.reset.configInRange := by
  refine ⟨by decide, by decide, by decide, fun p => ?_, fun r => ?_⟩
  · simp [State.reset]
  · simp [State.reset, Region.cleared]

theorem move_configInRange {s t : State} (hm : s.Move t) (h : s.configInRange) : t.configInRange := by
  cases hm
  case outputs ht => exact configInRange_of_configuration (congrArg Tables.configuration ht) h
  case configures _ hr => exact hr h
  case resets => exact configInRange_of_configuration (s := .reset) rfl reset_configInRange
  case logs i => exact configInRange_of_configuration (congrArg Setup.configuration (log_setup s i)) h
  case claims u line _ _ _ _ =>
    exact configInRange_of_configuration (congrArg Setup.configuration (takeClaim_setup s u line)) h
  case removes u line =>
    exact configInRange_of_configuration (congrArg Setup.configuration (removeClaim_setup s u line)) h
  case quiets => exact configInRange_of_configuration (congrArg Setup.configuration (quietTest_setup s)) h
  case readies =>
    exact configInRange_of_configuration (congrArg Setup.configuration (takeFirst_setup _ _)) h
  case starts =>
    exact configInRange_of_configuration (congrArg Setup.configuration (takeFirst_setup _ _)) h
  all_goals exact h

/-! ### The request table -/

theorem move_entriesNumbered {s t : State} (hm : s.Move t) (h : s.entriesNumbered) : t.entriesNumbered := by
  cases hm
  case outputs ht =>
    rw [State.entriesNumbered, show t.requests = s.requests from congrArg Tables.requests ht]; exact h
  case configures ht _ =>
    rw [State.entriesNumbered, show t.requests = s.requests from congrArg Tables.requests ht]; exact h
  case logs i =>
    obtain ⟨a, d, f, he⟩ := log_only i s
    rw [he]; exact h
  case fates l hl => exact h.sublist hl
  case admits e hf =>
    unfold State.entriesNumbered State.addEntry
    rw [List.map_append, List.nodup_append]
    refine ⟨h, by simp, fun x hx y hy => ?_⟩
    obtain ⟨z, hz, rfl⟩ := List.mem_map.mp hx
    simp only [List.map_cons, List.map_nil, List.mem_singleton] at hy
    exact hy ▸ hf z hz
  case claims u line _ _ _ _ =>
    obtain ⟨c, g, x, n, -, -, he⟩ := takeClaim_only s u line
    rw [he]; exact h
  case releases u => exact h.sublist (fates_map _ _ fun x => by split <;> rfl)
  case removes u line =>
    obtain ⟨l, g, -, he⟩ := removeClaim_only s u line
    rw [he]; exact h
  case quiets =>
    obtain ⟨c, f, he⟩ := quietTest_only s
    rw [he]; exact h
  case readies =>
    obtain ⟨x, sc, o, n, he⟩ | ⟨c, m, he⟩ := takeFirst_only _ _ <;> rw [he] <;> exact h
  case starts =>
    obtain ⟨x, sc, o, n, he⟩ | ⟨c, m, he⟩ := takeFirst_only _ _ <;> rw [he] <;> exact h
  case clears => exact List.nodup_nil
  case resets => exact List.nodup_nil
  all_goals exact h

/-! ### The claim table -/

theorem claimsByLine_of_sublist {s t : State} (hs : t.claims.Sublist s.claims) (h : s.claimsByLine) : t.claimsByLine :=
  ⟨hs.length_le.trans h.1, h.2.sublist (hs.map _)⟩

/-- The checks of a new claim leave room in the claim table (R34). -/
theorem claims_room {s : State} {t : Tag} (h : s.claimRefusal t = none) : s.claims.length < 1024 := by
  unfold State.claimRefusal at h
  dsimp only at h
  split at h
  · cases h
  · split at h
    · cases h
    · split at h
      · cases h
      · rename_i hl
        exact Nat.lt_of_not_le hl

theorem line_unclaimed {s : State} {line : Addr} (h : s.claimOf line = none) : line ∉ s.claims.map (·.line) := by
  simpa [State.claimOf, List.find?_eq_none] using h

theorem move_claimsByLine {s t : State} (hm : s.Move t) (h : s.claimsByLine) : t.claimsByLine := by
  cases hm
  case outputs ht =>
    rw [State.claimsByLine, show t.claims = s.claims from congrArg Tables.claims ht]; exact h
  case configures ht _ =>
    rw [State.claimsByLine, show t.claims = s.claims from congrArg Tables.claims ht]; exact h
  case logs i =>
    obtain ⟨a, d, f, he⟩ := log_only i s
    rw [he]; exact h
  case logsClaims f hl _ =>
    refine ⟨(List.length_map f).trans_le h.1, ?_⟩
    change ((s.claims.map f).map _).Nodup
    rw [List.map_map, show ((fun c : Claim => c.line) ∘ f) = (·.line) from funext hl]
    exact h.2
  case claims u line hc hr _ _ =>
    obtain ⟨c, g, x, n, rfl, -, he⟩ := takeClaim_only s u line
    rw [he]
    refine ⟨by simpa using claims_room hr, ?_⟩
    change ((s.claims ++ [c]).map _).Nodup
    rw [List.map_append, List.nodup_append]
    refine ⟨h.2, by simp, fun a ha b hb hab => ?_⟩
    simp only [List.map_cons, List.map_nil, List.mem_singleton] at hb
    exact line_unclaimed hc (hb ▸ hab ▸ ha)
  case releases u => exact claimsByLine_of_sublist List.filter_sublist h
  case removes u line =>
    obtain ⟨l, g, hl, he⟩ := removeClaim_only s u line
    rw [he]; exact claimsByLine_of_sublist (s := s) hl h
  case quiets =>
    obtain ⟨c, f, he⟩ := quietTest_only s
    rw [he]; exact h
  case readies =>
    obtain ⟨x, sc, o, n, he⟩ | ⟨c, m, he⟩ := takeFirst_only _ _ <;> rw [he]
    · exact h
    · exact claimsByLine_of_sublist (s := s) (List.nil_sublist _) h
  case starts =>
    obtain ⟨x, sc, o, n, he⟩ | ⟨c, m, he⟩ := takeFirst_only _ _ <;> rw [he]
    · exact h
    · exact claimsByLine_of_sublist (s := s) (List.nil_sublist _) h
  case clears => exact claimsByLine_of_sublist (List.nil_sublist _) h
  case resets => exact claimsByLine_of_sublist (List.nil_sublist _) h
  all_goals exact h

/-- Settles O56, move by move. -/
theorem stepKeepsBounds : Obligations.StepKeepsBounds := by
  intro s t h
  have moves := step_moves h
  exact ⟨moves.keeps fun _ _ => move_incidentsBounded, moves.keeps fun _ _ => move_configInRange,
    moves.keeps fun _ _ => move_entriesNumbered, moves.keeps fun _ _ => move_claimsByLine⟩

end Sys2Proof.Machine
end

section
/-! O57: the group table, the claim table and the waiting order, move by move. -/

namespace Sys2Proof.Machine

/-! ### The sequence counter passes every carried value (R2) -/

theorem nextSequence_toNat (v : Word) (h : v ≠ 0) : (nextSequence v).toNat - 1 = (v.toNat - 1 + 1) % (2 ^ 32 - 1) ∧
    nextSequence v ≠ 0 := by
  unfold nextSequence
  split
  · subst_vars; decide
  · constructor <;> bv_omega

theorem nextSequence_iterate (v : Word) (h : v ≠ 0) (n : Nat) :
    ((nextSequence^[n]) v).toNat - 1 = (v.toNat - 1 + n) % (2 ^ 32 - 1) ∧ (nextSequence^[n]) v ≠ 0 := by
  induction n with
  | zero =>
    have := v.isLt
    exact ⟨by simp only [Function.iterate_zero, id]; bv_omega, h⟩
  | succ n ih =>
    rw [Function.iterate_succ_apply']
    obtain ⟨hn, h0⟩ := nextSequence_toNat _ ih.2
    exact ⟨by rw [hn, ih.1]; omega, h0⟩

/-- The values that the counter runs through differ from one another, until it comes round. -/
theorem nextSequence_injective (v : Word) (h : v ≠ 0) {m n : Nat} (hm : m < 2 ^ 32 - 1) (hn : n < 2 ^ 32 - 1)
    (he : (nextSequence^[m]) v = (nextSequence^[n]) v) : m = n := by
  have h1 := (nextSequence_iterate v h m).1
  rw [he, (nextSequence_iterate v h n).1] at h1
  have := v.isLt
  omega

/-- Where the counter stops at a carried value, it has passed carried values only. -/
theorem skipCarried_carried (carried : Word → Bool) : ∀ (fuel : Nat) (v : Word),
    carried (skipCarried carried fuel v) = true → ∀ n ≤ fuel, carried ((nextSequence^[n]) v) = true
  | 0, v, h, n, hn => by
    obtain rfl : n = 0 := by omega
    exact h
  | fuel + 1, v, h, n, hn => by
    unfold skipCarried at h
    split at h
    · rename_i hv
      cases n with
      | zero => exact hv
      | succ n =>
        rw [Function.iterate_succ_apply]
        exact skipCarried_carried carried fuel _ h n (by omega)
    · exact absurd h ‹_›

theorem skipCarried_ne_zero (carried : Word → Bool) : ∀ (fuel : Nat) (v : Word), v ≠ 0 →
    skipCarried carried fuel v ≠ 0
  | 0, _, h => h
  | fuel + 1, v, h => by
    unfold skipCarried
    split
    · exact skipCarried_ne_zero carried fuel _ (nextSequence_toNat v h).2
    · exact h

/-- The sequences that groups and spans carry. -/
def State.carriedList (s : State) : List Word :=
  s.groups.toList.filterMap (·.sequence) ++ s.partitions.toList.flatMap (fun x => x.spans.filterMap (·.sequence))

theorem mem_carriedList {s : State} {v : Word} (h : s.sequenceCarried v = true) : v ∈ s.carriedList := by
  unfold State.sequenceCarried at h
  rw [Bool.or_eq_true, List.any_eq_true, List.any_eq_true] at h
  refine List.mem_append.mpr (h.imp (fun ⟨g, hg, hv⟩ => ?_) fun ⟨x, hx, hv⟩ => ?_)
  · rw [Bool.and_eq_true, decide_eq_true_eq, decide_eq_true_eq] at hv
    exact List.mem_filterMap.mpr ⟨g, hg, hv.2⟩
  · obtain ⟨sp, hsp, hv⟩ := List.any_eq_true.mp hv
    exact List.mem_flatMap.mpr ⟨x, hx, List.mem_filterMap.mpr ⟨sp, hsp, of_decide_eq_true hv⟩⟩

theorem carriedList_length (s : State) (h : ∀ p, (s.part p).spans.length ≤ 64) : s.carriedList.length ≤ 271 := by
  have groups : (s.groups.toList.filterMap (·.sequence)).length ≤ 15 :=
    (List.length_filterMap_le _ _).trans (by simp)
  have spans : ∀ x ∈ s.partitions.toList, (x.spans.filterMap (·.sequence)).length ≤ 64 := fun x hx => by
    obtain ⟨i, hi, rfl⟩ := List.getElem_of_mem hx
    have hi' : i < 4 := by simpa using hi
    refine (List.length_filterMap_le _ _).trans ?_
    simpa [State.part] using h ⟨i, hi'⟩
  have total : ∀ l : List Partition, (∀ x ∈ l, (x.spans.filterMap (·.sequence)).length ≤ 64) →
      (l.flatMap (fun x => x.spans.filterMap (·.sequence))).length ≤ 64 * l.length := fun l => by
    induction l with
    | nil => simp
    | cons x l ih =>
      intro hl
      have := hl x (by simp)
      have := ih fun y hy => hl y (by simp [hy])
      simp only [List.flatMap_cons, List.length_append, List.length_cons]
      omega
  have := total _ spans
  simp only [State.carriedList, List.length_append]
  simp only [Vector.length_toList] at this
  omega

/-- The counter comes to rest at a value that no group and no span carries: more values are tried than are carried. -/
theorem advanceSequence_uncarried (s : State) (h : ∀ p, (s.part p).spans.length ≤ 64) (h0 : s.seqCounter ≠ 0) :
    s.advanceSequence.seqCounter ≠ 0 ∧ s.sequenceCarried s.advanceSequence.seqCounter = false := by
  have next := (nextSequence_toNat _ h0).2
  refine ⟨skipCarried_ne_zero _ _ _ next, ?_⟩
  by_contra hc
  have all := skipCarried_carried s.sequenceCarried Config.sequenceSteps (nextSequence s.seqCounter)
    (by rw [Bool.not_eq_false] at hc; exact hc)
  have hn : ((List.range 273).map (fun n => (nextSequence^[n]) (nextSequence s.seqCounter))).Nodup := by
    refine List.Nodup.map_on (fun m hm n hn he => ?_) List.nodup_range
    rw [List.mem_range] at hm hn
    exact nextSequence_injective _ next (by omega) (by omega) he
  have hs := (List.subperm_of_subset hn (l₂ := s.carriedList) fun v hv => by
    obtain ⟨n, hm, rfl⟩ := List.mem_map.mp hv
    rw [List.mem_range] at hm
    exact mem_carriedList (all n (by simp only [Config.sequenceSteps]; omega))).length_le
  have := carriedList_length s h
  simp only [List.length_map, List.length_range] at hs
  omega

/-- A value that no group carries differs from every sequence in use. -/
theorem sequence_of_uncarried {s : State} {v : Word} (h : s.sequenceCarried v = false) (t : Tag)
    (ht : s.groupState t ≠ .free) : (s.group t).sequence ≠ some v := by
  intro hv
  have : s.sequenceCarried v = true := by
    unfold State.sequenceCarried
    rw [Bool.or_eq_true, List.any_eq_true]
    exact .inl ⟨s.group t, by simp [State.group], by rw [hv]; simpa [State.groupState] using ht⟩
  rw [h] at this
  cases this

/-! ### The waiting order -/

theorem insertTag_perm (t : Tag) (l : List Tag) : (insertTag t l).Perm (t :: l) := by
  induction l with
  | nil => exact .refl _
  | cons u l ih =>
    unfold insertTag
    split
    · exact .refl _
    · exact (List.Perm.cons u ih).trans (.swap t u l)

theorem joinWaiting_perm (s : State) (t : Tag) : (s.joinWaiting t).engine.waiting.Perm (t :: s.engine.waiting) := by
  refine ((insertTag_perm t _).append_left _).trans ?_
  refine List.perm_middle.trans ?_
  rw [List.take_append_drop]

/-! ### Changes that the invariant does not see, and changes of one group -/

/-- Nothing but an access mark of a claim, an entry's clock or request, or a partition changes. -/
theorem State.GroupsSound.touched {s t : State} (h : s.GroupsSound) (hg : ∀ u, (s.group u).agrees (t.group u))
    (hq : t.seqCounter = s.seqCounter) (hc : ∀ u, (t.claimsOf u).length = (s.claimsOf u).length)
    (hl : t.claims.map (·.line) = s.claims.map (·.line)) (he : t.engine = s.engine) (hk : t.controller = s.controller)
    (hp : ∀ p, (t.part p).spans.length ≤ 64) (hs : t.scanner = s.scanner) : t.GroupsSound := by
  have free : ∀ u, t.groupState u = .free → s.groupState u = .free := fun u hu => by
    obtain ⟨-, -, h | ⟨-, h⟩, -⟩ := hg u
    · exact h.symm.trans hu
    · rw [show (t.group u).state = .free from hu] at h
      rcases h with h | h | h <;> cases h
  have kept : ∀ u, s.groupState u = .free → t.group u = Group.cleared := fun u hu =>
    (hg u).2.2.2 (h.free_cleared u hu)
  have used : ∀ u, t.groupState u ≠ .free → s.groupState u ≠ .free := fun u hu hs =>
    hu (congrArg Group.state (kept u hs))
  refine
    { claims_counted := fun u => by
        rw [(hg u).2.1, h.claims_counted u]; exact (hc u).symm
      lines_once := hl ▸ h.lines_once
      sequences_differ := fun u v huv hu hv => by
        rw [(hg u).1, (hg v).1]; exact h.sequences_differ u v huv (used u hu) (used v hv)
      sequence_given := fun u hu => by
        rw [(hg u).1, hq]; exact h.sequence_given u (used u hu)
      counter_given := hq ▸ h.counter_given
      unwinding_waits := fun u => by
        rw [he, ← h.unwinding_waits u]
        obtain ⟨-, -, hu | ⟨hu, hv⟩, -⟩ := hg u
        · exact Eq.congr_left hu
        · exact iff_of_false (fun hx => by rw [show (t.group u).state = _ from hx] at hv; rcases hv with h | h | h <;> cases h)
            (fun hx => by rw [show (s.group u).state = _ from hx] at hu; rcases hu with h | h | h <;> cases h)
      waits_once := he ▸ h.waits_once
      idle_alone := he ▸ h.idle_alone
      free_cleared := fun u hu => kept u (free u hu)
      halted_bare := fun u hu => by
        obtain ⟨-, hh, hv | ⟨-, hv⟩, -⟩ := hg u
        · rw [hh]; exact h.halted_bare u (hv.symm.trans hu)
        · rw [show (t.group u).state = _ from hu] at hv
          rcases hv with h | h | h <;> cases h
      quiet_free := fun hc u => by
        rw [hk] at hc
        exact congrArg Group.state (kept u (h.quiet_free hc u))
      spans_stored := hp
      scanner_idle := by rw [State.scannerIdle, hk, hs]; exact h.scanner_idle }

/-- The groups, the claims, the engine, the counter, the controller, the scanner and the partitions stay. -/
theorem State.GroupsSound.congr {s t : State} (h : s.GroupsSound) (hg : t.groups = s.groups) (hq : t.seqCounter = s.seqCounter)
    (hc : t.claims = s.claims) (he : t.engine = s.engine) (hk : t.controller = s.controller)
    (hp : t.partitions = s.partitions) (hs : t.scanner = s.scanner) : t.GroupsSound := by
  refine h.touched (fun u => ?_) hq (fun u => ?_) (by rw [hc]) he hk (fun p => ?_) hs
  · rw [show t.group u = s.group u by unfold State.group; rw [hg]]; exact agrees_refl _
  · unfold State.claimsOf; rw [hc]
  · rw [show t.part p = s.part p by unfold State.part; rw [hp]]; exact h.spans_stored p

/-- One group changes, and with it claims or the waiting order: it becomes FREE, or it stays in progress with its
sequence. -/
theorem State.GroupsSound.regrouped {s t : State} (h : s.GroupsSound) (u : Tag) (g : Group)
    (hg : ∀ v, t.group v = if v = u then g else s.group v)
    (hfree : g = Group.cleared ∨
      s.groupState u ≠ .free ∧ g.state ≠ .free ∧ g.sequence = (s.group u).sequence)
    (hhalt : g.state = .halted → g.claimsHeld = 0)
    (hcount : ∀ v, (t.group v).claimsHeld = (t.claimsOf v).length) (hl : (t.claims.map (·.line)).Nodup)
    (hwait : ∀ v, t.groupState v = .unwinding ↔ v ∈ t.engine.waiting ∨ t.engine.current = some v)
    (honce : (t.engine.current.toList ++ t.engine.waiting).Nodup)
    (hidle : t.engine.state = .idle → t.engine.current = none) (hq : t.seqCounter = s.seqCounter)
    (hk : t.controller = s.controller) (hp : ∀ p, (t.part p).spans.length ≤ 64) (hs : t.scanner = s.scanner) :
    t.GroupsSound := by
  have used : ∀ v, t.groupState v ≠ .free → s.groupState v ≠ .free ∧ (t.group v).sequence = (s.group v).sequence := by
    intro v hv
    rw [State.groupState, hg v] at hv
    rw [hg v]
    split_ifs at hv ⊢ with hvu
    · subst hvu
      rcases hfree with rfl | ⟨h1, -, h3⟩
      · exact absurd rfl hv
      · exact ⟨h1, h3⟩
    · exact ⟨hv, rfl⟩
  refine
    { claims_counted := hcount
      lines_once := hl
      sequences_differ := fun v w hvw hv hw => by
        rw [(used v hv).2, (used w hw).2]; exact h.sequences_differ v w hvw (used v hv).1 (used w hw).1
      sequence_given := fun v hv => by
        rw [(used v hv).2, hq]; exact h.sequence_given v (used v hv).1
      counter_given := hq ▸ h.counter_given
      unwinding_waits := hwait
      waits_once := honce
      idle_alone := hidle
      free_cleared := fun v hv => ?_
      halted_bare := fun v hv => ?_
      quiet_free := fun hc v => ?_
      spans_stored := hp
      scanner_idle := by rw [State.scannerIdle, hk, hs]; exact h.scanner_idle }
  · rw [State.groupState, hg v] at hv
    rw [hg v]
    split_ifs at hv ⊢ with hvu
    · rcases hfree with rfl | ⟨-, h2, -⟩
      · rfl
      · exact absurd hv h2
    · exact h.free_cleared v hv
  · rw [State.groupState, hg v] at hv
    rw [hg v]
    split_ifs at hv ⊢ with hvu
    · exact hhalt hv
    · exact h.halted_bare v hv
  · by_contra hv
    rw [hk] at hc
    exact (used v hv).1 (h.quiet_free hc v)

/-! ### The moves -/

theorem claimsOf_length_of_map (s t : State) (f : Claim → Claim) (ht : ∀ c, (f c).tag = c.tag)
    (hc : t.claims = s.claims.map f) (u : Tag) : (t.claimsOf u).length = (s.claimsOf u).length := by
  unfold State.claimsOf
  rw [hc, List.filter_map, List.length_map]
  congr 2
  funext c
  simp [ht]

theorem agrees_of_eq {g h : Group} (e : h = g) : g.agrees h := e ▸ agrees_refl g

/-- All the groups are FREE. -/
theorem claims_nil_of_free {s : State} (h : s.GroupsSound) (hf : ∀ t, s.groupState t = .free) : s.claims = [] := by
  rw [List.eq_nil_iff_forall_not_mem]
  intro c hc
  have h0 := h.claims_counted c.tag
  rw [h.free_cleared c.tag (hf _)] at h0
  have : c ∈ s.claims.filter (fun x => x.tag == c.tag) := List.mem_filter.mpr ⟨hc, by simp⟩
  rw [List.eq_nil_of_length_eq_zero h0.symm] at this
  cases this

/-- With every group FREE, the controller, the partitions, the scanner and the counter are free to change. -/
theorem State.GroupsSound.of_free {s t : State} (h : s.GroupsSound) (hf : ∀ u, s.groupState u = .free)
    (hg : t.groups = s.groups) (hc : t.claims = s.claims ∨ t.claims = []) (he : t.engine = s.engine)
    (hq : t.seqCounter ≠ 0) (hp : ∀ p, (t.part p).spans.length ≤ 64) (hs : t.scannerIdle) : t.GroupsSound := by
  have group : ∀ u, t.group u = s.group u := fun u => by unfold State.group; rw [hg]
  have state : ∀ u, t.groupState u = s.groupState u := fun u => by unfold State.groupState; rw [group]
  have claims : t.claims = s.claims := hc.elim id fun hc => hc.trans (claims_nil_of_free h hf).symm
  exact
    { claims_counted := fun u => by rw [group, claims]; exact h.claims_counted u
      lines_once := claims ▸ h.lines_once
      sequences_differ := fun u _ _ hu => absurd ((state u).trans (hf u)) hu
      sequence_given := fun u hu => absurd ((state u).trans (hf u)) hu
      counter_given := hq
      unwinding_waits := fun u => by rw [state, he]; exact h.unwinding_waits u
      waits_once := he ▸ h.waits_once
      idle_alone := he ▸ h.idle_alone
      free_cleared := fun u hu => by rw [group]; exact h.free_cleared u ((state u).symm.trans hu)
      halted_bare := fun u hu => by rw [group]; exact h.halted_bare u ((state u).symm.trans hu)
      quiet_free := fun _ u => (state u).trans (hf u)
      spans_stored := hp
      scanner_idle := hs }

theorem setPart_spans {s : State} (h : ∀ p, (s.part p).spans.length ≤ 64) (p : PartId) (x : Partition)
    (hx : x.spans.length ≤ 64) (q : PartId) : ((s.setPart p x).part q).spans.length ≤ 64 := by
  rw [part_setPart]
  split
  · exact hx
  · exact h q

theorem rings_groupsSound {s : State} (h : s.GroupsSound) (p : PartId) (x : Partition)
    (hx : (s.part p).spans.length ≤ 64 → x.spans.length ≤ 64) : (s.setPart p x).GroupsSound :=
  h.touched (fun _ => agrees_refl _) rfl (fun _ => rfl) rfl rfl rfl
    (setPart_spans h.spans_stored p x (hx (h.spans_stored p))) rfl

theorem steers_groupsSound {s : State} (h : s.GroupsSound) (e : Engine) (he : s.steers e) :
    ({ s with engine := e } : State).GroupsSound := by
  obtain ⟨hw, hc, hi⟩ := he
  exact
    { h with
      unwinding_waits := fun u => by
        change _ ↔ u ∈ e.waiting ∨ e.current = some u
        rw [hw, hc]; exact h.unwinding_waits u
      waits_once := by
        change (e.current.toList ++ e.waiting).Nodup
        rw [hw, hc]; exact h.waits_once
      idle_alone := fun hs => hc.trans (h.idle_alone (hi hs)) }

theorem takes_groupsSound {s : State} (h : s.GroupsSound) (t : Tag) (rest : List Tag) (hi : s.engine.state = .idle)
    (hw : s.engine.waiting = t :: rest) : (s.takeGroup t rest).GroupsSound := by
  have alone := h.idle_alone hi
  exact
    { h with
      unwinding_waits := fun u => by
        change s.groupState u = _ ↔ u ∈ rest ∨ some t = some u
        rw [h.unwinding_waits u, hw, alone, List.mem_cons, Option.some.injEq, eq_comm (a := u)]
        simp [or_comm]
      waits_once := by
        have := h.waits_once
        rw [hw, alone] at this
        exact this
      idle_alone := nofun }

/-- The claims of the other groups stay when those of one leave. -/
theorem releases_groupsSound {s : State} (h : s.GroupsSound) (t : Tag) : (s.releaseClaims t).GroupsSound := by
  have state : ∀ v, (s.releaseClaims t).groupState v = s.groupState v := fun v => by
    unfold State.groupState
    rw [releaseClaims_group]
    split <;> rfl
  refine h.regrouped t { s.group t with claimsHeld := 0 } (fun v => ?_) ?_ (fun _ => rfl) (fun v => ?_) ?_ (fun v => ?_)
    h.waits_once h.idle_alone rfl rfl h.spans_stored rfl
  · rw [releaseClaims_group]
    split
    · subst_vars; rfl
    · rfl
  · by_cases hf : s.groupState t = .free
    · exact .inl (by rw [h.free_cleared t hf]; rfl)
    · exact .inr ⟨hf, hf, rfl⟩
  · rw [releaseClaims_group]
    change _ = ((s.claims.filter (fun c => c.tag != t)).filter (fun c => c.tag == v)).length
    rw [List.filter_filter]
    split
    · rename_i hv
      subst hv
      have : (s.claims.filter fun c => (c.tag == v) && (c.tag != v)) = [] := by
        rw [List.filter_eq_nil_iff]; intro c _; simp
      rw [this]; rfl
    · rename_i hv
      rw [h.claims_counted v]
      congr 2
      funext c
      by_cases hc : c.tag = v
      · simp [hc, hv]
      · simp [hc]
  · exact h.lines_once.sublist (List.filter_sublist.map _)
  · rw [state]; exact h.unwinding_waits v

/-- Of claims on different lines, one leaves with its line. -/
theorem filter_line_length {l : List Claim} (hn : (l.map (·.line)).Nodup) {c : Claim} (hc : c ∈ l) :
    (l.filter (fun x => x.line != c.line)).length + 1 = l.length := by
  induction l with
  | nil => cases hc
  | cons x l ih =>
    rw [List.map_cons, List.nodup_cons] at hn
    by_cases hx : x.line = c.line
    · have stay : l.filter (fun y => y.line != c.line) = l := List.filter_eq_self.mpr fun y hy => by
        have : y.line ≠ x.line := fun he => hn.1 (he ▸ List.mem_map_of_mem hy)
        simpa [← hx] using this
      rw [List.filter_cons_of_neg (by simp [hx]), stay, List.length_cons]
    · have hl : c ∈ l := (List.mem_cons.mp hc).resolve_left fun he => hx (he ▸ rfl)
      rw [List.filter_cons_of_pos (by simpa using hx), List.length_cons, List.length_cons, ih hn.2 hl]

theorem removes_groupsSound {s : State} (h : s.GroupsSound) (t : Tag) (line : Addr) :
    (s.removeClaim t line).GroupsSound := by
  unfold State.removeClaim
  split
  · rename_i c hf
    split
    · rename_i ht
      have hc : c ∈ s.claims := List.mem_of_find?_eq_some hf
      have hline : c.line = line := by simpa using List.find?_some hf
      have only : ∀ x ∈ s.claims, x.line = line → x = c := fun x hx hxl =>
        List.inj_on_of_nodup_map h.lines_once hx hc (hxl.trans hline.symm)
      have counted : ∀ v, ((s.claims.filter (fun x => x.line != line)).filter (fun x => x.tag == v)).length =
          (s.group v).claimsHeld - if v = t then 1 else 0 := fun v => by
        rw [List.filter_comm, h.claims_counted v]
        by_cases hv : v = t
        · have hm : c ∈ s.claims.filter (fun x => x.tag == v) := List.mem_filter.mpr ⟨hc, by simp [ht, hv]⟩
          have := filter_line_length (h.lines_once.sublist (List.filter_sublist.map _)) hm
          rw [hline] at this
          rw [if_pos hv]
          omega
        · rw [if_neg hv, List.filter_eq_self.mpr]
          · rfl
          · intro x hx
            obtain ⟨hx, hxv⟩ := List.mem_filter.mp hx
            have : x.line ≠ line := fun hxl => hv (by rw [← ht, ← only x hx hxl]; exact (by simpa using hxv : x.tag = v).symm)
            simpa using this
      have held : s.groupState t ≠ .free := fun hfree => by
        have h0 := h.claims_counted t
        rw [h.free_cleared t hfree] at h0
        have hm : c ∈ s.claims.filter (fun x => x.tag == t) := List.mem_filter.mpr ⟨hc, by simp [ht]⟩
        rw [List.eq_nil_of_length_eq_zero h0.symm] at hm
        cases hm
      have group : ∀ v, ((s.dropClaim line).modGroup t
          (fun g => { g with claimsHeld := g.claimsHeld - 1 })).group v =
          if v = t then { s.group t with claimsHeld := (s.group t).claimsHeld - 1 } else s.group v := fun v =>
        group_setGroup _ t v _
      refine h.regrouped t { s.group t with claimsHeld := (s.group t).claimsHeld - 1 } group (.inr ⟨held, held, rfl⟩)
        (fun hh => ?_) (fun v => ?_) ?_ (fun v => ?_) h.waits_once h.idle_alone rfl rfl h.spans_stored rfl
      · have := h.halted_bare t hh
        simp [this]
      · rw [group]
        refine Eq.trans ?_ (counted v).symm
        split
        · subst_vars; rfl
        · rfl
      · exact h.lines_once.sublist (List.filter_sublist.map _)
      · refine Iff.trans ?_ (h.unwinding_waits v)
        rw [State.groupState, group]
        split
        · subst_vars; rfl
        · rfl
    · exact h
  · exact h

/-- The group of a tag becomes `g`, and no claim changes. -/
theorem State.GroupsSound.setGroup {s t : State} (h : s.GroupsSound) (u : Tag) (g : Group)
    (hg : t.groups = s.groups.set u g) (hc : t.claims = s.claims)
    (hfree : g = Group.cleared ∨ s.groupState u ≠ .free ∧ g.state ≠ .free ∧ g.sequence = (s.group u).sequence)
    (hheld : g.claimsHeld = (s.group u).claimsHeld) (hhalt : g.state = .halted → g.claimsHeld = 0)
    (hwait : ∀ v, (if v = u then g.state else s.groupState v) = .unwinding ↔
      v ∈ t.engine.waiting ∨ t.engine.current = some v)
    (honce : (t.engine.current.toList ++ t.engine.waiting).Nodup)
    (hidle : t.engine.state = .idle → t.engine.current = none) (hq : t.seqCounter = s.seqCounter)
    (hk : t.controller = s.controller) (hp : t.partitions = s.partitions) (hs : t.scanner = s.scanner) :
    t.GroupsSound := by
  have group : ∀ v, t.group v = if v = u then g else s.group v := fun v => by
    have := group_setGroup s u v g
    rw [← this]
    unfold State.group State.setGroup
    rw [hg]
  refine h.regrouped u g group hfree hhalt (fun v => ?_) (hc ▸ h.lines_once) (fun v => ?_) honce hidle hq hk (fun p => ?_) hs
  · have hv := h.claims_counted v
    unfold State.claimsOf
    rw [group, hc, ← hv]
    split
    · subst_vars; exact hheld
    · rfl
  · rw [← hwait v, State.groupState, group]
    split <;> rfl
  · rw [show t.part p = s.part p by unfold State.part; rw [hp]]
    exact h.spans_stored p

theorem frees_groupsSound {s : State} (h : s.GroupsSound) (t : Tag)
    (h0 : (s.group t).claimsHeld = 0 ∨ s.groupState t = .halted) (hu : s.groupState t ≠ .unwinding) :
    (s.freeGroup t).GroupsSound := by
  have bare : (s.group t).claimsHeld = 0 := h0.elim id (h.halted_bare t)
  refine h.setGroup t Group.cleared rfl rfl (.inl rfl) bare.symm nofun (fun v => ?_) h.waits_once h.idle_alone rfl rfl
    rfl rfl
  rw [show (s.freeGroup t).engine = s.engine from rfl, ← h.unwinding_waits v]
  split
  · subst_vars
    exact iff_of_false nofun hu
  · exact Iff.rfl

/-- A group that is not in UNWINDING leaves for it and joins the waiting order. -/
theorem State.GroupsSound.joins {s t : State} (h : s.GroupsSound) (u : Tag) (g : Group)
    (hf : s.groupState u ≠ .free) (hu : s.groupState u ≠ .unwinding)
    (hg : t.groups = s.groups.set u g) (hc : t.claims = s.claims) (hw : g.state = .unwinding)
    (hseq : g.sequence = (s.group u).sequence) (hheld : g.claimsHeld = (s.group u).claimsHeld)
    (hj : t.engine.waiting.Perm (u :: s.engine.waiting)) (hcur : t.engine.current = s.engine.current)
    (hst : t.engine.state = s.engine.state) (hq : t.seqCounter = s.seqCounter)
    (hk : t.controller = s.controller) (hp : t.partitions = s.partitions) (hs : t.scanner = s.scanner) :
    t.GroupsSound := by
  have away : ¬ (u ∈ s.engine.waiting ∨ s.engine.current = some u) := fun hx => hu ((h.unwinding_waits u).mpr hx)
  refine h.setGroup u g hg hc (.inr ⟨hf, by rw [hw]; nofun, hseq⟩) hheld (by rw [hw]; nofun) (fun v => ?_) ?_
    (by rw [hst, hcur]; exact h.idle_alone) hq hk hp hs
  · rw [hj.mem_iff, List.mem_cons, hcur]
    split
    · rename_i hv
      exact iff_of_true hw (.inl (.inl hv))
    · rename_i hv
      rw [h.unwinding_waits v]
      simp [hv]
  · rw [hcur]
    refine ((hj.append_left _).nodup_iff).mpr ?_
    refine (List.perm_middle.nodup_iff).mpr (List.nodup_cons.mpr ⟨fun hx => away ?_, h.waits_once⟩)
    rw [List.mem_append, Option.mem_toList] at hx
    exact hx.symm

theorem unwinds_groupsSound {s : State} (h : s.GroupsSound) (t : Tag) (o : UnwindOrigin) (c : Option RevokeCause)
    (hr : (s.groupState t).runs) : ((s.modGroup t (Group.unwound o c)).joinWaiting t).GroupsSound := by
  have used : s.groupState t ≠ .free ∧ s.groupState t ≠ .unwinding := by
    rcases hr with h | h | h <;> rw [h] <;> exact ⟨nofun, nofun⟩
  exact h.joins t (Group.unwound o c (s.group t)) used.1 used.2 rfl rfl rfl rfl rfl
    (joinWaiting_perm (s.modGroup t (Group.unwound o c)) t) rfl rfl rfl rfl rfl rfl

theorem retries_groupsSound {s : State} (h : s.GroupsSound) (t : Tag) (hb : s.groupState t = .broken) :
    (s.retryGroup t).GroupsSound :=
  h.joins t { s.group t with state := .unwinding } (by rw [hb]; nofun) (by rw [hb]; nofun) rfl rfl rfl rfl rfl
    (joinWaiting_perm (s.modGroup t (fun g => { g with state := .unwinding })) t) rfl rfl rfl rfl rfl rfl

/-- The engine's group leaves UNWINDING and the engine is IDLE. -/
theorem State.GroupsSound.ends {s : State} (h : s.GroupsSound) (u : Tag) (g : Group) (hc : s.engine.current = some u)
    (hg : g.state ≠ .unwinding) (hfree : g = Group.cleared ∨ g.state ≠ .free ∧ g.sequence = (s.group u).sequence)
    (hheld : g.claimsHeld = (s.group u).claimsHeld) (hhalt : g.state = .halted → g.claimsHeld = 0) :
    ((s.setGroup u g).modEngine Engine.ended).GroupsSound := by
  have unwinding : s.groupState u = .unwinding := (h.unwinding_waits u).mpr (.inr hc)
  have once := h.waits_once
  rw [hc, Option.toList_some, List.singleton_append, List.nodup_cons] at once
  refine h.setGroup u g rfl rfl ?_ hheld hhalt (fun v => ?_) once.2 (fun _ => rfl) rfl rfl rfl rfl
  · exact hfree.imp id fun hx => ⟨by rw [unwinding]; nofun, hx⟩
  · change _ ↔ v ∈ s.engine.waiting ∨ none = some v
    split
    · subst_vars
      exact iff_of_false hg (by simpa using once.1)
    · rename_i hv
      rw [h.unwinding_waits v, hc]
      simp [Ne.symm hv]

theorem restores_groupsSound {s : State} (h : s.GroupsSound) (t : Tag) (g : Group) (hc : s.engine.current = some t)
    (hg : g = Group.cleared ∨ g = { s.group t with state := .halted }) (h0 : (s.group t).claimsHeld = 0) :
    ((s.setGroup t g).modEngine Engine.ended).GroupsSound := by
  rcases hg with rfl | rfl
  · exact h.ends t _ hc nofun (.inl rfl) h0.symm nofun
  · exact h.ends t _ hc nofun (.inr ⟨nofun, rfl⟩) rfl fun _ => h0

theorem breaks_groupsSound {s : State} (h : s.GroupsSound) (t : Tag) (hc : s.engine.current = some t) :
    ((s.modGroup t (fun g => { g with state := .broken })).modEngine Engine.ended).GroupsSound :=
  h.ends t { s.group t with state := .broken } hc nofun (.inr ⟨nofun, rfl⟩) rfl nofun

/-! ### A new claim -/

theorem placePad_spans (x : Partition) (size : Nat) (h : x.spans.length ≤ 64) : (x.placePad size).spans.length ≤ 64 :=
  addSpan_length _ _ h

theorem allocateUndo_spans (x : Partition) (size : Nat) (i : RecordInfo) (h : x.spans.length ≤ 64) :
    (x.allocateUndo size i).spans.length ≤ 64 := by
  refine extendSpans_length _ _ _ ?_
  unfold Partition.readyForUndo
  split
  · exact placePad_spans x size h
  · exact h

/-- A claim of a group has joined the table, and the group counts it. -/
theorem claims_counted_append {s : State} (h : s.GroupsSound) (t : Tag) (c : Claim) (hc : c.tag = t) (v : Tag) :
    ((s.claims ++ [c]).filter (fun x => x.tag == v)).length = (s.group v).claimsHeld + if v = t then 1 else 0 := by
  rw [List.filter_append, List.length_append, h.claims_counted v]
  congr 1
  by_cases hv : v = t
  · simp [hv, hc]
  · rw [if_neg hv, List.filter_cons_of_neg (by rw [hc]; simpa using Ne.symm hv)]
    rfl

theorem lines_once_append {s : State} (h : s.GroupsSound) (c : Claim) (hc : s.claimOf c.line = none) :
    ((s.claims ++ [c]).map (·.line)).Nodup := by
  rw [List.map_append, List.nodup_append]
  refine ⟨h.lines_once, by simp, fun a ha b hb hab => ?_⟩
  simp only [List.map_cons, List.map_nil, List.mem_singleton] at hb
  exact line_unclaimed hc (hb ▸ hab ▸ ha)

/-- The group opens: its sequence is the counter's value, and the counter goes on to one that nothing carries. -/
theorem State.GroupsSound.opens {s t : State} (h : s.GroupsSound) (u : Tag) (g : Group) (c : Claim)
    (hf : s.groupState u = .free) (hc : s.claimOf c.line = none) (hu : c.tag = u)
    (ho : s.controller = .active ∨ s.controller = .quiescing)
    (hg : t.groups = s.groups.set u g) (hs : g.state = .opened) (hq : g.sequence = some s.seqCounter)
    (hh : g.claimsHeld = 1) (hcl : t.claims = s.claims ++ [c]) (he : t.engine = s.engine)
    (hk : t.controller = s.controller) (hsc : t.scanner = s.scanner)
    (hp : ∀ p, (t.part p).spans.length ≤ 64) (h0 : t.seqCounter ≠ 0)
    (hn : ∀ w, t.groupState w ≠ .free → (t.group w).sequence ≠ some t.seqCounter) : t.GroupsSound := by
  have group : ∀ w, t.group w = if w = u then g else s.group w := fun w => by
    rw [← group_setGroup s u w g]
    unfold State.group State.setGroup
    rw [hg]
  have other : ∀ w, w ≠ u → t.group w = s.group w := fun w hw => (group w).trans (if_neg hw)
  have this : t.group u = g := (group u).trans (if_pos rfl)
  have old : ∀ w, w ≠ u → t.groupState w ≠ .free → ∃ v, (t.group w).sequence = some v ∧ v ≠ 0 ∧ v ≠ s.seqCounter :=
    fun w hw hx => by
      rw [other w hw]
      exact h.sequence_given w (by rwa [State.groupState, other w hw] at hx)
  refine
    { claims_counted := fun w => ?_
      lines_once := hcl ▸ lines_once_append h c hc
      sequences_differ := fun w x hwx hw hx => ?_
      sequence_given := fun w hw => ?_
      counter_given := h0
      unwinding_waits := fun w => ?_
      waits_once := he ▸ h.waits_once
      idle_alone := he ▸ h.idle_alone
      free_cleared := fun w hw => ?_
      halted_bare := fun w hw => ?_
      quiet_free := fun hx => absurd hx (by rw [hk]; rcases ho with h | h <;> rw [h] <;> simp)
      spans_stored := hp
      scanner_idle := by rw [State.scannerIdle, hk, hsc]; exact h.scanner_idle }
  · rw [hcl, claims_counted_append h u c hu w, group]
    split
    · subst_vars
      rw [hh, h.free_cleared _ hf]
      rfl
    · rfl
  · by_cases hwu : w = u
    · subst hwu
      obtain ⟨y, hy, -, hne⟩ := old x (Ne.symm hwx) hx
      rw [this, hq, hy]
      exact fun he => hne (Option.some.inj he).symm
    · by_cases hxu : x = u
      · subst hxu
        obtain ⟨y, hy, -, hne⟩ := old w hwx hw
        rw [this, hq, hy]
        exact fun he => hne (Option.some.inj he)
      · rw [other w hwu, other x hxu]
        rw [State.groupState, other w hwu] at hw
        rw [State.groupState, other x hxu] at hx
        exact h.sequences_differ w x hwx hw hx
  · by_cases hwu : w = u
    · subst hwu
      refine ⟨s.seqCounter, by rw [this, hq], h.counter_given, fun he => hn w hw ?_⟩
      rw [this, hq, he]
    · obtain ⟨y, hy, hy0, -⟩ := old w hwu hw
      exact ⟨y, hy, hy0, fun he => hn w hw (he ▸ hy)⟩
  · rw [he, ← h.unwinding_waits w, State.groupState, group]
    split
    · subst_vars
      exact iff_of_false (by rw [hs]; nofun) (by rw [hf]; nofun)
    · rfl
  · rw [State.groupState, group] at hw
    rw [group]
    split_ifs at hw ⊢
    · rw [hs] at hw; cases hw
    · exact h.free_cleared w hw
  · rw [State.groupState, group] at hw
    rw [group]
    split_ifs at hw ⊢
    · rw [hs] at hw; cases hw
    · exact h.halted_bare w hw

theorem claims_groupsSound {s : State} (h : s.GroupsSound) (t : Tag) (line : Addr) (hc : s.claimOf line = none)
    (hg : s.groupState t = .free ∨ s.groupState t = .opened)
    (ho : s.controller = .active ∨ s.controller = .quiescing) : (s.takeClaim t line).GroupsSound := by
  unfold State.takeClaim
  dsimp only
  generalize hx : (s.modPart (s.claimPartition t) _).setGroup t (s.grownGroup t) = x
  generalize hcl : (⟨line, t, false, _, _⟩ : Claim) = c
  have hline : c.line = line := by rw [← hcl]
  have htag : c.tag = t := by rw [← hcl]
  have spans : ∀ p, ((x.insertClaim c).part p).spans.length ≤ 64 := by
    rw [← hx]
    refine setPart_spans h.spans_stored _ _ ?_
    split <;> exact allocateUndo_spans _ _ _ (h.spans_stored _)
  by_cases hf : s.groupState t = .free
  · -- the group opens, and the counter advances
    have hnew : s.grownGroup t = { Group.cleared with
        state := .opened, sequence := some s.seqCounter, partition := some s.tagMap[t]
        claimsHeld := 1, undoCount := some 1 } := if_pos hf
    have hgroups : (x.insertClaim c).groups = s.groups.set t (s.grownGroup t) := by rw [← hx]; rfl
    obtain ⟨h0, hn⟩ := advanceSequence_uncarried (x.insertClaim c) spans (by rw [← hx]; exact h.counter_given)
    rw [if_pos (decide_eq_true hf)]
    have away : ∀ w, (x.insertClaim c).advanceSequence.groupState w ≠ .free →
        ((x.insertClaim c).advanceSequence.group w).sequence ≠ some (x.insertClaim c).advanceSequence.seqCounter :=
      fun w hw => sequence_of_uncarried hn w hw
    exact h.opens t (s.grownGroup t) c hf (hline ▸ hc) htag ho hgroups (by rw [hnew]) (by rw [hnew]) (by rw [hnew])
      (by rw [← hx]; rfl) (by rw [← hx]; rfl) (by rw [← hx]; rfl) (by rw [← hx]; rfl) spans h0 away
  · rw [if_neg (by simpa using hf)]
    have hold : s.grownGroup t = { s.group t with
        claimsHeld := (s.group t).claimsHeld + 1, undoCount := some ((s.group t).undoCount.getD 0 + 1) } := if_neg hf
    have group : ∀ v, (x.insertClaim c).group v = if v = t then s.grownGroup t else s.group v := fun v => by
      rw [← hx]
      exact group_setGroup _ t v _
    refine h.regrouped t (s.grownGroup t) group (.inr ⟨hf, by rw [hold]; exact hf, by rw [hold]⟩) (fun hh => ?_)
      (fun v => ?_) ?_ (fun v => ?_) (by rw [← hx]; exact h.waits_once) (by rw [← hx]; exact h.idle_alone)
      (by rw [← hx]; rfl) (by rw [← hx]; rfl) spans (by rw [← hx]; rfl)
    · rw [hold] at hh
      exact absurd (hg.resolve_left hf) (by rw [show s.groupState t = .halted from hh]; nofun)
    · have counted : ((x.insertClaim c).claimsOf v).length = (s.group v).claimsHeld + if v = t then 1 else 0 := by
        rw [← hx]
        exact claims_counted_append h t c htag v
      rw [group, counted]
      split
      · subst_vars; rw [hold]
      · rfl
    · rw [← hx]; exact lines_once_append h c (hline ▸ hc)
    · rw [State.groupState, group, ← hx]
      refine Iff.trans ?_ (h.unwinding_waits v)
      split
      · subst_vars; rw [hold]; rfl
      · rfl

/-! ### The controller, the scanner and the resets -/

theorem quietTest_groupsSound {s : State} (h : s.GroupsSound) : s.quietTest.GroupsSound := by
  unfold State.quietTest
  split
  · rename_i hq
    simp only [State.quietHolds, Bool.and_eq_true, decide_eq_true_eq, List.all_eq_true] at hq
    have hf : ∀ u, s.groupState u = .free := fun u => hq.2.1 _ (by simp [State.group])
    exact h.of_free hf rfl (.inl rfl) rfl h.counter_given h.spans_stored fun _ => h.scanner_idle (by rw [hq.1]; nofun)
  · exact h

theorem takeFirst_groupsSound {s : State} (h : s.GroupsSound) (hc : s.controller = .recovering) (f : PartId → Bool) :
    (s.takeFirst f).GroupsSound := by
  have hf := h.quiet_free (.inr (.inl hc))
  unfold State.takeFirst
  split
  · rename_i p _
    refine h.of_free hf rfl (.inl rfl) rfl h.counter_given ?_ fun hn => absurd hc hn
    exact setPart_spans h.spans_stored p _ (h.spans_stored p)
  · exact h.of_free hf rfl (.inr rfl) rfl (by decide : (1 : Word) ≠ 0) h.spans_stored fun _ => rfl

theorem cleared_groupsSound {s : State} (hg : s.groups = Vector.replicate 15 .cleared) (hc : s.claims = [])
    (hp : s.partitions = Vector.replicate 4 .cleared) (he : s.engine = .cleared) (hq : s.seqCounter = 1)
    (hs : s.scanner = .cleared) : s.GroupsSound := by
  have group : ∀ u, s.group u = Group.cleared := fun u => by unfold State.group; rw [hg]; simp
  have free : ∀ u, s.groupState u = .free := fun u => congrArg Group.state (group u)
  exact
    { claims_counted := fun u => by rw [group, hc]; rfl
      lines_once := by rw [hc]; exact List.nodup_nil
      sequences_differ := fun u _ _ hu => absurd (free u) hu
      sequence_given := fun u hu => absurd (free u) hu
      counter_given := by rw [hq]; decide
      unwinding_waits := fun u => by rw [free, he]; simp [Engine.cleared]
      waits_once := by rw [he]; exact List.nodup_nil
      idle_alone := fun _ => by rw [he]; rfl
      free_cleared := fun u _ => group u
      halted_bare := fun u _ => by rw [group]; rfl
      quiet_free := fun _ u => free u
      spans_stored := fun p => by unfold State.part; rw [hp]; simp [Partition.cleared]
      scanner_idle := fun _ => hs }

/-- Outside RECOVERING the scanner has no partition. -/
theorem recovering_of_current {s : State} (h : s.scannerIdle) {p : PartId} (hc : s.scanner.current = some p) :
    s.controller = .recovering := by
  by_contra hn
  rw [h hn] at hc
  cases hc

theorem partitionsOff_spans (s : State) (p : PartId) : (s.partitionsOff.part p).spans.length ≤ 64 := by
  simp [State.part, State.partitionsOff, Partition.cleared]

theorem move_groupsSound {s t : State} (hm : s.Move t) (h : s.GroupsSound) : t.GroupsSound := by
  cases hm
  case outputs ht =>
    exact h.congr (congrArg Tables.groups ht) (congrArg Tables.seqCounter ht) (congrArg Tables.claims ht)
      (congrArg Tables.engine ht) (congrArg Tables.controller ht) (congrArg Tables.partitions ht)
      (congrArg Tables.scanner ht)
  case configures ht _ =>
    exact h.congr (congrArg Tables.groups ht) (congrArg Tables.seqCounter ht) (congrArg Tables.claims ht)
      (congrArg Tables.engine ht) (congrArg Tables.controller ht) (congrArg Tables.partitions ht)
      (congrArg Tables.scanner ht)
  case logs i =>
    obtain ⟨a, d, f, he⟩ := log_only i s
    rw [he]
    exact h.congr rfl rfl rfl rfl rfl rfl rfl
  case touches g hg =>
    exact h.touched hg rfl (fun _ => rfl) rfl rfl rfl h.spans_stored rfl
  case logsClaims f hl ht =>
    refine h.touched (fun _ => agrees_refl _) rfl (claimsOf_length_of_map s _ f ht rfl) ?_ rfl rfl h.spans_stored rfl
    change (s.claims.map f).map _ = _
    rw [List.map_map, show ((fun c : Claim => c.line) ∘ f) = (·.line) from funext hl]
  case claims u line hc _ hg ho => exact claims_groupsSound h u line hc hg ho
  case releases u => exact releases_groupsSound h u
  case removes u line => exact removes_groupsSound h u line
  case frees u h0 hu => exact frees_groupsSound h u h0 hu
  case unwinds u o c hr => exact unwinds_groupsSound h u o c hr
  case retries u hb => exact retries_groupsSound h u hb
  case rings p x hx => exact rings_groupsSound h p x hx
  case takes u rest hi hw => exact takes_groupsSound h u rest hi hw
  case steers e he => exact steers_groupsSound h e he
  case restores u g hc hg h0 => exact restores_groupsSound h u g hc hg h0
  case breaks u hc => exact breaks_groupsSound h u hc
  case quiets => exact quietTest_groupsSound h
  case scans p sc hc =>
    have hr := recovering_of_current h.scanner_idle hc
    exact h.of_free (h.quiet_free (.inr (.inl hr))) rfl (.inl rfl) rfl h.counter_given h.spans_stored
      fun hn => absurd hr hn
  case fails p hc =>
    have hr := recovering_of_current h.scanner_idle hc
    exact h.of_free (h.quiet_free (.inr (.inl hr))) rfl (.inl rfl) rfl h.counter_given (partitionsOff_spans s)
      fun _ => rfl
  case readies p e g x hc =>
    have hr := recovering_of_current h.scanner_idle hc
    refine takeFirst_groupsSound (s := (s.setPart p (readyPartition e g x)).clearScanner) ?_ hr _
    exact h.of_free (h.quiet_free (.inr (.inl hr))) rfl (.inl rfl) rfl h.counter_given
      (setPart_spans h.spans_stored p (readyPartition e g x) (Nat.zero_le _)) fun _ => rfl
  case starts hc =>
    refine takeFirst_groupsSound (s := s.enter .recovering) ?_ rfl _
    exact h.of_free (h.quiet_free (.inl hc)) rfl (.inl rfl) rfl h.counter_given h.spans_stored fun hn => absurd rfl hn
  case quiesces hc =>
    have idle : s.scanner = .cleared := h.scanner_idle (by rw [hc]; nofun)
    exact { h with quiet_free := (by rintro (h | h | h) <;> cases h), scanner_idle := fun _ => idle }
  case resumes hc =>
    have idle : s.scanner = .cleared := h.scanner_idle (by rcases hc with h | h <;> rw [h] <;> nofun)
    exact { h with quiet_free := (by rintro (h | h | h) <;> cases h), scanner_idle := fun _ => idle }
  case stops hc =>
    exact h.of_free (h.quiet_free (.inr (.inr hc))) rfl (.inl rfl) rfl (by decide : (1 : Word) ≠ 0) (partitionsOff_spans s)
      fun _ => h.scanner_idle (by rw [hc]; nofun)
  case shuts hc =>
    exact { h with quiet_free := (by rintro (h | h | h) <;> cases h), scanner_idle := fun _ => h.scanner_idle hc }
  case shutsRecovery hc =>
    exact h.of_free (h.quiet_free (.inr (.inl hc))) rfl (.inl rfl) rfl h.counter_given (partitionsOff_spans s)
      fun _ => rfl
  case clears => exact cleared_groupsSound rfl rfl rfl rfl rfl rfl
  case resets => exact cleared_groupsSound rfl rfl rfl rfl rfl rfl
  case fates | admits | clearsIncidents => exact h.congr rfl rfl rfl rfl rfl rfl rfl

/-- Settles O57, move by move. -/
theorem stepKeepsGroupTable : Obligations.StepKeepsGroupTable := by
  intro s t h
  exact (step_moves h).keeps fun _ _ => move_groupsSound

end Sys2Proof.Machine
end

section
/-! O58, O59, O60: three statements that speak of every state, and so of links that no run reaches. Each is refuted by a
state whose link holds what no frame has left there. -/

namespace Sys2Proof.Machine

/-! ### A step that ends in a state of which a test holds -/

/-- The step of a state is taken, and ends in a state of which `f` holds. -/
def stepMeets (s : State) (f : State → Bool) : Bool :=
  match step s with
  | .next t => f t
  | .fault _ => false
  | .refused _ => false

theorem exists_of_stepMeets {s : State} {f : State → Bool} (h : stepMeets s f = true) :
    ∃ t, step s = .next t ∧ f t = true := by
  unfold stepMeets at h
  split at h
  case h_1 t ht => exact ⟨t, ht, h⟩
  case h_2 => cases h
  case h_3 => cases h

/-! ### A write frame that carries its own verdict -/

/-- A link at the end of a write frame of the byte 1 to address 0x0104, the size of partition 0, decided OK before the
rise of MSEL: the verdict that R180 gives only there. -/
def decidedLink : Link where
  frame := .trailing
  bitCount := 56
  header := [writeKind, 0x01, 0x04, 1, 0]
  decided := some .ok
  snapshot := none
  buffer := [1, 0]
  lastFrame := .ok

/-- The part in ACTIVE, otherwise as after the reset, with such a link; the piece that ends the frame is in the queue. -/
def decidedState : State :=
  { State.reset with
    controller := .active, link := decidedLink, pending := [.writeFrame [] ⟨false, 0, true⟩ false] }

/-- The frame is applied, although it writes a configuration byte outside CONFIG (R179, R180). -/
theorem decidedState_takes_size :
    ∃ t, step decidedState = .next t ∧ t.controller = .active ∧ t.size 0 = 1 ∧ (t.part 0).state = .off := by
  obtain ⟨t, hstep, ht⟩ := exists_of_stepMeets (s := decidedState)
    (f := fun t => decide (t.controller = .active ∧ t.size 0 = 1 ∧ (t.part 0).state = .off)) (by decide +kernel)
  exact ⟨t, hstep, of_decide_eq_true ht⟩

theorem decidedState_groupState (t : Tag) : decidedState.groupState t = .free := by
  revert t; decide

theorem decidedState_part (p : PartId) : decidedState.part p = Partition.cleared := by
  revert p; decide

theorem decidedState_size (p : PartId) : decidedState.size p = 0 := by
  revert p; decide

theorem decidedState_groupsSound : decidedState.GroupsSound :=
  cleared_groupsSound rfl rfl rfl rfl rfl rfl

theorem cleared_not_inUse : ¬ Partition.cleared.inUse := nofun

/-- With every partition in OFF and of size 0, every group FREE and the tables empty, the ring law has nothing to say. -/
theorem cleared_journalSound {s : State} (hpart : ∀ p, s.part p = .cleared) (hsize : ∀ p, s.size p = 0)
    (hfree : ∀ t, s.groupState t = .free) (hrequests : s.requests = []) (hengine : s.engine = .cleared)
    (hscanner : s.scanner = .cleared) : s.JournalSound where
  ring_law p h := by rw [hpart] at h; exact absurd h cleared_not_inUse
  span_law p := by rw [hpart]; decide
  reservations_counted _ p h := by rw [hpart] at h; cases h
  positions p h := by rw [hpart] at h; exact absurd h cleared_not_inUse
  unused_cleared p _ := by rw [hpart]
  groups_placed t h := absurd (hfree t) h
  sealing_completed e he := by rw [hrequests] at he; exact absurd he List.not_mem_nil
  entries_numbered := by rw [State.entriesNumbered, hrequests]; exact .nil
  line_restoring h := by rw [hengine] at h; exact absurd rfl h
  config_off _ p := by rw [hpart]; rfl
  enabled_used _ p h := absurd (hsize p) h
  scanned_before p h := by rw [hscanner] at h; cases h
  scanning_unused p h := by rw [hscanner] at h; cases h
  scan_in_ring p h := by rw [hscanner] at h; cases h

theorem decidedState_journalSound : decidedState.JournalSound :=
  cleared_journalSound decidedState_part decidedState_size decidedState_groupState rfl rfl rfl

/-- Refutes O58: in ACTIVE a link that already holds the verdict OK writes the size of a partition, which is then
enabled and OFF. -/
theorem not_stepKeepsRingLaw : ¬ Obligations.StepKeepsRingLaw := by
  intro h
  obtain ⟨t, hstep, hactive, hsize, hoff⟩ := decidedState_takes_size
  have hsound := h decidedState t hstep decidedState_groupsSound decidedState_journalSound
  have huse := hsound.enabled_used (.inl hactive) 0 (by rw [hsize]; decide)
  rw [Partition.inUse, hoff] at huse
  cases huse <;> contradiction

/-- Refutes O60: in ACTIVE a link that already holds the verdict OK changes the configuration, by a write frame outside
CONFIG. -/
theorem not_controllerLaws : ¬ Obligations.ControllerLaws := by
  intro h
  obtain ⟨t, hstep, -, hsize, -⟩ := decidedState_takes_size
  obtain ⟨hconfig, -⟩ := h decidedState t (fun _ => rfl) (by rintro c ⟨⟩; rfl) hstep
  have hne : t.configuration ≠ decidedState.configuration := by
    intro heq
    have hgeometry : t.geometry = decidedState.geometry := congrArg Configuration.geometry heq
    have hzero : t.size 0 = 0 := by rw [State.size, hgeometry]; rfl
    rw [hzero] at hsize
    contradiction
  obtain ⟨-, hcontroller⟩ | ⟨low, hreset⟩ := hconfig hne
  · cases hcontroller
  · cases hreset

/-! ### A refused frame that holds a snapshot -/

/-- The part with a link that has counted its frame's header as bad and holds a snapshot all the same; the piece that
ends the frame is in the queue. -/
def snapshotState : State :=
  { State.reset with
    link := { Link.cleared with
      frame := .trailing, header := [0, 0, 0, 0, 1], decided := some .headerCheck, snapshot := some [] }
    pending := [.readFrame [] ⟨false, 0, true⟩] }

/-- A header that fails a check leaves the snapshot of TRAILING open. -/
theorem snapshotState_linkSound : snapshotState.linkSound :=
  have hfault : snapshotState.link.headerFault = some .headerCheck := by decide +kernel
  ⟨⟨rfl, hfault.symm, fun h => by rw [hfault] at h; cases h⟩, nofun⟩

/-- The frame ends, and the snapshot stays. -/
theorem snapshotState_keeps_snapshot :
    ∃ t, step snapshotState = .next t ∧ t.link.frame = .idle ∧ t.link.snapshot = some [] := by
  obtain ⟨t, hstep, ht⟩ := exists_of_stepMeets (s := snapshotState)
    (f := fun t => decide (t.link.frame = .idle ∧ t.link.snapshot = some [])) (by decide +kernel)
  exact ⟨t, hstep, of_decide_eq_true ht⟩

/-- Refutes O59: a link in TRAILING may hold a snapshot beside a bad header, and has it still when it is IDLE. -/
theorem not_stepKeepsResetValues : ¬ Obligations.StepKeepsResetValues := by
  intro h
  obtain ⟨t, hstep, hidle, hkept⟩ := snapshotState_keeps_snapshot
  obtain ⟨-, -, hlink⟩ := h snapshotState t hstep
  obtain ⟨hsound, -⟩ := hlink snapshotState_linkSound
  rw [Link.sound, hidle, hkept] at hsound
  obtain ⟨hnone, -⟩ := hsound
  cases hnone

end Sys2Proof.Machine
end

section
/-! One step of the queue, the responses that find no record, the hand-over of requests, and what reset leaves
(O1, O33, O34, O55). -/

namespace Sys2Proof.Machine

/-! ### The queue (O1) -/

theorem step_of_cons (s : State) (c : Instr) (rest : List Instr) (h : s.pending = c :: rest) :
    step s = exec c { s with pending := rest } := by
  unfold step
  rw [h]

theorem step_of_nil (s : State) (h : s.pending = []) : step s = clockPeriod s := by
  unfold step
  rw [h]

theorem clockPeriod_in_reset (s : State) (h : s.resetLine = true) : clockPeriod s = .next s := if_pos h

theorem clockPeriod_counts (s : State) (h : s.resetLine = false) (hc : s.divisionCount + 1 < s.tickDivider.toNat) :
    clockPeriod s = .next { s with divisionCount := s.divisionCount + 1 } := by
  rw [clockPeriod, h, if_neg Bool.false_ne_true, if_pos hc]

theorem clockPeriod_ticks (s : State) (h : s.resetLine = false) (hc : s.tickDivider.toNat ≤ s.divisionCount + 1) :
    clockPeriod s = exec .tick s := by
  rw [clockPeriod, h, if_neg Bool.false_ne_true, if_neg (Nat.not_lt.mpr hc)]

/-- Settles O1. -/
theorem stepTakesFront : Obligations.StepTakesFront := by
  intro s
  refine ⟨step_of_cons s, fun hp => ?_⟩
  rw [step_of_nil s hp]
  exact ⟨clockPeriod_in_reset s, clockPeriod_counts s, clockPeriod_ticks s⟩

/-! ### The array port (O33, O34) -/

theorem takeResponse_of_none (s : State) (n : Word) (a : ArrayResult) (h : s.recordOf n = none) :
    s.takeResponse n a = s := by
  unfold State.takeResponse
  rw [h]

/-- A response without a record leaves nothing but the outputs of the event (R162). -/
theorem takeResponse_discarded (s : State) (n : Word) (a : ArrayResult) (hd : s.direct = true)
    (h : s.recordOf n = none) : s.lineEvent (State.takeResponse n a) = .next s.begin := by
  rw [lineEvent_of_setup s _ hd (takeResponse_setup ..), takeResponse_of_none s.begin n a h]

/-- Settles O33: every row of the port takes a response by its number alone. -/
theorem responseWithoutRecordIsDiscarded : Obligations.ResponseWithoutRecordIsDiscarded := by
  intro s n a hd h c hc
  have hline := takeResponse_discarded s n a hd h
  simp only [List.mem_cons, List.not_mem_nil, or_false] at hc
  obtain rfl | rfl | rfl | rfl | rfl | rfl | rfl | rfl | rfl | rfl | rfl | rfl | rfl | rfl | rfl | rfl := hc <;>
    exact hline

theorem requestHandedOver_direct (s : State) (hd : s.direct = true) :
    exec .requestHandedOver s = .next { s.begin with outstanding := handFirst s.outstanding } :=
  lineEvent_of_setup s State.handOver hd (handOver_setup _)

/-- `n + 1` numbers in a row do not all stand in a list of at most `n`. -/
theorem not_all_used (used : List Word) (n : Nat) (v : Word) (hn : used.length ≤ n) (hw : n < 2 ^ 32) :
    ¬ ∀ i ≤ n, v + BitVec.ofNat 32 i ∈ used := by
  intro h
  have hinj : (List.range (n + 1)).map (fun i => v + BitVec.ofNat 32 i) |>.Nodup := by
    refine List.Nodup.map_on (fun i hi j hj hij => ?_) List.nodup_range
    rw [List.mem_range] at hi hj
    have heq : BitVec.ofNat 32 i = BitVec.ofNat 32 j := by simpa using hij
    have := congrArg BitVec.toNat heq
    rw [BitVec.toNat_ofNat, BitVec.toNat_ofNat, Nat.mod_eq_of_lt (by omega), Nat.mod_eq_of_lt (by omega)] at this
    exact this
  have hsub : (List.range (n + 1)).map (fun i => v + BitVec.ofNat 32 i) ⊆ used := by
    intro w hm
    obtain ⟨i, hi, rfl⟩ := List.mem_map.mp hm
    exact h i (Nat.lt_succ_iff.mp (List.mem_range.mp hi))
  have := (hinj.subperm hsub).length_le
  rw [List.length_map, List.length_range] at this
  omega

/-- The issue counter steps on to a number that no record carries (R161). -/
theorem skipUsed_unused (used : List Word) (v : Word) (h : used.length < 2 ^ 32) :
    skipUsed used used.length v ∉ used :=
  (skipUsed_spec used used.length v).resolve_right (not_all_used used used.length v le_rfl h)

theorem issue_numbers (s : State) (purpose : Purpose) (ref : Ref) (a : Addr) (l : Nat) (d : Bytes) :
    (s.issue purpose ref a l d).outstanding.map (·.number) = s.outstanding.map (·.number) ++ [s.issueCounter] :=
  List.map_append

theorem issue_counter (s : State) (purpose : Purpose) (ref : Ref) (a : Addr) (l : Nat) (d : Bytes) :
    (s.issue purpose ref a l d).issueCounter =
      skipUsed ((s.issue purpose ref a l d).outstanding.map (·.number)) (s.outstanding.length + 1)
        (s.issueCounter + 1) := by
  simp [State.issue]

theorem issue_numbered (s : State) (purpose : Purpose) (ref : Ref) (a : Addr) (l : Nat) (d : Bytes)
    (h : s.numbered) (hl : s.outstanding.length + 2 < 2 ^ 32) : (s.issue purpose ref a l d).numbered := by
  obtain ⟨hnodup, hclear⟩ := h
  refine ⟨?_, ?_⟩
  · rw [issue_numbers, ← List.concat_eq_append]
    exact hnodup.concat hclear
  · rw [issue_numbers, issue_counter, issue_numbers]
    have hlen : (s.outstanding.map (·.number) ++ [s.issueCounter]).length = s.outstanding.length + 1 := by simp
    exact hlen ▸ skipUsed_unused _ _ (by omega)

/-- Settles O34. -/
theorem requestsAreHandedOverInOrder : Obligations.RequestsAreHandedOverInOrder := by
  refine ⟨fun s hd => ⟨fun hall => ?_, fun before r after hs hb hr => ?_⟩,
    fun s purpose ref a l d hn hl => ⟨issue_numbered s purpose ref a l d hn hl, rfl⟩⟩
  · rw [requestHandedOver_direct s hd, handFirst_all _ hall]
    rfl
  · rw [requestHandedOver_direct s hd, hs, handFirst_hands before after r hb hr]
    rfl

/-! ### What reset leaves (O55) -/

theorem reset_group (t : Tag) : State.reset.group t = .cleared := by revert t; decide

theorem reset_part (p : PartId) : State.reset.part p = .cleared := by revert p; decide

theorem reset_size (p : PartId) : State.reset.size p = 0 := by revert p; decide

/-- Settles O55. -/
theorem resetStateMeetsInvariants : Obligations.ResetStateMeetsInvariants := by
  refine ⟨rfl, rfl, rfl, rfl, rfl, rfl, rfl, rfl, rfl, rfl, rfl, rfl, rfl, by decide,
    fun p => ⟨by revert p; decide, by rw [reset_part]; rfl⟩,
    fun t => ⟨by revert t; decide, congrArg Group.state (reset_group t)⟩, by decide, ⟨by decide, by decide⟩,
    reset_configInRange, .nil, ⟨by decide, .nil⟩, fun _ => rfl, nofun, ⟨⟨rfl, rfl⟩, nofun⟩, ⟨.nil, nofun⟩,
    cleared_groupsSound rfl rfl rfl rfl rfl rfl,
    cleared_journalSound reset_part reset_size (fun t => congrArg Group.state (reset_group t)) rfl rfl rfl⟩

end Sys2Proof.Machine
end

section
/-! Intake: the early refusals, the held request, and an unjournaled write (O2, O3, O5). -/

namespace Sys2Proof.Machine

/-! ### Checks 1 to 3 (O2) -/

theorem intake_of_earlyRefusal (s : State) (r : HostRequest) (st : Status) (h : s.earlyRefusal r = some st) :
    s.intake r = s.refuse r st := by
  unfold State.intake
  rw [h]

theorem hostRequest_of_earlyRefusal (s : State) (r : HostRequest) (st : Status) (hd : s.direct = true)
    (hw : r.wellFormed = true) (h : s.earlyRefusal r = some st) : exec (.hostRequest r) s = s.refusing r st :=
  hostRequest_of_refuse s r st hd hw (intake_of_earlyRefusal s.begin r st h)

theorem earlyRefusal_of_bad_intent (s : State) (r : HostRequest) (h : intentOk r = false) :
    s.earlyRefusal r = some .intent := by
  simp [State.earlyRefusal, h]

theorem earlyRefusal_of_bad_span (s : State) (r : HostRequest) (hi : intentOk r = true) (hs : spanOk r = false) :
    s.earlyRefusal r = some .span := by
  simp [State.earlyRefusal, hi, hs]

theorem earlyRefusal_of_ok (s : State) (r : HostRequest) (hi : intentOk r = true) (hs : spanOk r = true) :
    s.earlyRefusal r = s.stateRefusal r := by
  simp [State.earlyRefusal, hi, hs]

theorem stateRefusal_of_shutdown (s : State) (r : HostRequest) (h : s.controller = .shutdown) :
    s.stateRefusal r = some .powerDown := by
  simp [State.stateRefusal, h]

theorem stateRefusal_of_not_ready (s : State) (r : HostRequest)
    (h : s.controller = .config ∨ s.controller = .recovering)
    (hc : s.protectedLine (lineOf r.address) = true ∨ intentOf r.intent ≠ some .plain) :
    s.stateRefusal r = some .notReady := by
  have hclosed : (s.protectedLine (lineOf r.address) || decide (intentOf r.intent ≠ some .plain)) = true := by
    simpa using hc
  rcases h with h | h <;> simp only [State.stateRefusal, h, if_pos hclosed]

theorem stateRefusal_of_quiet (s : State) (r : HostRequest) (h : s.controller = .quiet)
    (hc : (r.kind = .write ∧ s.protectedLine (lineOf r.address) = true) ∨ intentOf r.intent ≠ some .plain) :
    s.stateRefusal r = some .quiescing := by
  have hclosed : ((decide (r.kind = .write) && s.protectedLine (lineOf r.address)) ||
      decide (intentOf r.intent ≠ some .plain)) = true := by
    simpa using hc
  simp only [State.stateRefusal, h, if_pos hclosed]

/-- Settles O2. -/
theorem intakeChecksOneToThree : Obligations.IntakeChecksOneToThree := by
  intro s r hd hw
  have refused : ∀ st, s.earlyRefusal r = some st → _ := fun st => hostRequest_of_earlyRefusal s r st hd hw
  refine ⟨fun hi => refused _ (earlyRefusal_of_bad_intent s r hi),
    fun hi hs => refused _ (earlyRefusal_of_bad_span s r hi hs), fun hi hs hc => refused _ ?_,
    fun hi hs hc hl => refused _ ?_, fun hi hs hc hl => refused _ ?_⟩
  · rw [earlyRefusal_of_ok s r hi hs, stateRefusal_of_shutdown s r hc]
  · rw [earlyRefusal_of_ok s r hi hs, stateRefusal_of_not_ready s r hc hl]
  · rw [earlyRefusal_of_ok s r hi hs, stateRefusal_of_quiet s r hc hl]

/-! ### The held request (O3) -/

theorem intake_of_full (s : State) (r : HostRequest) (he : s.earlyRefusal r = none) (hf : s.freeEntry = none) :
    s.intake r = { s with held := some r } := by
  unfold State.intake
  rw [he, hf]

theorem intake_of_free (s : State) (r : HostRequest) (i : EntryId) (he : s.earlyRefusal r = none)
    (hf : s.freeEntry = some i) : s.intake r = s.takeIntent i r := by
  unfold State.intake
  rw [he, hf]

theorem endEvent_of_full (s : State) (c : CtrlState) (hf : s.freeEntry = none) (hc : s.controller = c) :
    s.endEvent c = s := by
  simp [State.endEvent, hf, hc]

/-- A request that intake takes is not taken again at the end of the same event: it is held only with the table full
and the controller state as it was (R81). -/
theorem intake_endEvent (s : State) (r : HostRequest) (h : s.held = none) :
    (s.intake r).endEvent s.controller = s.intake r := by
  cases he : s.earlyRefusal r with
  | some st => exact endEvent_of_none _ _ (by rw [intake_of_earlyRefusal s r st he]; exact h)
  | none =>
    cases hf : s.freeEntry with
    | none => rw [intake_of_full s r he hf]; exact endEvent_of_full _ _ hf rfl
    | some i =>
      rw [intake_of_free s r i he hf]
      exact endEvent_of_none _ _ ((held_of_setup (takeIntent_setup s i r)).trans h)

/-- A well-formed request at a part that holds none is taken by intake, which is all the event (R80, R81). -/
theorem hostRequest_of_held_none (s : State) (r : HostRequest) (hr : s.resetLine = false) (h : s.held = none)
    (hw : r.wellFormed = true) : exec (.hostRequest r) s = .next (s.begin.intake r) := by
  rw [hostRequest_of_direct s r ((direct_iff s).2 ⟨hr, h⟩) hw]
  exact congrArg _ (intake_endEvent s.begin r h)

theorem lineEvent_of_line (s : State) (f : State → State) (hr : s.resetLine = false) : s.lineEvent f = s.event f := by
  rw [State.lineEvent, hr, if_neg Bool.false_ne_true]

theorem hostRequest_of_held_some (s : State) (r h : HostRequest) (hr : s.resetLine = false) (hh : s.held = some h)
    (hf : s.freeEntry = none) (hw : r.wellFormed = true) : exec (.hostRequest r) s = .next s.begin := by
  have hheld : s.begin.held.isSome = true := Option.isSome_iff_exists.mpr ⟨h, hh⟩
  show execHostRequest r s = _
  rw [execHostRequest, if_pos hw, lineEvent_of_line s _ hr, State.event, if_pos hheld]
  exact congrArg _ (endEvent_of_full s.begin _ hf rfl)

/-- The retake of the held request is its arrival at the part that does not hold it (R81). -/
theorem heldRequestRetaken_eq (s : State) (r : HostRequest) (hr : s.resetLine = false) (hh : s.held = some r) :
    exec .heldRequestRetaken s = .next (State.intake r (s.begin.holding none)) := by
  have hretake : s.begin.retakeHeld = State.intake r (s.begin.holding none) := by
    unfold State.retakeHeld
    rw [show s.begin.held = some r from hh]
    rfl
  show execHeldRequestRetaken s = _
  rw [execHeldRequestRetaken, lineEvent_of_line s _ hr, State.event, hretake]
  exact congrArg _ (intake_endEvent (s.begin.holding none) r rfl)

/-- The outcome of a command at a part that holds `r` is that of the command without the held request, followed by the
retake where R81 has it. -/
def RetakesAtEnd (c : Instr) (s : State) (r : HostRequest) : Prop :=
  ∃ t, exec c (s.holding none) = .next t ∧ exec c s = .next
    (if t.freeEntry.isSome = true ∨ t.controller ≠ s.controller then t.intake r else t.holding (some r))

theorem retakesAtEnd_of_event (c : Instr) (s : State) (r : HostRequest) (hs : s.held = some r) (f : State → State)
    (he : ∀ h : Option HostRequest, exec c (s.holding h) = State.event f (s.holding h))
    (hf : ∀ (h : Option HostRequest) (s : State), f (s.holding h) = (f s).holding h) : RetakesAtEnd c s r := by
  have hself : s.holding (some r) = s := by cases s; cases hs; rfl
  obtain ⟨t, hnone, hsome⟩ := State.event_held f hf s r hs
  exact ⟨t, (he none).trans hnone, (congrArg (exec c) hself.symm).trans ((he _).trans (hself.symm ▸ hsome))⟩

theorem retakesAtEnd_of_lineEvent (c : Instr) (s : State) (r : HostRequest) (hs : s.held = some r)
    (hr : s.resetLine = false) (f : State → State)
    (he : ∀ h : Option HostRequest, exec c (s.holding h) = State.lineEvent f (s.holding h))
    (hf : ∀ (h : Option HostRequest) (s : State), f (s.holding h) = (f s).holding h) : RetakesAtEnd c s r :=
  retakesAtEnd_of_event c s r hs f (fun h => (he h).trans (lineEvent_of_line (s.holding h) f hr)) hf

theorem retakesAtEnd_of_frame (c : Instr) (s : State) (r : HostRequest) (hs : s.held = some r) (piece : Piece)
    (bytes : Bytes) (pfw : Bool) (he : ∀ h : Option HostRequest, exec c (s.holding h) =
      State.event (State.linkFrame piece bytes pfw) (s.holding h)) : RetakesAtEnd c s r :=
  retakesAtEnd_of_event c s r hs _ he fun h s => State.linkFrame_holding h s piece bytes pfw

theorem retakesAtEnd_of_command (c : Instr) (s : State) (r : HostRequest) (hs : s.held = some r) (code : Byte)
    (pfw : Bool) (he : ∀ h : Option HostRequest, exec c (s.holding h) =
      State.event (State.commandEvent code pfw) (s.holding h)) : RetakesAtEnd c s r :=
  retakesAtEnd_of_event c s r hs _ he fun h s => State.commandEvent_holding h s code pfw

/-- Every row but the two that take a request and the reset line's leaves the held request to its end (R81). -/
theorem exec_retakesAtEnd (c : Instr) (s : State) (r : HostRequest) (hs : s.held = some r) (hr : s.resetLine = false)
    (hq : ∀ r, c ≠ .hostRequest r) (ht : c ≠ .heldRequestRetaken) (ha : ∀ low, c ≠ .resetLineAssert low) :
    RetakesAtEnd c s r := by
  cases c
  case hostRequest => exact absurd rfl (hq _)
  case heldRequestRetaken => exact absurd rfl ht
  case resetLineAssert => exact absurd rfl (ha _)
  case readFrame rest piece => exact retakesAtEnd_of_frame _ s r hs piece _ s.pfwLine fun _ => rfl
  case writeFrame rest piece pfw => exact retakesAtEnd_of_frame _ s r hs piece _ pfw fun _ => rfl
  case badKindFrame bytes piece => exact retakesAtEnd_of_frame _ s r hs piece bytes s.pfwLine fun _ => rfl
  case start => exact retakesAtEnd_of_command _ s r hs 1 s.pfwLine fun _ => rfl
  case format => exact retakesAtEnd_of_command _ s r hs 2 s.pfwLine fun _ => rfl
  case quiesce => exact retakesAtEnd_of_command _ s r hs 3 s.pfwLine fun _ => rfl
  case resume => exact retakesAtEnd_of_command _ s r hs 4 s.pfwLine fun _ => rfl
  case stop => exact retakesAtEnd_of_command _ s r hs 5 s.pfwLine fun _ => rfl
  case forceUnwind => exact retakesAtEnd_of_command _ s r hs 6 s.pfwLine fun _ => rfl
  case retryUnwind => exact retakesAtEnd_of_command _ s r hs 7 s.pfwLine fun _ => rfl
  case clearIncidents => exact retakesAtEnd_of_command _ s r hs 8 s.pfwLine fun _ => rfl
  case softReset pfw => exact retakesAtEnd_of_command _ s r hs 9 pfw fun _ => rfl
  case unknownCommand code => exact retakesAtEnd_of_command _ s r hs code s.pfwLine fun _ => rfl
  case pfwAssert => exact retakesAtEnd_of_event _ s r hs _ (fun _ => rfl) State.powerFail_holding
  case resetLineRelease =>
    exact retakesAtEnd_of_event _ s r hs _ (fun _ => rfl) fun h s => State.releaseReset_holding h _ _ s
  case discardedFrameEnds =>
    exact retakesAtEnd_of_event _ s r hs (fun s => { s with link := s.link.discardEnds }) (fun _ => rfl) fun _ _ => rfl
  case leaveOrdered | drainComplete | slotIssue | unwindTakeGroup | groupSettled | storesCleared =>
    exact retakesAtEnd_of_lineEvent _ s r hs hr _ (fun _ => rfl) fun h s => by simp
  case ageExpiry t =>
    exact retakesAtEnd_of_lineEvent _ s r hs hr _ (fun _ => rfl) fun h s =>
      State.whenever_holding h _ _ (fun s => State.expire_holding h s t) s
  case tick => exact retakesAtEnd_of_lineEvent _ s r hs hr _ (fun _ => rfl) State.tick_holding
  case arrayTimeout n =>
    exact retakesAtEnd_of_lineEvent _ s r hs hr _ (fun _ => rfl) fun h s => State.timeOutNumber_holding h s n
  case quietCondition => exact retakesAtEnd_of_lineEvent _ s r hs hr _ (fun _ => rfl) State.quietTest_holding
  case requestHandedOver => exact retakesAtEnd_of_lineEvent _ s r hs hr _ (fun _ => rfl) State.handOver_holding
  all_goals exact retakesAtEnd_of_lineEvent _ s r hs hr _ (fun _ => rfl) fun h s => State.takeResponse_holding h _ _ s

theorem heldRequestRetaken_in_shutdown (s : State) (r : HostRequest) (hr : s.resetLine = false)
    (hh : s.held = some r) (hc : s.controller = .shutdown) (hi : intentOk r = true) (hs : spanOk r = true) :
    exec .heldRequestRetaken s =
      .next { s with held := none, mdo := [], joined := 0, responses := [⟨r.hostId, .powerDown, []⟩] } := by
  have he : (s.begin.holding none).earlyRefusal r = some .powerDown := by
    rw [earlyRefusal_of_ok _ r hi hs, stateRefusal_of_shutdown (s.begin.holding none) r hc]
  rw [heldRequestRetaken_eq s r hr hh, intake_of_earlyRefusal _ r _ he]
  rfl

theorem resetLineAssert_eq (s : State) (low : Bool) :
    exec (.resetLineAssert low) s = .next (s.begin.assertReset low) :=
  congrArg Host.Outcome.next (endEvent_of_none (s.begin.assertReset low) _ rfl)

/-- Settles O3. -/
theorem fullTableHoldsRequest : Obligations.FullTableHoldsRequest := by
  intro s hr
  refine ⟨fun r hw => ⟨fun hf hh he => ?_, fun h hf hh => hostRequest_of_held_some s r h hr hh hf hw, fun hh =>
      ⟨⟨_, heldRequestRetaken_eq s r hr hh, hostRequest_of_held_none (s.holding none) r hr rfl hw⟩,
        heldRequestRetaken_in_shutdown s r hr hh⟩⟩,
    fun c h hh hq ht ha => exec_retakesAtEnd c s h hh hr hq ht ha,
    fun h hh hw => hostRequest_of_held_none s h hr hh hw, fun low => ⟨_, resetLineAssert_eq s low, rfl, rfl⟩⟩
  rw [hostRequest_of_held_none s r hr hh hw, intake_of_full s.begin r he hf]
  rfl

/-! ### An unjournaled write (O5) -/

theorem writePath_unprotected (s : State) (l : Addr) (tag : Option Tag) (carried : Bool) (hl : s.regionOf l = none) :
    s.writePath l tag carried = .ok (.unjournaled, .ordered) := by
  simp only [State.writePath, hl]

theorem writePath_shared_unclaimed (s : State) (l : Addr) (g : Region) (carried : Bool) (hl : s.regionOf l = some g)
    (hm : g.mode = .shared) (hc : s.claimOf l = none) : s.writePath l none carried = .ok (.unjournaled, .ordered) := by
  simp [State.writePath, hl, hm, hc]

/-- An access that joins no group adds its entry to the table and changes nothing else (R86). -/
theorem admitAccess_plain (s : State) (r : HostRequest) (i : EntryId) (path : Path) (phase : Phase)
    (hj : path.journaled = false) : s.admitAccess i r path phase false = s.addEntry (newEntry i r path phase) := by
  have hn : path ≠ .newClaim := by rintro rfl; cases hj
  unfold State.admitAccess
  cases tagOf r.tag with
  | none => rfl
  | some t => simp [hj, hn]

theorem issueAccess_store (s : State) (e : Entry) (hp : e.path = .unjournaled ∨ e.path = .ownClaim)
    (ho : s.closedTo e.line = false) : s.issueAccess e = s.issueHomeWrite e := by
  rw [State.issueAccess, if_neg (by simp [ho])]
  rcases hp with hp | hp <;> rw [hp]

/-- The only entry of the table, an unjournaled write in ORDERED, leaves it at once (R88, R90). -/
theorem leaveAll_of_only_store (x : State) (r : HostRequest) (i : EntryId)
    (hx : x.requests = [newEntry i r .unjournaled .ordered]) (hn : x.controller ≠ .shutdown)
    (ho : x.closedTo (lineOf r.address) = false) :
    x.leaveAll = State.issue .homeWrite (.entry i) r.address r.length r.data
      { x with requests := [newEntry i r .unjournaled .storing] } := by
  rw [leaveAll_single x _ hx rfl hn, issueAccess_store x (newEntry i r .unjournaled .ordered) (.inl rfl) ho]
  simp only [State.issueHomeWrite, State.modEntry, hx, newEntry, List.map_cons, List.map_nil, if_true]

/-- Settles O5. -/
theorem unjournaledWriteIsAdmittedAndIssued : Obligations.UnjournaledWriteIsAdmittedAndIssued := by
  intro s r i h hi hk hp hl
  have hpath : s.accessPath r false = .ok (.unjournaled, .ordered) := by
    rw [accessPath_write s r false hk]
    obtain hl | ⟨ht, hc, g, hg, hm⟩ := hl
    · exact writePath_unprotected s _ _ false hl
    · rw [ht]; exact writePath_shared_unclaimed s _ g false hg hm hc
  have hexec : exec (.hostRequest r) s = .next (State.settle { s with
      responses := [], mdo := [], joined := 0, requests := s.requests ++ [newEntry i r .unjournaled .ordered] }) := by
    rw [plainRequest_admitted s r i h hi hp .unjournaled .ordered hpath, admitAccess_plain s.begin r i _ _ rfl]
    rfl
  refine ⟨hexec, fun hempty => ?_⟩
  intro t hrest
  obtain ⟨-, -, he, -⟩ := (admits_iff s r).1 h
  rw [hexec, hempty, List.nil_append]
  refine congrArg _ (settle_of_leave _ t (leaveAll_of_only_store _ r i rfl ?_ ?_) hrest)
  · exact earlyRefusal_not_shutdown s r he
  · exact earlyRefusal_open_line s r he

end Sys2Proof.Machine
end

section
/-! Admission of a journaled write: a new claim, a claim of the group's own, and a COMMIT that carries either, or a read
(O7, O8, O9). -/

namespace Sys2Proof.Machine

/-! ### A group written twice -/

theorem setGroup_setGroup (s : State) (t : Tag) (a b : Group) : (s.setGroup t a).setGroup t b = s.setGroup t b := by
  unfold State.setGroup
  rw [Vector.set_set]

theorem setGroup_group_self (s : State) (t : Tag) (g : Group) : (s.setGroup t g).group t = g := by
  rw [group_setGroup, if_pos rfl]

/-! ### What a new claim takes (R4, R5, R35) -/

/-- The group that opens with the sequence counter's value in the tag map's partition (R4). -/
def State.openingGroup (s : State) (t : Tag) : Group :=
  { Group.cleared with
    state := .opened, sequence := some s.seqCounter, partition := some s.tagMap[t], claimsHeld := 1, undoCount := some 1 }

/-- The part once the group of tag `t` has opened with a claim on `line`, but for the sequence counter (R4, R35, R54). -/
def State.opening (s : State) (t : Tag) (line : Addr) : State :=
  let p := s.tagMap[t]
  { s with
    groups := s.groups.set t (s.openingGroup t)
    claims := s.claims ++ [⟨line, t, false, 1, (s.part p).undoSlot (s.size p)⟩]
    partitions := s.partitions.set p
      { s.withUndo p ⟨t, s.seqCounter, 1, some line⟩ with reserved := (s.part p).reserved + 1 } }

theorem allocateUndo_reserved (part : Partition) (size : Nat) (info : RecordInfo) :
    (part.allocateUndo size info).reserved = part.reserved := by
  unfold Partition.allocateUndo Partition.readyForUndo
  split <;> rfl

theorem takeClaim_opening (s : State) (t : Tag) (line : Addr) (hg : s.groupState t = .free) :
    s.takeClaim t line = (s.opening t line).advanceSequence := by
  have hstate : (s.group t).state = .free := hg
  have hgrown : s.grownGroup t = s.openingGroup t := by rw [State.grownGroup, if_pos hstate]; rfl
  have hpart : s.claimPartition t = s.tagMap[t] := if_pos hg
  unfold State.takeClaim State.opening
  simp only [hgrown, hpart, hg, decide_true, if_true, withUndo_eq, State.modPart, State.setPart, allocateUndo_reserved]
  rfl

/-- A claim that an OPEN group takes grows it by one UNDO record (R5). -/
theorem takeClaim_growing (s : State) (t : Tag) (line : Addr) (v : Word) (p : PartId) (n : Nat)
    (hg : s.groupState t = .opened) (hv : (s.group t).sequence = some v) (hp : (s.group t).partition = some p)
    (hn : (s.group t).undoCount = some n) :
    s.takeClaim t line = { s with
      groups := s.groups.set t
        { s.group t with claimsHeld := (s.group t).claimsHeld + 1, undoCount := some (n + 1) }
      claims := s.claims ++ [⟨line, t, false, n + 1, (s.part p).undoSlot (s.size p)⟩]
      partitions := s.partitions.set p (s.withUndo p ⟨t, v, n + 1, some line⟩) } := by
  have hstate : (s.group t).state = .opened := hg
  have hgrown : s.grownGroup t =
      { s.group t with claimsHeld := (s.group t).claimsHeld + 1, undoCount := some (n + 1) } := by
    simp [State.grownGroup, hstate, hn]
  have hpart : s.claimPartition t = p := by simp [State.claimPartition, hg, hp]
  unfold State.takeClaim
  simp only [hgrown, hpart, hg, hv, withUndo_eq]
  rfl

/-! ### The sequence counter goes on (R2) -/

theorem mem_groups_toList (s : State) (g : Group) : g ∈ s.groups.toList ↔ ∃ t, s.group t = g := by
  rw [Vector.mem_toList_iff, Vector.mem_iff_getElem]
  exact ⟨fun ⟨i, hi, h⟩ => ⟨⟨i, hi⟩, h⟩, fun ⟨t, h⟩ => ⟨t, t.isLt, h⟩⟩

theorem mem_partitions_toList (s : State) (x : Partition) : x ∈ s.partitions.toList ↔ ∃ p, s.part p = x := by
  rw [Vector.mem_toList_iff, Vector.mem_iff_getElem]
  exact ⟨fun ⟨i, hi, h⟩ => ⟨⟨i, hi⟩, h⟩, fun ⟨p, h⟩ => ⟨p, p.isLt, h⟩⟩

theorem sequenceCarried_iff (s : State) (v : Word) : s.sequenceCarried v = true ↔
    (∃ u, s.groupState u ≠ .free ∧ (s.group u).sequence = some v) ∨
      ∃ q, ∃ y ∈ (s.part q).spans, y.sequence = some v := by
  simp only [State.sequenceCarried, Bool.or_eq_true, List.any_eq_true, Bool.and_eq_true, decide_eq_true_eq,
    mem_groups_toList, mem_partitions_toList, State.groupState]
  constructor
  · rintro (⟨_, ⟨u, rfl⟩, h⟩ | ⟨_, ⟨q, rfl⟩, h⟩)
    · exact .inl ⟨u, h⟩
    · exact .inr ⟨q, h⟩
  · rintro (⟨u, h⟩ | ⟨q, h⟩)
    · exact .inl ⟨_, ⟨u, rfl⟩, h⟩
    · exact .inr ⟨_, ⟨q, rfl⟩, h⟩

/-- The counter passes carried values only (R2). -/
theorem skipCarried_passes (carried : Word → Bool) : ∀ (fuel : Nat) (v : Word),
    ∃ k, skipCarried carried fuel v = nextSequence^[k] v ∧ ∀ j < k, carried (nextSequence^[j] v) = true
  | 0, v => ⟨0, rfl, fun _ h => absurd h (Nat.not_lt_zero _)⟩
  | fuel + 1, v => by
    unfold skipCarried
    split
    · rename_i hv
      obtain ⟨k, he, hp⟩ := skipCarried_passes carried fuel (nextSequence v)
      refine ⟨k + 1, he, fun j hj => ?_⟩
      cases j with
      | zero => exact hv
      | succ j => exact hp j (Nat.lt_of_succ_lt_succ hj)
    · exact ⟨0, rfl, fun _ h => absurd h (Nat.not_lt_zero _)⟩

theorem advanceSequence_passes (s : State) :
    ∃ k, s.advanceSequence.seqCounter = nextSequence^[k + 1] s.seqCounter ∧
      ∀ j < k, s.sequenceCarried (nextSequence^[j + 1] s.seqCounter) = true :=
  skipCarried_passes s.sequenceCarried Config.sequenceSteps (nextSequence s.seqCounter)

theorem opening_spans (s : State) (t : Tag) (line : Addr) (h : ∀ q, (s.part q).spans.length ≤ 64) (q : PartId) :
    ((s.opening t line).part q).spans.length ≤ 64 := by
  refine setPart_spans h s.tagMap[t] _ ?_ q
  rw [withUndo_eq]
  exact allocateUndo_spans _ _ _ (h _)

/-! ### Admission of a new claim (R87) -/

/-- The entry of a write that joins its group (R86). -/
def joinedEntry (i : EntryId) (r : HostRequest) (path : Path) (phase : Phase) (undo : Option UndoRef) (m : Member) :
    Entry :=
  { newEntry i r path phase with group := some m.tag, undo := undo, member := some m }

/-- The group takes a COMMIT's entry as its commit request (R9, R10). -/
def State.takeCommit (i : EntryId) (t : Tag) (s : State) : State :=
  s.modGroup t (fun g => { g with state := .draining, commitRequest := some i })

theorem admitAccess_newClaim (s : State) (r : HostRequest) (i : EntryId) (t : Tag) (phase : Phase) (carried : Bool)
    (ht : tagOf r.tag = some t) (ho : (s.takeClaim t (lineOf r.address)).groupState t = .opened) :
    s.admitAccess i r .newClaim phase carried =
      let added := (s.takeClaim t (lineOf r.address)).addEntry
        (joinedEntry i r .newClaim phase (some (s.nextUndo t)) ((s.takeClaim t (lineOf r.address)).memberOf t))
      if carried then added.takeCommit i t else added := by
  unfold State.admitAccess
  simp only [ht, if_true, ho, decide_true, Bool.and_true, Path.journaled, Bool.true_or]
  rfl

theorem admitAccess_joins (s : State) (r : HostRequest) (i : EntryId) (t : Tag) (path : Path) (phase : Phase)
    (ht : tagOf r.tag = some t) (hn : path ≠ .newClaim) (ho : s.groupState t = .opened) :
    s.admitAccess i r path phase true =
      (s.addEntry (joinedEntry i r path phase none (s.memberOf t))).takeCommit i t := by
  unfold State.admitAccess
  simp only [ht, if_neg hn, ho, decide_true, Bool.and_true, Bool.or_true, if_true]
  rfl

theorem admitAccess_ownClaim (s : State) (r : HostRequest) (i : EntryId) (t : Tag) (phase : Phase)
    (ht : tagOf r.tag = some t) :
    s.admitAccess i r .ownClaim phase false = s.addEntry (joinedEntry i r .ownClaim phase none (s.memberOf t)) := by
  simp [State.admitAccess, ht, Path.journaled, joinedEntry, State.memberOf]

/-- A COMMIT of a FREE group whose access joins no group (R9). -/
theorem admitAccess_of_free (s : State) (r : HostRequest) (i : EntryId) (t : Tag) (path : Path) (phase : Phase)
    (ht : tagOf r.tag = some t) (hj : path.journaled = false) (hg : s.groupState t = .free) :
    s.admitAccess i r path phase true = s.addEntry (newEntry i r path phase) := by
  have hn : path ≠ .newClaim := by rintro rfl; cases hj
  simp [State.admitAccess, ht, hn, hj, hg]

/-! ### The access path of a journaled write (R84) -/

theorem journaledPath_newClaim (s : State) (l : Addr) (t : Tag) (hc : s.claimOf l = none)
    (hr : s.claimRefusal t = none) : s.journaledPath l t = .ok (.newClaim, .ordered) := by
  simp only [State.journaledPath, hc, hr]

theorem journaledPath_ownClaim (s : State) (l : Addr) (t : Tag) (c : Claim) (hc : s.claimOf l = some c)
    (ht : c.tag = t) : s.journaledPath l t = .ok (.ownClaim, .ordered) := by
  simp only [State.journaledPath, hc, if_pos ht]

theorem accessPath_journaled (s : State) (r : HostRequest) (t : Tag) (carried : Bool) (hk : r.kind = .write)
    (ht : tagOf r.tag = some t) (hl : s.protectedLine (lineOf r.address) = true)
    (hg : s.groupState t = .free ∨ s.groupState t = .opened) :
    s.accessPath r carried = s.journaledPath (lineOf r.address) t := by
  rw [accessPath_write s r carried hk, ht, writePath_journaled s _ t carried hl hg]

/-! ### A group that opens (O7) -/

theorem opening_group (s : State) (t u : Tag) (line : Addr) :
    (s.opening t line).group u = if u = t then s.openingGroup t else s.group u :=
  group_setGroup s t u _

theorem opening_part (s : State) (t : Tag) (line : Addr) (q : PartId) :
    (s.opening t line).part q = if q = s.tagMap[t] then
      { s.withUndo s.tagMap[t] ⟨t, s.seqCounter, 1, some line⟩ with reserved := (s.part s.tagMap[t]).reserved + 1 }
    else s.part q :=
  part_setPart s s.tagMap[t] q _

theorem opening_opened (s : State) (t : Tag) (line : Addr) : (s.opening t line).groupState t = .opened := by
  rw [State.groupState, opening_group, if_pos rfl]
  rfl

theorem nextUndo_of_free (s : State) (t : Tag) (hg : s.groupState t = .free) :
    s.nextUndo t = ⟨s.tagMap[t], (s.part s.tagMap[t]).undoSlot (s.size s.tagMap[t])⟩ := by
  rw [State.nextUndo, State.claimPartition, if_pos hg]

theorem memberOf_opening (s : State) (t : Tag) (line : Addr) :
    (s.opening t line).memberOf t = ⟨t, s.seqCounter, s.tagMap[t]⟩ := by
  rw [State.memberOf, opening_group, if_pos rfl]
  rfl

/-- The entry of the write that opens the group of a tag (R86). -/
def State.openingEntry (s : State) (i : EntryId) (r : HostRequest) (t : Tag) : Entry :=
  joinedEntry i r .newClaim .ordered (some ⟨s.tagMap[t], (s.part s.tagMap[t]).undoSlot (s.size s.tagMap[t])⟩)
    ⟨t, s.seqCounter, s.tagMap[t]⟩

theorem admitAccess_opening (s : State) (r : HostRequest) (i : EntryId) (t : Tag) (carried : Bool)
    (ht : tagOf r.tag = some t) (hg : s.groupState t = .free) :
    s.admitAccess i r .newClaim .ordered carried =
      let added := (s.opening t (lineOf r.address)).advanceSequence.addEntry (s.openingEntry i r t)
      if carried then added.takeCommit i t else added := by
  have hclaim := takeClaim_opening s t (lineOf r.address) hg
  have hmember : (s.opening t (lineOf r.address)).advanceSequence.memberOf t = ⟨t, s.seqCounter, s.tagMap[t]⟩ :=
    memberOf_opening s t (lineOf r.address)
  rw [admitAccess_newClaim s r i t .ordered carried ht (by rw [hclaim]; exact opening_opened s t (lineOf r.address)), hclaim,
    nextUndo_of_free s t hg, hmember]
  rfl

/-- Settles O7. -/
theorem openingWriteOpensGroup : Obligations.OpeningWriteOpensGroup := by
  intro s r i t h hi hk hp ht hl hc hg hr p slot next
  let y := s.begin.opening t (lineOf r.address)
  have hgroup := fun u => opening_group s.begin t u (lineOf r.address)
  have hpart := fun q => opening_part s.begin t (lineOf r.address) q
  refine ⟨y.advanceSequence.addEntry (s.begin.openingEntry i r t), ?_, (hgroup t).trans (if_pos rfl),
    fun u hu => (hgroup u).trans (if_neg hu), rfl, rfl, (hpart p).trans (if_pos rfl),
    fun q hq => (hpart q).trans (if_neg hq), ?_, rfl⟩
  · rw [plainRequest_admitted s r i h hi hp .newClaim .ordered (accessPath_newClaim s r t hk ht hl (.inl hg) hc hr),
      admitAccess_opening s.begin r i t false ht hg]
    rfl
  · intro carried
    have hcarried : ∀ v, y.sequenceCarried v = true ↔ carried v := sequenceCarried_iff y
    obtain ⟨k, hcount, hpassed⟩ := advanceSequence_passes y
    refine ⟨k, hcount, fun j hj => (hcarried _).1 (hpassed j hj), fun h0 hspans hv => ?_⟩
    have hfree := (advanceSequence_uncarried y (opening_spans s.begin t _ hspans) h0).2
    have hused : y.sequenceCarried y.advanceSequence.seqCounter = true := (hcarried _).2 hv
    rw [hfree] at hused
    cases hused

/-! ### A write of an OPEN group (O8) -/

theorem memberOf_eq (s : State) (t : Tag) (v : Word) (p : PartId) (hv : (s.group t).sequence = some v)
    (hp : (s.group t).partition = some p) : s.memberOf t = ⟨t, v, p⟩ := by
  rw [State.memberOf, hv, hp]
  rfl

theorem nextUndo_of_opened (s : State) (t : Tag) (p : PartId) (hg : s.groupState t = .opened)
    (hp : (s.group t).partition = some p) : s.nextUndo t = ⟨p, (s.part p).undoSlot (s.size p)⟩ := by
  have hpart : s.claimPartition t = p := by simp [State.claimPartition, hg, hp]
  rw [State.nextUndo, hpart]

/-- The part once an OPEN group has grown by a claim on `line` (R5). -/
def State.growing (s : State) (t : Tag) (v : Word) (p : PartId) (n : Nat) (line : Addr) : State :=
  { s with
    groups := s.groups.set t { s.group t with claimsHeld := (s.group t).claimsHeld + 1, undoCount := some (n + 1) }
    claims := s.claims ++ [⟨line, t, false, n + 1, (s.part p).undoSlot (s.size p)⟩]
    partitions := s.partitions.set p (s.withUndo p ⟨t, v, n + 1, some line⟩) }

theorem growing_group (s : State) (t : Tag) (v : Word) (p : PartId) (n : Nat) (line : Addr) :
    (s.growing t v p n line).group t =
      { s.group t with claimsHeld := (s.group t).claimsHeld + 1, undoCount := some (n + 1) } :=
  setGroup_group_self s t _

theorem admitAccess_growing (s : State) (r : HostRequest) (i : EntryId) (t : Tag) (v : Word) (p : PartId) (n : Nat)
    (carried : Bool) (ht : tagOf r.tag = some t) (hg : s.groupState t = .opened) (hv : (s.group t).sequence = some v)
    (hp : (s.group t).partition = some p) (hn : (s.group t).undoCount = some n) :
    s.admitAccess i r .newClaim .ordered carried =
      let added := (s.growing t v p n (lineOf r.address)).addEntry
        (joinedEntry i r .newClaim .ordered (some ⟨p, (s.part p).undoSlot (s.size p)⟩) ⟨t, v, p⟩)
      if carried then added.takeCommit i t else added := by
  have hclaim : s.takeClaim t (lineOf r.address) = s.growing t v p n (lineOf r.address) :=
    takeClaim_growing s t _ v p n hg hv hp hn
  have hgroup := growing_group s t v p n (lineOf r.address)
  rw [admitAccess_newClaim s r i t .ordered carried ht (by rw [hclaim, State.groupState, hgroup]; exact hg), hclaim,
    nextUndo_of_opened s t p hg hp, memberOf_eq _ t v p (by rw [hgroup]; exact hv) (by rw [hgroup]; exact hp)]

/-- Settles O8. -/
theorem writeJoinsOpenGroup : Obligations.WriteJoinsOpenGroup := by
  intro s r i t v p n h hi hk hp ht hl hg hv hpart hn slot
  have hpath := accessPath_journaled s r t false hk ht hl (.inr hg)
  refine ⟨fun hc hr => ?_, fun c hc hct => ?_⟩
  · rw [plainRequest_admitted s r i h hi hp .newClaim .ordered (hpath.trans (journaledPath_newClaim s _ t hc hr)),
      admitAccess_growing s.begin r i t v p n false ht hg hv hpart hn]
    rfl
  · rw [plainRequest_admitted s r i h hi hp .ownClaim .ordered (hpath.trans (journaledPath_ownClaim s _ t c hc hct)),
      admitAccess_ownClaim s.begin r i t .ordered ht, memberOf_eq s.begin t v p hv hpart]
    rfl

/-! ### A COMMIT (O9) -/

theorem commit_refused_by_state (s : State) (r : HostRequest) (t : Tag) (st : Status) (h : s.admits r = true)
    (hp : intentOf r.intent = some .commit) (ht : tagOf r.tag = some t)
    (hg : (s.groupState t).commitCheck = some st) : exec (.hostRequest r) s = s.refusing r st := by
  obtain ⟨-, -, -, hf⟩ := (admits_iff s r).1 h
  obtain ⟨i, hi⟩ := Option.isSome_iff_exists.mp hf
  rw [hostRequest_of_admits s r h i hi]
  unfold State.takeIntent
  simp only [hp, ht, show (s.begin.groupState t).commitCheck = some st from hg]
  rfl

theorem takeCommit_addEntry (s : State) (i : EntryId) (t : Tag) (e : Entry) :
    (s.addEntry e).takeCommit i t = (s.takeCommit i t).addEntry e := rfl

theorem takeCommit_group (s : State) (i : EntryId) (t u : Tag) :
    (s.takeCommit i t).group u =
      if u = t then { s.group t with state := .draining, commitRequest := some i } else s.group u :=
  group_setGroup s t u _

theorem takeCommit_growing (s : State) (i : EntryId) (t : Tag) (v : Word) (p : PartId) (n : Nat) (line : Addr) :
    (s.growing t v p n line).takeCommit i t = { s.growing t v p n line with
      groups := s.groups.set t
        { s.group t with
          state := .draining, commitRequest := some i
          claimsHeld := (s.group t).claimsHeld + 1, undoCount := some (n + 1) } } := by
  rw [State.takeCommit, State.modGroup, growing_group, State.setGroup, State.growing, Vector.set_set]

/-- Settles O9. -/
theorem commitByGroupState : Obligations.CommitByGroupState := by
  intro s r t h hp ht
  refine ⟨fun hg => commit_refused_by_state s r t _ h hp ht ?_, fun hg => commit_refused_by_state s r t _ h hp ht ?_,
    fun hg => commit_refused_by_state s r t _ h hp ht ?_, fun i hi => ?_⟩
  · rcases hg with hg | hg <;> rw [hg] <;> rfl
  · rcases hg with hg | hg <;> rw [hg] <;> rfl
  · rw [hg]; rfl
  intro line drains
  have admitted := fun path phase => commitRequest_admitted s r i t path phase h hi hp ht
  refine ⟨fun path phase hpath => ?_, fun v p hk hl hg hv hpart => ?_, fun hk hl hg hc hr => ?_⟩
  · -- a read, or a write to an unprotected line
    have haccess : s.accessPath r true = .ok (path, phase) := by
      rcases hpath with ⟨hk, rfl, hclaim⟩ | ⟨hk, hl, rfl, rfl⟩
      · rw [accessPath_read s r true hk]
        rcases hclaim with ⟨hc, rfl⟩ | ⟨c, hc, ⟨hg, rfl⟩ | ⟨hg, rfl⟩⟩
        · exact readPath_of_unclaimed s _ hc
        · exact readPath_of_in_progress s _ c hc hg
        · exact readPath_of_unwinding s _ c hc hg
      · rw [accessPath_write s r true hk]
        exact writePath_unprotected s _ _ true hl
    have hj : path.journaled = false := by rcases hpath with ⟨-, rfl, -⟩ | ⟨-, -, rfl, -⟩ <;> rfl
    have hn : path ≠ .newClaim := by rintro rfl; cases hj
    refine ⟨fun hg => ?_, fun hg => ?_⟩
    · show exec (.hostRequest r) s = _
      rw [admitted path phase (.inr hg) haccess, admitAccess_joins s.begin r i t path phase ht hn hg]
      rfl
    · rw [admitted path phase (.inl hg) haccess, admitAccess_of_free s.begin r i t path phase ht hj hg]
      rfl
  · -- a write of the OPEN group
    intro slot
    have hpath := accessPath_journaled s r t true hk ht hl (.inr hg)
    refine ⟨fun c hc hct => ?_, fun n hn hc hr => ?_⟩
    · show exec (.hostRequest r) s = _
      rw [admitted .ownClaim .ordered (.inr hg) (hpath.trans (journaledPath_ownClaim s _ t c hc hct)),
        admitAccess_joins s.begin r i t .ownClaim .ordered ht (by decide) hg, memberOf_eq s.begin t v p hv hpart]
      rfl
    · rw [admitted .newClaim .ordered (.inr hg) (hpath.trans (journaledPath_newClaim s _ t hc hr)),
        admitAccess_growing s.begin r i t v p n true ht hg hv hpart hn]
      simp only [if_true, takeCommit_addEntry, takeCommit_growing]
      rfl
  · -- the write that opens the group
    intro p slot
    have hpath := accessPath_journaled s r t true hk ht hl (.inl hg)
    rw [admitted .newClaim .ordered (.inl hg) (hpath.trans (journaledPath_newClaim s _ t hc hr)),
      admitAccess_opening s.begin r i t true ht hg]
    simp only [if_true]
    obtain ⟨v, hv⟩ : ∃ v, (s.begin.opening t (lineOf r.address)).advanceSequence =
        { s.begin.opening t (lineOf r.address) with seqCounter := v } := ⟨_, advanceSequence_eq _⟩
    rw [hv]
    have hgroup := takeCommit_group (State.addEntry (s.begin.openingEntry i r t)
      { s.begin.opening t (lineOf r.address) with seqCounter := v }) i t
    have hpart := fun q => opening_part s.begin t (lineOf r.address) q
    refine ⟨_, rfl, (hgroup t).trans ?_, fun u hu => (hgroup u).trans ?_, (hpart p).trans (if_pos rfl),
      fun q hq => (hpart q).trans (if_neg hq), rfl⟩
    · rw [if_pos rfl]
      exact congrArg (fun g : Group => { g with state := .draining, commitRequest := some i })
        ((opening_group s.begin t t line).trans (if_pos rfl))
    · rw [if_neg hu]
      exact (opening_group s.begin t u line).trans (if_neg hu)

end Sys2Proof.Machine
end

section
/-! The unwind of one group: the fates of its entries as one table, the ABORT, the age expiry and the commands that name
a group (O10, O25, O44). -/

namespace Sys2Proof.Machine

/-! ### The fates of a group's entries (R60, R95) -/

/-- What revocation leaves of the request table: the group's entries are gone, but for those whose access is outstanding,
which stay answered and without a group (R95). -/
def State.requestsWithout (s : State) (t : Tag) : List Entry :=
  s.requests.filterMap (fun e =>
    if e.group = some t then
      if e.phase = .capturing ∨ e.phase = .storing ∨ e.phase = .loading then
        some { e with answered := true, group := none }
      else none
    else some e)

/-- The UNDO slots that revocation gives PAD contents: those of an entry in ORDERED that took a new claim (R60). -/
def Entry.padded (e : Entry) : Option UndoRef :=
  if e.phase = .ordered ∧ e.path = .newClaim then e.undo else none

/-- The rings once the slots of a group's entries in ORDERED have PAD contents (R60). -/
def State.partitionsWithout (s : State) (t : Tag) : Vector Partition 4 :=
  (((s.members t).filterMap Entry.padded).foldl (fun y u => y.padUndo u) s).partitions

/-- Two states in which padding does the same. -/
def SameRings (x y : State) : Prop :=
  x.partitions = y.partitions ∧ x.controller = y.controller ∧ x.geometry = y.geometry

theorem padUndo_sameRings {x y : State} (h : SameRings x y) (u : UndoRef) : SameRings (x.padUndo u) (y.padUndo u) := by
  obtain ⟨hp, hc, hg⟩ := h
  have hruns : x.journalRuns u.partition = y.journalRuns u.partition := by
    unfold State.journalRuns State.part
    rw [hp, hc]
  unfold State.padUndo
  rw [hruns]
  split
  · refine ⟨?_, hc, hg⟩
    simp only [State.modPart, State.setPart, State.part, State.capacity, State.size, hp, hg]
  · exact ⟨hp, hc, hg⟩

theorem revokeFate_sameRings {x y : State} (h : SameRings x y) (e : Entry) :
    SameRings (x.revokeFate e) (e.padded.elim y (fun u => y.padUndo u)) := by
  have hstays : ∀ z : State, z.partitions = x.partitions → z.controller = x.controller → z.geometry = x.geometry →
      SameRings z y := fun z hp hc hg => ⟨hp.trans h.1, hc.trans h.2.1, hg.trans h.2.2⟩
  unfold State.revokeFate Entry.padded
  cases hphase : e.phase
  case ordered =>
    cases hpath : e.path
    case newClaim =>
      cases hundo : e.undo with
      | none => exact hstays _ rfl rfl rfl
      | some u => exact padUndo_sameRings (hstays (x.finishEntry e .revoked []) rfl rfl rfl) u
    all_goals exact hstays _ rfl rfl rfl
  all_goals exact hstays _ rfl rfl rfl

theorem revokeFates_sameRings (l : List Entry) : ∀ {x y : State}, SameRings x y →
    SameRings (l.foldl State.revokeFate x) ((l.filterMap Entry.padded).foldl (fun y u => y.padUndo u) y) := by
  induction l with
  | nil => exact fun h => h
  | cons e l ih =>
    intro x y h
    have := ih (revokeFate_sameRings h e)
    cases hu : e.padded with
    | none => rw [List.filterMap_cons_none hu]; simpa [hu] using this
    | some u => rw [List.filterMap_cons_some hu]; simpa [hu] using this

theorem requestsWithout_of_no_members (s : State) (t : Tag) (h : s.members t = []) :
    s.requestsWithout t = s.requests := by
  have hnone : ∀ e ∈ s.requests, e.group ≠ some t := fun e he => by
    simpa using List.filter_eq_nil_iff.mp h e he
  rw [State.requestsWithout, List.filterMap_congr (g := some) fun e he => if_neg (hnone e he), List.filterMap_some]

/-- The group entry of a group that begins to unwind (R14, R16). -/
def Group.unwindingBy (o : UnwindOrigin) (c : Option RevokeCause) (g : Group) : Group :=
  { g with state := .unwinding, unwindOrigin := some o, revokeCause := c, commitRequest := none }

theorem revokeFates_members (s x : State) (t : Tag) (hx : x.requests = s.requests) (hr : x.responses = s.responses)
    (hn : s.members t = [] ∨ s.entriesNumbered) :
    ((s.members t).foldl State.revokeFate x).responses =
        s.responses ++ (s.members t).map (fun e => ⟨e.request.hostId, .revoked, []⟩) ∧
      ((s.members t).foldl State.revokeFate x).requests = s.requestsWithout t := by
  obtain hn | hn := hn
  · rw [requestsWithout_of_no_members s t hn, hn]
    exact ⟨hr.trans (List.append_nil _).symm, hx⟩
  · have hsub : (s.members t).Sublist s.requests := List.filter_sublist
    obtain ⟨hresponses, hrequests⟩ := revokeFates_table (s.members t) x (by rw [hx]; exact hn) (hn.sublist (hsub.map _))
      (fun e he => by rw [hx]; exact hsub.subset he)
    refine ⟨hresponses.trans (by rw [hr]), hrequests.trans ?_⟩
    rw [hx]
    refine List.filterMap_congr fun e he => ?_
    have hmem : e ∈ s.members t ↔ e.group = some t := by simp [State.members, he]
    simp only [hmem, Entry.revokedAs]

/-- A group that is the first of its event to begin to unwind (R14, R16, R95, R102). -/
theorem startUnwind_eq (s : State) (t : Tag) (o : UnwindOrigin) (c : Option RevokeCause) (hj : s.joined = 0)
    (hn : s.members t = [] ∨ s.entriesNumbered) :
    s.startUnwind t o c = { s with
      responses := s.responses ++ (s.members t).map (fun e => ⟨e.request.hostId, .revoked, []⟩)
      requests := s.requestsWithout t, partitions := s.partitionsWithout t
      groups := s.groups.set t ((s.group t).unwindingBy o c)
      engine := { s.engine with waiting := s.engine.waiting ++ [t] }, joined := 1 } := by
  have hentered : SameRings (s.modGroup t (Group.unwindingBy o c)) s := ⟨rfl, rfl, rfl⟩
  obtain ⟨hresponses, hrequests⟩ := revokeFates_members s (s.modGroup t (Group.unwindingBy o c)) t rfl rfl hn
  obtain ⟨hparts, -, -⟩ := revokeFates_sameRings (s.members t) hentered
  obtain ⟨r, q, a, hfates, -⟩ := revokeFates_only (s.members t) (s.modGroup t (Group.unwindingBy o c))
  show State.joinWaiting t ((s.members t).foldl State.revokeFate (s.modGroup t (Group.unwindingBy o c))) = _
  rw [hfates] at hresponses hrequests hparts ⊢
  obtain rfl : a = _ := hresponses
  obtain rfl : r = _ := hrequests
  obtain rfl : q = s.partitionsWithout t := hparts
  exact joinWaiting_first _ t hj

/-! ### An ABORT (O10) -/

theorem abort_takes_abort (s : State) (r : HostRequest) (i : EntryId) (t : Tag) (h : s.admits r = true)
    (hi : s.freeEntry = some i) (hp : intentOf r.intent = some .abort) (ht : tagOf r.tag = some t) :
    exec (.hostRequest r) s = .next (s.begin.takeAbort i r t) := by
  rw [hostRequest_of_admits s r h i hi]
  unfold State.takeIntent
  simp only [hp, ht]

/-- The ABORT of an OPEN group, before what then can happen (R14). -/
theorem abort_of_opened (s : State) (r : HostRequest) (i : EntryId) (t : Tag)
    (hn : s.members t = [] ∨ s.entriesNumbered) :
    (s.begin.startUnwind t .host none).parkAbort i r t = { s with
      responses := (s.members t).map (fun e => ⟨e.request.hostId, .revoked, []⟩), mdo := [], joined := 1
      requests := s.requestsWithout t ++ [abortEntry i r], partitions := s.begin.partitionsWithout t
      groups := s.groups.set t { (s.group t).unwindingBy .host none with parkedAbort := some i }
      engine := { s.engine with waiting := s.engine.waiting ++ [t] } } := by
  rw [startUnwind_eq s.begin t .host none rfl hn, State.parkAbort, State.modGroup]
  have hgroup : State.group (State.addEntry (abortEntry i r) { s.begin with
      responses := s.begin.responses ++ (s.begin.members t).map (fun e => ⟨e.request.hostId, .revoked, []⟩)
      requests := s.begin.requestsWithout t, partitions := s.begin.partitionsWithout t
      groups := s.begin.groups.set t ((s.begin.group t).unwindingBy .host none)
      engine := { s.begin.engine with waiting := s.begin.engine.waiting ++ [t] }, joined := 1 }) t =
        (s.group t).unwindingBy .host none := setGroup_group_self s t _
  rw [hgroup]
  simp only [State.setGroup, State.addEntry, Vector.set_set]
  rfl

theorem partitionsWithout_congr {x y : State} {t : Tag} (h : SameRings x y) (hm : x.members t = y.members t) :
    x.partitionsWithout t = y.partitionsWithout t := by
  have hpads : ∀ (l : List UndoRef) (x y : State), SameRings x y →
      SameRings (l.foldl (fun z u => z.padUndo u) x) (l.foldl (fun z u => z.padUndo u) y) := by
    intro l
    induction l with
    | nil => exact fun _ _ h => h
    | cons u l ih => exact fun x y h => ih _ _ (padUndo_sameRings h u)
  rw [State.partitionsWithout, State.partitionsWithout, hm]
  exact (hpads _ x y h).1

theorem partitionsWithout_begin (s : State) (t : Tag) : s.begin.partitionsWithout t = s.partitionsWithout t :=
  partitionsWithout_congr ⟨rfl, rfl, rfl⟩ rfl

/-- Settles O10. -/
theorem abortByGroupState : Obligations.AbortByGroupState := by
  intro s r i t h hi hp ht entry
  have taken := abort_takes_abort s r i t h hi hp ht
  have refused : ∀ st, s.begin.takeAbort i r t = s.begin.refuse r st → exec (.hostRequest r) s = s.refusing r st :=
    fun st he => taken.trans (by rw [he]; rfl)
  refine ⟨fun hg => refused _ ?_, fun hg => refused _ ?_, fun hg => refused _ ?_, fun hg ho => refused _ ?_,
    fun hg ho hn => ?_, fun hg => ?_, fun hg hn => ?_⟩
  · simp only [State.takeAbort, show s.begin.groupState t = _ from hg]
  · rcases hg with hg | hg <;> simp only [State.takeAbort, show s.begin.groupState t = _ from hg]
  · simp only [State.takeAbort, show s.begin.groupState t = _ from hg]
  · have hbusy : ¬ ((s.begin.group t).unwindOrigin = some .revoke ∧ (s.begin.group t).parkedAbort = none) := by
      rintro ⟨horigin, hnone⟩
      rcases ho with ho | ho
      · rw [show (s.begin.group t).unwindOrigin = _ from ho] at horigin; cases horigin
      · rw [show (s.group t).parkedAbort = none from hnone] at ho; cases ho
    simp only [State.takeAbort, show s.begin.groupState t = _ from hg, if_neg hbusy]
  · rw [taken]
    simp only [State.takeAbort, show s.begin.groupState t = _ from hg]
    have hparks : (s.begin.group t).unwindOrigin = some .revoke ∧ (s.begin.group t).parkedAbort = none := ⟨ho, hn⟩
    rw [if_pos hparks]
    rfl
  · rw [taken]
    simp only [State.takeAbort, show s.begin.groupState t = _ from hg]
    rfl
  · refine ⟨(s.begin.startUnwind t .host none).parkAbort i r t, taken.trans (by simp only [State.takeAbort, show s.begin.groupState t = _ from hg]), ?_⟩
    rw [abort_of_opened s r i t hn]
    exact ⟨rfl, rfl, partitionsWithout_begin s t, rfl⟩

/-! ### Revocation (O25, O44) -/

/-- The incident of a revocation (R16, R191). -/
def State.revokedIncident (s : State) (t : Tag) (c : RevokeCause) : Incident :=
  ⟨.groupRevoked, s.tickCounter, some t, some ((s.group t).sequence.getD 0), some ((s.group t).partition.getD 0), none,
    some c.code⟩

/-- A revocation that is the first of its event: everything it changes (R16, R95, R102). -/
theorem revoke_eq (s : State) (t : Tag) (c : RevokeCause) (hj : s.joined = 0) (hs : s.controller ≠ .shutdown)
    (ha : c.appliesTo (s.groupState t) = true) (hn : s.members t = [] ∨ s.entriesNumbered) :
    ∃ d f, s.revoke t c = { s with
        responses := s.responses ++ (s.members t).map (fun e => ⟨e.request.hostId, .revoked, []⟩)
        requests := s.requestsWithout t, partitions := s.partitionsWithout t
        groups := s.groups.set t ((s.group t).unwindingBy .revoke (some c))
        engine := { s.engine with waiting := s.engine.waiting ++ [t] }, joined := 1
        incidents := (s.revokedIncident t c :: s.incidents).take 8, dropped := d, flags := f } ∧
      f.getLsbD 4 = true ∧ ∀ j, s.flags.getLsbD j = true → f.getLsbD j = true := by
  obtain ⟨r, q, a, d, heq, hraised, hkept, -⟩ := revoke_only s t c hs ha
  have hunwound : (s.revoke t c).responses = (s.startUnwind t .revoke (some c)).responses ∧
      (s.revoke t c).requests = (s.startUnwind t .revoke (some c)).requests ∧
      (s.revoke t c).partitions = (s.startUnwind t .revoke (some c)).partitions := by
    obtain ⟨a, d, f, hlog⟩ := log_only ({ Incident.ofMember .groupRevoked (s.memberOf t) with
      detail := some c.code } : Incident) (s.startUnwind t .revoke (some c))
    rw [State.revoke, if_pos (by simp [hs, ha]), hlog]
    exact ⟨rfl, rfl, rfl⟩
  rw [startUnwind_eq s t .revoke (some c) hj hn] at hunwound
  obtain ⟨hresponses, hrequests, hparts⟩ := hunwound
  refine ⟨d, (s.revoke t c).flags, ?_, hraised, hkept⟩
  generalize (s.revoke t c).flags = f at heq
  rw [heq] at hresponses hrequests hparts
  obtain rfl : a = _ := hresponses
  obtain rfl : r = _ := hrequests
  obtain rfl : q = _ := hparts
  rw [heq, joinWaiting_first s t hj, hj]
  rfl

theorem ageExpiry_event (s : State) (t : Tag) (hd : s.direct = true) :
    exec (.ageExpiry t) s = .next (if decide (s.groupState t = .opened) && decide (s.ageLimit ≠ 0) &&
      decide ((s.group t).age = s.ageLimit.toNat) && decide (s.controller ≠ .shutdown) then
        (s.begin.expire t).settle else s.begin) :=
  whenever_event s _ (fun x => x.expire t) hd fun x => expire_setup x t

/-- Settles O25. -/
theorem ageExpiryRevokes : Obligations.AgeExpiryRevokes := by
  intro s t hd
  refine ⟨fun hnot => ?_, fun hg hl ha hc hn => ?_⟩
  · rw [ageExpiry_event s t hd, if_neg]
    simp only [Bool.and_eq_true, decide_eq_true_eq, and_assoc]
    rintro ⟨hg, hl, ha, hc⟩
    rcases hnot with h | h | h | h
    · exact h hg
    · exact hl h
    · exact h ha
    · exact hc h
  · have hexpire : s.begin.expire t = s.begin.revoke t .age := by
      rw [State.expire, if_pos]
      simp only [Bool.and_eq_true, decide_eq_true_eq]
      exact ⟨⟨hg, hl⟩, ha⟩
    obtain ⟨d, f, heq, hraised, -⟩ := revoke_eq s.begin t .age rfl hc
      (by rw [show s.begin.groupState t = .opened from hg]; rfl) (.inr hn)
    refine ⟨s.begin.revoke t .age, ?_, ?_⟩
    · rw [ageExpiry_event s t hd, if_pos, hexpire]
      simp only [Bool.and_eq_true, decide_eq_true_eq]
      exact ⟨⟨⟨hg, hl⟩, ha⟩, hc⟩
    · rw [heq]
      refine ⟨setGroup_group_self s t _, fun v hv => (group_setGroup s t v _).trans (if_neg hv), rfl, rfl, rfl, rfl,
        hraised, partitionsWithout_begin s t, rfl⟩

/-! ### The command rows (R147, R182) -/

/-- A command row at a listening part whose command SHUTDOWN does not refuse: the command's own checks and effect. -/
theorem commandRow_runs (s : State) (h : s.listening = true) (c : Command) (code : Byte) (hc : code ≠ 0)
    (hcode : commandOf code.toNat = some c) (pfw : Bool) (hs : s.controller ≠ .shutdown ∨ c = .softReset) :
    s.event (State.commandEvent code pfw) = .next ((s.commanded c).runCommand c pfw) :=
  commandRow_event s h code hc pfw _ (takeCommand_known s c _ hcode pfw hs)
    ((runCommand_held _ c pfw).trans (listening_held s h))

theorem forceUnwind_runs (s : State) (h : s.listening = true) (hs : s.controller ≠ .shutdown) :
    exec .forceUnwind s = .next (s.commanded .forceUnwind).forceUnwind :=
  commandRow_runs s h .forceUnwind 6 (by decide) rfl s.pfwLine (.inl hs)

theorem retryUnwind_runs (s : State) (h : s.listening = true) (hs : s.controller ≠ .shutdown) :
    exec .retryUnwind s = .next (s.commanded .retryUnwind).retryUnwind :=
  commandRow_runs s h .retryUnwind 7 (by decide) rfl s.pfwLine (.inl hs)

/-- FORCE_UNWIND of an OPEN group (R19). -/
theorem forceUnwind_of_opened (s : State) (t : Tag) (ht : s.operandTag = some t) (hg : s.groupState t = .opened) :
    s.forceUnwind = (State.endDone (s.revoke t .forced)).settle := by
  unfold State.forceUnwind
  rw [ht]
  exact if_pos hg

theorem forceUnwind_of_not_opened (s : State) (t : Tag) (ht : s.operandTag = some t) (hg : s.groupState t ≠ .opened) :
    s.forceUnwind = s.endRefused .state := by
  unfold State.forceUnwind
  rw [ht]
  exact if_neg hg

theorem retryUnwind_of_not_broken (s : State) (t : Tag) (ht : s.operandTag = some t) (hg : s.groupState t ≠ .broken) :
    s.retryUnwind = s.endRefused .state := by
  unfold State.retryUnwind
  rw [ht]
  exact if_pos hg

theorem groupPartFaulted_eq (s : State) (t : Tag) (p : PartId) (hp : (s.group t).partition = some p) :
    s.groupPartFaulted t = decide ((s.part p).state = .faulted) := by
  unfold State.groupPartFaulted
  rw [hp]

theorem retryUnwind_of_broken (s : State) (t : Tag) (p : PartId) (ht : s.operandTag = some t)
    (hg : s.groupState t = .broken) (hp : (s.group t).partition = some p) :
    s.retryUnwind = if (s.part p).state = .faulted then s.endRefused .partitionFault else (s.retryGroup t).settle := by
  unfold State.retryUnwind
  rw [ht]
  simp only [hg, ne_eq, not_true_eq_false, if_false, groupPartFaulted_eq s t p hp, decide_eq_true_eq]

/-- Settles O44. -/
theorem groupCommands : Obligations.GroupCommands := by
  intro s h hs
  have force := forceUnwind_runs s h hs
  have retry := retryUnwind_runs s h hs
  refine ⟨fun ho => ?_, fun t ho => ?_⟩
  · have hnone := operandTag_none s ho
    refine ⟨force.trans ?_, retry.trans ?_⟩
    · unfold State.forceUnwind
      rw [show (s.commanded .forceUnwind).operandTag = none from hnone]
      rfl
    · unfold State.retryUnwind
      rw [show (s.commanded .retryUnwind).operandTag = none from hnone]
      rfl
  have htag := operandTag_of_val s t ho
  refine ⟨fun hg => ?_, fun hg hn => ?_, fun hg => ?_, fun p hg hp => ?_⟩
  · rw [force, forceUnwind_of_not_opened (s.commanded .forceUnwind) t htag hg]
    rfl
  · obtain ⟨d, f, heq, hraised, -⟩ := revoke_eq (s.commanded .forceUnwind) t .forced rfl hs
      (by rw [show (s.commanded .forceUnwind).groupState t = .opened from hg]; rfl) (.inr hn)
    refine ⟨State.endDone ((s.commanded .forceUnwind).revoke t .forced), ?_, ?_⟩
    · rw [force, forceUnwind_of_opened (s.commanded .forceUnwind) t htag hg]
    · have hparts : (s.commanded .forceUnwind).partitionsWithout t = s.partitionsWithout t :=
        partitionsWithout_congr ⟨rfl, rfl, rfl⟩ rfl
      rw [heq]
      refine ⟨setGroup_group_self s t _, fun v hv => (group_setGroup s t v _).trans (if_neg hv), rfl, rfl, rfl, rfl,
        ?_, ?_, hparts, rfl⟩
      · show (f ||| 1#9 <<< 7).getLsbD 4 = true
        simp [hraised]
      · show (f ||| 1#9 <<< 7).getLsbD 7 = true
        simp
  · rw [retry, retryUnwind_of_not_broken (s.commanded .retryUnwind) t htag hg]
    rfl
  · have hrun := retry.trans (congrArg _ (retryUnwind_of_broken (s.commanded .retryUnwind) t p htag hg hp))
    refine ⟨fun hf => ?_, fun hf => ?_⟩
    · rw [hrun, if_pos (show ((s.commanded .retryUnwind).part p).state = .faulted from hf)]
      rfl
    · rw [hrun, if_neg (show ¬ ((s.commanded .retryUnwind).part p).state = .faulted from hf), State.retryGroup,
        joinWaiting_first _ t rfl]
      rfl

end Sys2Proof.Machine
end

section
/-! The commands that begin recovery and FORMAT, the mode commands, and what refuses a command (O41, O42, O43, O45). -/

namespace Sys2Proof.Machine

/-! ### START (O41) -/

theorem start_runs (s : State) (h : s.listening = true) (hs : s.controller ≠ .shutdown) :
    exec .start s = .next (s.commanded .start).start :=
  commandRow_runs s h .start 1 (by decide) rfl s.pfwLine (.inl hs)

theorem start_of_partitionClash (s : State) (p q : PartId) (hc : s.controller = .config)
    (hp : s.partitionClash = some (p, q)) :
    s.start = s.endOverlap .configInvalid (some .partitionOverlap) p q.val := by
  rw [State.start, if_neg (not_not_intro hc), hp]

theorem start_of_regionClash (s : State) (p : PartId) (r : RegionId) (hc : s.controller = .config)
    (hp : s.partitionClash = none) (hr : s.regionClash = some (p, r)) :
    s.start = s.endOverlap .configInvalid (some .regionOverlap) p r.val := by
  rw [State.start, if_neg (not_not_intro hc), hp, hr]

theorem start_of_no_clash (s : State) (hc : s.controller = .config) (hp : s.partitionClash = none)
    (hr : s.regionClash = none) : s.start = (s.enter .recovering).takeFirst (fun _ => true) := by
  rw [State.start, if_neg (not_not_intro hc), hp, hr]

theorem takeFirst_some (s : State) (later : PartId → Bool) (p : PartId) (hp : s.size p ≠ 0) (hl : later p = true)
    (hq : ∀ q, q < p → s.size q = 0 ∨ later q = false) : s.takeFirst later = s.takePartition p := by
  have hfind : allPartitions.find? (fun p => s.enabled p && later p) = some p :=
    findPartition_first _ p (by rw [(enabled_iff s p).2 hp, hl]; rfl) fun q hlt => by
      rcases hq q hlt with h | h
      · simp [State.enabled, h]
      · simp [h]
  rw [State.takeFirst, hfind]

theorem takeFirst_none (s : State) (later : PartId → Bool) (h : ∀ p, s.size p = 0 ∨ later p = false) :
    s.takeFirst later = s.recoverySucceeds := by
  have hfind : allPartitions.find? (fun p => s.enabled p && later p) = none :=
    List.find?_eq_none.mpr fun p _ => by
      rcases h p with h | h
      · simp [State.enabled, h]
      · simp [h]
  rw [State.takeFirst, hfind]

/-- Settles O41. -/
theorem startBegins : Obligations.StartBegins := by
  intro s h hc
  have run : exec .start s = _ := start_runs s h (by rw [hc]; decide)
  refine ⟨fun p q hpq hm hn => ?_, fun hn => ⟨fun p r hm hf => ?_, fun hr => ⟨fun p hp hq => ?_, fun hz => ?_⟩⟩⟩
  · rw [run, start_of_partitionClash (s.commanded .start) p q hc (partitionClash_some s p q hpq hm hn)]
    rfl
  · rw [run, start_of_regionClash (s.commanded .start) p r hc (partitionClash_none s hn) (regionClash_some s p r hm hf)]
    rfl
  all_goals rw [run, start_of_no_clash (s.commanded .start) hc (partitionClash_none s hn) (regionClash_none s hr)]
  · rw [takeFirst_some (State.enter .recovering (s.commanded .start)) _ p hp rfl fun q hlt => .inl (hq q hlt)]
    rfl
  · rw [takeFirst_none (State.enter .recovering (s.commanded .start)) _ fun p => .inl (hz p)]
    rfl

/-! ### FORMAT (O42) -/

theorem format_runs (s : State) (h : s.listening = true) (hs : s.controller ≠ .shutdown) :
    exec .format s = .next (s.commanded .format).format :=
  commandRow_runs s h .format 2 (by decide) rfl s.pfwLine (.inl hs)

theorem operandPartition_none (s : State) (h : 4 ≤ s.operand.toNat) : s.operandPartition = none := by
  rw [State.operandPartition, dif_neg (Nat.not_lt.mpr h)]

theorem format_of_bad_operand (s : State) (h : s.operandPartition = none) : s.format = s.endRefused .operand := by
  rw [State.format, h]

/-- FORMAT of partition `p` in CONFIG: its size, the other partitions and the regions, in this order (R140). -/
theorem format_in_config (s : State) (p : PartId) (h : s.operandPartition = some p) (hc : s.controller = .config) :
    s.format = if s.enabled p then
        match s.formatClash p with
        | some q => s.endOverlap .partitionOverlap none p q.val
        | none =>
          match s.formatRegionClash p with
          | some r => s.endOverlap .regionOverlap none p r.val
          | none => s.issueFormat (s.newFormat p)
      else s.endRefused .noPartition := by
  rw [State.format, h]
  simp only [hc, ne_eq, not_true_eq_false, if_false]
  cases s.enabled p <;> rfl

theorem formatClash_some (s : State) (p q : PartId) (hq : q ≠ p) (hm : s.partsMeet p q)
    (hn : ∀ x, x ≠ p → x < q → ¬ s.partsMeet p x) : s.formatClash p = some q := by
  refine findFin_least _ q ?_ fun x hx => ?_
  · simp [hq, (partitionsOverlap_iff s p q).2 hm]
  · by_cases hxp : x = p
    · simp [hxp]
    · have := hn x hxp hx
      rw [← partitionsOverlap_iff] at this
      simp [this]

theorem formatClash_none (s : State) (p : PartId) (hn : ∀ q, q ≠ p → ¬ s.partsMeet p q) : s.formatClash p = none := by
  refine List.find?_eq_none.mpr fun q _ => ?_
  simp only [Bool.and_eq_true, decide_eq_true_eq, partitionsOverlap_iff]
  exact fun ⟨hq, hm⟩ => hn q hq hm

theorem formatRegionClash_some (s : State) (p : PartId) (r : RegionId) (hm : s.regionMeets p r)
    (hn : ∀ x, x < r → ¬ s.regionMeets p x) : s.formatRegionClash p = some r := by
  refine findFin_least _ r ((regionOverlaps_iff s p r).2 hm) fun x hx => ?_
  have := hn x hx
  rw [← regionOverlaps_iff] at this
  simpa using this

theorem formatRegionClash_none (s : State) (p : PartId) (hn : ∀ r, ¬ s.regionMeets p r) :
    s.formatRegionClash p = none := by
  refine List.find?_eq_none.mpr fun r _ => ?_
  rw [regionOverlaps_iff]
  exact hn r

/-- Settles O42. -/
theorem formatBegins : Obligations.FormatBegins := by
  intro s h
  refine ⟨fun ho hs => ?_, fun p hc ho => ?_⟩
  · rw [format_runs s h hs, format_of_bad_operand (s.commanded .format) (operandPartition_none s ho)]
    rfl
  have run := (format_runs s h (by rw [hc]; decide)).trans
    (congrArg _ (format_in_config (s.commanded .format) p (operandPartition_of_val s p ho) hc))
  refine ⟨fun hz => ?_, fun hp => ⟨fun q hq hm hn => ?_, fun hn => ⟨fun r hm hf => ?_, fun hr => ?_⟩⟩⟩
  · have hoff : ¬ (s.commanded .format).enabled p = true := fun he => (enabled_iff _ p).1 he hz
    rw [run, if_neg hoff]
    rfl
  all_goals rw [if_pos ((enabled_iff (s.commanded .format) p).2 hp)] at run
  · rw [run, show (s.commanded .format).formatClash p = some q from formatClash_some s p q hq hm hn]
    rfl
  all_goals rw [show (s.commanded .format).formatClash p = none from formatClash_none s p hn] at run
  · rw [run, show (s.commanded .format).formatRegionClash p = some r from formatRegionClash_some s p r hm hf]
    rfl
  · rw [run, show (s.commanded .format).formatRegionClash p = none from formatRegionClash_none s p hr]
    rfl

/-! ### The mode commands (O43) -/

theorem quiesce_runs (s : State) (h : s.listening = true) (hs : s.controller ≠ .shutdown) :
    exec .quiesce s = .next (s.commanded .quiesce).quiesce :=
  commandRow_runs s h .quiesce 3 (by decide) rfl s.pfwLine (.inl hs)

theorem resume_runs (s : State) (h : s.listening = true) (hs : s.controller ≠ .shutdown) :
    exec .resume s = .next (s.commanded .resume).resume :=
  commandRow_runs s h .resume 4 (by decide) rfl s.pfwLine (.inl hs)

theorem stop_runs (s : State) (h : s.listening = true) (hs : s.controller ≠ .shutdown) :
    exec .stop s = .next (s.commanded .stop).stop :=
  commandRow_runs s h .stop 5 (by decide) rfl s.pfwLine (.inl hs)

theorem clearIncidents_runs (s : State) (h : s.listening = true) (hs : s.controller ≠ .shutdown) :
    exec .clearIncidents s = .next (s.commanded .clearIncidents).clearIncidents :=
  commandRow_runs s h .clearIncidents 8 (by decide) rfl s.pfwLine (.inl hs)

theorem resume_of_quiescing (s : State) (h : s.controller = .quiescing ∨ s.controller = .quiet) :
    s.resume = (s.enter .active).endDone := if_pos h

theorem quietCondition_tests (s : State) (hd : s.direct = true) :
    exec .quietCondition s = .next s.begin.quietTest :=
  lineEvent_of_setup s State.quietTest hd (quietTest_setup _)

/-- Settles O43. -/
theorem modeCommands : Obligations.ModeCommands := by
  intro s hd
  refine ⟨fun hc hq => ?_, fun hn => ?_, fun h => ⟨fun hc hq => ?_, fun hc hq => ?_, fun hc => ?_, fun hc => ?_,
    fun hs => ?_⟩⟩
  · rw [quietCondition_tests s hd, quietTest_yes s.begin hc hq]
    rfl
  · rw [quietCondition_tests s hd, quietTest_no s.begin hn]
  · have hflags : (s.commanded .quiesce).flags ||| 0x080#9 ||| 0x100#9 = s.flags ||| 0x180#9 :=
      BitVec.or_assoc s.flags 0x080#9 0x100#9
    rw [quiesce_runs s h (by rw [hc]; decide), quiesce_yes (s.commanded .quiesce) hc hq, hflags]
    rfl
  · rw [quiesce_runs s h (by rw [hc]; decide), quiesce_no (s.commanded .quiesce) hc hq]
    rfl
  · rw [resume_runs s h (by rcases hc with hc | hc <;> rw [hc] <;> decide), resume_of_quiescing (s.commanded .resume) hc]
    rfl
  · rw [stop_runs s h (by rw [hc]; decide), State.stop,
      if_neg (not_not_intro (show (s.commanded .stop).controller = _ from hc))]
    rfl
  · rw [clearIncidents_runs s h hs]
    rfl

/-! ### Refusals (O45) -/

/-- In SHUTDOWN every command but SOFT_RESET is refused (R147). -/
theorem commandRow_in_shutdown (s : State) (h : s.listening = true) (c : Command) (code : Byte) (hc : code ≠ 0)
    (hcode : commandOf code.toNat = some c) (pfw : Bool) (hs : s.controller = .shutdown) (hn : c ≠ .softReset) :
    s.event (State.commandEvent code pfw) = .next (s.commandRefused (some c) .shutdown) := by
  refine commandRow_event s h code hc pfw _ ?_ (listening_held s h)
  rw [State.takeCommand, hcode]
  exact if_pos ⟨hs, hn⟩

theorem commandRow_unknown (s : State) (h : s.listening = true) (code : Byte) (hc : 10 ≤ code.toNat) (pfw : Bool) :
    s.event (State.commandEvent code pfw) = .next (s.commandRefused none .unknown) := by
  refine commandRow_event s h code (fun h0 => ?_) pfw _ ?_ (listening_held s h)
  · rw [h0] at hc
    exact absurd hc (by decide)
  · rw [State.takeCommand, commandOf_unknown code hc]
    rfl

/-- While a command is RUNNING a frame that names another is COMMAND_BUSY (R180). -/
theorem commandRow_busy (s : State) (hd : s.direct = true) (hf : s.link.frame = .idle)
    (hr : s.cmdStatus.outcome = .running) (code : Byte) (hc : code ≠ 0)
    (hn : commandOf code.toNat ≠ some .softReset) (pfw : Bool) :
    s.event (State.commandEvent code pfw) = .next { s with
      responses := [], mdo := lowBits 56, joined := 0, link := { commandLink with lastFrame := .commandBusy }
      flags := s.flags ||| 0x040#9 } := by
  obtain ⟨hline, -⟩ := (direct_iff s).1 hd
  let l := frameTaken code s.link.lastFrame
  have hstart : s.begin.frameStart true = s.link.mselFalls := by simp [State.frameStart, hline]
  have hbytes : State.frameBytes true s.begin (commandFrame code) = (l, zeroBytes 7) := by
    rw [State.frameBytes, hstart]
    exact takeBytes_commandFrame _ _ hf code
  have hout : pieceBits (s.begin.frameStart true).inByte (l, zeroBytes 7) (0 : Fin 8) = lowBits 56 := by
    rw [hstart, Link.inByte, Link.mselFalls, hf]
    show pieceBits 0 _ _ = _
    rw [pieceBits_zero, bitsOf_zeroBytes]
    simp
  have hnames : l.namesBusyCommand = true := by
    rw [Link.namesBusyCommand, frameTaken_command]
    simp only [Bool.and_eq_true, decide_eq_true_eq]
    exact ⟨hc, hn⟩
  have hrunning : (s.begin.drive (lowBits 56)).running = true := decide_eq_true hr
  have hstatus : (s.begin.drive (lowBits 56)).frameStatus l = .commandBusy := by
    rw [frameTaken_status, hnames, hrunning]
    rfl
  rw [show State.commandEvent code pfw = State.linkFrame ⟨true, 0, true⟩ (commandFrame code) pfw from rfl,
    linkFrame_ends s hd true (commandFrame code) 0 pfw l (zeroBytes 7) hbytes (lowBits 56) hout (.inr (.inr rfl))
      (show 56 % 8 = 0 from rfl) (show 56 + 0 ≠ 0 by decide) .commandBusy hstatus (.inl (by decide)), commandLink_eq]
  rfl

/-- Settles O45. -/
theorem commandRefusals : Obligations.CommandRefusals := by
  refine ⟨fun s h => ⟨fun hs x hx => ?_, fun code hc => commandRow_unknown s h code hc s.pfwLine, fun hs => ?_⟩,
    fun s code hd hf hr hc c hmem => ?_⟩
  · simp only [List.mem_cons, List.not_mem_nil, or_false] at hx
    obtain rfl | rfl | rfl | rfl | rfl | rfl | rfl | rfl := hx <;>
      exact commandRow_in_shutdown s h _ _ (by decide) rfl s.pfwLine hs (by decide)
  · refine ⟨fun hc => ?_, fun hc ho => ?_, fun hc => ?_, fun hc hc' => ?_, fun hc => ?_⟩
    · rw [start_runs s h hs, State.start, if_pos (show (s.commanded .start).controller ≠ _ from hc)]
      rfl
    · have hp : (s.commanded .format).operandPartition = some ⟨s.operand.toNat, ho⟩ := dif_pos ho
      rw [format_runs s h hs, State.format, hp]
      exact congrArg _ (if_pos hc)
    · rw [quiesce_runs s h hs, State.quiesce, if_pos (show (s.commanded .quiesce).controller ≠ _ from hc)]
      rfl
    · rw [resume_runs s h hs, State.resume, if_neg (by rintro (h | h); exacts [hc h, hc' h])]
      rfl
    · rw [stop_runs s h hs, State.stop, if_pos (show (s.commanded .stop).controller ≠ _ from hc)]
      rfl
  · have hcode : code ≠ 0 := by rintro rfl; exact absurd hc (by decide)
    have hunknown : commandOf code.toNat ≠ some .softReset := by rw [commandOf_unknown code hc]; decide
    simp only [List.mem_cons, List.not_mem_nil, or_false] at hmem
    obtain rfl | rfl | rfl | rfl | rfl | rfl | rfl | rfl | rfl := hmem
    case inr.inr.inr.inr.inr.inr.inr.inr => exact commandRow_busy s hd hf hr code hcode hunknown s.pfwLine
    all_goals exact commandRow_busy s hd hf hr _ (by decide) (by decide) s.pfwLine

end Sys2Proof.Machine
end

section
/-! SUPPORT. The request table's statements: an entry that leaves ORDERED, and the ends of host reads, capture reads
and home writes (R88 to R95, R37, R38). -/

namespace Sys2Proof.Machine

/-- The port's answer to a record of the memory path is delivered to its issuer and settled (R162, R167). -/
theorem takeResponse_delivers (s : State) (n : Word) (a : ArrayResult) (r : PortRecord) (hd : s.direct = true)
    (hr : s.recordOf n = some r) (hp : r.purpose.ofMemoryPath = true) :
    s.lineEvent (State.takeResponse n a) = .next ((s.begin.forget n).deliver r (r.outcome a)).settle := by
  rw [takeResponse_of_direct s n a r hd hr, State.report, if_pos hp]

/-- The response of an entry's access finds the entry, in the phase that waits for it. -/
theorem waiting_of_entry (s : State) (i : EntryId) (e : Entry) (f : Phase) (h : s.entry i = some e)
    (hf : e.phase = f) : s.waiting i f = some e := by
  simp [State.waiting, h, hf]

/-! ### Leaving ORDERED -/

/-- Nothing holds back an entry each of whose earlier neighbours on its line waits for its outcome (R88). -/
theorem not_any_incomplete_iff (e : Entry) (l : List Entry) :
    l.any (fun x => decide (x.line = e.line) && x.incomplete) = false ↔
      ∀ x ∈ l, x.line = e.line → x.phase = .awaitOutcome := by
  simp [Entry.incomplete]

theorem canLeave_iff (s : State) (i : EntryId) (e : Entry) (he : s.entry i = some e) (hf : e.phase = .ordered) :
    s.canLeave i = true ↔ s.heldBack e = false ∧ s.controller ≠ .shutdown := by
  simp [State.canLeave, he, hf]

/-- An entry that can leave ORDERED takes its point of issue (R88). -/
theorem leaveOrdered_of_canLeave (s : State) (i : EntryId) (e : Entry) (he : s.entry i = some e)
    (hf : e.phase = .ordered) (h : s.canLeave i = true) : s.leaveOrdered i = s.issueAccess e := by
  obtain ⟨hb, hc⟩ := (canLeave_iff s i e he hf).mp h
  simp [State.leaveOrdered, he, hf, hb, hc]

/-- The row of an entry that leaves ORDERED, by whether it can. -/
theorem leaveOrdered_row (s : State) (e : Entry) (hd : s.direct = true) (he : s.entry e.index = some e)
    (hf : e.phase = .ordered) :
    exec (.leaveOrdered e.index) s =
      .next (if s.heldBack e = false ∧ s.controller ≠ .shutdown then (s.begin.issueAccess e).settle else s.begin) := by
  have hw : exec (.leaveOrdered e.index) s = .next (if s.canLeave e.index then (s.begin.leaveOrdered e.index).settle else s.begin) :=
    whenever_event (s := s) (b := s.canLeave e.index) _ hd (fun x => by simp)
  rw [hw]
  by_cases h : s.canLeave e.index = true
  · rw [if_pos h, if_pos ((canLeave_iff s _ e he hf).mp h), leaveOrdered_of_canLeave s.begin _ e he hf h]
  · rw [if_neg h, if_neg (fun hc => h ((canLeave_iff s _ e he hf).mpr hc))]

theorem closedTo_iff (s : State) (line : Addr) :
    s.closedTo line = true ↔ (s.controller = .config ∨ s.controller = .recovering) ∧ s.protectedLine line = true := by
  simp [State.closedTo]

/-- Settles O11, by what holds the entry back and, at its point of issue, by its line and its path. -/
theorem entryLeavesOrdered : Obligations.EntryLeavesOrdered := by
  intro s e before after hd hreq hbefore hf
  obtain ⟨he, hheld⟩ := entry_and_heldBack_of_split s e before after hreq hbefore
  have hrow := leaveOrdered_row s e hd he hf
  have hfree : s.heldBack e = false ↔ ∀ x ∈ before, x.line = e.line → x.phase = .awaitOutcome := by
    rw [hheld, not_any_incomplete_iff]
  constructor
  · intro hstay
    rw [hrow, if_neg]
    rintro ⟨hb, hc⟩
    obtain ⟨x, hx, hl, hp⟩ | hs := hstay
    · exact hp (hfree.mp hb x hx hl)
    · exact hc hs
  · intro hb hc
    rw [if_pos ⟨hfree.mpr hb, hc⟩] at hrow
    refine ⟨fun hclosed hprot => ?_, fun hopen => ?_⟩
    · rw [hrow, State.issueAccess, if_pos ((closedTo_iff s.begin e.line).mpr ⟨hclosed, hprot⟩)]
      rfl
    · have hn : ¬ s.begin.closedTo e.line = true := by
        intro h
        obtain ⟨hcfg, hprot⟩ := (closedTo_iff s.begin e.line).mp h
        obtain ⟨h1, h2⟩ | h1 := hopen
        · exact hcfg.elim h1 h2
        · exact absurd (show s.protectedLine e.line = true from hprot) (by simp [h1])
      rw [State.issueAccess, if_neg hn] at hrow
      refine ⟨fun hp => ?_, fun hp => ?_, ?_⟩
      · rw [hrow, hp]
      · rw [hrow, hp]; rfl
      · rintro (hp | hp) <;> rw [hrow, hp] <;> rfl

/-! ### The end of a host read -/

/-- Settles O12, by the outcome, the intent and the group of the entry. -/
theorem hostReadReturns : Obligations.HostReadReturns := by
  intro s n r e hd hr hp href he hf b answer
  have hwait : b.waiting e.index .loading = some e := waiting_of_entry b _ e _ he hf
  have hrow : ∀ a, exec (.hostReadDone n a) s = .next (b.hostReadOutcome e.index (r.outcome a)).settle := by
    intro a
    show s.lineEvent (State.takeResponse n a) = _
    rw [takeResponse_delivers s n a r hd hr (by rw [hp]; rfl), State.deliver, hp, href]
  have hdata : ∀ d, r.outcome (.okay d) = .okay (d.take r.length) :=
    fun d => outcome_of_read r d (by rw [hp]; rfl)
  have hok : ∀ d, exec (.hostReadDone n (.okay d)) s = .next (b.completeAccess e (d.take r.length)).settle := by
    intro d; rw [hrow, hdata, State.hostReadOutcome, hwait]
  have herr : exec (.hostReadDone n .error) s = .next (b.readFailed e).settle := by
    rw [hrow, show r.outcome .error = .failed from rfl, State.hostReadOutcome, hwait]
  refine ⟨fun a ha => ?_, fun d ha => ⟨fun hi => ?_, fun hi hg => ?_, fun hi hg hpath => ?_⟩, fun ha => ⟨fun hg => ?_, fun t hg hc => ?_⟩⟩
  · cases a with
    | okay d => rw [hok, State.completeAccess, if_pos ha]
    | error => rw [herr, State.readFailed, if_pos ha]
  · rw [hok, State.completeAccess, if_neg (by simp [ha]), if_neg hi]; rfl
  · rw [hok, State.completeAccess, if_neg (by simp [ha]), if_pos hi, hg]; rfl
  · obtain ⟨t, hg⟩ := Option.isSome_iff_exists.mp hg
    rw [hok, State.completeAccess, if_neg (by simp [ha]), if_pos hi, hg]
    simp only [hpath, if_true]
  · rw [herr, State.readFailed, if_neg (by simp [ha]), hg]; rfl
  · have hreq : b.isCommitRequest e = true := by
      simp only [State.isCommitRequest, hg]
      exact beq_iff_eq.mpr hc
    rw [herr, State.readFailed, if_neg (by simp [ha]), hg]
    simp only [hreq, if_true]
    rfl

/-! ### The end of a capture read -/

theorem journalRuns_iff (s : State) (p : PartId) :
    s.journalRuns p = true ↔ (s.part p).state = .ready ∧ s.controller ≠ .shutdown := by
  simp [State.journalRuns]

/-- Deciding an UNDO record changes the partitions alone (R59). -/
theorem decideUndo_only (s : State) (u : UndoRef) (d : Bytes) : ∃ q, s.decideUndo u d = { s with partitions := q } := by
  unfold State.decideUndo
  split
  · exact ⟨_, rfl⟩
  · exact ⟨s.partitions, rfl⟩

theorem decideUndo_of_not_runs (s : State) (u : UndoRef) (d : Bytes) (h : s.journalRuns u.partition = false) :
    s.decideUndo u d = s := by
  rw [State.decideUndo, if_neg (by simp [h])]

/-- The two slots of an UNDO record are decided (R59, R196). -/
theorem decideUndo_of_runs (s : State) (u : UndoRef) (d : Bytes) (m m' : Mark) (info : RecordInfo)
    (h : s.journalRuns u.partition = true)
    (hk : (s.part u.partition).markIndex (s.capacity u.partition) (u.slot + 1) =
      (s.part u.partition).markIndex (s.capacity u.partition) u.slot + 1)
    (hm : (s.part u.partition).marks[(s.part u.partition).markIndex (s.capacity u.partition) u.slot]? = some m)
    (hm' : (s.part u.partition).marks[(s.part u.partition).markIndex (s.capacity u.partition) u.slot + 1]? = some m')
    (hi : m.record = some info) :
    s.decideUndo u d = s.setPart u.partition { s.part u.partition with
      marks := ((s.part u.partition).marks.set ((s.part u.partition).markIndex (s.capacity u.partition) u.slot)
        (m.decided .undoHeader (undoSlotBytes (s.part u.partition).epoch
          ((s.part u.partition).lapOf (s.capacity u.partition) u.slot) info d) m.record)).set
        ((s.part u.partition).markIndex (s.capacity u.partition) u.slot + 1) (m'.decided .undoData d (some info)) } := by
  have hinfo : ((s.part u.partition).mark (s.capacity u.partition) u.slot).bind (·.record) = some info := by
    rw [Partition.mark, hm]; exact hi
  rw [hi, State.decideUndo, if_pos h, State.modPart]
  simp only [hinfo]
  rw [modMark_twice _ _ _ _ m m' _ _ rfl hk hm hm']

theorem padUndo_of_not_runs (s : State) (u : UndoRef) (h : s.journalRuns u.partition = false) :
    s.padUndo u = s := by
  rw [State.padUndo, if_neg (by simp [h])]

/-- The two slots of an UNDO record are given PAD contents (R60). -/
theorem padUndo_of_runs (s : State) (u : UndoRef) (m m' : Mark) (h : s.journalRuns u.partition = true)
    (hk : (s.part u.partition).markIndex (s.capacity u.partition) (u.slot + 1) =
      (s.part u.partition).markIndex (s.capacity u.partition) u.slot + 1)
    (hm : (s.part u.partition).marks[(s.part u.partition).markIndex (s.capacity u.partition) u.slot]? = some m)
    (hm' : (s.part u.partition).marks[(s.part u.partition).markIndex (s.capacity u.partition) u.slot + 1]? = some m') :
    s.padUndo u = s.setPart u.partition { s.part u.partition with
      marks := ((s.part u.partition).marks.set ((s.part u.partition).markIndex (s.capacity u.partition) u.slot)
        (m.decided (.padFirst 2) (padSlotBytes 2 (s.part u.partition).epoch
          ((s.part u.partition).lapOf (s.capacity u.partition) u.slot)) none)).set
        ((s.part u.partition).markIndex (s.capacity u.partition) u.slot + 1)
        (m'.decided .padSecond (zeroBytes Config.lineBytes) none) } := by
  rw [State.padUndo, if_pos h, State.modPart]
  simp only
  rw [modMark_twice _ _ _ _ m m' _ _ rfl hk hm hm']

theorem decideUndo_part_other (s : State) (u : UndoRef) (d : Bytes) (q : PartId) (hq : q ≠ u.partition) :
    (s.decideUndo u d).part q = s.part q := by
  unfold State.decideUndo
  split
  · rw [State.modPart, part_setPart, if_neg hq]
  · rfl

theorem padUndo_part_other (s : State) (u : UndoRef) (q : PartId) (hq : q ≠ u.partition) :
    (s.padUndo u).part q = s.part q := by
  unfold State.padUndo
  split
  · rw [State.modPart, part_setPart, if_neg hq]
  · rfl

/-- The outcome of a capture read, once its response has found its record and its entry. -/
theorem captureReadDone_row (s : State) (n : Word) (r : PortRecord) (e : Entry) (hd : s.direct = true)
    (hr : s.recordOf n = some r) (hp : r.purpose = .captureRead) (href : r.ref = .entry e.index)
    (he : s.entry e.index = some e) (hf : e.phase = .capturing) :
    (∀ d, exec (.captureReadDone n (.okay d)) s =
      .next ((s.begin.forget n).captureReturned e (d.take r.length)).settle) ∧
    exec (.captureReadDone n .error) s = .next ((s.begin.forget n).captureFailed e).settle := by
  have hwait : (s.begin.forget n).waiting e.index .capturing = some e := waiting_of_entry _ _ e _ he hf
  constructor
  · intro d
    rw [captureReadDone_reports s n r e hd hr hp href, outcome_of_read r d (by rw [hp]; rfl), State.captureOutcome, hwait]
  · rw [captureReadDone_reports s n r e hd hr hp href, show r.outcome .error = .failed from rfl,
      State.captureOutcome, hwait]

/-- The state after a capture read has returned is that before it, but for the port, the rings and the entry. -/
theorem captureReturned_eq (s : State) (e : Entry) (u : UndoRef) (d : Bytes) (hu : e.undo = some u) :
    s.captureReturned e d = { s with
      partitions := (s.decideUndo u d).partitions
      requests :=
        if e.answered then s.requests.filter (fun y => y.index != e.index)
        else s.requests.map (fun y => if y.index = e.index then { y with phase := .logging } else y) } := by
  obtain ⟨q, hq⟩ := decideUndo_only s u d
  unfold State.captureReturned
  rw [hu, show (some u).elim s (fun u => s.decideUndo u d) = s.decideUndo u d from rfl, hq]
  cases e.answered <;> rfl

/-- Settles O13, by whether the ring of the record runs. -/
theorem captureReturns : Obligations.CaptureReturns := by
  intro s n r e u d hd hr hp href he hf hu cap part k
  refine ⟨(s.begin.forget n).captureReturned e (d.take r.length),
    (captureReadDone_row s n r e hd hr hp href he hf).1 d, ?_, ?_, ?_⟩
  · rw [captureReturned_eq _ e u _ hu]; rfl
  · intro hstop
    have hruns : (s.begin.forget n).journalRuns u.partition = false := by
      rw [Bool.eq_false_iff]
      intro h
      obtain ⟨hready, hc⟩ := (journalRuns_iff _ _).mp h
      exact hstop.elim hc (fun h => h hready)
    rw [captureReturned_eq _ e u _ hu, decideUndo_of_not_runs _ u _ hruns]
    rfl
  · intro info m m' hc hready hk hm hm' hi
    have hruns : (s.begin.forget n).journalRuns u.partition = true := (journalRuns_iff _ _).mpr ⟨hready, hc⟩
    have hparts : ∀ q, State.part ((s.begin.forget n).captureReturned e (d.take r.length)) q =
        State.part ((s.begin.forget n).decideUndo u (d.take r.length)) q := fun q => by
      rw [captureReturned_eq _ e u _ hu]; rfl
    refine ⟨fun q hq => ?_, ?_⟩
    · rw [hparts]; exact decideUndo_part_other _ u _ q hq
    · rw [hparts, decideUndo_of_runs (s.begin.forget n) u _ m m' info hruns hk hm hm' hi, part_setPart, if_pos rfl]
      rfl

/-- What logging an incident does, whatever the list holds (R192). -/
theorem log_eq (s : State) (i : Incident) :
    s.log i = { s with
      incidents := ({ i with stamp := s.tickCounter } :: s.incidents).take 8
      dropped := if s.incidents.length < 8 then s.dropped else min 255 (s.dropped + 1)
      flags := if s.incidents.length < 8 then s.flags else s.flags ||| 0x020#9 } := by
  unfold State.log
  by_cases h : s.incidents.length < 8
  · rw [if_pos (show s.incidents.length < Config.incidentEntries from h), if_pos h, if_pos h,
      List.take_of_length_le (by simp only [List.length_cons]; omega)]
  · rw [if_neg (show ¬ s.incidents.length < Config.incidentEntries from h), if_neg h, if_neg h]
    rfl

/-- Those whom a failed capture refuses: the entry, and those that relied on its claim (R37). -/
def State.captureRefused (s : State) (e : Entry) (t : Tag) : List Entry :=
  e :: s.relying t e.line

/-- The state a failed capture leaves, before the group looks at itself (R37). -/
def State.claimRemoved (s : State) (e : Entry) (t : Tag) (m : Member) (u : UndoRef) : State :=
  { s with
    partitions := (s.padUndo u).partitions
    responses := s.responses ++ (s.captureRefused e t).map (fun y => ⟨y.request.hostId, .arrayError, []⟩)
    requests := s.requests.filter (fun y => (s.captureRefused e t).all (fun z => y.index != z.index))
    claims := s.claims.filter (fun c => c.line != e.line)
    groups := s.groups.set t { s.group t with claimsHeld := (s.group t).claimsHeld - 1 }
    incidents := (⟨.captureFailed, s.tickCounter, some m.tag, some m.sequence, some m.partition, some e.line, none⟩ ::
      s.incidents).take 8
    dropped := if s.incidents.length < 8 then s.dropped else min 255 (s.dropped + 1)
    flags := if s.incidents.length < 8 then s.flags else s.flags ||| 0x020#9 }

theorem removeClaim_of_claimOf (s : State) (t : Tag) (line : Addr) (c : Claim) (hc : s.claimOf line = some c)
    (ht : c.tag = t) : s.removeClaim t line =
      (s.dropClaim line).modGroup t (fun g => { g with claimsHeld := g.claimsHeld - 1 }) := by
  unfold State.removeClaim
  rw [hc]
  exact if_pos ht

theorem captureRemoval_eq (s : State) (e : Entry) (t : Tag) (m : Member) (u : UndoRef) (c : Claim)
    (hm : e.member = some m) (hu : e.undo = some u) (hc : s.claimOf e.line = some c) (ht : c.tag = t) :
    s.captureRemoval e t = (s.claimRemoved e t m u).afterRemoval t ((s.captureRefused e t).any s.isCommitRequest) := by
  obtain ⟨logged, hlog⟩ : ∃ x, x = (s.finishEntry e .arrayError []).log
    { Incident.ofMember .captureFailed m with line := some e.line } := ⟨_, rfl⟩
  have hlogged := hlog.trans (log_eq _ _)
  obtain ⟨q, hq⟩ := padUndo_only logged u
  obtain ⟨hparts, -, -⟩ := padUndo_sameRings (show SameRings logged s by rw [hlogged]; exact ⟨rfl, rfl, rfl⟩) u
  rw [hq] at hparts
  obtain rfl : q = (s.padUndo u).partitions := hparts
  have hclaim : (logged.padUndo u).claimOf e.line = some c := by rw [hq, hlogged]; exact hc
  have hunfold : s.captureRemoval e t =
      ((s.relying t e.line).foldl (fun s x => s.finishEntry x .arrayError []) ((logged.padUndo u).removeClaim t e.line)).afterRemoval
        t ((s.captureRefused e t).any s.isCommitRequest) := by
    unfold State.captureRemoval
    rw [hm, hu]
    simp only [← hlog]
    rfl
  have hrequests : (s.requests.filter (fun y => y.index != e.index)).filter
      (fun y => (s.relying t e.line).all (fun z => y.index != z.index)) =
      s.requests.filter (fun y => (s.captureRefused e t).all (fun z => y.index != z.index)) := by
    rw [List.filter_filter]
    exact List.filter_congr fun y _ => Bool.and_comm _ _
  have hresponses : (s.responses ++ [⟨e.request.hostId, .arrayError, []⟩]) ++
      (s.relying t e.line).map (fun y => (⟨y.request.hostId, .arrayError, []⟩ : Response)) =
      s.responses ++ (s.captureRefused e t).map (fun y => ⟨y.request.hostId, .arrayError, []⟩) :=
    List.append_assoc _ _ _
  rw [hunfold, removeClaim_of_claimOf _ t e.line c hclaim ht, foldl_finish, hq, hlogged]
  refine congrArg (fun x => State.afterRemoval t _ x) ?_
  rw [State.claimRemoved, ← hrequests, ← hresponses]
  simp only [State.modGroup, State.setGroup, State.dropClaim, State.finishEntry, State.dropEntry, State.answer,
    State.respond, State.group, Incident.ofMember, Incident.bare]
  rfl

/-- The group whose commit request a failed capture refuses. -/
theorem captureRefused_any_iff (s : State) (e : Entry) (t : Tag) (hg : e.group = some t) :
    (s.captureRefused e t).any s.isCommitRequest = true ↔
      ∃ y ∈ s.captureRefused e t, (s.group t).commitRequest = some y.index := by
  have hgroup : ∀ y ∈ s.captureRefused e t, y.group = some t := by
    intro y hy
    obtain rfl | hy := List.mem_cons.mp hy
    · exact hg
    · simpa using (List.mem_filter.mp (List.mem_filter.mp hy).1).2
  rw [List.any_eq_true]
  refine exists_congr fun y => and_congr_right fun hy => ?_
  simp only [State.isCommitRequest, hgroup y hy, beq_iff_eq]

/-- The rings once an UNDO record's slots have PAD contents, mark by mark (R60). -/
theorem padUndo_part_self (s : State) (u : UndoRef) (m m' : Mark) (h : s.journalRuns u.partition = true)
    (hk : (s.part u.partition).markIndex (s.capacity u.partition) (u.slot + 1) =
      (s.part u.partition).markIndex (s.capacity u.partition) u.slot + 1)
    (hm : (s.part u.partition).marks[(s.part u.partition).markIndex (s.capacity u.partition) u.slot]? = some m)
    (hm' : (s.part u.partition).marks[(s.part u.partition).markIndex (s.capacity u.partition) u.slot + 1]? = some m') :
    (s.padUndo u).part u.partition = { s.part u.partition with
      marks := ((s.part u.partition).marks.set ((s.part u.partition).markIndex (s.capacity u.partition) u.slot)
        (m.decided (.padFirst 2) (padSlotBytes 2 (s.part u.partition).epoch
          ((s.part u.partition).lapOf (s.capacity u.partition) u.slot)) none)).set
        ((s.part u.partition).markIndex (s.capacity u.partition) u.slot + 1)
        (m'.decided .padSecond (zeroBytes Config.lineBytes) none) } := by
  rw [padUndo_of_runs s u m m' h hk hm hm', part_setPart, if_pos rfl]

/-- Those a failed capture refuses, as entries of the request table (R37). -/
theorem captureRefused_eq (s : State) (e : Entry) (t : Tag) :
    s.captureRefused e t = e :: s.requests.filter (fun y => decide (y.group = some t) && decide (y.line = e.line) &&
      decide (y.path = .ownClaim) && decide (y.phase = .ordered)) := by
  rw [State.captureRefused, State.relying, State.members, List.filter_filter]
  refine congrArg _ (List.filter_congr fun y _ => ?_)
  by_cases h : y.group = some t <;> simp [h]

/-! What the group does once its claim is gone (R6, R11). -/

theorem afterRemoval_frees (s : State) (t : Tag) (lost : Bool) (p : PartId) (h0 : (s.group t).claimsHeld = 0)
    (hp : (s.group t).partition = some p)
    (h : (s.group t).state = .opened ∨ (s.group t).state = .draining ∧ lost = true) :
    s.afterRemoval t lost = (s.freeGroup t).releaseReservation p := by
  unfold State.afterRemoval
  rw [if_pos ⟨h0, h⟩, hp]

theorem afterRemoval_revokes (s : State) (t : Tag) (lost : Bool) (h0 : (s.group t).claimsHeld ≠ 0)
    (h : lost = true) : s.afterRemoval t lost = (s.dropCommit t).revoke t .array := by
  unfold State.afterRemoval
  rw [if_neg fun hc => h0 hc.1, if_pos h]

theorem afterRemoval_goes_on (s : State) (t : Tag) (lost : Bool)
    (h : (s.group t).claimsHeld ≠ 0 ∨ (s.group t).state ≠ .opened) (hl : lost = false) :
    s.afterRemoval t lost = s := by
  unfold State.afterRemoval
  rw [if_neg, if_neg (by simp [hl])]
  rintro ⟨h0, hs⟩
  obtain h | h := h
  · exact h h0
  · exact hs.elim h fun hc => by simp [hl] at hc

theorem alive_iff (g : GroupState) : g.alive = true ↔ g = .opened ∨ g = .draining := by
  cases g <;> simp [GroupState.alive]

/-- Settles O14, by whether the failed capture's group is alive and what it has left. -/
theorem captureFails : Obligations.CaptureFails := by
  intro s n r e u hd hr hp href he hf hu alive cap part k padded outcome left
  have hrow : outcome = .next ((s.begin.forget n).captureFailed e).settle :=
    (captureReadDone_row s n r e hd hr hp href he hf).2
  have hpadded : ∀ x : State, x.partitions = ((s.begin.forget n).padUndo u).partitions → padded x := by
    intro x hx
    have hpart : ∀ q, x.part q = State.part ((s.begin.forget n).padUndo u) q := fun q => by simp only [State.part, hx]
    refine ⟨fun q hq => ?_, fun hruns => ?_, fun hruns m m' hk hm hm' => ?_⟩
    · rw [hpart]; exact padUndo_part_other _ u q hq
    · rw [hpart, padUndo_of_not_runs (s.begin.forget n) u hruns]; rfl
    · rw [hpart]; exact padUndo_part_self (s.begin.forget n) u m m' hruns hk hm hm'
  constructor
  · intro hstays
    have hnone : (s.begin.forget n).aliveGroup e = none := by
      rw [State.aliveGroup, Option.filter_eq_none_iff]
      intro t ht
      obtain ha | hn := hstays
      · simp [ha]
      · have : (s.groupState t).alive = false := by
          rw [Bool.eq_false_iff]; exact fun h => hn t ht ((alive_iff _).mp h)
        have hs : (State.forget n s.begin).groupState t = s.groupState t := rfl
        simp [hs, this]
    obtain ⟨q, hq⟩ := padUndo_only (s.begin.forget n) u
    refine ⟨((s.begin.forget n).padUndo u).dropEntry e.index, ?_, hpadded _ rfl, ?_⟩
    · rw [hrow, State.captureFailed, hnone, hu]; rfl
    · rw [hq]; rfl
  · intro t m c p ha hg hal hm hc ht hpart refused lost held
    let x := (s.begin.forget n).claimRemoved e t m u
    have hsome : (s.begin.forget n).aliveGroup e = some t := by
      rw [State.aliveGroup, hg]
      have : (State.forget n s.begin).groupState t = s.groupState t := rfl
      simp [Option.filter, ha, this, (alive_iff _).mpr hal]
    have hfail : (s.begin.forget n).captureFailed e =
        x.afterRemoval t (((s.begin.forget n).captureRefused e t).any (s.begin.forget n).isCommitRequest) := by
      rw [State.captureFailed, hsome]
      exact captureRemoval_eq (s.begin.forget n) e t m u c hm hu hc ht
    have hlost : ((s.begin.forget n).captureRefused e t).any (s.begin.forget n).isCommitRequest = true ↔ lost := by
      rw [captureRefused_any_iff _ e t hg, captureRefused_eq]
      exact Iff.rfl
    have hgroup : x.group t = { s.group t with claimsHeld := held - 1 } := setGroup_group_self s t _
    have hstate : (x.group t).state = s.groupState t := by rw [hgroup]; rfl
    refine ⟨x, hpadded x rfl, rfl, ?_, ?_, ?_, ?_⟩
    · simp only [x, State.claimRemoved, captureRefused_eq]
      rfl
    · intro hle hcase
      rw [hrow, hfail, afterRemoval_frees x t _ p (by rw [hgroup]; exact Nat.sub_eq_zero_of_le hle)
        (by rw [hgroup]; exact hpart)]
      · rfl
      · rw [hstate, hlost]
        obtain ho | hdr := hal
        · exact .inl ho
        · exact hcase.imp_right fun hl => ⟨hdr, hl⟩
    · intro hle hl
      rw [hrow, hfail, afterRemoval_revokes x t _ (by rw [hgroup]; show held - 1 ≠ 0; omega) (hlost.mpr hl)]
      rfl
    · intro hcase hl
      rw [hrow, hfail, afterRemoval_goes_on x t _ ?_ (Bool.eq_false_iff.mpr fun h => hl (hlost.mp h))]
      rw [hstate, hgroup]
      obtain hle | hdr := hcase
      · exact .inl (by show held - 1 ≠ 0; omega)
      · exact .inr (by rw [hdr]; decide)

/-! ### The end of a home write -/

/-- HOME_WRITE_FAILED, as it is logged for a member of a group (R92). -/
def Member.homeWriteIncident (m : Member) (line : Addr) : Incident :=
  ⟨.homeWriteFailed, 0, some m.tag, some m.sequence, some m.partition, some line, none⟩

theorem logHomeWrite_of_member (s : State) (e : Entry) (m : Member) (hm : e.member = some m) :
    s.logHomeWrite e = s.log (m.homeWriteIncident e.line) := by
  unfold State.logHomeWrite
  rw [hm]
  rfl

theorem logHomeWrite_of_none (s : State) (e : Entry) (hm : e.member = none) : s.logHomeWrite e = s := by
  unfold State.logHomeWrite
  rw [hm]

/-- What logging an incident does, by the room in the list (R192). -/
theorem log_by_room (i : Incident) (x : State) :
    (x.incidents.length < 8 → x.log i = { x with incidents := { i with stamp := x.tickCounter } :: x.incidents }) ∧
    (8 ≤ x.incidents.length →
      x.log i = { x with
        incidents := { i with stamp := x.tickCounter } :: x.incidents.take 7
        dropped := if x.dropped < 255 then x.dropped + 1 else 255
        flags := x.flags ||| 0x020#9 }) := by
  constructor
  · intro h
    exact if_pos h
  · intro h
    have hd : (if x.dropped < 255 then x.dropped + 1 else 255) = min 255 (x.dropped + 1) := by split <;> omega
    rw [hd]
    exact if_neg (Nat.not_lt.mpr h)

/-- Settles O15, by the outcome, the intent and the group of the entry. -/
theorem homeWriteEnds : Obligations.HomeWriteEnds := by
  refine ⟨log_by_room, ?_⟩
  intro s n r e hd hr hp href he hf b answer
  have hwait : b.waiting e.index .storing = some e := waiting_of_entry b _ e _ he hf
  have hrow : ∀ a, exec (.homeWriteDone n a) s = .next (b.homeWriteOutcome e.index (r.outcome a)).settle := by
    intro a
    show s.lineEvent (State.takeResponse n a) = _
    rw [takeResponse_delivers s n a r hd hr (by rw [hp]; rfl), State.deliver, hp, href]
  have hok : ∀ d, exec (.homeWriteDone n (.okay d)) s = .next (b.completeAccess e []).settle := by
    intro d; rw [hrow, outcome_of_write r d (by rw [hp]; rfl), State.homeWriteOutcome, hwait]
  have herr : exec (.homeWriteDone n .error) s = .next (b.homeWriteFailed e).settle := by
    rw [hrow, show r.outcome .error = .failed from rfl, State.homeWriteOutcome, hwait]
  have hlate : e.answered = true → b.homeWriteFailed e = (b.dropEntry e.index).logHomeWrite e := fun ha => by
    rw [State.homeWriteFailed, if_pos ha]
  refine ⟨fun d => ⟨fun ha => ?_, fun ha hi => ?_, fun ha hi hg => ?_, fun ha hi hg hpath => ?_⟩, fun ha hm => ?_,
    fun ha hg hm => ?_, ?_⟩
  · rw [hok, State.completeAccess, if_pos ha]
  · rw [hok, State.completeAccess, if_neg (by simp [ha]), if_neg hi]; rfl
  · rw [hok, State.completeAccess, if_neg (by simp [ha]), if_pos hi, hg]; rfl
  · obtain ⟨t, hg⟩ := Option.isSome_iff_exists.mp hg
    rw [hok, State.completeAccess, if_neg (by simp [ha]), if_pos hi, hg]
    simp only [hpath, if_false]
  · rw [herr, hlate ha, logHomeWrite_of_none _ e hm]
  · rw [herr, State.homeWriteFailed, if_neg (by simp [ha]), hg]
    simp only [logHomeWrite_of_none _ e hm]
    rfl
  · intro m hm incident refused
    refine ⟨fun ha => ?_, fun t ha hg => ?_⟩
    · rw [herr, hlate ha, logHomeWrite_of_member _ e m hm]
      rfl
    · have hfail : b.homeWriteFailed e =
          (if b.isCommitRequest e then refused.dropCommit t else refused).revoke t .array := by
        rw [State.homeWriteFailed, if_neg (by simp [ha]), hg]
        simp only [logHomeWrite_of_member _ e m hm]
        rfl
      have hreq : b.isCommitRequest e = true ↔ (s.group t).commitRequest = some e.index := by
        simp only [State.isCommitRequest, hg]
        exact beq_iff_eq
      rw [herr, hfail]
      exact ⟨fun hc => by rw [if_neg fun h => hc (hreq.mp h)], fun hc => by rw [if_pos (hreq.mpr hc)]; rfl⟩

end Sys2Proof.Machine
end

section
/-! SUPPORT. The journal's statements: the drain, the READY run, the ends of slot and header writes, and retirement
(R12, R51, R61 to R70). -/

namespace Sys2Proof.Machine

/-! ### The drain and the READY run -/

theorem drained_iff (s : State) (t : Tag) :
    s.drained t = true ↔ ∀ e ∈ s.requests, e.group = some t → e.phase = .awaitOutcome := by
  simp [State.drained, State.members, Entry.incomplete]

theorem canDrain_iff (s : State) (t : Tag) :
    s.canDrain t = true ↔ s.groupState t = .draining ∧ (∀ e ∈ s.requests, e.group = some t → e.phase = .awaitOutcome) ∧
      s.controller ≠ .shutdown := by
  rw [← drained_iff]
  simp [State.canDrain, and_assoc]

/-- A closing record placed in a partition that runs (R58). -/
theorem placeClosing_of_runs (s : State) (t : Tag) (kind : SlotKind) (code : Byte) (p : PartId)
    (hp : (s.group t).partition = some p) (hr : s.journalRuns p = true) :
    s.placeClosing t kind code =
      s.setPart p ((s.part p).placeClosing (s.size p) kind code ((s.group t).closingInfo t)) := by
  unfold State.placeClosing
  rw [hp]
  exact if_pos hr

/-- A group with nothing outstanding seals, and its COMMIT record is placed (R12). -/
theorem drain_of_canDrain (s : State) (t : Tag) (p : PartId) (h : s.canDrain t = true)
    (hp : (s.group t).partition = some p) (hr : s.journalRuns p = true) :
    s.drain t = (s.modGroup t (fun g => { g with state := .sealing })).setPart p
      ((s.part p).placeClosing (s.size p) .commit kindCommit ((s.group t).closingInfo t)) := by
  have hgroup : (s.modGroup t (fun g => { g with state := .sealing })).group t = { s.group t with state := .sealing } :=
    setGroup_group_self s t _
  have hplace := placeClosing_of_runs (s.modGroup t (fun g => { g with state := .sealing })) t .commit kindCommit p
    (by rw [hgroup]; exact hp) hr
  rw [hgroup] at hplace
  exact (if_pos h).trans hplace

/-- Settles O16, by whether the group can drain. -/
theorem drainPlacesCommit : Obligations.DrainPlacesCommit := by
  intro s t hd
  have hrow : exec (.drainComplete t) s = .next (if s.canDrain t then (s.begin.drain t).settle else s.begin) :=
    whenever_event (s := s) (b := s.canDrain t) _ hd (fun x => by simp)
  constructor
  · intro hstays
    rw [hrow, if_neg]
    intro h
    obtain ⟨hg, hm, hc⟩ := (canDrain_iff s t).mp h
    obtain h1 | h1 | ⟨e, he, hgr, hp⟩ := hstays
    · exact h1 hg
    · exact hc h1
    · exact hp (hm e he hgr)
  · intro p v c hg hm hc hp hready hv hu part info
    have hcan : s.canDrain t = true := (canDrain_iff s t).mpr ⟨hg, hm, hc⟩
    have hinfo : (s.group t).closingInfo t = info := by simp [Group.closingInfo, hv, hu, info]
    rw [hrow, if_pos hcan, drain_of_canDrain s.begin t p hcan hp ((journalRuns_iff _ p).mpr ⟨hready, hc⟩),
      show (s.begin.group t).closingInfo t = info from hinfo]
    rfl

/-- Settles O17. -/
theorem readyRunIsIssued : Obligations.ReadyRunIsIssued := by
  intro s p hd
  have hrow : exec (.slotIssue p) s = .next (s.begin.issueSlots p) :=
    lineEvent_of_setup s (State.issueSlots p) hd (by simp)
  constructor
  · intro hr
    rw [hrow, State.issueSlots, if_neg (Bool.eq_false_iff.mp (show s.begin.journalRuns p = false from hr))]
  · intro hr part due
    obtain ⟨records, v, hfold, hrecords⟩ := issueSlots_fold p (fun k => (part.durableTail.advance (s.capacity p) k).slot)
      (readyRun 0 part.marks) (s.begin.setPart p { part with marks := issueMarks part.marks })
    have hissue : s.begin.issueSlots p =
        { s.begin.setPart p { part with marks := issueMarks part.marks } with
          outstanding := s.outstanding ++ records, issueCounter := v } := by
      rw [State.issueSlots, if_pos (show s.begin.journalRuns p = true from hr)]
      exact hfold
    have hpart : ∀ q, State.part (s.begin.issueSlots p) q =
        if q = p then { part with marks := issueMarks part.marks } else s.part q := fun q => by
      rw [hissue]
      exact part_setPart s.begin p q _
    refine ⟨_, records, hrow, by rw [hissue], ?_, ?_, fun k => ?_, fun q hq => ?_, ?_⟩
    · rw [hrecords, readyRun_eq]
      simp only [List.map_map, Nat.zero_add]
      refine List.map_congr_left fun k hk => ?_
      have hlt : k < part.marks.length := List.mem_range.mp (List.mem_filter.mp hk).1
      simp only [Function.comp_apply, List.getElem?_eq_getElem hlt]
      rfl
    · rw [hpart, if_pos rfl]
    · rw [hpart, if_pos rfl]
      exact issueMarks_eq part.marks k
    · rw [hpart, if_neg hq]
    · rw [hissue]
      rfl

/-! ### Retirement and header writes -/

theorem not_sequenceHeld_iff (s : State) (v : Word) :
    s.sequenceHeld v = false ↔
      ∀ t : Tag, (s.group t).sequence = some v → s.groupState t = .free ∨ s.groupState t = .halted := by
  have hholds : ∀ g : GroupState, g.holdsSpans = false ↔ g = .free ∨ g = .halted := fun g => by
    cases g <;> simp [GroupState.holdsSpans]
  simp only [State.sequenceHeld, List.any_eq_false, mem_groups_toList, Bool.and_eq_true, decide_eq_true_eq, not_and]
  constructor
  · intro h t hv
    rw [← hholds, Bool.eq_false_iff]
    exact fun hh => h _ ⟨t, rfl⟩ hh hv
  · rintro h g ⟨t, rfl⟩ hh hv
    exact absurd hh (Bool.eq_false_iff.mp ((hholds _).mpr (h t hv)))

theorem retirable_of_none (s : State) (x : Span) (h : x.sequence = none) : s.retirable x = true := by
  unfold State.retirable
  rw [h]

theorem retirable_of_some (s : State) (x : Span) (v : Word) (h : x.sequence = some v) :
    s.retirable x = !s.sequenceHeld v := by
  unfold State.retirable
  rw [h]

/-- A span that retirement may not take belongs to a group that holds it (R66). -/
theorem exists_holder_of_not_retirable (s : State) (x : Span) (h : s.retirable x = false) :
    ∃ v t, x.sequence = some v ∧ (s.group t).sequence = some v ∧ s.groupState t ≠ .free ∧ s.groupState t ≠ .halted := by
  cases hx : x.sequence with
  | none => simp [retirable_of_none s x hx] at h
  | some v =>
    rw [retirable_of_some s x v hx, Bool.not_eq_false', ← Bool.not_eq_false, not_sequenceHeld_iff] at h
    push Not at h
    obtain ⟨t, ht, hs⟩ := h
    exact ⟨v, t, rfl, ht, hs⟩

/-- The partition as a retirement run leaves it, before it considers a header write (R66). -/
def State.retiredPart (s : State) (p : PartId) : Partition :=
  { s.part p with
    spans := keptSpans s.retirable
      (frontCount (s.part p).marks - (s.part p).durableTail.dist (s.capacity p) (s.part p).workingTail) (s.part p).spans
    workingTail := (s.part p).workingTail.advance (s.capacity p)
      (retiredSlots s.retirable
        (frontCount (s.part p).marks - (s.part p).durableTail.dist (s.capacity p) (s.part p).workingTail)
        (s.part p).spans) }

theorem retire_of_runs (s : State) (p : PartId) (h : s.journalRuns p = true) :
    s.retire p = (s.setPart p (s.retiredPart p)).considerHeader p :=
  if_pos h

theorem retire_of_not_runs (s : State) (p : PartId) (h : s.journalRuns p = false) : s.retire p = s :=
  if_neg (Bool.eq_false_iff.mp h)

/-- A header write moves none of the spans and positions of its partition. -/
theorem considerHeader_part (s : State) (p : PartId) :
    ∃ w, (s.considerHeader p).part p = { s.part p with headerWrite := w } := by
  unfold State.considerHeader
  dsimp only
  split
  · exact ⟨_, (part_setPart s p p _).trans (if_pos rfl)⟩
  · exact ⟨(s.part p).headerWrite, rfl⟩

theorem journalRuns_setPart (s : State) (p : PartId) (x : Partition) (h : x.state = (s.part p).state) :
    (s.setPart p x).journalRuns p = s.journalRuns p := by
  unfold State.journalRuns
  rw [part_setPart, if_pos rfl, h]
  rfl

/-- Settles O23, from what a retirement run takes and what then considers a header write. -/
theorem retirementAdvancesTail : Obligations.RetirementAdvancesTail := by
  intro s p hr part cap passed
  obtain ⟨gone, hspans, hslots, hgone, hsum, hnext⟩ := retired_spec s.retirable part.spans passed
  have hself : (s.setPart p (s.retiredPart p)).part p = s.retiredPart p := by rw [part_setPart, if_pos rfl]
  have hruns : (s.setPart p (s.retiredPart p)).journalRuns p = true :=
    (journalRuns_setPart s p (s.retiredPart p) rfl).trans hr
  have hretire := retire_of_runs s p hr
  obtain ⟨w, hpart⟩ := considerHeader_part (s.setPart p (s.retiredPart p)) p
  rw [hself, ← hretire] at hpart
  have hkept : ((s.retire p).part p).spans = keptSpans s.retirable passed part.spans := by rw [hpart]; rfl
  have htail : ((s.retire p).part p).workingTail = part.workingTail.advance cap (gone.map (·.count)).sum := by
    rw [hpart, ← hslots]; rfl
  have hworking : (s.retiredPart p).workingTail = part.workingTail.advance cap (gone.map (·.count)).sum := by
    rw [← hslots]; rfl
  refine ⟨gone, hkept ▸ hspans, fun x hx v hv t ht => ?_, hsum, fun x rest hx => ?_, htail, fun hahead hnone => ?_,
    fun hstill => ?_⟩
  · have := hgone x hx
    rw [retirable_of_some s x v hv, Bool.not_eq_true'] at this
    exact (not_sequenceHeld_iff s v).mp this t ht
  · exact (hnext x rest (hkept ▸ hx)).imp_right (exists_holder_of_not_retirable s x)
  · have hissue := considerHeader_issue (s.setPart p (s.retiredPart p)) p (s.retiredPart p) hself hruns
      (by rw [hworking]; exact hahead) hnone _ rfl
    rw [hworking] at hissue
    rw [hretire, hissue]
    exact ⟨congrArg Partition.headerWrite ((part_setPart _ p p _).trans (if_pos rfl)), _, rfl, rfl, rfl, rfl⟩
  · have hstay : (s.setPart p (s.retiredPart p)).considerHeader p = s.setPart p (s.retiredPart p) := by
      refine considerHeader_still _ p (.inr ?_)
      rw [hself]
      exact hstill.imp (fun h => hworking.trans h) fun h => by
        show part.headerWrite ≠ none
        exact Option.isSome_iff_ne_none.mp h
    rw [hretire, hstay, hself]
    exact ⟨rfl, rfl⟩

/-! ### The end of a header write -/

/-- SLOT_RETRIED of an acknowledged attempt: logged at a second one (R62, R68). -/
theorem logRetried_eq (s : State) (p : PartId) (slot n : Nat) (r : Option RecordInfo) :
    s.logRetried p slot n r = if n = 2 then
      s.log ⟨.slotRetried, 0, r.map (·.tag), r.map (·.sequence), some p, r.bind (·.line), some slot⟩ else s := rfl

/-- Logging and a change of a partition do not meet. -/
theorem log_setPart (s : State) (i : Incident) (p : PartId) (x : Partition) :
    (s.setPart p x).log i = (s.log i).setPart p x := by
  rw [log_eq, log_eq]
  rfl

theorem logRetried_setPart (s : State) (q p : PartId) (slot n : Nat) (r : Option RecordInfo) (x : Partition) :
    (s.setPart q x).logRetried p slot n r = (s.logRetried p slot n r).setPart q x := by
  rw [logRetried_eq, logRetried_eq]
  split
  · exact log_setPart s _ q x
  · rfl

/-- The partition as an acknowledged header write leaves it (R68). -/
def Partition.headerMoved (cap : Nat) (w : HeaderWrite) (part : Partition) : Partition :=
  { part with
    marks := part.marks.drop (part.durableTail.dist cap w.tail)
    durableTail := w.tail, generation := w.generation, headerWrite := none }

theorem headerAcknowledged_eq (s : State) (p : PartId) (w : HeaderWrite) :
    s.headerAcknowledged p w = ((s.logRetried p (headerSlotOf w.generation) w.attempt none).setPart p
      ((s.part p).headerMoved (s.capacity p) w)).considerHeader p := by
  rw [← logRetried_setPart]
  rfl

/-- Settles O24, by the outcome of the header write and what it finds. -/
theorem headerWriteEnds : Obligations.HeaderWriteEnds := by
  intro s n r p c w hd hr hp href hw part b copySlot idle moved retried
  have hrow : ∀ a, exec (.headerWriteDone n a) s = .next (b.headerOutcome p (r.outcome a)).settle := by
    intro a
    show s.lineEvent (State.takeResponse n a) = _
    rw [takeResponse_delivers s n a r hd hr (by rw [hp]; rfl), State.deliver, hp, href]
  have hwb : (b.part p).headerWrite = some w := hw
  have hok : ∀ d, exec (.headerWriteDone n (.okay d)) s = .next (b.headerAcknowledged p w).settle := by
    intro d; rw [hrow, outcome_of_write r d (by rw [hp]; rfl), State.headerOutcome, hwb]
  have herr : exec (.headerWriteDone n .error) s = .next (b.headerFailed p w).settle := by
    rw [hrow, show r.outcome .error = .failed from rfl, State.headerOutcome, hwb]
  have hack : b.headerAcknowledged p w = ((retried b).setPart p moved).considerHeader p := headerAcknowledged_eq b p w
  have hself : ((retried b).setPart p moved).part p = moved := by rw [part_setPart, if_pos rfl]
  obtain ⟨a, dr, f, hretried⟩ := logRetried_only b p copySlot w.attempt none
  have hruns : ((retried b).setPart p moved).journalRuns p = s.journalRuns p := by
    rw [show retried b = _ from hretried]
    exact journalRuns_setPart _ p moved rfl
  refine ⟨fun d => ⟨fun hstill => ?_, fun hahead hj => ?_⟩, fun ha hc => ?_, fun ha hc => ?_, fun ha _ => ?_⟩
  · rw [hok, hack, considerHeader_still _ p]
    · exact congrArg (fun x : State => Host.Outcome.next x.settle) (logRetried_setPart b p p copySlot w.attempt none moved).symm
    · rw [hruns, hself]
      exact hstill.symm.imp id .inl
  · intro generation copy
    have hissue := considerHeader_issue ((retried b).setPart p moved) p moved hself (hruns.trans hj) hahead rfl _ rfl
    rw [hok, hack, hissue]
    rw [show retried b = _ from hretried, State.setPart, State.setPart]
    simp only [Vector.set_set]
    rfl
  · rw [herr, State.headerFailed, if_pos ha]
    exact congrArg _ (congrArg _ (if_neg hc))
  · rw [herr, State.headerFailed, if_pos ha]
    exact congrArg _ (congrArg _ (if_pos hc))
  · rw [herr, State.headerFailed, if_neg (by simp [ha])]
    rfl

end Sys2Proof.Machine
end

section
/-! SUPPORT. What the acknowledged front hands on: UNDO, COMMIT and UNWOUND records, and the end of any ring slot write
(R51, R62 to R66, R70, R112). -/

namespace Sys2Proof.Machine

/-- SLOT_RETRIED reads and writes the incident list alone: what else a state holds stands beside it (R62). -/
theorem logRetried_frame (x y : State) (p : PartId) (slot n : Nat) (r : Option RecordInfo)
    (hi : y.incidents = x.incidents) (hdr : y.dropped = x.dropped) (hf : y.flags = x.flags)
    (ht : y.tickCounter = x.tickCounter) :
    y.logRetried p slot n r = { y with
      incidents := (x.logRetried p slot n r).incidents, dropped := (x.logRetried p slot n r).dropped
      flags := (x.logRetried p slot n r).flags } := by
  rw [logRetried_eq, logRetried_eq]
  split
  · rw [log_eq, log_eq, hi, hdr, hf, ht]
  · rw [← hi, ← hdr, ← hf]

/-- The state in which the front has passed a slot, before it hands anything on (R51, R62). -/
def State.slotPassed (s : State) (n : Word) (p : PartId) (k : Nat) (m : Mark) : State :=
  State.logRetried p ((s.part p).durableTail.advance (s.capacity p) k).slot m.attempt m.record { s with
    responses := [], mdo := [], joined := 0, outstanding := s.outstanding.filter (fun r => r.number != n)
    partitions := s.partitions.set p
      { s.part p with marks := (s.part p).marks.set k { m with progress := .acknowledged } } }

theorem slotPassed_frame (s : State) (n : Word) (p : PartId) (k : Nat) (m : Mark) :
    ∃ a d f, s.slotPassed n p k m = { s with
      responses := [], mdo := [], joined := 0, outstanding := s.outstanding.filter (fun r => r.number != n)
      partitions := s.partitions.set p
        { s.part p with marks := (s.part p).marks.set k { m with progress := .acknowledged } }
      incidents := a, dropped := d, flags := f } :=
  logRetried_only _ _ _ _ _

/-- The acknowledged write of a slot, by the slots that the front then passes (R51, R63, R66). -/
theorem slotWriteDone_passed (s : State) (n : Word) (p : PartId) (k : Nat) (m : Mark) (hd : s.direct = true)
    (h : s.slotAnswered n p k m) (passed : List (Nat × Mark))
    (hp : Partition.newlyPassed (s.capacity p) (frontCount (s.part p).marks)
      (frontCount ((s.part p).marks.set k { m with progress := .acknowledged }))
      { s.part p with marks := (s.part p).marks.set k { m with progress := .acknowledged } } = passed) (d : Bytes) :
    exec (.slotWriteDone n (.okay d)) s =
      .next (if passed.any (fun y => (s.slotPassed n p k m).triggersRetirement y.2) then
          (passed.foldl (State.handOn p) (s.slotPassed n p k m)).retire p
        else passed.foldl (State.handOn p) (s.slotPassed n p k m)).settle := by
  have hrow := slotWriteDone_acknowledges s n p k m hd h passed hp d
  have hX := logRetried_frame s { s with
    responses := [], mdo := [], joined := 0, outstanding := s.outstanding.filter (fun r => r.number != n)
    partitions := s.partitions.set p
      { s.part p with marks := (s.part p).marks.set k { m with progress := .acknowledged } } } p
    ((s.part p).durableTail.advance (s.capacity p) k).slot m.attempt m.record rfl rfl rfl rfl
  obtain ⟨a, dr, f, hb⟩ := logRetried_only s p ((s.part p).durableTail.advance (s.capacity p) k).slot m.attempt m.record
  rw [State.slotPassed, hX, hb]
  rw [hb] at hrow
  exact hrow

/-- The front passes one slot alone. -/
theorem slotWriteDone_passes_one (s : State) (n : Word) (p : PartId) (k : Nat) (m : Mark) (hd : s.direct = true)
    (h : s.slotAnswered n p k m) (hf : s.frontMeets p k) (d : Bytes) :
    exec (.slotWriteDone n (.okay d)) s =
      .next (if (s.slotPassed n p k m).triggersRetirement { m with progress := .acknowledged } then
          (State.handOn p (s.slotPassed n p k m) (((s.part p).durableTail.advance (s.capacity p) k).slot,
            { m with progress := .acknowledged })).retire p
        else State.handOn p (s.slotPassed n p k m) (((s.part p).durableTail.advance (s.capacity p) k).slot,
            { m with progress := .acknowledged })).settle := by
  rw [slotWriteDone_passed s n p k m hd h _ (newlyPassed_of_meets s n p k m h hf _ rfl) d]
  simp only [List.any_cons, List.any_nil, Bool.or_false, List.foldl_cons, List.foldl_nil]

theorem handOn_commit (p : PartId) (X : State) (x : Nat × Mark) (info : RecordInfo) (h1 : x.2.kind = .commit)
    (h2 : x.2.record = some info) :
    State.handOn p X x = if X.journalRuns p then X.commitPassed info else X := by
  unfold State.handOn
  simp only [h1, h2]

/-! ### UNDO records (O21) -/

theorem undoPassed_of_waiting (s : State) (p : PartId) (slot : Nat) (info : RecordInfo) (e : Entry)
    (h : s.requests.find? (fun e => decide (e.phase = .logging) && decide (e.undo = some ⟨p, slot⟩)) = some e) :
    s.undoPassed p slot info = State.issueHomeWrite e { s with
      claims := s.claims.map fun c => if c.tag = info.tag ∧ c.undoSlot = slot then { c with logged := true } else c } := by
  unfold State.undoPassed
  rw [h]

theorem undoPassed_of_none (s : State) (p : PartId) (slot : Nat) (info : RecordInfo)
    (h : s.requests.find? (fun e => decide (e.phase = .logging) && decide (e.undo = some ⟨p, slot⟩)) = none) :
    s.undoPassed p slot info = { s with
      claims := s.claims.map fun c => if c.tag = info.tag ∧ c.undoSlot = slot then { c with logged := true } else c } := by
  unfold State.undoPassed
  rw [h]

/-- Settles O21, by whether an entry waits for the record. -/
theorem frontPassesUndo : Obligations.FrontPassesUndo := by
  intro s n p k m info d hd h hf hkind hrecord part slot retried x waits
  have hrow := slotWriteDone_passes_one s n p k m hd h hf d
  have htrigger : (s.slotPassed n p k m).triggersRetirement { m with progress := .acknowledged } = false := by
    unfold State.triggersRetirement
    simp only [hkind, hrecord]
  rw [htrigger, handOn_undo p _ _ info hkind hrecord] at hrow
  obtain ⟨a, dr, f, hX⟩ := slotPassed_frame s n p k m
  have hx : x = { s.slotPassed n p k m with
      claims := (s.slotPassed n p k m).claims.map fun c =>
        if c.tag = info.tag ∧ c.undoSlot = slot - 1 then { c with logged := true } else c } := by
    have := logRetried_frame { s with
      responses := [], mdo := [], joined := 0, outstanding := s.outstanding.filter (fun r => r.number != n)
      partitions := s.partitions.set p { part with marks := part.marks.set k { m with progress := .acknowledged } } } { s with
      responses := [], mdo := [], joined := 0, outstanding := s.outstanding.filter (fun r => r.number != n)
      partitions := s.partitions.set p { part with marks := part.marks.set k { m with progress := .acknowledged } }
      claims := s.claims.map (fun c : Claim =>
        if c.tag = info.tag ∧ c.undoSlot = slot - 1 then { c with logged := true } else c) } p slot m.attempt m.record
      rfl rfl rfl rfl
    refine Eq.trans this ?_
    rw [show State.logRetried p slot m.attempt m.record _ = s.slotPassed n p k m from rfl, hX]
  have hrequests : (s.slotPassed n p k m).requests = s.requests := by rw [hX]
  constructor
  · intro hnone
    rw [undoPassed_of_none _ p _ info (by rw [hrequests]; exact hnone)] at hrow
    rw [hx]
    exact hrow
  · intro e he
    rw [undoPassed_of_waiting _ p _ info e (by rw [hrequests]; exact he)] at hrow
    rw [hx]
    exact hrow

/-! ### COMMIT records (O22) -/

/-- The requests once a group's claims are released: the reads that waited on its lines are in ORDERED (R41). -/
def State.requestsReleased (s : State) (t : Tag) : List Entry :=
  s.requests.map (fun y =>
    if y.phase = .waitUnwind ∧ y.line ∈ (s.claims.filter (fun c => c.tag == t)).map (·.line) then
      { y with phase := .ordered }
    else y)

theorem releaseClaims_eq (s : State) (t : Tag) :
    s.releaseClaims t = { s with
      claims := s.claims.filter (fun c => c.tag != t), requests := s.requestsReleased t
      groups := s.groups.set t { s.group t with claimsHeld := 0 } } := rfl

/-- The completion of a group whose commit request is an entry of the table (R13, R39, R41). -/
theorem completeGroup_eq (s : State) (t : Tag) (e : Entry) (hc : (s.group t).commitRequest = some e.index)
    (he : s.entry e.index = some e) :
    s.completeGroup t = { s with
      claims := s.claims.filter (fun c => c.tag != t)
      requests := (s.requestsReleased t).filter (fun y => y.index != e.index)
      responses := s.responses ++ [⟨e.request.hostId, .committed, e.readData.getD []⟩]
      groups := s.groups.set t Group.cleared } := by
  unfold State.completeGroup
  rw [show (s.group t).commitRequest.bind s.entry = some e by rw [hc]; exact he, releaseClaims_eq]
  simp only [State.freeGroup, State.setGroup, State.finishEntry, State.answer, State.respond, State.dropEntry,
    Vector.set_set]

/-- The passing of a slot leaves a partition running or not as it was. -/
theorem slotPassed_journalRuns (s : State) (n : Word) (p : PartId) (k : Nat) (m : Mark) :
    (s.slotPassed n p k m).journalRuns p = s.journalRuns p := by
  obtain ⟨a, dr, f, hX⟩ := slotPassed_frame s n p k m
  rw [hX]
  exact journalRuns_setPart s p { s.part p with marks := (s.part p).marks.set k { m with progress := .acknowledged } } rfl

/-- Settles O22, by whether the record is handed on and its group is SEALING. -/
theorem frontPassesCommit : Obligations.FrontPassesCommit := by
  intro s n p k m info d hd h hf hkind hrecord part slot retried acknowledged sealing
  have hrow := slotWriteDone_passes_one s n p k m hd h hf d
  have htrigger : (s.slotPassed n p k m).triggersRetirement { m with progress := .acknowledged } =
      decide ((s.slotPassed n p k m).takesCommit info) := by
    unfold State.triggersRetirement
    simp only [hkind, hrecord]
  have hruns := slotPassed_journalRuns s n p k m
  obtain ⟨a, dr, f, hX⟩ := slotPassed_frame s n p k m
  have htakes : (s.slotPassed n p k m).takesCommit info ↔ sealing := by rw [hX]; exact Iff.rfl
  rw [htrigger, handOn_commit p _ _ info hkind hrecord, hruns] at hrow
  constructor
  · intro e hr hs hc he
    rw [if_pos hr, State.commitPassed, if_pos (htakes.mpr hs), if_pos (decide_eq_true (htakes.mpr hs)),
      completeGroup_eq _ info.tag e (by rw [hX]; exact hc) (by rw [hX]; exact he)] at hrow
    rw [hrow, hX]
    have := logRetried_frame acknowledged { acknowledged with
        claims := s.claims.filter (fun c => c.tag != info.tag)
        requests := (s.requestsReleased info.tag).filter (fun y => y.index != e.index)
        responses := [⟨e.request.hostId, .committed, e.readData.getD []⟩]
        groups := s.groups.set info.tag Group.cleared } p slot m.attempt m.record rfl rfl rfl rfl
    rw [show State.logRetried p slot m.attempt m.record acknowledged = _ from hX] at this
    exact congrArg (fun x : State => Host.Outcome.next (State.settle (x.retire p))) this.symm
  · rintro (hr | hs)
    · simp only [hr, Bool.false_eq_true, if_false, retire_of_not_runs _ p (hruns.trans hr), ite_self] at hrow
      exact hrow
    · rw [State.commitPassed, if_neg (fun h => hs (htakes.mp h)), ite_self,
        if_neg (fun h => hs (htakes.mp (of_decide_eq_true h)))] at hrow
      exact hrow

/-! ### UNWOUND records (O29) -/

/-- A released entry is the entry, in ORDERED if it waited for its group (R41). -/
theorem releaseClaims_entry (s : State) (t : Tag) (e : Entry) (he : s.entry e.index = some e)
    (hp : e.phase ≠ .waitUnwind) : (s.releaseClaims t).entry e.index = some e := by
  have hmap : ∀ l : List Entry, l.find? (fun y => y.index == e.index) = some e →
      (l.map (fun y => if y.phase = .waitUnwind ∧ y.line ∈ (s.claims.filter (fun c => c.tag == t)).map (·.line) then
        { y with phase := .ordered } else y)).find? (fun y => y.index == e.index) = some e := by
    intro l hl
    rw [List.find?_map]
    have hsame : ((fun y : Entry => y.index == e.index) ∘ fun y : Entry =>
        if y.phase = .waitUnwind ∧ y.line ∈ (s.claims.filter (fun c => c.tag == t)).map (·.line) then
          { y with phase := .ordered } else y) = fun y => y.index == e.index := by
      funext y
      simp only [Function.comp_apply]
      split <;> rfl
    rw [hsame, hl, Option.map_some, if_neg (fun h => hp h.1)]
  exact hmap s.requests he

/-- The outcome RESTORED of a group with a parked ABORT: it is answered UNWOUND, and the group is FREE (R21). -/
theorem takeRestored_of_parked (s : State) (t : Tag) (e : Entry) (hc : (s.group t).parkedAbort = some e.index)
    (he : s.entry e.index = some e) :
    s.takeRestored t = { s with
      responses := s.responses ++ [⟨e.request.hostId, .unwound, []⟩]
      requests := s.requests.filter (fun y => y.index != e.index), groups := s.groups.set t Group.cleared } := by
  unfold State.takeRestored State.answerParked
  rw [if_pos (.inr (by rw [hc]; rfl)), show (s.group t).parkedAbort.bind s.entry = some e by rw [hc]; exact he]
  simp only [State.freeGroup, State.modGroup, State.setGroup, State.finishEntry, State.answer, State.respond,
    State.dropEntry, Vector.set_set]

/-- The outcome RESTORED of a group without one: FREE if the host asked, HALTED otherwise (R21). -/
theorem takeRestored_of_not_parked (s : State) (t : Tag) (hc : (s.group t).parkedAbort = none) :
    s.takeRestored t = s.setGroup t
      (if (s.group t).unwindOrigin = some .host then .cleared else { s.group t with state := .halted }) := by
  unfold State.takeRestored
  by_cases ho : (s.group t).unwindOrigin = some .host
  · rw [if_pos (.inl ho), if_pos ho, State.answerParked, show (s.group t).parkedAbort.bind s.entry = none by rw [hc]; rfl]
    simp only [State.freeGroup, State.modGroup, State.setGroup, Vector.set_set]
  · rw [if_neg (by rintro (h | h); exacts [ho h, by simp [hc] at h]), if_neg ho]
    rfl

/-- The engine without a current group (R112, R118). -/
def Engine.idled (e : Engine) (t : Tag) : Engine :=
  ⟨.idle, e.waiting, none, none, .waitStores, none, 0, none, if e.retryTag = some t then none else e.retryTag, []⟩

/-- The end of a RETRY_UNWIND and of the engine's group (R112, R118). -/
theorem endRetry_engineIdle (s : State) (t : Tag) :
    (s.endRetry t State.endDone).engineIdle =
      if s.engine.retryTag = some t then
        { s.endDone with engine := s.engine.idled t }
      else { s with engine := s.engine.idled t } := by
  unfold State.endRetry Engine.idled
  by_cases h : s.engine.retryTag = some t
  · simp only [h, if_true]; rfl
  · simp only [h, if_false]; rfl

theorem endDone_outcome (s : State) : s.endDone.cmdStatus.outcome = .done ∧ s.endDone.flags.getLsbD 7 = true := by
  refine ⟨rfl, ?_⟩
  show (s.flags ||| (1#9 <<< 7)).getLsbD 7 = true
  rw [BitVec.getLsbD_or]
  simp

/-- Everything that the answer to a parked ABORT can change (R21). -/
theorem answerParked_only (s : State) (t : Tag) (st : Status) : ∃ o r g, s.answerParked t st = { s with
    responses := o, requests := r, groups := s.groups.set t g } := by
  unfold State.answerParked
  cases (s.group t).parkedAbort.bind s.entry with
  | none => exact ⟨s.responses, s.requests, _, rfl⟩
  | some e => exact ⟨_, _, _, rfl⟩

/-- Everything that the outcome RESTORED can change (R21). -/
theorem takeRestored_only (s : State) (t : Tag) : ∃ o r g, s.takeRestored t = { s with
    responses := o, requests := r, groups := s.groups.set t g } := by
  unfold State.takeRestored
  split
  · obtain ⟨o, r, g, h⟩ := answerParked_only s t .unwound
    refine ⟨o, r, .cleared, ?_⟩
    rw [h, State.freeGroup, State.setGroup]
    simp only [Vector.set_set]
  · exact ⟨s.responses, s.requests, _, rfl⟩

/-- What the report RESTORED leaves, beside the command register and the engine (R39, R112). -/
theorem reportRestored_eq (s : State) (t : Tag) :
    s.reportRestored t =
      if s.engine.retryTag = some t then
        { ((s.releaseClaims t).takeRestored t).endDone with engine := s.engine.idled t }
      else { (s.releaseClaims t).takeRestored t with engine := s.engine.idled t } := by
  obtain ⟨o, r, g, h⟩ := takeRestored_only (s.releaseClaims t) t
  have he : ((s.releaseClaims t).takeRestored t).engine = s.engine := by rw [h]; rfl
  rw [State.reportRestored, endRetry_engineIdle, he]

/-- Settles O29, by whether the record is handed on and, where it is, by the parked ABORT. -/
theorem frontPassesUnwound : Obligations.FrontPassesUnwound := by
  intro s n p k m info d hd h hf hkind hrecord t slot retried released unwinding
  have hrow := slotWriteDone_passes_one s n p k m hd h hf d
  have htrigger : (s.slotPassed n p k m).triggersRetirement { m with progress := .acknowledged } =
      decide ((s.slotPassed n p k m).takesUnwound info) := by
    unfold State.triggersRetirement
    simp only [hkind, hrecord]
  have hruns := slotPassed_journalRuns s n p k m
  have hX := logRetried_frame s { s with
    responses := [], mdo := [], joined := 0, outstanding := s.outstanding.filter (fun r => r.number != n)
    partitions := s.partitions.set p
      { s.part p with marks := (s.part p).marks.set k { m with progress := .acknowledged } } } p slot m.attempt m.record
    rfl rfl rfl rfl
  rw [show State.logRetried p slot m.attempt m.record _ = s.slotPassed n p k m from rfl] at hX
  have htakes : (s.slotPassed n p k m).takesUnwound info ↔ unwinding ∧ s.engine.state = .closing ∧ s.engine.current = some t := by
    rw [hX]; exact and_assoc.symm
  rw [htrigger] at hrow
  constructor
  · rintro (hr | hs)
    · rw [show State.handOn p (s.slotPassed n p k m) (slot, { m with progress := .acknowledged }) = s.slotPassed n p k m by
        unfold State.handOn; simp only [hkind, hrecord, hruns, hr]; rfl,
        retire_of_not_runs _ p (hruns.trans hr), ite_self] at hrow
      exact hrow
    · have hnot : ¬ (s.slotPassed n p k m).takesUnwound info := fun h => hs (htakes.mp h).1
      rw [show State.handOn p (s.slotPassed n p k m) (slot, { m with progress := .acknowledged }) = s.slotPassed n p k m by
        unfold State.handOn State.unwoundPassed; simp only [hkind, hrecord, hnot, if_false, ite_self],
        if_neg (fun h => hnot (of_decide_eq_true h))] at hrow
      exact hrow
  · intro hr hu hclosing hcur
    have htake := htakes.mpr ⟨hu, hclosing, hcur⟩
    rw [handOn_unwound p _ _ info hkind hrecord (hruns.trans hr), State.unwoundPassed, if_pos htake,
      if_pos (decide_eq_true htake)] at hrow
    obtain ⟨o, q, g, hres⟩ := takeRestored_only ((s.slotPassed n p k m).releaseClaims t) t
    have hreport := reportRestored_eq (s.slotPassed n p k m) t
    have hgroup : ((s.slotPassed n p k m).releaseClaims t).group t = { s.group t with claimsHeld := 0 } := by
      rw [hX]; exact setGroup_group_self s t _
    have hself : ∀ (z : State) (g : Group), z.groups = ((s.slotPassed n p k m).releaseClaims t).groups.set t g →
        z.group t = g ∧ ∀ v, v ≠ t → z.group v = s.group v := by
      intro z g hz
      rw [hX] at hz
      have hv : ∀ v, z.group v = ((s.setGroup t { s.group t with claimsHeld := 0 }).setGroup t g).group v := fun v => by
        simp only [State.group, hz]; rfl
      refine ⟨by rw [hv, setGroup_group_self], fun v hne => by rw [hv, setGroup_setGroup, group_setGroup, if_neg hne]⟩
    have hengine : (s.slotPassed n p k m).engine = s.engine := by rw [hX]
    rw [hengine] at hreport
    refine ⟨(s.slotPassed n p k m).reportRestored t, hrow, ?_, ?_, ?_, fun hretry => ?_, fun hretry => ?_,
      fun e hparked he hphase => ?_, fun hparked => ?_, ?_⟩
    · rw [hreport, hres, hX]; split <;> rfl
    · refine (hself _ g ?_).2
      rw [hreport, hres]; split <;> rfl
    · rw [hreport, apply_ite State.engine]
      exact ite_self _
    · rw [hreport, if_pos hretry]
      exact endDone_outcome _
    · rw [hreport, if_neg hretry, hres, hX]
      exact ⟨rfl, rfl⟩
    · have hr := takeRestored_of_parked ((s.slotPassed n p k m).releaseClaims t) t e (by rw [hgroup]; exact hparked)
        (releaseClaims_entry _ t e (by rw [hX]; exact he) (by rw [hphase]; decide))
      refine ⟨(hself _ .cleared ?_).1, ?_, ?_⟩
      all_goals
        rw [hreport, hr, hX]
        split <;> rfl
    · have hr := takeRestored_of_not_parked ((s.slotPassed n p k m).releaseClaims t) t (by rw [hgroup]; exact hparked)
      rw [hgroup] at hr
      refine ⟨?_, ?_, fun ho => (hself _ .cleared ?_).1, fun ho => (hself _ { s.group t with state := .halted, claimsHeld := 0 } ?_).1⟩
      · rw [hreport, hr, hX]; split <;> rfl
      · rw [hreport, hr, hX]; split <;> rfl
      · rw [if_pos ho] at hr
        rw [hreport, hr]; split <;> rfl
      · rw [if_neg ho] at hr
        rw [hreport, hr]; split <;> rfl
    · rw [hreport, hres, hX]; split <;> rfl

end Sys2Proof.Machine
end

section
/-! SUPPORT. The end of any ring slot write (O18). -/

namespace Sys2Proof.Machine

/-- The acknowledged slots at the front of a list, counted (R51). -/
theorem frontCount_append (l r : List Mark) (hl : ∀ x ∈ l, x.progress = .acknowledged)
    (hr : ∀ x, r.head? = some x → x.progress ≠ .acknowledged) : frontCount (l ++ r) = l.length := by
  unfold frontCount
  rw [List.takeWhile_append_of_pos (by simpa using hl)]
  cases r with
  | nil => simp
  | cons x r =>
    rw [List.takeWhile_cons_of_neg (by simpa using hr x rfl)]
    simp

/-- The marks of a ring, cut at a slot whose acknowledgement the front meets and at the acknowledged ones behind it. -/
theorem marks_split (l : List Mark) (k : Nat) (m : Mark) (more : List Mark) (hm : l[k]? = some m)
    (hmore : more <+: l.drop (k + 1)) : l = l.take k ++ m :: (more ++ l.drop (k + 1 + more.length)) := by
  obtain ⟨rest, hrest⟩ := hmore
  have hlt := (List.getElem?_eq_some_iff.mp hm).1
  have hget := (List.getElem?_eq_some_iff.mp hm).2
  have hdrop : l.drop (k + 1 + more.length) = rest := by
    rw [← List.drop_drop, ← hrest, List.drop_left]
  rw [hdrop, hrest, ← hget, List.cons_getElem_drop_succ, List.take_append_drop]

/-- The front meets a slot, and passes the acknowledged ones that follow with it (R51, R63). -/
theorem newlyPassed_of_run (cap : Nat) (part : Partition) (k : Nat) (m m' : Mark) (more : List Mark)
    (hm : part.marks[k]? = some m) (hbefore : ∀ x ∈ part.marks.take k, x.progress = .acknowledged)
    (hn : m.progress ≠ .acknowledged) (hm' : m'.progress = .acknowledged)
    (hmore : more <+: part.marks.drop (k + 1)) (hacked : ∀ x ∈ more, x.progress = .acknowledged)
    (hend : ∀ x, part.marks[k + 1 + more.length]? = some x → x.progress ≠ .acknowledged) :
    Partition.newlyPassed cap (frontCount part.marks) (frontCount (part.marks.set k m'))
      { part with marks := part.marks.set k m' } =
      (m' :: more).mapIdx (fun i x => ((part.durableTail.advance cap (k + i)).slot, x)) := by
  have hsplit := marks_split part.marks k m more hm hmore
  have hlen : (part.marks.take k).length = k :=
    List.length_take_of_le (Nat.le_of_lt (List.getElem?_eq_some_iff.mp hm).1)
  have hset : part.marks.set k m' = (part.marks.take k ++ m' :: more) ++ part.marks.drop (k + 1 + more.length) := by
    conv_lhs => rw [hsplit]
    rw [List.set_append_right _ _ (by omega), hlen, Nat.sub_self]
    simp
  have hcount : frontCount part.marks = k := by
    rw [hsplit, frontCount_append _ _ hbefore (by simpa using hn), hlen]
  have hcount' : frontCount (part.marks.set k m') = k + 1 + more.length := by
    rw [hset, frontCount_append]
    · simp [hlen]; omega
    · intro x hx
      obtain hx | hx := List.mem_append.mp hx
      · exact hbefore x hx
      · obtain rfl | hx := List.mem_cons.mp hx
        · exact hm'
        · exact hacked x hx
    · rw [List.head?_drop]; exact hend
  rw [hcount, hcount', Partition.newlyPassed]
  have htake : (part.marks.set k m').take (k + 1 + more.length) = part.marks.take k ++ m' :: more := by
    rw [hset]
    exact List.take_left' (by simp [hlen]; omega)
  simp only [htake, List.drop_left' hlen]

theorem newlyPassed_of_still (cap n : Nat) (part' : Partition) :
    Partition.newlyPassed cap n n part' = [] := by
  unfold Partition.newlyPassed
  rw [List.drop_eq_nil_of_le (List.length_take_le _ _)]
  rfl

/-- What the front hands on leaves the rings and the controller as they are (R63). -/
theorem completeGroup_rings (s : State) (t : Tag) : SameRings (s.completeGroup t) s := by
  unfold State.completeGroup
  rw [releaseClaims_eq]
  cases (s.group t).commitRequest.bind s.entry with
  | none => exact ⟨rfl, rfl, rfl⟩
  | some e => exact ⟨rfl, rfl, rfl⟩

theorem reportRestored_rings (s : State) (t : Tag) : SameRings (s.reportRestored t) s := by
  obtain ⟨o, r, g, h⟩ := takeRestored_only (s.releaseClaims t) t
  rw [reportRestored_eq, h]
  split <;> exact ⟨rfl, rfl, rfl⟩

theorem undoPassed_rings (s : State) (p : PartId) (slot : Nat) (info : RecordInfo) :
    SameRings (s.undoPassed p slot info) s := by
  unfold State.undoPassed
  split <;> exact ⟨rfl, rfl, rfl⟩

theorem handOn_rings (p : PartId) (s : State) (x : Nat × Mark) : SameRings (State.handOn p s x) s := by
  unfold State.handOn State.commitPassed State.unwoundPassed
  split
  · exact undoPassed_rings s p _ _
  · split_ifs
    exacts [completeGroup_rings s _, ⟨rfl, rfl, rfl⟩, ⟨rfl, rfl, rfl⟩]
  · split_ifs
    exacts [reportRestored_rings s _, ⟨rfl, rfl, rfl⟩, ⟨rfl, rfl, rfl⟩]
  · exact ⟨rfl, rfl, rfl⟩

theorem SameRings.journalRuns {x y : State} (h : SameRings x y) (p : PartId) : x.journalRuns p = y.journalRuns p := by
  obtain ⟨hp, hc, -⟩ := h
  unfold State.journalRuns State.part
  rw [hp, hc]

/-- Two folds whose steps agree wherever a property holds that the first keeps. -/
theorem foldl_eq_of_keeps {α β : Type} (P : β → Prop) (f g : β → α → β) (h : ∀ x a, P x → f x a = g x a)
    (hk : ∀ x a, P x → P (f x a)) (l : List α) : ∀ x, P x → l.foldl f x = l.foldl g x := by
  induction l with
  | nil => exact fun _ _ => rfl
  | cons a l ih =>
    intro x hx
    rw [List.foldl_cons, List.foldl_cons, ← h x a hx]
    exact ih _ (hk x a hx)

/-- The retired partition of a part that does not run is the partition. -/
theorem retire_if (s : State) (p : PartId) (a b : Bool) (h : s.journalRuns p = true → a = b) :
    (if a then s.retire p else s) = if b then s.retire p else s := by
  cases hr : s.journalRuns p
  · rw [retire_of_not_runs s p hr, ite_self, ite_self]
  · rw [h hr]

/-- Settles O18, by the outcome and by what the front then passes. -/
theorem slotWriteEnds : Obligations.SlotWriteEnds := by
  intro s n p k m hd h part b slotOf slot marked acknowledged sealing closing handOn retires
  have hack : acknowledged = s.slotPassed n p k m := rfl
  have hm : part.marks[k]? = some m := h.2.2
  obtain ⟨a, dr, f, hX⟩ := slotPassed_frame s n p k m
  have hruns : (s.slotPassed n p k m).journalRuns p = s.journalRuns p := slotPassed_journalRuns s n p k m
  have hstep : ∀ (x : State) (y : Mark × Nat), x.journalRuns p = s.journalRuns p →
      State.handOn p x (slotOf (k + y.2), y.1) = handOn x y := by
    rintro x ⟨y, i⟩ hx
    simp only [handOn, sealing, closing, State.handOn, hx]
    cases y.kind with
    | undoData => cases y.record <;> rfl
    | commit =>
      cases y.record with
      | none => rfl
      | some info => exact (ite_and _ _ _ _).symm
    | unwound =>
      cases y.record with
      | none => rfl
      | some info => exact (ite_and _ _ _ _).symm
    | unknown | padFirst | padSecond | undoHeader => rfl
  have htriggers : ∀ y : Mark, s.journalRuns p = true → (s.slotPassed n p k m).triggersRetirement y = retires y := by
    intro y hr
    simp only [retires, sealing, closing, State.triggersRetirement, hX, hr]
    cases y.kind with
    | commit =>
      cases y.record with
      | none => rfl
      | some info => exact decide_eq_decide.mpr ⟨fun h => ⟨trivial, h⟩, fun h => h.2⟩
    | unwound =>
      cases y.record with
      | none => rfl
      | some info => exact decide_eq_decide.mpr ⟨fun h => ⟨trivial, h⟩, fun h => h.2⟩
    | undoData | unknown | padFirst | padSecond | undoHeader => rfl
  have herr : exec (.slotWriteDone n .error) s = .next (b.slotOutcome p slot .failed).settle :=
    slotWriteDone_reports s n p k m hd h .error
  have hmark : (b.part p).mark (b.capacity p) slot = some m := slotAnswered_mark s n p k m h
  refine ⟨fun d hstill => ?_, fun d more hbefore hn hmore hacked hend => ?_, fun d hmeets => ?_, fun hr ha => ?_,
    fun hr => ?_⟩
  · have hcount : frontCount (part.marks.set k { m with progress := .acknowledged }) = frontCount part.marks :=
      frontCount_set _ k _ hstill
    rw [slotWriteDone_passed s n p k m hd h [] (by rw [hcount]; exact newlyPassed_of_still _ _ _) d]
    rfl
  · intro passed handed
    have hrow := slotWriteDone_passed s n p k m hd h _
      (newlyPassed_of_run (s.capacity p) part k m { m with progress := .acknowledged } more hm hbefore hn rfl hmore hacked hend) d
    have hmap : (passed.mapIdx fun i x => ((part.durableTail.advance (s.capacity p) (k + i)).slot, x)) =
        passed.zipIdx.map (fun y => (slotOf (k + y.2), y.1)) := List.mapIdx_eq_zipIdx_map
    have hhanded : (passed.zipIdx.map (fun y => (slotOf (k + y.2), y.1))).foldl (State.handOn p) (s.slotPassed n p k m) =
        handed := by
      rw [List.foldl_map]
      exact foldl_eq_of_keeps (fun x : State => x.journalRuns p = s.journalRuns p) _ _ hstep
        (fun x y hx => ((handOn_rings p x _).journalRuns p).trans hx) _ _ hruns
    have hany : ((passed.zipIdx.map (fun y => (slotOf (k + y.2), y.1))).any
        fun y => (s.slotPassed n p k m).triggersRetirement y.2) =
        passed.any (s.slotPassed n p k m).triggersRetirement := by
      conv_rhs => rw [← List.zipIdx_map_fst 0 passed, List.any_map]
      rw [List.any_map]
      rfl
    have hkeeps : handed.journalRuns p = s.journalRuns p := by
      rw [← hhanded]
      exact foldl_keeps (fun x : State => x.journalRuns p = s.journalRuns p) (State.handOn p)
        (fun x y hx => ((handOn_rings p x y).journalRuns p).trans hx) _ _ hruns
    rw [hmap, hhanded, hany] at hrow
    rw [hrow, retire_if handed p _ (passed.any retires)]
    intro hr
    exact congrArg (List.any passed) (funext fun y => htriggers y (hkeeps.symm.trans hr))
  · have hrow := slotWriteDone_passes_one s n p k m hd h hmeets d
    refine ⟨fun hk => ?_, fun hk => ?_⟩
    · simp only [State.triggersRetirement, State.handOn, hk, Bool.false_eq_true, if_false] at hrow
      exact hrow
    · obtain hk | hk := hk
      all_goals
        simp only [State.triggersRetirement, State.handOn, hk, decide_true, if_true] at hrow
        exact hrow
  · rw [herr, State.slotOutcome, hmark]
    show Host.Outcome.next (State.settle (if s.journalRuns p = true then _ else _)) = _
    rw [if_pos hr, if_pos ha, State.modPart,
      modMark_one (b.part p) (b.capacity p) slot k m (fun m => { m with attempt := 2 }) h.2.1 hm]
    rfl
  · rw [herr, State.slotOutcome, hmark]
    show Host.Outcome.next (State.settle (if s.journalRuns p = true then _ else _)) = _
    rw [if_neg (by simp [hr])]

end Sys2Proof.Machine
end

section
/-! SUPPORT. The second failure of a ring slot write: the partition is FAULTED (O19, O20). -/

namespace Sys2Proof.Machine

/-- The state of a FAULTED partition, before its groups are revoked (R62, R70). -/
def State.faultedAt (s : State) (p : PartId) (k slot : Nat) (m : Mark) : State :=
  State.raise .partitionFault (State.log (Incident.ofSlot .partitionFaulted p slot m.record)
    (s.setPart p { s.part p with
      state := .faulted, marks := (s.part p).marks.set k { m with progress := .failed } }))

/-- A partition faults at a slot, whose mark stands `k` after the durable tail (R62, R70). -/
theorem faultPartition_eq (s : State) (p : PartId) (k slot : Nat) (m : Mark)
    (hk : (s.part p).markIndex (s.capacity p) slot = k) (hm : (s.part p).marks[k]? = some m) :
    s.faultPartition p slot = (s.faultedAt p k slot m).revokePartition p := by
  have hmark : ((s.part p).mark (s.capacity p) slot).bind (·.record) = m.record := by
    rw [Partition.mark, hk, hm]; rfl
  unfold State.faultPartition State.faultedAt
  simp only [hmark, State.modPart, modMark_one _ _ _ k m _ hk hm]

/-- The second attempt of a ring slot write fails in a partition that runs (R62). -/
theorem slotWriteDone_faults (s : State) (n : Word) (p : PartId) (k : Nat) (m : Mark) (hd : s.direct = true)
    (h : s.slotAnswered n p k m) (hr : s.journalRuns p = true) (ha : m.attempt = 2) :
    exec (.slotWriteDone n .error) s = .next (((s.begin.forget n).faultedAt p k
      ((s.part p).durableTail.advance (s.capacity p) k).slot m).revokePartition p).settle := by
  rw [slotWriteDone_reports s n p k m hd h .error, State.slotOutcome, slotAnswered_mark s n p k m h]
  show Host.Outcome.next (State.settle (if s.journalRuns p = true then _ else _)) = _
  rw [if_pos hr, if_neg (by simp [ha]), faultPartition_eq (s.begin.forget n) p k _ m h.2.1 h.2.2]

/-- What the fault of a partition has changed before its groups are revoked. -/
theorem faultedAt_eq (s : State) (p : PartId) (k slot : Nat) (m : Mark) :
    s.faultedAt p k slot m = { s with
      partitions := s.partitions.set p { s.part p with
        state := .faulted, marks := (s.part p).marks.set k { m with progress := .failed } }
      incidents := (⟨.partitionFaulted, s.tickCounter, m.record.map (·.tag), m.record.map (·.sequence), some p,
        m.record.bind (·.line), some slot⟩ :: s.incidents).take 8
      dropped := if s.incidents.length < 8 then s.dropped else min 255 (s.dropped + 1)
      flags := (if s.incidents.length < 8 then s.flags else s.flags ||| 0x020#9) ||| (1#9 <<< 1) } := by
  rw [State.faultedAt, log_eq]
  rfl

/-- The causes of a partition fault apply to a group that is OPEN, DRAINING or SEALING (R18). -/
theorem partitionFault_appliesTo (g : GroupState) :
    RevokeCause.partitionFault.appliesTo g = (g == .opened || g == .draining || g == .sealing) := by
  cases g <;> rfl

/-- The groups that a partition's fault hits, in ascending order of tag (R18). -/
theorem faultHits_eq (s : State) (p : PartId) :
    (allTags.filter (fun t => (s.group t).partition == some p)).filter (faultRevokes s) =
      (List.finRange 15).filter (fun t => decide ((s.group t).partition = some p) &&
        (s.groupState t == .opened || s.groupState t == .draining || s.groupState t == .sealing)) := by
  rw [List.filter_filter, allTags]
  refine List.filter_congr fun t _ => ?_
  rw [faultRevokes, partitionFault_appliesTo, Bool.and_comm, beq_eq_decide]

/-- A list cut to a length before more stands in front of it, and after. -/
theorem take_append_take {α : Type} (n : Nat) (l r : List α) : (l ++ r.take n).take n = (l ++ r).take n := by
  rw [List.take_append, List.take_append, List.take_take, Nat.min_eq_left (Nat.sub_le _ _)]

/-- Settles O19, from the revocation of the partition's groups one after another. -/
theorem secondSlotFailureFaultsPartition : Obligations.SecondSlotFailureFaultsPartition := by
  intro s n p k m hd h hr ha part hit hits faulted revoked
  have hrow := slotWriteDone_faults s n p k m hd h hr ha
  have hx := faultedAt_eq (s.begin.forget n) p k ((s.part p).durableTail.advance (s.capacity p) k).slot m
  generalize (s.begin.forget n).faultedAt p k ((s.part p).durableTail.advance (s.capacity p) k).slot m = x at hrow hx
  have hgroup : ∀ t, x.group t = s.group t := fun t => by rw [hx]; rfl
  have hpart : ∀ q, x.part q = if q = p then { part with
      state := .faulted, marks := part.marks.set k { m with progress := .failed } } else s.part q := fun q => by
    rw [hx]; exact part_setPart s.begin p q _
  have hsub : (allTags.filter fun t => (x.group t).partition == some p).Sublist (List.finRange 15) := List.filter_sublist
  obtain ⟨r, q, o, g, inc, d, f, h1, h2, h3, h4, h5, h6⟩ := revokeAll_only p s.engine.waiting
    (allTags.filter fun t => (x.group t).partition == some p) [] x (by rw [hx]; exact (List.append_nil _).symm) (by rw [hx]; rfl)
    ((List.pairwise_lt_finRange 15).sublist hsub) ((List.nodup_finRange 15).sublist hsub)
    (by rw [hx]; exact ((journalRuns_iff s p).mp hr).2) (by rw [hpart, if_pos rfl]) (by rw [hx]; simp)
    (fun t ht => by simpa using (List.mem_filter.mp ht).2)
  have hhits : (allTags.filter fun t => (x.group t).partition == some p).filter (faultRevokes x) = hits := by
    rw [faultHits_eq]
    refine List.filter_congr fun t _ => ?_
    simp only [State.groupState, hgroup, hit]
  have hrevoke : x.revokePartition p = _ := h1
  rw [hhits] at hrevoke h2 h3 h5 h6
  have htags : ∀ t, t ∈ hits ↔ hit t = true := fun t => by simp [hits]
  refine ⟨x.revokePartition p, hrow, ?_, fun v hv hentries => ?_, fun t => ?_, ?_, ?_, fun hne => ?_, ?_, ?_⟩
  · have hp : (x.revokePartition p).part p = q[p] := by rw [hrevoke]; rfl
    rw [hp, h6 p (.inl rfl), hpart, if_pos rfl]
  · have hp : (x.revokePartition p).part v = q[v] := by rw [hrevoke]; rfl
    rw [hp, h6 v (.inr fun e he t ht hg => hentries e (by rw [hx] at he; exact he) t hg ((htags t).mp ht)), hpart,
      if_neg hv]
  · have hp : (x.revokePartition p).group t = g[t] := by rw [hrevoke]; rfl
    rw [hp, h3 t, hgroup]
    exact if_congr (htags t) rfl rfl
  · rw [hrevoke, hx]
    rfl
  · rw [hrevoke]
    refine h4 1 ?_
    rw [hx]
    simp
  · rw [hrevoke]
    exact h5 hne
  · rw [hrevoke]
    have hmap : (hits.map fun t => (⟨.groupRevoked, x.tickCounter, some t, some ((x.group t).sequence.getD 0), some p,
        none, some 3⟩ : Incident)) = hits.map revoked :=
      List.map_congr_left fun t _ => by rw [hgroup, hx]; rfl
    have hincidents : x.incidents = (faulted :: s.incidents).take 8 := by rw [hx]; rfl
    show inc = _
    rw [h2, hmap, hincidents, take_append_take, List.reverse_cons, List.append_assoc]
    rfl
  · rw [hrevoke, hx]
    simp

/-! ### A fault while the engine is CLOSING (O20) -/

/-- No entry leaves ORDERED where none is in ORDERED (R88). -/
theorem leaveAll_still (s : State) (h : ∀ e ∈ s.requests, e.phase ≠ .ordered) : s.leaveAll = s := by
  refine foldl_still _ s _ fun i _ => leaveOrdered_still s i ?_
  cases he : s.entry i with
  | none => simp [State.canLeave, he]
  | some e => simp [State.canLeave, he, h e (List.mem_of_find?_eq_some he)]

/-- No group drains where none is DRAINING (R12). -/
theorem drainAll_still (s : State) (h : ∀ t, s.groupState t ≠ .draining) : s.drainAll = s :=
  foldl_still _ s _ fun t _ => drain_still s t (by simp [State.canDrain, h t])

/-- No group of a partition is revoked where none is OPEN, DRAINING or SEALING (R18). -/
theorem revokePartition_still (s : State) (p : PartId)
    (h : ∀ t, (s.group t).partition = some p →
      s.groupState t ≠ .opened ∧ s.groupState t ≠ .draining ∧ s.groupState t ≠ .sealing) :
    s.revokePartition p = s := by
  refine foldl_still _ s _ fun t ht => revoke_not s t .partitionFault ?_
  obtain ⟨ho, hdr, hse⟩ := h t (by simpa using (List.mem_filter.mp ht).2)
  simp [partitionFault_appliesTo, ho, hdr, hse]

/-- No slot is issued where none is READY (R61). -/
theorem readyRun_of_no_ready (l : List Mark) : ∀ (i : Nat), (∀ x ∈ l, x.progress ≠ .ready) → readyRun i l = [] := by
  induction l with
  | nil => exact fun _ _ => rfl
  | cons m l ih =>
    intro i h
    have hl := ih (i + 1) fun x hx => h x (by simp [hx])
    have hm := h m (by simp)
    unfold readyRun
    cases hp : m.progress <;> simp_all

/-- The engine, CLOSING a group of a FAULTED partition, reports FAILED (R113). -/
theorem engineAdvance_of_closing (s : State) (t : Tag) (p : PartId) (hs : s.controller ≠ .shutdown)
    (he : s.engine.state = .closing) (hc : s.engine.current = some t) (hp : (s.group t).partition = some p)
    (hf : (s.part p).state = .faulted) : s.engineAdvance = some (s.reportFailed t) := by
  have hfails : s.engineFails = some (s.reportFailed t) := by
    unfold State.engineFails
    simp only [he, hc, hp, hf, if_true]
  rw [State.engineAdvance, if_neg hs, hfails]
  rfl

/-- A round in which only the engine has a step. -/
theorem settleRound_of_engine (s x : State) (ho : ∀ e ∈ s.requests, e.phase ≠ .ordered)
    (hd : ∀ t, s.groupState t ≠ .draining) (h : s.engineAdvance = some x) : s.settleRound = (x, true) := by
  unfold State.settleRound
  rw [leaveAll_still s ho, drainAll_still s hd, h]

/-- A state in which nothing of its own can happen. -/
theorem atRest_of (s : State) (ho : ∀ e ∈ s.requests, e.phase ≠ .ordered) (hd : ∀ t, s.groupState t ≠ .draining)
    (he : s.engineAdvance = none)
    (hr : ∀ q, s.journalRuns q = true → ∀ x ∈ (s.part q).marks, x.progress ≠ .ready)
    (hq : s.controller = .quiescing → ∃ t, s.groupState t ≠ .free) : s.atRest = true := by
  have hleave : ∀ e ∈ s.requests, s.canLeave e.index = false := fun e _ => by
    cases hi : s.entry e.index with
    | none => simp [State.canLeave, hi]
    | some y => simp [State.canLeave, hi, ho y (List.mem_of_find?_eq_some hi)]
  have hissue : ∀ q, (!s.journalRuns q || (readyRun 0 (s.part q).marks).isEmpty) = true := fun q => by
    cases hj : s.journalRuns q with
    | false => rfl
    | true => rw [readyRun_of_no_ready _ 0 (hr q hj)]; rfl
  have hquiet : (decide (s.controller = .quiescing) && s.quietHolds) = false := by
    by_cases hc : s.controller = .quiescing
    swap
    · simp [hc]
    obtain ⟨t, ht⟩ := hq hc
    rw [Bool.and_eq_false_iff]
    right
    rw [State.quietHolds, Bool.and_eq_false_iff]
    refine .inl (List.all_eq_false.mpr ⟨s.group t, (mem_groups_toList s _).mpr ⟨t, rfl⟩, ?_⟩)
    simpa [State.groupState] using ht
  simp only [State.atRest, Bool.and_eq_true, List.all_eq_true, he, hquiet, hissue]
  exact ⟨⟨⟨⟨fun e hm => by simp [hleave e hm], fun t _ => by simp [State.canDrain, hd t]⟩, rfl⟩, fun _ _ => trivial⟩,
    by simp⟩

/-- The engine, IDLE with no group waiting, has no step (R103). -/
theorem engineAdvance_of_idle (s : State) (hi : s.engine.state = .idle) (hw : s.engine.waiting = []) :
    s.engineAdvance = none := by
  simp [State.engineAdvance, State.engineFails, State.engineTakes, State.engineSettles, State.engineReads, hi, hw]

/-- Settles O20: the engine's report FAILED is the event's one step. -/
theorem faultFailsClosingUnwind : Obligations.FaultFailsClosingUnwind := by
  intro s n p k m t hd h hr ha hclosing hcur hpart hunw hwait hlines hhit hdrain hentries hready part parked faulted
    broken retries
  have hrow := slotWriteDone_faults s n p k m hd h hr ha
  have hx := faultedAt_eq (s.begin.forget n) p k ((s.part p).durableTail.advance (s.capacity p) k).slot m
  generalize (s.begin.forget n).faultedAt p k ((s.part p).durableTail.advance (s.capacity p) k).slot m = x at hrow hx
  have hs : s.controller ≠ .shutdown := ((journalRuns_iff s p).mp hr).2
  have hgroup : ∀ v, x.group v = s.group v := fun v => by rw [hx]; rfl
  have hstate : ∀ v, x.groupState v = s.groupState v := fun v => by simp only [State.groupState, hgroup]
  have hparts : ∀ q, x.part q = if q = p then { part with
      state := .faulted, marks := part.marks.set k { m with progress := .failed } } else s.part q := fun q => by
    rw [hx]; exact part_setPart s.begin p q _
  have hrequests : x.requests = s.requests := by rw [hx]; rfl
  rw [revokePartition_still x p fun v hv => by
    rw [hgroup] at hv; rw [hstate]
    exact ⟨(hhit v hv).1, hdrain v, (hhit v hv).2⟩] at hrow
  have hadvance : x.engineAdvance = some (x.reportFailed t) :=
    engineAdvance_of_closing x t p (by rw [hx]; exact hs) (by rw [hx]; exact hclosing) (by rw [hx]; exact hcur)
      (by rw [hgroup]; exact hpart) (by rw [hparts, if_pos rfl])
  have hround := settleRound_of_engine x _ (fun e he => (hentries e (hrequests ▸ he)).1)
    (fun v => by rw [hstate]; exact hdrain v) hadvance
  obtain ⟨a, dr, f, hreport, hlist, hf2, hf3, hflags⟩ := reportFailed_only x t
    (fun e he hp => absurd hp (hentries e (hrequests ▸ he)).2)
  have hreads : ((x.requests.filter (fun y => ((x.group t).parkedAbort.bind x.entry).toList.all
      (fun e => y.index != e.index))).filter (fun e => decide (e.phase = .waitUnwind) &&
      x.claims.any (fun c => decide (c.tag = t) && decide (c.line = e.line)))) = [] := by
    refine List.filter_eq_nil_iff.mpr fun e he => ?_
    have hp := (hentries e (hrequests ▸ (List.mem_filter.mp he).1)).2
    simp [hp]
  have hparked : ((x.group t).parkedAbort.bind x.entry).toList = parked := by
    rw [hgroup, show x.entry = s.entry from funext fun i => by rw [State.entry, hrequests]; rfl]
  rw [hreads, hparked] at hreport
  have hafter : (x.reportFailed t).requests = s.requests.filter (fun y => parked.all (fun e => y.index != e.index)) := by
    rw [hreport, hrequests]
    exact List.filter_eq_self.mpr fun _ _ => rfl
  have hbroken : ∀ v, (x.reportFailed t).group v =
      if v = t then { s.group t with state := .broken, parkedAbort := none } else s.group v := fun v => by
    rw [← hgroup t, ← hgroup v, ← group_setGroup x t v { x.group t with state := .broken, parkedAbort := none }, hreport]
    rfl
  have hrings : ∀ q, (x.reportFailed t).part q = x.part q := fun q => by rw [hreport]; rfl
  have hidle : (x.reportFailed t).engineAdvance = none := by
    refine engineAdvance_of_idle _ (by rw [hreport]) ?_
    rw [hreport, hx]
    exact hwait
  have hrest : (x.reportFailed t).atRest = true := by
    refine atRest_of _ (fun e he => ?_) (fun v => ?_) hidle (fun q hq y hy => ?_) fun _ => ⟨t, ?_⟩
    · rw [hafter] at he
      exact (hentries e (List.mem_filter.mp he).1).1
    · rw [State.groupState, hbroken]
      split
      · exact nofun
      · exact hdrain v
    · rw [hrings, hparts] at hy
      by_cases hqp : q = p
      · have hstop := ((journalRuns_iff _ q).mp hq).1
        rw [hrings, hparts, if_pos hqp] at hstop
        exact absurd hstop (by simp)
      · rw [if_neg hqp] at hy
        exact hready q hqp y hy
    · rw [State.groupState, hbroken, if_pos rfl]
      exact nofun
  rw [settle_of_round x _ hround hrest] at hrow
  refine ⟨x.reportFailed t, hrow, ?_, ?_, ?_, ?_, ?_⟩
  · have hinc : x.incidents = (faulted :: s.incidents).take 8 := by rw [hx]; rfl
    have htag : x.engine.failedLines = 0 := by rw [hx]; exact hlines
    rw [hreport]
    show a = _
    rw [hlist, hgroup, hpart, htag, hinc, show x.engine.firstFailed = s.engine.firstFailed by rw [hx]; rfl,
      show x.tickCounter = s.tickCounter by rw [hx]; rfl]
    exact take_append_take 8 [broken] (faulted :: s.incidents)
  · rw [hreport]
    exact hflags 1 (by rw [hx]; simp)
  · rw [hreport]
    exact hf2
  · intro hretry
    rw [hreport]
    exact hf3 (by rw [hx]; exact hretry)
  · have hlines' : x.engine.failedLines = 0 := by rw [hx]; exact hlines
    have hwaiting : x.engine.waiting = [] := by rw [hx]; exact hwait
    rw [hreport, List.append_nil, hlines', hwaiting]
    rw [show ∀ l : List Entry, l.filter (fun y => ([] : List Entry).all fun e => y.index != e.index) = l from
      fun l => List.filter_eq_self.mpr fun _ _ => rfl, hgroup, hx]
    rfl

end Sys2Proof.Machine
end

section
/-! SUPPORT. The unwind engine's steps and the restore of its lines (O26, O27, O28). -/

namespace Sys2Proof.Machine

/-! ### The three rows of the engine's own steps -/

/-- An engine row: nothing in SHUTDOWN, and otherwise the engine's step, if it has one (R119). -/
theorem engine_row (s : State) (c : Instr) (f : State → Option State) (hd : s.direct = true)
    (hc : exec c s = s.lineEvent (State.engineEvent f)) (hf : ∀ x y, f x = some y → y.setup = x.setup) :
    exec c s = .next (if s.controller = .shutdown then s.begin else (f s.begin).elim s.begin State.settle) := by
  rw [engineEvent_of_direct s c f hd hc hf]
  cases f s.begin <;> simp only [Option.elim_none, Option.elim_some]

theorem unwindTakeGroup_row (s : State) (hd : s.direct = true) :
    exec .unwindTakeGroup s =
      .next (if s.controller = .shutdown then s.begin else s.begin.engineTakes.elim s.begin State.settle) :=
  engine_row s .unwindTakeGroup State.engineTakes hd rfl fun _ _ h => engineTakes_setup h

theorem groupSettled_row (s : State) (hd : s.direct = true) :
    exec .groupSettled s =
      .next (if s.controller = .shutdown then s.begin else s.begin.engineSettles.elim s.begin State.settle) :=
  engine_row s .groupSettled State.engineSettles hd rfl fun _ _ h => engineSettles_setup h

theorem storesCleared_row (s : State) (hd : s.direct = true) :
    exec .storesCleared s =
      .next (if s.controller = .shutdown then s.begin else s.begin.engineReads.elim s.begin State.settle) :=
  engine_row s .storesCleared State.engineReads hd rfl fun _ _ h => engineReads_setup h

theorem engineTakes_eq_none (s : State) (h : s.engine.state ≠ .idle ∨ s.engine.waiting = []) :
    s.engineTakes = none := by
  unfold State.engineTakes
  split
  · rename_i t rest hi hw
    obtain h | h := h
    · exact absurd hi h
    · rw [hw] at h; cases h
  · rfl

theorem engineTakes_of_idle (s : State) (t : Tag) (rest : List Tag) (hi : s.engine.state = .idle)
    (hw : s.engine.waiting = t :: rest) : s.engineTakes = some (s.takeGroup t rest) := by
  unfold State.engineTakes
  simp only [hi, hw]

theorem engineSettles_eq_none (s : State)
    (h : s.engine.state ≠ .settling ∨ s.engine.current = none ∨ ∀ t, s.engine.current = some t → s.groupSettled t = false) :
    s.engineSettles = none := by
  unfold State.engineSettles
  split
  · rename_i t hi hc
    obtain h | h | h := h
    · exact absurd hi h
    · rw [hc] at h; cases h
    · rw [if_neg (by simp [h t hc])]
  · rfl

theorem engineSettles_of_settled (s : State) (t : Tag) (hi : s.engine.state = .settling)
    (hc : s.engine.current = some t) (h : s.groupSettled t = true) : s.engineSettles = some (s.enterRestoring t) := by
  unfold State.engineSettles
  simp only [hi, hc, h, if_true]

theorem engineReads_eq_none (s : State)
    (h : s.engine.state ≠ .restoring ∨ s.engine.currentLine = none ∨ s.engine.lineStep ≠ .waitStores ∨
      ∀ c, s.engine.currentLine = some c → s.storesClear c.line = false) : s.engineReads = none := by
  unfold State.engineReads
  split
  · rename_i c hi hc hl
    obtain h | h | h | h := h
    · exact absurd hi h
    · rw [hc] at h; cases h
    · exact absurd hl h
    · rw [if_neg (by simp [h c hc])]
  · rfl

theorem engineReads_of_clear (s : State) (c : Claim) (hi : s.engine.state = .restoring)
    (hc : s.engine.currentLine = some c) (hl : s.engine.lineStep = .waitStores) (h : s.storesClear c.line = true) :
    s.engineReads = some (s.issueUnwindRead c 1) := by
  unfold State.engineReads
  simp only [hi, hc, hl, h, if_true]

theorem storesClear_iff (s : State) (line : Addr) :
    s.storesClear line = true ↔ ∀ e ∈ s.requests, e.line = line → e.phase ≠ .storing := by
  simp [State.storesClear]

theorem groupSettled_iff (s : State) (t : Tag) (p : PartId) (hp : (s.group t).partition = some p) :
    s.groupSettled t = true ↔
      ∀ c ∈ s.claims, c.tag = t → c.logged = true ∨ s.claimPadded p c = true ∨ (s.part p).state = .faulted := by
  unfold State.groupSettled
  rw [hp]
  simp only [State.claimsOf, State.claimSettled, List.all_filter, List.all_eq_true, Bool.or_eq_true,
    Bool.not_eq_true', beq_eq_false_iff_ne, decide_eq_true_eq, or_assoc, ← imp_iff_not_or, Ne]

/-! ### The restore set -/

theorem restoreSetOf_of_placed (s : State) (t : Tag) (h : s.commitPlaced t = true) : s.restoreSetOf t = [] :=
  if_pos h

/-- The restore set of a group that has placed no COMMIT record: its logged claims, in descending record index (R105). -/
theorem restoreSetOf_perm (s : State) (t : Tag) (h : s.commitPlaced t = false) :
    (s.restoreSetOf t).Perm (s.claims.filter (fun c => c.tag == t && c.logged)) ∧
      (s.restoreSetOf t).Pairwise (fun a b => b.index ≤ a.index) := by
  have hset : (s.claimsOf t).filter (·.logged) = s.claims.filter (fun c => c.tag == t && c.logged) := by
    rw [State.claimsOf, List.filter_filter]
    exact List.filter_congr fun c _ => Bool.and_comm _ _
  rw [State.restoreSetOf, if_neg (by simp [h]), hset]
  exact insertDescending_foldr _

/-- The engine takes a line of a restore set that holds one (R105). -/
theorem takeNextLine_cons (s : State) (t : Tag) (c : Claim) (rest : List Claim) (hc : s.engine.current = some t)
    (hr : s.engine.restoreSet = c :: rest) :
    s.takeNextLine = s.modEngine fun e => { e with
      state := .restoring, currentLine := some c, lineStep := .waitStores, restoreData := none, restoreSet := rest } := by
  unfold State.takeNextLine
  simp only [hc, hr]

theorem takeNextLine_nil (s : State) (t : Tag) (hc : s.engine.current = some t) (hr : s.engine.restoreSet = []) :
    s.takeNextLine = s.restoresOver t := by
  unfold State.takeNextLine
  simp only [hc, hr]

/-- Settles O26, row by row of the engine. -/
theorem engineSteps : Obligations.EngineSteps := by
  intro s hd
  refine ⟨fun hs => ?_, fun h => ?_, fun t rest hs hi hw => ?_, fun t p hi hc hp hun hf => ?_, fun h => ?_,
    fun t p hs hi hc hp hall hsome hplaced => ?_, fun h => ?_, fun c hi hc hl => ⟨fun hst => ?_, fun p hst hs hp => ?_⟩⟩
  · rw [unwindTakeGroup_row s hd, groupSettled_row s hd, storesCleared_row s hd, if_pos hs, if_pos hs, if_pos hs]
    exact ⟨rfl, rfl, rfl⟩
  · rw [unwindTakeGroup_row s hd, engineTakes_eq_none s.begin h, Option.elim_none, ite_self]
  · rw [unwindTakeGroup_row s hd, if_neg hs, engineTakes_of_idle s.begin t rest hi hw,
      Option.elim_some]
    rfl
  · have hnot : s.begin.groupSettled t = false := by
      rw [Bool.eq_false_iff, Ne, groupSettled_iff s.begin t p hp]
      intro h
      obtain ⟨c, hm, ht, hl, hpad⟩ := hun
      obtain h | h | h := h c hm ht
      · simp [hl] at h
      · exact absurd h (Bool.eq_false_iff.mp hpad)
      · exact hf h
    rw [groupSettled_row s hd, engineSettles_eq_none s.begin (.inr (.inr ?_)), Option.elim_none, ite_self]
    intro u hu
    obtain rfl : t = u := Option.some.inj (hc.symm.trans hu)
    exact hnot
  · rw [groupSettled_row s hd, engineSettles_eq_none s.begin (h.imp_right .inl), Option.elim_none, ite_self]
  · have hrow := groupSettled_row s hd
    rw [if_neg hs, engineSettles_of_settled s.begin t hi hc ((groupSettled_iff s.begin t p hp).mpr hall),
      Option.elim_some] at hrow
    obtain ⟨hperm, -⟩ := restoreSetOf_perm s.begin t hplaced
    obtain ⟨c0, hm0, ht0, hl0⟩ := hsome
    have hmem0 : c0 ∈ s.begin.restoreSetOf t :=
      hperm.symm.subset (List.mem_filter.mpr ⟨hm0, by simp [ht0, hl0]⟩)
    cases hset : s.begin.restoreSetOf t with
    | nil => rw [hset] at hmem0; cases hmem0
    | cons c rest =>
      obtain ⟨hm, htl⟩ := List.mem_filter.mp (hperm.subset (hset ▸ List.mem_cons_self))
      rw [Bool.and_eq_true, beq_iff_eq] at htl
      have henter := takeNextLine_cons
        (s.begin.modEngine fun e => { e with state := .restoring, restoreSet := s.begin.restoreSetOf t }) t c rest hc hset
      refine ⟨_, c, hrow, ?_, ?_, hm, htl.1, htl.2⟩
      · rw [State.enterRestoring, henter]; rfl
      · rw [State.enterRestoring, henter]; rfl
  · rw [storesCleared_row s hd, engineReads_eq_none s.begin (h.imp_right fun h => h.imp_right .inl),
      Option.elim_none, ite_self]
  · rw [storesCleared_row s hd, engineReads_eq_none s.begin (.inr (.inr (.inr ?_))),
      Option.elim_none, ite_self]
    intro d hd'
    obtain rfl : c = d := Option.some.inj (hc.symm.trans hd')
    rw [Bool.eq_false_iff, Ne, storesClear_iff]
    obtain ⟨e, he, hline, hphase⟩ := hst
    exact fun h => h e he hline hphase
  · rw [storesCleared_row s hd, if_neg hs, engineReads_of_clear s.begin c hi hc hl
      ((storesClear_iff s.begin c.line).mpr hst), Option.elim_some, State.issueUnwindRead,
      show (s.begin.group c.tag).partition = some p from hp]
    rfl

/-! ### A settled group (O27) -/

/-- The restores are over with none failed in a READY partition: the UNWOUND record is placed (R111). -/
theorem restoresOver_of_ready (s : State) (t : Tag) (p : PartId) (v : Word) (n : Nat) (hs : s.controller ≠ .shutdown)
    (hp : (s.group t).partition = some p) (hr : (s.part p).state = .ready) (hf : s.engine.failedLines = 0)
    (hv : (s.group t).sequence = some v) (hn : (s.group t).undoCount = some n) :
    s.restoresOver t = (s.setPart p ((s.part p).placeClosing (s.size p) .unwound kindUnwound ⟨t, v, n, none⟩)).modEngine
      fun e => { e with state := .closing, currentLine := none, lineStep := .waitStores, restoreData := none } := by
  have hinfo : (s.group t).closingInfo t = ⟨t, v, n, none⟩ := by simp [Group.closingInfo, hv, hn]
  unfold State.restoresOver
  simp only [hp, hr, hf, decide_true, Bool.and_true, if_true]
  rw [placeClosing_of_runs s t .unwound kindUnwound p hp ((journalRuns_iff s p).mpr ⟨hr, hs⟩), hinfo]

/-- A settled group with no line to restore (R105, R111). -/
theorem restoreSetOf_eq_nil (s : State) (t : Tag)
    (h : s.claims.filter (fun c => c.tag == t && c.logged) = [] ∨ s.commitPlaced t = true) :
    s.restoreSetOf t = [] := by
  by_cases hc : s.commitPlaced t = true
  · exact restoreSetOf_of_placed s t hc
  · have hperm := (restoreSetOf_perm s t (Bool.eq_false_iff.mpr hc)).1
    rw [h.resolve_right hc] at hperm
    exact List.perm_nil.mp hperm

/-- Settles O27, by whether the group has a line to restore. -/
theorem settledGroupIsRestored : Obligations.SettledGroupIsRestored := by
  intro s t p hd hs hi hc hp hall set part placed
  have hplaced : s.commitPlaced t = true ↔ placed := commitPlaced_iff s t p hp
  have hrow := groupSettled_row s hd
  rw [if_neg hs, engineSettles_of_settled s.begin t hi hc ((groupSettled_iff s.begin t p hp).mpr hall),
    Option.elim_some, State.enterRestoring] at hrow
  constructor
  · intro hne hnot
    have hno : s.begin.commitPlaced t = false := Bool.eq_false_iff.mpr fun h => hnot (hplaced.mp h)
    obtain ⟨hperm, hsorted⟩ := restoreSetOf_perm s.begin t hno
    cases hset : s.begin.restoreSetOf t with
    | nil =>
      rw [hset] at hperm
      exact absurd (List.nil_perm.mp hperm) hne
    | cons c rest =>
      rw [hset] at hperm hsorted hrow
      refine ⟨c, rest, hperm, hsorted, ?_⟩
      rw [hrow, takeNextLine_cons (s.begin.modEngine fun e => { e with state := .restoring, restoreSet := c :: rest }) t c
        rest hc rfl]
      rfl
  · intro v n hnone hready hfailed hv hn info
    have hset : s.begin.restoreSetOf t = [] := restoreSetOf_eq_nil s.begin t (hnone.imp_right hplaced.mpr)
    have hover := restoresOver_of_ready (s.begin.modEngine fun e => { e with state := .restoring, restoreSet := [] }) t p v n
      hs hp hready hfailed hv hn
    rw [hset, takeNextLine_nil (s.begin.modEngine fun e => { e with state := .restoring, restoreSet := [] }) t hc rfl,
      hover] at hrow
    exact hrow

/-! ### The restore of a line (O28) -/

/-- The engine once a line has ended, where another follows (R105). -/
def Engine.nextLine (e : Engine) : Engine :=
  match e.restoreSet with
  | [] => e
  | x :: rest => { e with
      state := .restoring, currentLine := some x, lineStep := .waitStores, restoreData := none, restoreSet := rest }

/-- The engine as SHUTDOWN stops it (R119). -/
def Engine.stoppedAt (e : Engine) : Engine :=
  { e with state := .stopped, currentLine := none, lineStep := .waitStores, restoreData := none, restoreSet := [] }

theorem lineEnded_of_shutdown (s : State) (h : s.controller = .shutdown) :
    s.lineEnded = s.modEngine Engine.stoppedAt :=
  if_pos h

theorem lineEnded_of_more (s : State) (t : Tag) (h : s.controller ≠ .shutdown) (hc : s.engine.current = some t)
    (hr : s.engine.restoreSet ≠ []) : s.lineEnded = s.modEngine Engine.nextLine := by
  rw [State.lineEnded, if_neg h]
  cases hset : s.engine.restoreSet with
  | nil => exact absurd hset hr
  | cons c rest =>
    rw [takeNextLine_cons s t c rest hc hset, State.modEngine, State.modEngine, Engine.nextLine, hset]

theorem unwindReadOutcome_of_reading (s : State) (c : Claim) (a : Nat) (hc : s.engine.currentLine = some c)
    (hl : s.engine.lineStep = .reading a) :
    (∀ d, s.unwindReadOutcome (.okay d) = s.issueRestoreWrite c d 1) ∧
      s.unwindReadOutcome .failed = if a = 1 then s.issueUnwindRead c 2 else s.lineFailed c := by
  unfold State.unwindReadOutcome
  simp only [hc, hl]
  exact ⟨fun _ => trivial, trivial⟩

theorem restoreWriteOutcome_of_writing (s : State) (c : Claim) (a : Nat) (hc : s.engine.currentLine = some c)
    (hl : s.engine.lineStep = .writing a) :
    (∀ d, s.restoreWriteOutcome (.okay d) = (s.modEngine fun e => { e with restoreData := none }).lineEnded) ∧
      s.restoreWriteOutcome .failed =
        if a = 1 then s.issueRestoreWrite c (s.engine.restoreData.getD []) 2 else s.lineFailed c := by
  unfold State.restoreWriteOutcome
  simp only [hc, hl]
  exact ⟨fun _ => trivial, trivial⟩

/-- The port's answer to the read of the engine's line. -/
theorem unwindReadDone_row (s : State) (n : Word) (r : PortRecord) (hd : s.direct = true) (hr : s.recordOf n = some r)
    (hp : r.purpose = .unwindRead) (href : r.ref = .unwindLine) (x : ArrayResult) :
    exec (.unwindReadDone n x) s = .next ((s.begin.forget n).unwindReadOutcome (r.outcome x)).settle := by
  show s.lineEvent (State.takeResponse n x) = _
  rw [takeResponse_delivers s n x r hd hr (by rw [hp]; rfl), State.deliver, hp, href]

/-- The port's answer to the write of the engine's line. -/
theorem restoreWriteDone_row (s : State) (n : Word) (r : PortRecord) (hd : s.direct = true) (hr : s.recordOf n = some r)
    (hp : r.purpose = .restoreWrite) (href : r.ref = .unwindLine) (x : ArrayResult) :
    exec (.restoreWriteDone n x) s = .next ((s.begin.forget n).restoreWriteOutcome (r.outcome x)).settle := by
  show s.lineEvent (State.takeResponse n x) = _
  rw [takeResponse_delivers s n x r hd hr (by rw [hp]; rfl), State.deliver, hp, href]

/-- Settles O28, by the step of the line and the outcome. -/
theorem lineIsRestored : Obligations.LineIsRestored := by
  intro s n r t c a p hd hr href hcur hline hp ha b on read write next stopped failed ends
  have hends : ∀ e : Engine, e.current = some t → e.restoreSet = s.engine.restoreSet → ∀ o,
      o = .next (on e).lineEnded.settle → ends e o := by
    rintro e he hset o rfl
    refine ⟨fun h => ?_, fun h hne => ?_⟩
    · rw [lineEnded_of_shutdown (on e) h]
      rfl
    · rw [lineEnded_of_more (on e) t h he (by show e.restoreSet ≠ []; rw [hset]; exact hne)]
      rfl
  have htwo : a = 2 → ¬ a = 1 := fun h => by omega
  constructor
  · intro hpur hstep
    have hrow := unwindReadDone_row s n r hd hr hpur href
    obtain ⟨hokay, hfail⟩ := unwindReadOutcome_of_reading b c a hline hstep
    have herr : exec (.unwindReadDone n .error) s = .next (State.settle (if a = 1 then b.issueUnwindRead c 2 else b.lineFailed c)) := by
      rw [hrow, ← hfail]; rfl
    refine ⟨fun d => ?_, fun h1 => ?_, fun h2 => hends failed hcur rfl _ ?_⟩
    · rw [hrow, outcome_of_read r d (by rw [hpur]; rfl), hokay]
      rfl
    · rw [herr, if_pos h1, State.issueUnwindRead, show (b.group c.tag).partition = some p from hp]
      rfl
    · rw [herr, if_neg (htwo h2)]
      rfl
  · intro hpur hstep
    have hrow := restoreWriteDone_row s n r hd hr hpur href
    obtain ⟨hokay, hfail⟩ := restoreWriteOutcome_of_writing b c a hline hstep
    have herr : exec (.restoreWriteDone n .error) s = .next (State.settle (if a = 1 then
        b.issueRestoreWrite c (b.engine.restoreData.getD []) 2 else b.lineFailed c)) := by
      rw [hrow, ← hfail]; rfl
    have hok : ∀ d, exec (.restoreWriteDone n (.okay d)) s =
        .next (on { s.engine with restoreData := none }).lineEnded.settle := by
      intro d
      rw [hrow, outcome_of_write r d (by rw [hpur]; rfl), hokay]
      rfl
    refine ⟨fun d => hends { s.engine with restoreData := none } hcur rfl _ (hok d), fun d q v i hs hset hf hq hready hv hn => ?_, fun h1 d hdata => ?_,
      fun h2 => hends failed hcur rfl _ ?_⟩
    · intro info
      rw [hok, State.lineEnded, if_neg (show ¬ (on { s.engine with restoreData := none }).controller = .shutdown from hs),
        takeNextLine_nil (on { s.engine with restoreData := none }) t hcur hset,
        restoresOver_of_ready (on { s.engine with restoreData := none }) t q v i hs hq hready hf hv hn]
      rfl
    · rw [herr, if_pos h1, show b.engine.restoreData = some d from hdata]
      rfl
    · rw [herr, if_neg (htwo h2)]
      rfl

end Sys2Proof.Machine
end

section
/-! SUPPORT. The unwind that fails: what its report changes, in whatever state the engine stands (O30). -/

namespace Sys2Proof.Machine

/-! ### A revocation takes no account of the engine but of its waiting order -/

/-- The state with another engine. -/
def State.setEngine (e : Engine) (s : State) : State :=
  { s with engine := e }

@[simp] theorem setEngine_engine (s : State) (e : Engine) : (s.setEngine e).engine = e := rfl

@[simp] theorem setEngine_setEngine (s : State) (e f : Engine) : (s.setEngine e).setEngine f = s.setEngine f := rfl

theorem setEngine_self (s : State) : s.setEngine s.engine = s := rfl

/-- The same engine with another waiting order. -/
def Engine.withWaiting (e : Engine) (l : List Tag) : Engine :=
  { e with waiting := l }

theorem padUndo_setEngine (s : State) (e : Engine) (u : UndoRef) :
    (s.setEngine e).padUndo u = (s.padUndo u).setEngine e := by
  unfold State.padUndo
  by_cases h : s.journalRuns u.partition = true
  · rw [if_pos h, if_pos (show (s.setEngine e).journalRuns u.partition = true from h)]
    rfl
  · rw [if_neg h, if_neg (show ¬ (s.setEngine e).journalRuns u.partition = true from h)]

theorem revokeFate_setEngine (s : State) (e : Engine) (x : Entry) :
    (s.setEngine e).revokeFate x = (s.revokeFate x).setEngine e := by
  unfold State.revokeFate
  cases x.phase
  case ordered =>
    cases x.path
    case newClaim =>
      cases x.undo with
      | none => rfl
      | some u => exact padUndo_setEngine (s.finishEntry x .revoked []) e u
    all_goals rfl
  all_goals rfl

theorem revokeFates_setEngine (l : List Entry) : ∀ (s : State) (e : Engine),
    l.foldl State.revokeFate (s.setEngine e) = (l.foldl State.revokeFate s).setEngine e := by
  induction l with
  | nil => exact fun _ _ => rfl
  | cons x l ih =>
    intro s e
    rw [List.foldl_cons, List.foldl_cons, revokeFate_setEngine, ih]

theorem revokeFates_engine (l : List Entry) (s : State) : (l.foldl State.revokeFate s).engine = s.engine := by
  obtain ⟨r, q, o, h, -⟩ := revokeFates_only l s
  rw [h]

theorem joinWaiting_setEngine (s : State) (e : Engine) (hw : e.waiting = s.engine.waiting) (t : Tag) :
    (s.setEngine e).joinWaiting t = (s.joinWaiting t).setEngine (e.withWaiting (s.joinWaiting t).engine.waiting) := by
  simp only [State.joinWaiting, State.setEngine, Engine.withWaiting, hw]

theorem startUnwind_setEngine (s : State) (e : Engine) (hw : e.waiting = s.engine.waiting) (t : Tag)
    (o : UnwindOrigin) (c : Option RevokeCause) :
    (s.setEngine e).startUnwind t o c =
      (s.startUnwind t o c).setEngine (e.withWaiting (s.startUnwind t o c).engine.waiting) := by
  have hfates := revokeFates_setEngine (s.members t) (s.modGroup t (Group.unwindingBy o c)) e
  have hengine := revokeFates_engine (s.members t) (s.modGroup t (Group.unwindingBy o c))
  have hjoin := joinWaiting_setEngine ((s.members t).foldl State.revokeFate (s.modGroup t (Group.unwindingBy o c))) e
    (by rw [hengine]; exact hw) t
  rw [← hfates] at hjoin
  exact hjoin

theorem log_setEngine (s : State) (e : Engine) (i : Incident) : (s.setEngine e).log i = (s.log i).setEngine e := by
  rw [log_eq, log_eq]
  rfl

theorem log_engine (s : State) (i : Incident) : (s.log i).engine = s.engine := by
  rw [log_eq]

theorem revoke_setEngine (s : State) (e : Engine) (hw : e.waiting = s.engine.waiting) (t : Tag) (c : RevokeCause) :
    (s.setEngine e).revoke t c = (s.revoke t c).setEngine (e.withWaiting (s.revoke t c).engine.waiting) := by
  unfold State.revoke
  by_cases h : (decide (s.controller ≠ .shutdown) && c.appliesTo (s.groupState t)) = true
  · rw [if_pos h, if_pos (show (decide ((s.setEngine e).controller ≠ .shutdown) &&
      c.appliesTo ((s.setEngine e).groupState t)) = true from h), startUnwind_setEngine s e hw, log_setEngine]
    rw [State.raise_engine, log_engine]
    rfl
  · rw [if_neg h, if_neg (show ¬ (decide ((s.setEngine e).controller ≠ .shutdown) &&
      c.appliesTo ((s.setEngine e).groupState t)) = true from h), ← hw]
    rfl

/-! ### The groups whose commit requests are answered BROKEN (R41) -/

/-- A group loses its commit request and is revoked with cause ARRAY (R41). -/
def State.loseCommit (s : State) (v : Tag) : State :=
  (s.setGroup v { s.group v with commitRequest := none }).revoke v .array

theorem loseCommit_setEngine (s : State) (e : Engine) (hw : e.waiting = s.engine.waiting) (v : Tag) :
    (s.setEngine e).loseCommit v = (s.loseCommit v).setEngine (e.withWaiting (s.loseCommit v).engine.waiting) :=
  revoke_setEngine (s.setGroup v { s.group v with commitRequest := none }) e hw v .array

theorem loseCommits_setEngine (l : List Tag) : ∀ (s : State) (e : Engine), e.waiting = s.engine.waiting →
    l.foldl State.loseCommit (s.setEngine e) =
      (l.foldl State.loseCommit s).setEngine (e.withWaiting (l.foldl State.loseCommit s).engine.waiting) := by
  induction l with
  | nil => intro s e hw; rw [List.foldl_nil, List.foldl_nil, ← hw]; rfl
  | cons v l ih =>
    intro s e hw
    rw [List.foldl_cons, List.foldl_cons, loseCommit_setEngine s e hw,
      ih (s.loseCommit v) (e.withWaiting (s.loseCommit v).engine.waiting) rfl]
    rfl

/-- Those of some groups whom cause ARRAY revokes (R16). -/
def State.losers (s : State) (l : List Tag) : List Tag :=
  l.filter fun v => RevokeCause.array.appliesTo (s.groupState v)

/-- GROUP_REVOKED of a group that loses its commit request (R41). -/
def State.arrayRevoked (s : State) (v : Tag) : Incident :=
  ⟨.groupRevoked, s.tickCounter, some v, some ((s.group v).sequence.getD 0), some ((s.group v).partition.getD 0), none,
    some 2⟩

/-- A group once some groups have lost their commit requests (R16, R41). -/
def State.groupAfterLoss (s : State) (l : List Tag) (v : Tag) : Group :=
  { (if v ∈ s.losers l then
      { s.group v with state := .unwinding, unwindOrigin := some .revoke, revokeCause := some .array }
    else s.group v) with commitRequest := if v ∈ l then none else (s.group v).commitRequest }

/-- Everything that the loss of some groups' commit requests changes (R16, R41, R102). -/
def State.CommitsLost (s : State) (l : List Tag) (x : State) : Prop :=
  (∃ r q o g inc d f, x = { s with
    requests := r, partitions := q, responses := o, groups := g, joined := s.joined + (s.losers l).length
    engine := s.engine.withWaiting (s.engine.waiting ++ s.losers l), incidents := inc, dropped := d, flags := f }) ∧
  x.incidents.take 8 = (((s.losers l).map s.arrayRevoked).reverse ++ s.incidents).take 8 ∧
  (∀ v, x.group v = s.groupAfterLoss l v) ∧
  (∀ i, s.flags.getLsbD i = true → x.flags.getLsbD i = true) ∧ (s.losers l ≠ [] → x.flags.getLsbD 4 = true)

theorem commitsLost_nil (s : State) : s.CommitsLost [] s := by
  refine ⟨⟨s.requests, s.partitions, s.responses, s.groups, s.incidents, s.dropped, s.flags, ?_⟩, rfl, fun v => rfl,
    fun _ h => h, fun h => absurd rfl h⟩
  simp [State.losers, Engine.withWaiting]

/-- One group loses its commit request, behind those that joined the waiting order before it (R41, R102). -/
theorem loseCommit_commitsLost (s : State) (v : Tag) (before now : List Tag) (hs : s.controller ≠ .shutdown)
    (hw : s.engine.waiting = before ++ now) (hj : s.joined = now.length) (hlt : ∀ u ∈ now, u < v) :
    s.CommitsLost [v] (s.loseCommit v) := by
  have hself : ∀ u, (s.setGroup v { s.group v with commitRequest := none }).group u =
      if u = v then { s.group v with commitRequest := none } else s.group u := fun u => group_setGroup s v u _
  have hstate : (s.setGroup v { s.group v with commitRequest := none }).groupState v = s.groupState v := by
    rw [State.groupState, hself, if_pos rfl]; rfl
  unfold State.CommitsLost State.loseCommit
  cases ha : RevokeCause.array.appliesTo (s.groupState v) with
  | false =>
    have hlosers : s.losers [v] = [] := by simp [State.losers, ha]
    rw [revoke_not _ v .array (by rw [hstate]; exact ha), hlosers]
    refine ⟨⟨s.requests, s.partitions, s.responses, (s.setGroup v { s.group v with commitRequest := none }).groups,
      s.incidents, s.dropped, s.flags, ?_⟩, rfl, fun u => ?_, fun _ h => h, fun h => absurd rfl h⟩
    · simp only [List.length_nil, Nat.add_zero, List.append_nil]
      rfl
    · rw [hself, State.groupAfterLoss, hlosers]
      by_cases hu : u = v
      · subst hu; simp
      · simp [hu]
  | true =>
    have hlosers : s.losers [v] = [v] := by simp [State.losers, ha]
    obtain ⟨r, q, o, d, h1, h2, h3, -⟩ := revoke_only (s.setGroup v { s.group v with commitRequest := none }) v .array hs
      (by rw [hstate]; exact ha)
    rw [joinWaiting_last (s.setGroup v { s.group v with commitRequest := none }) v before now hw hj hlt] at h1
    rw [hlosers]
    refine ⟨⟨r, q, o, _, _, d, _, h1⟩, ?_, fun u => ?_, h3, fun _ => h2⟩
    · rw [h1, hself, if_pos rfl]
      simp only [List.take_take, Nat.min_self]
      rfl
    · have hgroup : ∀ z : State, z.groups = (s.setGroup v { s.group v with commitRequest := none }).groups.set v
          { (s.setGroup v { s.group v with commitRequest := none }).group v with
            state := .unwinding, unwindOrigin := some .revoke, revokeCause := some .array, commitRequest := none } →
          z.group u = if u = v then { s.group v with
            state := .unwinding, unwindOrigin := some .revoke, revokeCause := some .array, commitRequest := none }
          else s.group u := fun z hz => by
        have hset : z.group u = ((s.setGroup v { s.group v with commitRequest := none }).setGroup v
            { (s.setGroup v { s.group v with commitRequest := none }).group v with
              state := .unwinding, unwindOrigin := some .revoke, revokeCause := some .array
              commitRequest := none }).group u := by
          simp only [State.group, hz]; rfl
        rw [hset, setGroup_setGroup, group_setGroup, setGroup_group_self]
      rw [hgroup _ (by rw [h1]), State.groupAfterLoss, hlosers]
      by_cases hu : u = v
      · subst hu; simp
      · simp [hu]

theorem losers_cons (s : State) (v : Tag) (l : List Tag) : s.losers (v :: l) = s.losers [v] ++ s.losers l :=
  List.filter_append [v] l

theorem groupAfterLoss_of_ne (s : State) (v u : Tag) (h : u ≠ v) : s.groupAfterLoss [v] u = s.group u := by
  have hn : u ∉ s.losers [v] := fun hm => h (by simpa using (List.mem_filter.mp hm).1)
  simp [State.groupAfterLoss, hn, h]

/-- One group's loss, and then those of others. -/
theorem State.CommitsLost.cons {s y x : State} {v : Tag} {l : List Tag} (hv : v ∉ l) (h1 : s.CommitsLost [v] y)
    (h2 : y.CommitsLost l x) : s.CommitsLost (v :: l) x := by
  obtain ⟨⟨r, q, o, g, inc, d, f, hy⟩, hinc, hgroup, hmono, hbit⟩ := h1
  obtain ⟨⟨r', q', o', g', inc', d', f', hx⟩, hinc', hgroup', hmono', hbit'⟩ := h2
  have hsame : ∀ u ∈ l, y.group u = s.group u := fun u hu => by
    rw [hgroup, groupAfterLoss_of_ne s v u fun h => hv (h ▸ hu)]
  have hlosers : y.losers l = s.losers l := List.filter_congr fun u hu => by
    rw [State.groupState, hsame u hu]; rfl
  have hrevoked : (y.losers l).map y.arrayRevoked = (s.losers l).map s.arrayRevoked := by
    rw [hlosers]
    refine List.map_congr_left fun u hu => ?_
    rw [State.arrayRevoked, hsame u (List.mem_filter.mp hu).1, show y.tickCounter = s.tickCounter by rw [hy]]
    rfl
  rw [State.CommitsLost, losers_cons]
  refine ⟨⟨r', q', o', g', inc', d', f', ?_⟩, ?_, fun u => ?_, fun i h => hmono' i (hmono i h), fun hne => ?_⟩
  · rw [hx, hlosers, hy]
    simp [Engine.withWaiting, Nat.add_assoc]
  · rw [hinc', hrevoked, ← take_append_take, hinc, take_append_take, List.map_append, List.reverse_append,
      List.append_assoc]
  · rw [hgroup', State.groupAfterLoss, State.groupAfterLoss, hlosers, losers_cons, hgroup]
    by_cases hu : u = v
    · subst hu
      have hn : u ∉ s.losers l := fun hm => hv (List.mem_filter.mp hm).1
      simp [State.groupAfterLoss, hv, hn]
    · have hn : u ∉ s.losers [v] := fun hm => hu (by simpa using (List.mem_filter.mp hm).1)
      rw [groupAfterLoss_of_ne s v u hu]
      simp [hu, hn]
  · by_cases hl : y.losers l = []
    · rw [hlosers] at hl
      rw [hl, List.append_nil] at hne
      exact hmono' 4 (hbit hne)
    · exact hbit' hl

/-- Groups lose their commit requests in ascending order of tag (R41, R102). -/
theorem loseCommits_commitsLost (before : List Tag) (l : List Tag) : ∀ (now : List Tag) (s : State),
    s.controller ≠ .shutdown → s.engine.waiting = before ++ now → s.joined = now.length →
    (now ++ l).Pairwise (· < ·) → s.CommitsLost l (l.foldl State.loseCommit s) := by
  induction l with
  | nil => exact fun _ s _ _ _ _ => commitsLost_nil s
  | cons v l ih =>
    intro now s hs hw hj hp
    obtain ⟨-, hvl, hnow⟩ := List.pairwise_append.mp hp
    have h1 := loseCommit_commitsLost s v before now hs hw hj fun u hu => hnow u hu v (by simp)
    have hv : v ∉ l := fun h => Nat.lt_irrefl _ ((List.pairwise_cons.mp hvl).1 v h)
    obtain ⟨⟨r, q, o, g, inc, d, f, hy⟩, -⟩ := id h1
    have hsub : (now ++ s.losers [v] ++ l).Pairwise (· < ·) := by
      refine hp.sublist ?_
      rw [List.append_assoc]
      exact (List.Sublist.refl now).append
        ((List.filter_sublist (l := [v])).append (List.Sublist.refl l))
    exact h1.cons hv (ih (now ++ s.losers [v]) (s.loseCommit v) (by rw [hy]; exact hs)
      (by rw [hy, ← List.append_assoc, ← hw]; rfl) (by rw [hy, hj, List.length_append]) hsub)

/-! ### The report FAILED (R21, R41, R115) -/

/-- The ABORT that is parked at a group, as an entry of the table. -/
def State.parkedEntries (s : State) (t : Tag) : List Entry :=
  ((s.group t).parkedAbort.bind s.entry).toList

/-- The request table once a parked ABORT has left. -/
def State.requestsAfterPark (s : State) (t : Tag) : List Entry :=
  s.requests.filter (fun y => (s.parkedEntries t).all (fun e => y.index != e.index))

/-- The reads that wait on a group's lines, in the table that the parked ABORT has left (R41). -/
def State.brokenReads (s : State) (t : Tag) : List Entry :=
  (s.requestsAfterPark t).filter (fun e => decide (e.phase = .waitUnwind) &&
    s.claims.any (fun c => decide (c.tag = t) && decide (c.line = e.line)))

/-- A group of the engine is BROKEN, and what waits for it is answered (R21, R41). -/
def State.brokenAnswered (s : State) (t : Tag) : State :=
  { s with
    responses := s.responses ++ (s.parkedEntries t ++ s.brokenReads t).map (fun e => ⟨e.request.hostId, .broken, []⟩)
    requests := (s.requestsAfterPark t).filter (fun y => (s.brokenReads t).all (fun e => y.index != e.index))
    groups := s.groups.set t { s.group t with state := .broken, parkedAbort := none } }

/-- The groups that lose their commit requests with those reads, in ascending order of tag (R41). -/
def State.commitsHit (s : State) (t : Tag) : List Tag :=
  (List.finRange 15).filter (fun v => (s.brokenReads t).any (fun e => e.group == some v))

theorem answerParked_eq (s : State) (t : Tag) (st : Status) :
    s.answerParked t st = { s with
      responses := s.responses ++ (s.parkedEntries t).map (fun e => ⟨e.request.hostId, st, []⟩)
      requests := s.requestsAfterPark t, groups := s.groups.set t { s.group t with parkedAbort := none } } := by
  unfold State.answerParked State.requestsAfterPark State.parkedEntries
  cases (s.group t).parkedAbort.bind s.entry with
  | none => simp [State.modGroup, State.setGroup]
  | some e => simp [State.modGroup, State.setGroup, State.finishEntry, State.answer, State.respond, State.dropEntry,
      State.group]

/-- The report FAILED up to the incident: the answers, and the groups that lose their commit requests (R41, R115). -/
theorem reportFailed_answers (s : State) (t : Tag) :
    s.reportFailed t = State.engineIdle (State.endRetry t
      (State.endFailed (if s.engine.failedLines = 0 then .partitionFault else .restore) none)
      (State.raise .groupBroken (State.log
        { Incident.ofMember .restoreFailed (s.memberOf t) with
          line := s.engine.firstFailed, detail := some s.engine.failedLines }
        ((s.commitsHit t).foldl State.loseCommit (s.brokenAnswered t))))) := by
  have hparked : (s.modGroup t (fun g => { g with state := .broken })).parkedEntries t = s.parkedEntries t := by
    rw [State.parkedEntries, State.modGroup, setGroup_group_self]
    rfl
  have hbroken : (s.modGroup t (fun g => { g with state := .broken })).answerParked t .broken = { s with
      responses := s.responses ++ (s.parkedEntries t).map (fun e => ⟨e.request.hostId, .broken, []⟩)
      requests := s.requestsAfterPark t
      groups := s.groups.set t { s.group t with state := .broken, parkedAbort := none } } := by
    rw [answerParked_eq, State.requestsAfterPark, hparked, State.modGroup, setGroup_group_self]
    simp only [State.setGroup, Vector.set_set]
    rfl
  have hreads : State.waitingReads { s with
      responses := s.responses ++ (s.parkedEntries t).map (fun e => ⟨e.request.hostId, .broken, []⟩)
      requests := s.requestsAfterPark t
      groups := s.groups.set t { s.group t with state := .broken, parkedAbort := none } } t = s.brokenReads t := by
    refine List.filter_congr fun e _ => ?_
    rw [Bool.eq_iff_iff]
    simp [State.claimsOf, and_assoc]
  have hanswered : (s.brokenReads t).foldl State.answerBrokenRead { s with
      responses := s.responses ++ (s.parkedEntries t).map (fun e => ⟨e.request.hostId, .broken, []⟩)
      requests := s.requestsAfterPark t
      groups := s.groups.set t { s.group t with state := .broken, parkedAbort := none } } = s.brokenAnswered t := by
    refine (foldl_finish (s.brokenReads t) .broken _).trans ?_
    rw [State.brokenAnswered, List.map_append, ← List.append_assoc]
  have hlost : allTags.foldl (State.breakCommit (s.brokenReads t)) (s.brokenAnswered t) =
      (s.commitsHit t).foldl State.loseCommit (s.brokenAnswered t) := List.foldl_filter.symm
  unfold State.reportFailed
  simp only [hbroken, hreads, hanswered, hlost]

/-- The cause ARRAY applies to a group that is OPEN, DRAINING or SEALING (R16). -/
theorem array_appliesTo (g : GroupState) :
    RevokeCause.array.appliesTo g = (g == .opened || g == .draining || g == .sealing) := by
  cases g <;> rfl

/-- The flags once an unwind has failed: GROUP_BROKEN, and COMMAND_FAILED where a RETRY_UNWIND ends with it. -/
def State.flagsBroken (s : State) (t : Tag) : BitVec 9 :=
  if s.engine.retryTag = some t then
    (if s.incidents.length < 8 then s.flags else s.flags ||| 0x020#9) ||| (1#9 <<< 2) ||| (1#9 <<< 3)
  else (if s.incidents.length < 8 then s.flags else s.flags ||| 0x020#9) ||| (1#9 <<< 2)

theorem flagsBroken_keeps (s : State) (t : Tag) (i : Nat) (h : s.flags.getLsbD i = true) :
    (s.flagsBroken t).getLsbD i = true := by
  unfold State.flagsBroken
  split_ifs <;> simp [h]

theorem flagsBroken_broken (s : State) (t : Tag) : (s.flagsBroken t).getLsbD 2 = true := by
  unfold State.flagsBroken
  split_ifs <;> simp

theorem flagsBroken_failed (s : State) (t : Tag) (h : s.engine.retryTag = some t) :
    (s.flagsBroken t).getLsbD 3 = true := by
  rw [State.flagsBroken, if_pos h]
  simp

/-- A RETRY_UNWIND that ends FAILED, and the engine's group with it (R115, R118). -/
theorem endRetry_failed (s : State) (t : Tag) (reason : Reason) :
    (s.endRetry t (State.endFailed reason none)).engineIdle =
      if s.engine.retryTag = some t then { s.endFailed reason none with engine := s.engine.idled t }
      else { s with engine := s.engine.idled t } := by
  unfold State.endRetry Engine.idled
  by_cases h : s.engine.retryTag = some t
  · simp only [h, if_true]; rfl
  · simp only [h, if_false]; rfl

/-- The end of the report: RESTORE_FAILED is logged, GROUP_BROKEN raised, the command and the engine end (R115, R118). -/
theorem report_ends (s : State) (t : Tag) (i : Incident) (reason : Reason) :
    State.engineIdle (State.endRetry t (State.endFailed reason none) (State.raise .groupBroken (s.log i))) = { s with
      incidents := ({ i with stamp := s.tickCounter } :: s.incidents).take 8
      dropped := if s.incidents.length < 8 then s.dropped else min 255 (s.dropped + 1)
      flags := s.flagsBroken t, engine := s.engine.idled t
      cmdStatus := if s.engine.retryTag = some t then
          { s.cmdStatus with outcome := .failed, reason := some reason, first := none }
        else s.cmdStatus } := by
  rw [endRetry_failed, State.raise_engine, log_engine, log_eq, State.flagsBroken]
  by_cases h : s.engine.retryTag = some t
  · simp only [h, if_true]; rfl
  · simp only [h, if_false]; rfl

/-- The state an unwind leaves that fails: what R21, R41 and R115 say of it, whatever the engine had restored. -/
theorem reportFailed_breaks (w : State) (t : Tag) (e : Engine) (hs : w.controller ≠ .shutdown) (hj : w.joined = 0)
    (hw : e.waiting = w.engine.waiting) (hr : e.retryTag = w.engine.retryTag) :
    let lost := (w.commitsHit t).filter (fun v => v != t &&
      (w.groupState v == .opened || w.groupState v == .draining || w.groupState v == .sealing))
    let x := (w.setEngine e).reportFailed t
    x.incidents = (⟨.restoreFailed, w.tickCounter, some t, some ((w.group t).sequence.getD 0),
      some ((w.group t).partition.getD 0), e.firstFailed, some e.failedLines⟩ ::
        ((lost.map w.arrayRevoked).reverse ++ w.incidents)).take 8 ∧
    x.flags.getLsbD 2 = true ∧ (w.engine.retryTag = some t → x.flags.getLsbD 3 = true) ∧
    (lost ≠ [] → x.flags.getLsbD 4 = true) ∧
    (∀ v, x.group v = { (if v = t then { w.group v with state := .broken, parkedAbort := none }
      else if v ∈ lost then
        { w.group v with state := .unwinding, unwindOrigin := some .revoke, revokeCause := some .array }
      else w.group v) with commitRequest := if v ∈ w.commitsHit t then none else (w.group v).commitRequest }) ∧
    x = { (w.commitsHit t).foldl State.loseCommit (w.brokenAnswered t) with
      engine := ⟨.idle, w.engine.waiting ++ lost, none, none, .waitStores, none, 0, none,
        if w.engine.retryTag = some t then none else w.engine.retryTag, []⟩
      cmdStatus := if w.engine.retryTag = some t then
          { w.cmdStatus with
            outcome := .failed, reason := some (if e.failedLines = 0 then .partitionFault else .restore), first := none }
        else w.cmdStatus
      incidents := x.incidents, dropped := x.dropped, flags := x.flags } := by
  intro lost x
  have hgroup : ∀ v, (w.brokenAnswered t).group v =
      if v = t then { w.group t with state := .broken, parkedAbort := none } else w.group v :=
    fun v => group_setGroup w t v _
  have hlosers : (w.brokenAnswered t).losers (w.commitsHit t) = lost := by
    refine List.filter_congr fun v _ => ?_
    rw [State.groupState, hgroup, array_appliesTo]
    by_cases hv : v = t
    · simp [hv]
    · simp [hv, State.groupState]
  have hpairwise : (w.commitsHit t).Pairwise (· < ·) := (List.pairwise_lt_finRange 15).sublist List.filter_sublist
  have hcommits := loseCommits_commitsLost w.engine.waiting (w.commitsHit t) [] (w.brokenAnswered t) hs
    (List.append_nil _).symm hj hpairwise
  have hfold := loseCommits_setEngine (w.commitsHit t) (w.brokenAnswered t) e hw
  obtain ⟨y, hy⟩ : ∃ y, (w.commitsHit t).foldl State.loseCommit (w.brokenAnswered t) = y := ⟨_, rfl⟩
  rw [hy] at hcommits hfold ⊢
  have hx : x = _ := (reportFailed_answers (w.setEngine e) t).trans (report_ends _ t _ _)
  rw [show ((w.setEngine e).commitsHit t).foldl State.loseCommit ((w.setEngine e).brokenAnswered t) = _ from hfold] at hx
  clear_value x
  obtain ⟨⟨r, q, o, g, inc, d, f, hyeq⟩, hinc, hafter, hmono, hbit⟩ := hcommits
  rw [hlosers] at hyeq hinc hbit
  have hwaiting : y.engine.waiting = w.engine.waiting ++ lost := by rw [hyeq]; rfl
  have hgroups : ∀ v, x.group v = y.group v := fun v => by rw [hx]; rfl
  refine ⟨?_, ?_, fun hretry => ?_, fun hne => ?_, fun v => ?_, ?_⟩
  · have htick : y.tickCounter = w.tickCounter := by rw [hyeq]; rfl
    have hrevoked : lost.map (w.brokenAnswered t).arrayRevoked = lost.map w.arrayRevoked := by
      refine List.map_congr_left fun v hv => ?_
      have hne : v ≠ t := by
        have := (List.mem_filter.mp hv).2
        rw [Bool.and_eq_true, bne_iff_ne] at this
        exact this.1
      rw [State.arrayRevoked, hgroup, if_neg hne]
      rfl
    rw [hrevoked] at hinc
    have hlist : x.incidents = (⟨.restoreFailed, y.tickCounter, some t, some ((w.group t).sequence.getD 0),
        some ((w.group t).partition.getD 0), e.firstFailed, some e.failedLines⟩ :: y.incidents).take 8 := by rw [hx]; rfl
    rw [hlist, htick]
    exact (take_append_take 8 [_] y.incidents).symm.trans
      ((congrArg (fun l => (([_] : List Incident) ++ l).take 8) hinc).trans (take_append_take 8 [_] _))
  · rw [hx]
    exact flagsBroken_broken _ t
  · rw [hx]
    exact flagsBroken_failed _ t (hr.trans hretry)
  · rw [hx]
    exact flagsBroken_keeps _ t 4 (hbit hne)
  · rw [hgroups, hafter, State.groupAfterLoss, hlosers, hgroup]
    by_cases hv : v = t
    · have hn : v ∉ lost := fun h => by
        have := (List.mem_filter.mp h).2
        simp [hv] at this
      subst hv
      simp only [hn, if_true, if_false]
    · simp only [hv, if_false]
  · rw [hx, hyeq]
    simp only [State.setEngine, Engine.withWaiting, Engine.idled, hr]
    rfl

/-- The restores are over without an UNWOUND record: a line failed, or the partition is not READY (R111). -/
theorem restoresOver_fails (s : State) (t : Tag)
    (h : s.engine.failedLines ≠ 0 ∨ ∀ p, (s.group t).partition = some p → (s.part p).state ≠ .ready) :
    s.restoresOver t = s.reportFailed t := by
  unfold State.restoresOver
  refine if_neg fun hc => ?_
  obtain ⟨hf, hr⟩ := Bool.and_eq_true_iff.mp hc
  obtain h | h := h
  · exact h (of_decide_eq_true hf)
  · cases hp : (s.group t).partition with
    | none => rw [hp] at hr; cases hr
    | some p => rw [hp] at hr; exact h p hp (of_decide_eq_true hr)

theorem lineEnded_of_last (s : State) (t : Tag) (hs : s.controller ≠ .shutdown) (hc : s.engine.current = some t)
    (hr : s.engine.restoreSet = [])
    (h : s.engine.failedLines ≠ 0 ∨ ∀ p, (s.group t).partition = some p → (s.part p).state ≠ .ready) :
    s.lineEnded = s.reportFailed t := by
  rw [State.lineEnded, if_neg hs, takeNextLine_nil s t hc hr, restoresOver_fails s t h]

/-- The engine once the restore of a line has failed (R109). -/
def Engine.lineLost (e : Engine) (c : Claim) : Engine :=
  { e with failedLines := e.failedLines + 1, firstFailed := some (e.firstFailed.getD c.line), restoreData := none }

/-- Settles O30: each way an unwind fails ends in the same report. -/
theorem failedUnwindBreaksGroup : Obligations.FailedUnwindBreaksGroup := by
  intro s t hd hs hcur notReady retries parked after reads hit lost revoked breaks
  have hbreaks : ∀ (left : List PortRecord) (e : Engine) (failed : Nat) (line : Option Addr) (o : Host.Outcome State Fault Refusal),
      e.waiting = s.engine.waiting → e.retryTag = s.engine.retryTag → e.failedLines = failed → e.firstFailed = line →
      o = .next (State.settle (State.reportFailed t (State.setEngine e { s with
        responses := [], mdo := [], joined := 0, outstanding := left }))) → breaks o left failed line := by
    rintro left e failed line o hw hr rfl rfl rfl
    exact ⟨_, rfl, reportFailed_breaks { s with responses := [], mdo := [], joined := 0, outstanding := left } t e hs rfl
      hw hr⟩
  refine ⟨fun p hi hp hr hall hnone => ?_, ?_⟩
  · have hempty : s.begin.restoreSetOf t = [] := by
      refine restoreSetOf_eq_nil s.begin t (hnone.imp_left fun h => List.filter_eq_nil_iff.mpr fun c hc => ?_)
      by_cases ht : c.tag = t
      · simp [h c hc ht]
      · simp [ht]
    have hrow := groupSettled_row s hd
    rw [if_neg hs, engineSettles_of_settled s.begin t hi hcur ((groupSettled_iff s.begin t p hp).mpr hall),
      Option.elim_some, State.enterRestoring, hempty,
      takeNextLine_nil (s.begin.modEngine fun e => { e with state := .restoring, restoreSet := [] }) t hcur rfl,
      restoresOver_fails (s.begin.modEngine fun e => { e with state := .restoring, restoreSet := [] }) t
        (.inr fun q hq => by
          obtain rfl : p = q := Option.some.inj (hp.symm.trans hq)
          exact hr)] at hrow
    exact hbreaks s.outstanding { s.engine with state := .restoring, restoreSet := [] } _ _ _ rfl rfl rfl rfl hrow
  · intro n r c hrec href hline hset left failed first
    have hlost : ((s.begin.forget n).lineFailed c) = State.reportFailed t (State.setEngine (s.engine.lineLost c) { s with responses := [], mdo := [], joined := 0, outstanding := left }) :=
      lineEnded_of_last (State.setEngine (s.engine.lineLost c) { s with responses := [], mdo := [], joined := 0, outstanding := left }) t hs hcur hset
        (.inl (Nat.succ_ne_zero _))
    refine ⟨fun hpur hstep => ?_, fun hpur hstep => ?_, fun a d hpur hstep hcase => ?_⟩
    · refine hbreaks left (s.engine.lineLost c) _ _ _ rfl rfl rfl rfl ?_
      rw [unwindReadDone_row s n r hd hrec hpur href, show r.outcome .error = .failed from rfl,
        (unwindReadOutcome_of_reading (s.begin.forget n) c 2 hline hstep).2, if_neg (by decide), hlost]
    · refine hbreaks left (s.engine.lineLost c) _ _ _ rfl rfl rfl rfl ?_
      rw [restoreWriteDone_row s n r hd hrec hpur href, show r.outcome .error = .failed from rfl,
        (restoreWriteOutcome_of_writing (s.begin.forget n) c 2 hline hstep).2, if_neg (by decide), hlost]
    · refine hbreaks left { s.engine with restoreData := none } _ _ _ rfl rfl rfl rfl ?_
      rw [restoreWriteDone_row s n r hd hrec hpur href, outcome_of_write r d (by rw [hpur]; rfl),
        (restoreWriteOutcome_of_writing (s.begin.forget n) c a hline hstep).1]
      exact congrArg (fun x : State => Host.Outcome.next x.settle) (lineEnded_of_last (State.setEngine
        { s.engine with restoreData := none } { s with responses := [], mdo := [], joined := 0, outstanding := left }) t hs
        hcur hset hcase)

end Sys2Proof.Machine
end

section
/-! SUPPORT. A record at its limit times out (O32). -/

namespace Sys2Proof.Machine

theorem recordOf_number (s : State) (n : Word) (r : PortRecord) (h : s.recordOf n = some r) : r.number = n := by
  simpa using List.find?_some h

theorem expired_iff (r : PortRecord) : r.expired = true ↔ r.limit ≠ 0 ∧ r.limit ≤ r.ticks := by
  simp [PortRecord.expired]

theorem expiredOf_of_expired (s : State) (n : Word) (r : PortRecord) (hr : s.recordOf n = some r)
    (h : r.expired = true) : s.expiredOf n = some r := by
  simp [State.expiredOf, hr, h]

theorem expiredOf_of_not (s : State) (n : Word) (h : ∀ r, s.recordOf n = some r → r.expired = false) :
    s.expiredOf n = none := by
  rw [State.expiredOf, Option.filter_eq_none_iff]
  exact fun r hr => by simp [h r hr]

theorem arrayTimeout_row (s : State) (n : Word) (hd : s.direct = true) :
    exec (.arrayTimeout n) s = .next (s.begin.timeOutNumber n) :=
  lineEvent_of_setup s (fun x => x.timeOutNumber n) hd (by simp)

theorem timeOutNumber_of_expired (s : State) (n : Word) (r : PortRecord) (h : s.expiredOf n = some r) :
    s.timeOutNumber n = (s.timeOut r).report r .failed := by
  unfold State.timeOutNumber
  rw [h]

theorem timeOutNumber_of_not (s : State) (n : Word) (h : s.expiredOf n = none) : s.timeOutNumber n = s := by
  unfold State.timeOutNumber
  rw [h]

/-- Logging changes neither the port's set nor what an event finds. -/
theorem log_begin_forget (s : State) (i : Incident) (n : Word) :
    (s.log i).begin.forget n = (s.begin.forget n).log i := by
  rw [log_eq, log_eq]
  rfl

/-- The partition that a timeout names, by the purpose of the record (R166). -/
theorem timeoutPartition_by_purpose (s : State) (r : PortRecord) :
    (∀ q k, r.purpose = .slotWrite → r.ref = .slot q k → s.timeoutPartition r = some q) ∧
    (∀ q k, r.purpose = .headerWrite ∨ r.purpose = .headerRead ∨ r.purpose = .headerRewrite → r.ref = .header q k →
      s.timeoutPartition r = some q) ∧
    (∀ q k, r.purpose = .scanRead ∨ r.purpose = .voidRead ∨ r.purpose = .voidWrite → r.ref = .scanner q k →
      s.timeoutPartition r = some q) ∧
    (∀ q k, r.purpose = .formatWrite → r.ref = .format q k → s.timeoutPartition r = some q) ∧
    (∀ v, r.purpose = .unwindRead → s.engine.current = some v → s.timeoutPartition r = (s.group v).partition) ∧
    (r.purpose = .recoveryRead → s.timeoutPartition r = s.scanner.current) ∧
    (r.purpose = .homeWrite ∨ r.purpose = .captureRead ∨ r.purpose = .hostRead ∨ r.purpose = .restoreWrite ∨
      r.purpose = .recoveryWrite → s.timeoutPartition r = none) := by
  unfold State.timeoutPartition
  refine ⟨fun q k hp hr => ?_, fun q k hp hr => ?_, fun q k hp hr => ?_, fun q k hp hr => ?_, fun v hp hv => ?_,
    fun hp => ?_, fun hp => ?_⟩
  · rw [hp, hr]
  · obtain hp | hp | hp := hp <;> rw [hp, hr]
  · obtain hp | hp | hp := hp <;> rw [hp, hr]
  · rw [hp, hr]
  · rw [hp, hv]; rfl
  · rw [hp]
  · obtain hp | hp | hp | hp | hp := hp <;> rw [hp]

/-- Settles O32: a timeout is an ERROR response, behind ARRAY_TIMEOUT outside SHUTDOWN. -/
theorem expiredRecordTimesOut : Obligations.ExpiredRecordTimesOut := by
  intro s n hd
  have hrow := arrayTimeout_row s n hd
  refine ⟨fun hnone => ?_, fun r hr hlim => ?_, fun r hr hlim hexp => ⟨fun hs => ?_, fun hs => ?_⟩⟩
  · rw [hrow, timeOutNumber_of_not s.begin n (expiredOf_of_not s.begin n fun r hr => by
      rw [show s.begin.recordOf n = none from hnone] at hr; cases hr)]
  · rw [hrow, timeOutNumber_of_not s.begin n (expiredOf_of_not s.begin n fun r' hr' => ?_)]
    obtain rfl : r = r' := Option.some.inj (hr.symm.trans hr')
    rw [Bool.eq_false_iff, Ne, expired_iff]
    exact fun h => hlim.elim h.1 fun h' => Nat.not_lt.mpr h.2 h'
  · have hout := timeOutNumber_of_expired s.begin n r
      (expiredOf_of_expired s.begin n r hr ((expired_iff r).mpr ⟨hlim, hexp⟩))
    rw [State.timeOut, if_pos (show s.begin.controller = .shutdown from hs), recordOf_number s n r hr] at hout
    exact ⟨_, hrow.trans (congrArg _ hout), takeResponse_of_direct s n .error r hd hr⟩
  · have hout := timeOutNumber_of_expired s.begin n r
      (expiredOf_of_expired s.begin n r hr ((expired_iff r).mpr ⟨hlim, hexp⟩))
    rw [State.timeOut, if_neg (show ¬ s.begin.controller = .shutdown from hs), recordOf_number s n r hr] at hout
    obtain ⟨a, dr, f, hlog⟩ := log_only ⟨.arrayTimeout, 0, none, none, s.timeoutPartition r, some (lineOf r.address),
      some r.purpose.code⟩ s
    have hlate := takeResponse_of_direct (s.log ⟨.arrayTimeout, 0, none, none, s.timeoutPartition r,
      some (lineOf r.address), some r.purpose.code⟩) n .error r (by rw [hlog]; exact hd) (by rw [hlog]; exact hr)
    rw [log_begin_forget] at hlate
    obtain ⟨h1, h2, h3, h4, h5, h6, h7⟩ := timeoutPartition_by_purpose s r
    exact ⟨s.timeoutPartition r, _, hrow.trans (congrArg _ hout), hlate, h1, h2, h3, h4, h5, h6, h7⟩

end Sys2Proof.Machine
end

section
/-! SUPPORT. Recovery: the choice of a header copy, the scan, the void pass, the restores, the rewrite, and FORMAT
(O35 to O40). -/

namespace Sys2Proof.Machine

/-- The port's answer to a record of the scanner or of FORMAT is delivered, and brings nothing else about (R167). -/
theorem takeResponse_delivers_only (s : State) (n : Word) (a : ArrayResult) (r : PortRecord) (hd : s.direct = true)
    (hr : s.recordOf n = some r) (hp : r.purpose.ofMemoryPath = false) :
    s.lineEvent (State.takeResponse n a) = .next ((s.begin.forget n).deliver r (r.outcome a)) := by
  rw [takeResponse_of_direct s n a r hd hr, State.report, if_neg (by simp [hp])]

/-! ### The header reads (O35) -/

/-- The scanner with a header copy returned. -/
def Scanner.keepCopy (k : Nat) (data : Bytes) (sc : Scanner) : Scanner :=
  if k = 0 then { sc with copy0 := some data } else { sc with copy1 := some data }

/-- A header copy returns: it is kept, and with the other one the copy is chosen (R123, R124). -/
theorem headerReadOutcome_okay (s : State) (p : PartId) (k : Nat) (data : Bytes) (hc : s.scanner.current = some p)
    (hst : s.scanner.stage = some .headers) :
    s.headerReadOutcome p k (.okay data) =
      match (s.scanner.keepCopy k data).copy0, (s.scanner.keepCopy k data).copy1 with
      | some c0, some c1 => (s.modScanner (Scanner.keepCopy k data)).chooseHeader p c0 c1
      | _, _ => s.modScanner (Scanner.keepCopy k data) := by
  unfold State.headerReadOutcome
  rw [if_pos ⟨hc, hst⟩]
  rfl

theorem headerReadOutcome_failed (s : State) (p : PartId) (k : Nat) (hc : s.scanner.current = some p)
    (hst : s.scanner.stage = some .headers) :
    s.headerReadOutcome p k .failed =
      if (if k = 0 then s.scanner.attempt0 else s.scanner.attempt1) = 1 then
        (s.modScanner fun sc => if k = 0 then { sc with attempt0 := 2 } else { sc with attempt1 := 2 }).issueHeaderRead p k
      else s.startFailed .arrayError := by
  unfold State.headerReadOutcome
  rw [if_pos ⟨hc, hst⟩]

theorem keepCopy_current (k : Nat) (data : Bytes) (sc : Scanner) : (sc.keepCopy k data).current = sc.current := by
  unfold Scanner.keepCopy
  split <;> rfl

/-- A choice that fails ends START, whatever the copies (R124, R125). -/
theorem chooseHeader_invalid (s : State) (p : PartId) (c0 c1 : Bytes) (h0 : headerWellFormed 0 c0 = false)
    (h1 : headerWellFormed 1 c1 = false) : s.chooseHeader p c0 c1 = s.startFailed .headerInvalid := by
  unfold State.chooseHeader
  rw [chooseCopy_none c0 c1 h0 h1]

theorem chooseHeader_geometry (s : State) (p : PartId) (c0 c1 x : Bytes) (h : chooseCopy c0 c1 = some x)
    (hs : headerSize x ≠ s.size p) : s.chooseHeader p c0 c1 = s.startFailed .geometry := by
  unfold State.chooseHeader
  rw [h]
  exact if_pos hs

/-- The scanner's copies after one returns while the other is there. -/
theorem keepCopy_both (sc : Scanner) (k : Nat) (data c : Bytes) (hk : k = 0 ∨ k = 1)
    (h : (if k = 0 then sc.copy1 else sc.copy0) = some c) :
    (sc.keepCopy k data).copy0 = some (if k = 0 then data else c) ∧
      (sc.keepCopy k data).copy1 = some (if k = 0 then c else data) := by
  obtain rfl | rfl := hk
  · exact ⟨rfl, h⟩
  · exact ⟨h, rfl⟩

/-- The copies are gone when the scan begins, whichever returned last. -/
theorem keepCopy_chosen (sc : Scanner) (k : Nat) (data : Bytes) (ch : Option ChosenHeader) (pos : Option Pos) :
    { sc.keepCopy k data with
      chosen := ch, position := pos, list := [], stage := some .scan, attempt := 1, copy0 := none, copy1 := none } =
    { sc with
      chosen := ch, position := pos, list := [], stage := some .scan, attempt := 1, copy0 := none, copy1 := none } := by
  unfold Scanner.keepCopy
  split <;> rfl

/-- The second copy returns: the choice is made of what each copy holds (R124). -/
theorem headerReadOutcome_second (s : State) (p : PartId) (k : Nat) (data c : Bytes) (hk : k = 0 ∨ k = 1)
    (hc : s.scanner.current = some p) (hst : s.scanner.stage = some .headers)
    (h : (if k = 0 then s.scanner.copy1 else s.scanner.copy0) = some c) :
    s.headerReadOutcome p k (.okay data) =
      (s.modScanner (Scanner.keepCopy k data)).chooseHeader p (if k = 0 then data else c)
        (if k = 0 then c else data) := by
  obtain ⟨h0, h1⟩ := keepCopy_both s.scanner k data c hk h
  rw [headerReadOutcome_okay s p k data hc hst, h0, h1]

/-- The first copy returns: it is kept, and the other awaited (R123). -/
theorem headerReadOutcome_first (s : State) (p : PartId) (k : Nat) (data : Bytes) (hk : k = 0 ∨ k = 1)
    (hc : s.scanner.current = some p) (hst : s.scanner.stage = some .headers)
    (h : (if k = 0 then s.scanner.copy1 else s.scanner.copy0) = none) :
    s.headerReadOutcome p k (.okay data) = s.modScanner (Scanner.keepCopy k data) := by
  rw [headerReadOutcome_okay s p k data hc hst]
  obtain rfl | rfl := hk
  · rw [show (s.scanner.keepCopy 0 data).copy1 = none from h]
    rfl
  · rw [show (s.scanner.keepCopy 1 data).copy0 = none from h]

/-- Settles O35, by the copy, the outcome and the attempt. -/
theorem headerReadsChooseCopy : Obligations.HeaderReadsChooseCopy := by
  intro s n r p k hd hr hp href hk hc hst other left
  have hrow : ∀ a, exec (.headerReadDone n a) s = .next ((s.begin.forget n).headerReadOutcome p k (r.outcome a)) := by
    intro a
    show s.lineEvent (State.takeResponse n a) = _
    rw [takeResponse_delivers_only s n a r hd hr (by rw [hp]; rfl), State.deliver, hp, href]
  have hok : ∀ d, exec (.headerReadDone n (.okay d)) s =
      .next ((s.begin.forget n).headerReadOutcome p k (.okay (d.take r.length))) := fun d => by
    rw [hrow, outcome_of_read r d (by rw [hp]; rfl)]
  have herr : exec (.headerReadDone n .error) s = .next ((s.begin.forget n).headerReadOutcome p k .failed) := hrow .error
  refine ⟨fun d hother => ?_, ?_, fun ha => ?_, fun ha => ?_⟩
  · rw [hok, headerReadOutcome_first (s.begin.forget n) p k _ hk hc hst hother]
    rfl
  · intro d c hother c0 c1 newer
    let kept := (s.begin.forget n).modScanner (Scanner.keepCopy k (d.take r.length))
    have hsecond : exec (.headerReadDone n (.okay d)) s = .next (kept.chooseHeader p c0 c1) :=
      (hok d).trans (congrArg _ (headerReadOutcome_second (s.begin.forget n) p k _ c hk hc hst hother))
    have hfail : ∀ reason, kept.startFailed reason =
        (s.begin.forget n).startFailed reason := fun reason =>
      startFailed_modScanner _ _ reason (keepCopy_current _ _ _)
    refine ⟨fun h0 h1 => ?_, fun x hx => ⟨fun hsize => ?_, fun hsize => ?_⟩⟩
    · rw [hsecond, chooseHeader_invalid _ p _ _ h0 h1, hfail]
    · rw [hsecond, chooseHeader_geometry kept p c0 c1 x (chooseCopy_some c0 c1 x hx) hsize, hfail]
    · rw [hsecond, chooseHeader_some kept p c0 c1 x (chooseCopy_some c0 c1 x hx) hsize]
      exact congrArg (fun sc => Host.Outcome.next (State.issue .scanRead (.scanner p (headerTail x).slot)
        (s.slotAddr p (headerTail x).slot) 64 [] { s.begin.forget n with
          partitions := s.partitions.set p { s.part p with epoch := slotEpoch x, generation := headerGeneration x }
          scanner := sc })) (keepCopy_chosen s.scanner k _ _ _)
  · exact herr.trans (congrArg _ ((headerReadOutcome_failed (s.begin.forget n) p k hc hst).trans (if_pos ha)))
  · obtain ⟨dr, f, hfail, hflag⟩ := startFailed_incidents (s.begin.forget n) .arrayError (by decide)
    have hout := herr.trans (congrArg _ ((headerReadOutcome_failed (s.begin.forget n) p k hc hst).trans
      (if_neg (attempt_two_not_one _ ha))))
    rw [hfail, show (s.begin.forget n).scanner.current = some p from hc] at hout
    exact ⟨_, hout, rfl, rfl, rfl, rfl, rfl, rfl, hflag, rfl⟩

end Sys2Proof.Machine
end

section
/-! SUPPORT. The scan, the void pass, the restores and the rewrite of recovery, and FORMAT (O36 to O40). -/

namespace Sys2Proof.Machine

/-! ### The records of the scan (O36) -/

/-- A record is broken (R126, R127, R130): what of it rules it out at a position of a ring. -/
def recordBroken (chosen : ChosenHeader) (pos : Pos) (cap last : Nat) (header more : Bytes) : Prop :=
  let kind := slotKindByte header
  slotEpoch header ≠ chosen.epoch ∨ slotLap header ≠ pos.lap ∨ slotCheckOk header more = false ∨
    (kind ≠ 0xA1#8 ∧ kind ≠ 0xA2#8 ∧ kind ≠ 0xA3#8 ∧ kind ≠ 0xA4#8) ∨
    (kind ≠ 0xA4#8 ∧ (slotSequence header = 0 ∨ slotTag header = 0 ∨ 15 < slotTag header)) ∨
    (kind = 0xA1#8 ∧ (slotIndex header = 0 ∨ 1024 < slotIndex header ∨ slotLine header % 64 ≠ 0)) ∨
    ((kind = 0xA2#8 ∨ kind = 0xA3#8) ∧ (slotUndoCount header = 0 ∨ 1024 < slotUndoCount header)) ∨
    (kind = 0xA4#8 ∧ (slotSequence header ≠ 0 ∨ slotTag header ≠ 0 ∨ slotPadLength header = 0 ∨
      2 < slotPadLength header)) ∨
    (pos.slot = last ∧ (kind = 0xA1#8 ∨ (kind = 0xA4#8 ∧ slotPadLength header = 2))) ∨
    cap < chosen.tail.dist cap pos +
      (if kind = 0xA1#8 then 2 else if kind = 0xA4#8 then slotPadLength header else 1)

/-- A record is broken when it is not valid or ends beyond the ring capacity. -/
theorem recordBroken_iff (chosen : ChosenHeader) (pos : Pos) (cap last : Nat) (header more : Bytes)
    (h : slotKindByte header = 0xA1#8 ∨ more = []) :
    recordBroken chosen pos cap last header more ↔
      ¬ (recordValid chosen.epoch pos last header more = true ∧
        chosen.tail.dist cap pos + recordLength header ≤ cap) := by
  have hundo : kindUndo = 0xA1#8 := rfl
  have hcommit : kindCommit = 0xA2#8 := rfl
  have hunwound : kindUnwound = 0xA3#8 := rfl
  have hpad : kindPad = 0xA4#8 := rfl
  unfold recordBroken recordValid recordRangesOk recordLength
  rw [hundo, hcommit, hunwound, hpad]
  by_cases h1 : slotKindByte header = 0xA1#8
  · simp [h1]
    grind
  obtain rfl : more = [] := h.resolve_left h1
  by_cases h4 : slotKindByte header = 0xA4#8
  · simp [h4]
    grind
  by_cases h23 : slotKindByte header = 0xA2#8 ∨ slotKindByte header = 0xA3#8
  · simp [h1, h4, h23]
    grind
  · simp [h1, h4, h23]
    grind

/-- With no entry on the list the restores end at once: nothing is logged and the rewrite is issued (R133, R134). -/
theorem restoresDone_of_empty (s : State) (p : PartId) (chosen : ChosenHeader) (scanEnd : Pos)
    (hch : s.scanner.chosen = some chosen) (hend : s.scanner.scanEnd = some scanEnd) (hl : s.scanner.list = []) :
    s.restoresDone p =
      (s.modScanner fun sc =>
        { sc with
          list := [], stage := some .rewrite, attempt := 1, restoreEntry := none, restoreStep := none
          writeData := some (headerCopy (s.size p) chosen.epoch (chosen.generation + 1) scanEnd) }).issueRewrite p
        (chosen.generation + 1) (headerCopy (s.size p) chosen.epoch (chosen.generation + 1) scanEnd) := by
  unfold State.restoresDone
  rw [hch, hend, hl]
  rfl

/-- The passes over a ring are over: the restores begin, or the rewrite where none is left (R131 to R134). -/
theorem enterRestore_eq (s : State) (p : PartId) (chosen : ChosenHeader) (scanEnd : Pos)
    (hch : s.scanner.chosen = some chosen) (h : s.scanner.list ≠ [] ∨ s.scanner.scanEnd = some scanEnd) :
    s.enterRestore p = s.restoresFrom p chosen scanEnd s.scanner := by
  unfold State.enterRestore State.takeRestore State.restoresFrom
  dsimp only
  show (match s.scanner.list.reverse with
    | [] => State.restoresDone p _
    | e :: rest => _) = _
  cases hl : s.scanner.list.reverse with
  | cons e rest => rfl
  | nil =>
    have hempty := List.reverse_eq_nil_iff.mp hl
    have hend := h.resolve_left (not_not.mpr hempty)
    have hdone := restoresDone_of_empty ((s.modPart p fun part => { part with state := .restoring }).modScanner fun sc =>
      { sc with stage := some .restore, position := none, toRestore := sc.list.reverse }) p chosen scanEnd hch hend
      hempty
    exact hdone.trans (congrArg (fun l => State.issue .headerRewrite (.header p ((chosen.generation + 1).toNat % 2))
      (s.slotAddr p ((chosen.generation + 1).toNat % 2)) 64
      (headerCopy (s.size p) chosen.epoch (chosen.generation + 1) scanEnd)
      { s.setPart p { s.part p with state := .restoring } with
        scanner := { s.scanner with
          list := [], stage := some .rewrite, position := none, toRestore := l, restoreEntry := none
          restoreStep := none, attempt := 1
          writeData := some (headerCopy (s.size p) chosen.epoch (chosen.generation + 1) scanEnd) } }) hl)

/-- The restores take the scanner they are given. -/
theorem restoresFrom_modScanner (s : State) (f : Scanner → Scanner) (p : PartId) (chosen : ChosenHeader) (scanEnd : Pos)
    (sc : Scanner) : (s.modScanner f).restoresFrom p chosen scanEnd sc = s.restoresFrom p chosen scanEnd sc := by
  unfold State.restoresFrom
  cases sc.list.reverse <;> rfl

/-- Past the last position of the ring the scan end is the tail one lap on, and the restores begin (R130). -/
theorem advanceScan_limit (s : State) (p : PartId) (chosen : ChosenHeader) (pos : Pos) (l : Nat)
    (hch : s.scanner.chosen = some chosen)
    (h : s.capacity p ≤ chosen.tail.dist (s.capacity p) (pos.advance (s.capacity p) l)) :
    s.advanceScan p chosen pos l = s.restoresFrom p chosen ⟨chosen.tail.slot, chosen.tail.lap + 1⟩
      { s.scanner with scanEnd := some ⟨chosen.tail.slot, chosen.tail.lap + 1⟩ } := by
  unfold State.advanceScan
  dsimp only
  rw [if_pos h]
  exact (enterRestore_eq (s.modScanner fun sc => { sc with scanEnd := some ⟨chosen.tail.slot, chosen.tail.lap + 1⟩ }) p
    chosen _ hch (.inr rfl)).trans (restoresFrom_modScanner s _ p chosen _ _)

/-- The void pass is over past the chosen tail one lap on (R131). -/
theorem voidNext_over (s : State) (p : PartId) (chosen : ChosenHeader) (pos scanEnd : Pos)
    (hch : s.scanner.chosen = some chosen) (hend : s.scanner.list ≠ [] ∨ s.scanner.scanEnd = some scanEnd)
    (h : s.capacity p ≤ chosen.tail.dist (s.capacity p) (pos.advance (s.capacity p) 1)) :
    s.voidNext p chosen pos = s.restoresFrom p chosen scanEnd s.scanner := by
  unfold State.voidNext
  dsimp only
  rw [if_pos h, enterRestore_eq s p chosen scanEnd hch hend]

/-- A slot of the lap is cleared (R131). -/
theorem voidJudge_clears (s : State) (p : PartId) (chosen : ChosenHeader) (pos : Pos) (slot : Bytes)
    (h : slotEpoch slot = chosen.epoch ∧ slotLap slot = pos.lap) :
    s.voidJudge p chosen pos slot =
      (s.modScanner fun sc => { sc with position := some pos, attempt := 1 }).issueScanner .voidWrite p pos.slot
        (zeroBytes 64) := by
  unfold State.voidJudge
  rw [if_pos h]
  rfl

/-- Any other slot is left (R131). -/
theorem voidJudge_leaves (s : State) (p : PartId) (chosen : ChosenHeader) (pos : Pos) (slot : Bytes)
    (h : slotEpoch slot ≠ chosen.epoch ∨ slotLap slot ≠ pos.lap) :
    s.voidJudge p chosen pos slot = s.voidNext p chosen pos := by
  unfold State.voidJudge
  rw [if_neg (not_and_or.mpr h)]

/-- A PAD joins nothing (R129). -/
theorem takeRecord_pad (s : State) (p : PartId) (chosen : ChosenHeader) (pos : Pos) (slot : Bytes)
    (h : slotKindByte slot = 0xA4#8) :
    s.takeRecord p chosen pos slot = s.advanceScan p chosen pos (slotPadLength slot) := by
  unfold State.takeRecord recordLength
  rw [h]
  rfl

/-- A closing record takes the entries of its sequence off the recovery list (R129). -/
theorem takeRecord_closing (s : State) (p : PartId) (chosen : ChosenHeader) (pos : Pos) (slot : Bytes)
    (h1 : slotKindByte slot ≠ kindUndo) (h4 : slotKindByte slot ≠ kindPad) :
    s.takeRecord p chosen pos slot =
      (s.modScanner fun sc =>
        { sc with list := sc.list.filter fun e => e.sequence != BitVec.ofNat 32 (slotSequence slot) }).advanceScan p
        chosen pos 1 := by
  unfold State.takeRecord
  rw [if_neg h1, if_neg h4]

/-- An UNDO record joins the recovery list at its end (R128). -/
theorem takeRecord_joins (s : State) (p : PartId) (chosen : ChosenHeader) (pos : Pos) (slot : Bytes)
    (h1 : slotKindByte slot = kindUndo) (hl : s.scanner.list.length < 1024)
    (hi : s.inPartition (BitVec.ofNat 40 (slotLine slot)) = false) :
    s.takeRecord p chosen pos slot =
      (s.modScanner fun sc => { sc with list := sc.list ++ [recoveryEntryOf pos slot] }).advanceScan p chosen pos 2 := by
  unfold State.takeRecord
  rw [if_pos h1, if_neg]
  rintro (h | h)
  · exact absurd h (Nat.not_le_of_lt hl)
  · exact absurd (hi.symm.trans h) (by decide)

/-- An UNDO record past a full list, or of a line inside a partition, ends START (R128). -/
theorem takeRecord_inconsistent (s : State) (p : PartId) (chosen : ChosenHeader) (pos : Pos) (slot : Bytes)
    (h1 : slotKindByte slot = kindUndo)
    (h : 1024 ≤ s.scanner.list.length ∨ s.inPartition (BitVec.ofNat 40 (slotLine slot)) = true) :
    s.takeRecord p chosen pos slot = s.startFailed .journalInconsistent := by
  unfold State.takeRecord
  rw [if_pos h1]
  exact if_pos h

/-- A slot is read with no header held: one of UNDO kind before the last ring slot is held, and any other decided
(R126). -/
theorem scanReadOutcome_unheld (s : State) (p : PartId) (chosen : ChosenHeader) (pos : Pos) (data : Bytes)
    (hcur : s.scanner.current = some p) (hst : s.scanner.stage = some .scan) (hch : s.scanner.chosen = some chosen)
    (hpos : s.scanner.position = some pos) (hh : s.scanner.heldHeader = none) :
    s.scanReadOutcome (.okay data) =
      if slotKindByte data = kindUndo ∧ pos.slot ≠ lastRingSlot (s.size p) then
        (s.modScanner fun sc => { sc with heldHeader := some data, attempt := 1 }).issueScanner .scanRead p
          (pos.slot + 1) []
      else s.scanDecide p chosen pos data [] := by
  rw [scanReadOutcome_eq s p chosen pos hcur hst hch hpos, hh]

/-- The data slot of a held UNDO header is read: the record is decided (R126). -/
theorem scanReadOutcome_held (s : State) (p : PartId) (chosen : ChosenHeader) (pos : Pos) (header data : Bytes)
    (hcur : s.scanner.current = some p) (hst : s.scanner.stage = some .scan) (hch : s.scanner.chosen = some chosen)
    (hpos : s.scanner.position = some pos) (hh : s.scanner.heldHeader = some header) :
    s.scanReadOutcome (.okay data) =
      (s.modScanner fun sc => { sc with heldHeader := none }).scanDecide p chosen pos header data := by
  rw [scanReadOutcome_eq s p chosen pos hcur hst hch hpos, hh]

/-- Settles O36, by the held header, the outcome and the record. -/
theorem scanTakesRecords : Obligations.ScanTakesRecords := by
  intro s n r p q k chosen pos d hd hr hp href hcur hst hch hpos data cap last b issue broken decided passes ends after
    fails
  have hrow : ∀ a, exec (.scanReadDone n a) s = .next (b.scanReadOutcome (r.outcome a)) :=
    scanReadDone_reports s n r q k hd hr hp href
  have hout : ∀ o, b.scanReadOutcome o = _ := scanReadOutcome_eq b p chosen pos hcur hst hch hpos
  have hafter : after = .next (b.scanReadOutcome (.okay data)) := by
    rw [← outcome_of_read r d (by rw [hp]; rfl)]
    exact hrow _
  have hfails : ∀ (o : Host.Outcome State Fault Refusal) (x : State) (reason : Reason), x.scanner.current = some p →
      reason ≠ .shutdown → o = .next (x.startFailed reason) → fails o reason := fun o x reason hx hreason ho => by
    obtain ⟨h1, h2, h3, h4⟩ := startFailed_config x reason hreason
    exact ⟨_, ho, h1, h2, h3, h4.trans hx⟩
  let kept := b.modScanner fun sc => { sc with heldHeader := none }
  have hpasses : ∀ (list : List RecoveryEntry) (l : Nat) (o : Host.Outcome State Fault Refusal),
      o = .next ((kept.modScanner fun sc => { sc with list := list }).advanceScan p chosen pos l) → passes o l list := by
    rintro list l _ rfl
    refine ⟨fun h => congrArg _ (advanceScan_on (kept.modScanner fun sc => { sc with list := list }) p chosen pos l h),
      fun h => congrArg _ ?_⟩
    exact (advanceScan_limit (kept.modScanner fun sc => { sc with list := list }) p chosen pos l hch h).trans
      ((restoresFrom_modScanner kept _ p chosen _ _).trans (restoresFrom_modScanner b _ p chosen _ _))
  have hends : ∀ (header : Bytes) (o : Host.Outcome State Fault Refusal),
      o = .next (kept.endScan p chosen pos header) → ends o header := by
    rintro header _ rfl
    let voided := kept.modScanner fun sc => { sc with scanEnd := some pos, stage := some .void }
    refine ⟨fun h => congrArg _ (voidJudge_clears voided p chosen pos header h), fun h => ?_⟩
    have hleft : kept.endScan p chosen pos header = voided.voidNext p chosen pos :=
      voidJudge_leaves voided p chosen pos header h
    refine ⟨fun hnext => congrArg _ (hleft.trans (voidNext_on voided p chosen pos hnext)), fun hnext => congrArg _ ?_⟩
    exact hleft.trans ((voidNext_over voided p chosen pos pos hch (.inr rfl) hnext).trans
      ((restoresFrom_modScanner kept _ p chosen _ _).trans (restoresFrom_modScanner b _ p chosen _ _)))
  have hbroken : ∀ header more, slotKindByte header = 0xA1#8 ∨ more = [] → broken header more →
      kept.scanDecide p chosen pos header more = kept.endScan p chosen pos header := fun header more h hb =>
    scanDecide_invalid kept p chosen pos header more ((recordBroken_iff chosen pos cap last header more h).mp hb)
  have hwhole : ∀ header more, slotKindByte header = 0xA1#8 ∨ more = [] → ¬ broken header more →
      kept.scanDecide p chosen pos header more = kept.takeRecord p chosen pos header := fun header more h hb =>
    scanDecide_valid kept p chosen pos header more
      (not_not.mp (mt (recordBroken_iff chosen pos cap last header more h).mpr hb))
  refine ⟨fun hheld => ?_, fun header hheld hkind => ?_, fun ha => ?_, fun ha => ?_⟩
  · have hnone : b.scanner.heldHeader = none := hheld
    have hkept : kept = b := congrArg (fun h => b.modScanner fun sc => { sc with heldHeader := h }) hnone.symm
    have hunheld := scanReadOutcome_unheld b p chosen pos data hcur hst hch hpos hnone
    refine ⟨fun h1 h2 => hafter.trans (congrArg _ (hunheld.trans (if_pos ⟨h1, h2⟩))), fun hsingle => ?_⟩
    have hdec : after = .next (kept.scanDecide p chosen pos data []) := by
      rw [hafter, hunheld, hkept]
      exact congrArg _ (if_neg fun h => hsingle.elim (fun h' => h' h.1) fun h' => h.2 h')
    refine ⟨fun hb => hends data after ?_, fun hb => ?_⟩
    · rw [hdec, hbroken data [] (.inr rfl) hb]
    rw [hwhole data [] (.inr rfl) hb] at hdec
    refine ⟨fun h4 => hpasses _ _ after ?_, fun h4 => hpasses _ 1 after ?_⟩
    · exact hdec.trans (congrArg _ (takeRecord_pad kept p chosen pos data h4))
    · have h1 : slotKindByte data ≠ 0xA1#8 := fun h => hb (by
        have hl := hsingle.resolve_left (not_not.mpr h)
        simp only [broken]
        grind)
      exact hdec.trans (congrArg _ (takeRecord_closing kept p chosen pos data h1 h4))
  · have hdec : after = .next (kept.scanDecide p chosen pos header data) :=
      hafter.trans (congrArg _ (scanReadOutcome_held b p chosen pos header data hcur hst hch hpos hheld))
    refine ⟨fun hb => hends header after ?_, fun hb => ?_⟩
    · rw [hdec, hbroken header data (.inl hkind) hb]
    rw [hwhole header data (.inl hkind) hb] at hdec
    refine ⟨fun hlen hline => hpasses _ 2 after ?_, fun h => hfails after kept _ hcur (by decide) ?_⟩
    · exact hdec.trans (congrArg _ (takeRecord_joins kept p chosen pos header hkind hlen hline))
    · exact hdec.trans (congrArg _ (takeRecord_inconsistent kept p chosen pos header hkind h))
  · refine (hrow _).trans ?_
    show Host.Outcome.next (b.scanReadOutcome .failed) = _
    rw [hout]
    dsimp only
    rw [show b.scanner.attempt = 1 from ha]
    rfl
  · refine hfails _ b .arrayError hcur (by decide) ((hrow _).trans (congrArg _ ((hout .failed).trans ?_)))
    exact if_neg (attempt_two_not_one _ ha)

end Sys2Proof.Machine
end

section
/-! SUPPORT. The void pass, the restores and the rewrite of recovery, and FORMAT (O37 to O40). -/

namespace Sys2Proof.Machine

/-! ### The void pass (O37) -/

/-- The outcome of a void-pass read (R131). -/
theorem voidReadOutcome_eq (s : State) (p : PartId) (chosen : ChosenHeader) (pos : Pos)
    (hcur : s.scanner.current = some p) (hst : s.scanner.stage = some .void) (hch : s.scanner.chosen = some chosen)
    (hpos : s.scanner.position = some pos) :
    (∀ data, s.voidReadOutcome (.okay data) = s.voidJudge p chosen pos data) ∧
    (s.scanner.attempt = 1 → s.voidReadOutcome .failed =
      (s.modScanner fun sc => { sc with attempt := 2 }).issueScanner .voidRead p pos.slot []) ∧
    (s.scanner.attempt = 2 → s.voidReadOutcome .failed = s.startFailed .arrayError) := by
  unfold State.voidReadOutcome
  rw [hcur, hst, hch, hpos]
  exact ⟨fun _ => rfl, fun h => if_pos h, fun h => if_neg (attempt_two_not_one _ h)⟩

/-- The outcome of a void-pass write (R131). -/
theorem voidWriteOutcome_eq (s : State) (p : PartId) (chosen : ChosenHeader) (pos : Pos)
    (hcur : s.scanner.current = some p) (hst : s.scanner.stage = some .void) (hch : s.scanner.chosen = some chosen)
    (hpos : s.scanner.position = some pos) :
    (∀ data, s.voidWriteOutcome (.okay data) = s.voidNext p chosen pos) ∧
    (s.scanner.attempt = 1 → s.voidWriteOutcome .failed =
      (s.modScanner fun sc => { sc with attempt := 2 }).issueScanner .voidWrite p pos.slot (zeroBytes 64)) ∧
    (s.scanner.attempt = 2 → s.voidWriteOutcome .failed = s.startFailed .arrayError) := by
  unfold State.voidWriteOutcome
  rw [hcur, hst, hch, hpos]
  exact ⟨fun _ => rfl, fun h => if_pos h, fun h => if_neg (attempt_two_not_one _ h)⟩

/-- What a second failure of a scanner request ends in (R136). -/
theorem startFailed_arrayError (s : State) : (s.startFailed .arrayError).controller = .config ∧
    (s.startFailed .arrayError).cmdStatus.outcome = .failed ∧
    (s.startFailed .arrayError).cmdStatus.reason = some .arrayError := by
  obtain ⟨h1, h2, h3, -⟩ := startFailed_config s .arrayError (by decide)
  exact ⟨h1, h2, h3⟩

/-- Settles O37, by the access, the outcome and the attempt. -/
theorem voidPassClearsSlots : Obligations.VoidPassClearsSlots := by
  intro s n r p q k chosen pos hd hr href hcur hst hch hpos cap next b issue goesOn fails
  obtain ⟨hread, hwrite⟩ : (r.purpose = .voidRead → ∀ a, exec (.voidReadDone n a) s =
      .next (b.voidReadOutcome (r.outcome a))) ∧ (r.purpose = .voidWrite → ∀ a, exec (.voidWriteDone n a) s =
      .next (b.voidWriteOutcome (r.outcome a))) :=
    ⟨fun hp a => (voidResponse_reports s n r q k hd hr href a).1 hp,
      fun hp a => (voidResponse_reports s n r q k hd hr href a).2 hp⟩
  obtain ⟨hjudge, hreadAgain, hreadFails⟩ := voidReadOutcome_eq b p chosen pos hcur hst hch hpos
  obtain ⟨hnext, hwriteAgain, hwriteFails⟩ := voidWriteOutcome_eq b p chosen pos hcur hst hch hpos
  have hgoes : ∀ o : Host.Outcome State Fault Refusal, o = .next (b.voidNext p chosen pos) → goesOn o := by
    rintro _ rfl
    exact ⟨fun h => congrArg _ (voidNext_on b p chosen pos h),
      fun h scanEnd hend => congrArg _ (voidNext_over b p chosen pos scanEnd hch hend h)⟩
  have hfails : ∀ o : Host.Outcome State Fault Refusal, o = .next (b.startFailed .arrayError) → fails o :=
    fun o ho => ⟨_, ho, startFailed_arrayError b⟩
  refine ⟨fun hp => ⟨fun d h1 h2 => ?_, fun d h => hgoes _ ?_, fun ha => ?_, fun ha => hfails _ ?_⟩,
    fun hp => ⟨fun d => hgoes _ ?_, fun ha => ?_, fun ha => hfails _ ?_⟩⟩
  · rw [hread hp, outcome_of_read r d (by rw [hp]; rfl), hjudge, voidJudge_clears b p chosen pos _ ⟨h1, h2⟩]
    rfl
  · rw [hread hp, outcome_of_read r d (by rw [hp]; rfl), hjudge, voidJudge_leaves b p chosen pos _ h]
  · exact (hread hp .error).trans (congrArg _ (hreadAgain ha))
  · exact (hread hp .error).trans (congrArg _ (hreadFails ha))
  · rw [hwrite hp, outcome_of_write r d (by rw [hp]; rfl), hnext]
  · exact (hwrite hp .error).trans (congrArg _ (hwriteAgain ha))
  · exact (hwrite hp .error).trans (congrArg _ (hwriteFails ha))

/-! ### The restores (O38) -/

/-- The outcome of a recovery read (R132). -/
theorem recoveryReadOutcome_eq (s : State) (p : PartId) (e : RecoveryEntry) (hcur : s.scanner.current = some p)
    (he : s.scanner.restoreEntry = some e) (hstep : s.scanner.restoreStep = some .reading) :
    (∀ data, s.recoveryReadOutcome (.okay data) =
      (s.modScanner fun sc =>
        { sc with restoreStep := some .writing, attempt := 1, writeData := some data }).issueRecoveryWrite e data) ∧
    (s.scanner.attempt = 1 → s.recoveryReadOutcome .failed =
      (s.modScanner fun sc => { sc with attempt := 2 }).issueRecoveryRead p e) ∧
    (s.scanner.attempt = 2 → s.recoveryReadOutcome .failed = s.startFailed .arrayError) := by
  unfold State.recoveryReadOutcome
  rw [hcur, he, hstep]
  exact ⟨fun _ => rfl, fun h => if_pos h, fun h => if_neg (attempt_two_not_one _ h)⟩

/-- The outcome of a recovery restore write (R132). -/
theorem recoveryWriteOutcome_eq (s : State) (p : PartId) (e : RecoveryEntry) (hcur : s.scanner.current = some p)
    (he : s.scanner.restoreEntry = some e) (hstep : s.scanner.restoreStep = some .writing) :
    (∀ data, s.recoveryWriteOutcome (.okay data) =
      (s.modScanner fun sc => { sc with restoreEntry := none, restoreStep := none }).takeRestore p) ∧
    (s.scanner.attempt = 1 → s.recoveryWriteOutcome .failed =
      (s.modScanner fun sc => { sc with attempt := 2 }).issueRecoveryWrite e (s.scanner.writeData.getD [])) ∧
    (s.scanner.attempt = 2 → s.recoveryWriteOutcome .failed = s.startFailed .arrayError) := by
  unfold State.recoveryWriteOutcome
  rw [hcur, he, hstep]
  exact ⟨fun _ => rfl, fun h => if_pos h, fun h => if_neg (attempt_two_not_one _ h)⟩

/-- The next entry is restored (R132). -/
theorem takeRestore_cons (s : State) (p : PartId) (e : RecoveryEntry) (rest : List RecoveryEntry)
    (h : s.scanner.toRestore = e :: rest) :
    s.takeRestore p = (s.modScanner fun sc =>
      { sc with
        restoreEntry := some e, restoreStep := some .reading, attempt := 1, toRestore := rest
        writeData := none }).issueRecoveryRead p e := by
  unfold State.takeRestore
  rw [h]

theorem takeRestore_nil (s : State) (p : PartId) (h : s.scanner.toRestore = []) :
    s.takeRestore p = s.restoresDone p := by
  unfold State.takeRestore
  rw [h]

/-- The last restore is over: the incidents are logged and the rewrite issued (R133, R134). -/
theorem restoresDone_eq (s : State) (p : PartId) (chosen : ChosenHeader) (scanEnd : Pos)
    (hch : s.scanner.chosen = some chosen) (hend : s.scanner.scanEnd = some scanEnd) :
    s.restoresDone p =
      (((distinctSequences s.scanner.list).foldl (State.logUnwound p s.scanner.list) s).modScanner fun sc =>
        { sc with
          list := [], stage := some .rewrite, attempt := 1, restoreEntry := none, restoreStep := none
          writeData := some (headerCopy (s.size p) chosen.epoch (chosen.generation + 1) scanEnd) }).issueRewrite p
        (chosen.generation + 1) (headerCopy (s.size p) chosen.epoch (chosen.generation + 1) scanEnd) := by
  unfold State.restoresDone
  rw [hch, hend]

/-- Settles O38, by the access, the outcome and the entries left. -/
theorem recoveryRestoresLines : Obligations.RecoveryRestoresLines := by
  intro s n r p e hd hr href hcur he b read write fails
  have hread : r.purpose = .recoveryRead → ∀ a, exec (.recoveryReadDone n a) s =
      .next (b.recoveryReadOutcome (r.outcome a)) := fun hp a => by
    show s.lineEvent (State.takeResponse n a) = _
    rw [takeResponse_delivers_only s n a r hd hr (by rw [hp]; rfl), State.deliver, hp, href]
    rfl
  have hwrite : r.purpose = .recoveryWrite → ∀ a, exec (.recoveryWriteDone n a) s =
      .next (b.recoveryWriteOutcome (r.outcome a)) := fun hp a => by
    show s.lineEvent (State.takeResponse n a) = _
    rw [takeResponse_delivers_only s n a r hd hr (by rw [hp]; rfl), State.deliver, hp, href]
    rfl
  have hfails : ∀ o : Host.Outcome State Fault Refusal, o = .next (b.startFailed .arrayError) → fails o :=
    fun o ho => ⟨_, ho, startFailed_arrayError b⟩
  refine ⟨fun hp hstep => ?_, fun hp hstep => ?_⟩
  · obtain ⟨hokay, hagain, hfailed⟩ := recoveryReadOutcome_eq b p e hcur he hstep
    refine ⟨fun d => ?_, fun ha => (hread hp .error).trans (congrArg _ (hagain ha)),
      fun ha => hfails _ ((hread hp .error).trans (congrArg _ (hfailed ha)))⟩
    rw [hread hp, outcome_of_read r d (by rw [hp]; rfl), hokay]
    rfl
  · obtain ⟨hokay, hagain, hfailed⟩ := recoveryWriteOutcome_eq b p e hcur he hstep
    let rested := b.modScanner fun sc => { sc with restoreEntry := none, restoreStep := none }
    have hrow : ∀ d, exec (.recoveryWriteDone n (.okay d)) s = .next (rested.takeRestore p) := fun d => by
      rw [hwrite hp, outcome_of_write r d (by rw [hp]; rfl), hokay]
    refine ⟨fun d e' rest hrest => (hrow d).trans (congrArg _ (takeRestore_cons rested p e' rest hrest)), ?_,
      fun ha d hdata => ?_, fun ha => hfails _ ((hwrite hp .error).trans (congrArg _ (hfailed ha)))⟩
    · intro d chosen scanEnd hrest hch hend hlen copy slot
      obtain ⟨dr, f, hlog⟩ := logUnwound_fold p s.scanner.list (distinctSequences s.scanner.list)
        (distinctSequences_mem s.scanner.list) rested hlen
      have hdone := (takeRestore_nil rested p hrest).trans (restoresDone_eq rested p chosen scanEnd hch hend)
      rw [show rested.scanner.list = s.scanner.list from rfl, hlog] at hdone
      exact ⟨_, _, (hrow d).trans (congrArg _ hdone), rfl, rfl, rfl, rfl⟩
    · refine (hwrite hp .error).trans (congrArg _ ((hagain ha).trans ?_))
      rw [show b.scanner.writeData = some d from hdata]
      rfl

/-! ### The rewrite (O39) -/

/-- The outcome of the header rewrite (R134). -/
theorem headerRewriteOutcome_eq (s : State) (p : PartId) (chosen : ChosenHeader) (scanEnd : Pos)
    (hcur : s.scanner.current = some p) (hst : s.scanner.stage = some .rewrite) (hch : s.scanner.chosen = some chosen)
    (hend : s.scanner.scanEnd = some scanEnd) :
    (∀ data, s.headerRewriteOutcome (.okay data) =
      ((s.setPart p (readyPartition chosen.epoch (chosen.generation + 1) scanEnd)).clearScanner).takeFirst
        fun q => decide (p < q)) ∧
    (s.scanner.attempt = 1 → s.headerRewriteOutcome .failed =
      (s.modScanner fun sc => { sc with attempt := 2 }).issueRewrite p (chosen.generation + 1)
        (s.scanner.writeData.getD [])) ∧
    (s.scanner.attempt = 2 → s.headerRewriteOutcome .failed = s.startFailed .arrayError) := by
  unfold State.headerRewriteOutcome
  rw [hcur, hst, hch, hend]
  exact ⟨fun _ => rfl, fun h => if_pos h, fun h => if_neg (attempt_two_not_one _ h)⟩

/-- Settles O39, by the outcome and the enabled partitions left. -/
theorem rewriteMakesReady : Obligations.RewriteMakesReady := by
  intro s n r p q k chosen scanEnd hd hr hp href hcur hst hch hend left slot ready
  let b : State := { s with responses := [], mdo := [], joined := 0, outstanding := left }
  have hrow : ∀ a, exec (.headerRewriteDone n a) s = .next (b.headerRewriteOutcome (r.outcome a)) := fun a => by
    show s.lineEvent (State.takeResponse n a) = _
    rw [takeResponse_delivers_only s n a r hd hr (by rw [hp]; rfl), State.deliver, hp, href]
    rfl
  obtain ⟨hokay, hagain, hfailed⟩ := headerRewriteOutcome_eq b p chosen scanEnd hcur hst hch hend
  let readied : State := { s with
    responses := [], mdo := [], joined := 0, outstanding := left, partitions := s.partitions.set p ready
    scanner := .cleared }
  have hdone : ∀ d, exec (.headerRewriteDone n (.okay d)) s = .next (readied.takeFirst fun q => decide (p < q)) := by
    intro d
    rw [hrow, outcome_of_write r d (by rw [hp]; rfl), hokay]
    rfl
  have hsizes : ∀ x, readied.size x = s.size x := fun x => by
    unfold State.size
    rfl
  refine ⟨fun d hnone => ?_, fun d x hx hsize hfirst => ?_, fun d ha hdata => ?_, fun ha => ?_⟩
  · have hlast : readied.takeFirst (fun q => decide (p < q)) = _ :=
      (takeFirst_none readied _ fun x => by
        by_cases h : p < x
        · exact .inl ((hsizes x).trans (hnone x h))
        · exact .inr (by simpa using h)).trans (recoverySucceeds_eq readied)
    rw [hdone, hlast]
  · have htake := takeFirst_some readied (fun q => decide (p < q)) x (by rwa [hsizes]) (by simpa using hx) fun y hy => by
      by_cases h : p < y
      · exact .inl ((hsizes y).trans (hfirst y h hy))
      · exact .inr (by simpa using h)
    have hpx : p ≠ x := Fin.ne_of_lt hx
    have hold : ∀ y, readied.part y = if y = p then ready else s.part y := fun y => part_setPart b p y ready
    have hnew : ∀ y, (readied.takePartition x).part y =
        if y = x then { readied.part x with state := .scanning } else readied.part y :=
      fun y => part_setPart readied x y { readied.part x with state := .scanning }
    refine ⟨_, (hdone d).trans (congrArg _ htake), ?_, ?_, rfl, ?_, rfl, rfl⟩
    · rw [hnew, if_neg hpx, hold, if_pos rfl]
    · rw [hnew, if_pos rfl, hold, if_neg hpx.symm]
    · exact congrArg (List.map fun z : PortRecord => (z.purpose, z.ref, z.address)) ((congrArg (List.drop left.length)
        (List.append_assoc left [_] [_])).trans List.drop_left)
  · refine (hrow .error).trans (congrArg _ ((hagain ha).trans ?_))
    rw [show b.scanner.writeData = some d from hdata]
    rfl
  · exact ⟨_, (hrow .error).trans (congrArg _ (hfailed ha)), startFailed_arrayError b⟩

/-! ### FORMAT (O40) -/

/-- The outcome of a FORMAT header write (R141). -/
theorem formatOutcome_eq (s : State) (j : FormatJob) (h : s.formatJob = some j) :
    (∀ data, j.copySlot = 1 → s.formatOutcome (.okay data) = s.issueFormat { j with copySlot := 0, attempt := 1 }) ∧
    (∀ data, j.copySlot = 0 → s.formatOutcome (.okay data) = State.endDone { s with formatJob := none }) ∧
    (j.attempt = 1 → s.formatOutcome .failed = s.issueFormat { j with attempt := 2 }) ∧
    (j.attempt = 2 → s.formatOutcome .failed = State.endFailed .arrayError none { s with formatJob := none }) := by
  unfold State.formatOutcome
  rw [h]
  exact ⟨fun _ h => if_pos h, fun _ h => if_neg (by omega), fun h => if_pos h,
    fun h => if_neg (attempt_two_not_one _ h)⟩

/-- Settles O40, by the copy, the outcome and the attempt. -/
theorem formatWritesCopies : Obligations.FormatWritesCopies := by
  intro s n r q k j hd hr hp href hj hslot b write
  have hrow : ∀ a, exec (.formatWriteDone n a) s = .next (b.formatOutcome (r.outcome a)) := fun a => by
    show s.lineEvent (State.takeResponse n a) = _
    rw [takeResponse_delivers_only s n a r hd hr (by rw [hp]; rfl), State.deliver, hp, href]
    rfl
  obtain ⟨h1, h0, hagain, hfailed⟩ := formatOutcome_eq b j hj
  have hok : ∀ d, exec (.formatWriteDone n (.okay d)) s = .next (b.formatOutcome (.okay [])) := fun d => by
    rw [hrow, outcome_of_write r d (by rw [hp]; rfl)]
  refine ⟨fun d h => (hok d).trans (congrArg _ (h1 _ h)), fun d h => (hok d).trans (congrArg _ (h0 _ h)),
    fun ha => (hrow .error).trans (congrArg _ (hagain ha)),
    fun ha => (hrow .error).trans (congrArg _ (hfailed ha))⟩

end Sys2Proof.Machine
end

section
/-! SUPPORT. What is written into a slot is read back (O54). -/

namespace Sys2Proof.Machine

/-- The first 60 bytes of a header copy (R195). -/
def headerBody (size : Nat) (epoch generation : Word) (tail : Pos) : Bytes :=
  [kindHeader, 0#8] ++ leBytes 2 size ++ leBytes 4 epoch.toNat ++ leBytes 4 generation.toNat ++
    leBytes 4 tail.slot ++ leBytes 4 tail.lap.toNat ++ zeroBytes 40

theorem headerCopy_eq (size : Nat) (epoch generation : Word) (tail : Pos) :
    headerCopy size epoch generation tail = sealSlot (headerBody size epoch generation tail) [] := rfl

theorem headerBody_length (size : Nat) (epoch generation : Word) (tail : Pos) :
    (headerBody size epoch generation tail).length = 60 := by
  simp [headerBody, leBytes_length, zeroBytes]

/-- The fields of a header copy are those written (R195). -/
theorem header_fields (size : Nat) (epoch generation : Word) (tail : Pos) (hs : size < 65536)
    (ht : tail.slot < 2 ^ 32) :
    let copy := headerCopy size epoch generation tail
    slotKindByte copy = kindHeader ∧ headerSize copy = size ∧ slotEpoch copy = epoch ∧
      headerGeneration copy = generation ∧ headerTail copy = tail := by
  have hl := headerBody_length size epoch generation tail
  have hf := fun off n hn => sealSlot_field (headerBody size epoch generation tail) [] hl off n hn
  have field : ∀ (pre : Bytes) (n v : Nat) (post : Bytes), v < 256 ^ n → pre.length + n ≤ 60 →
      headerBody size epoch generation tail = pre ++ (leBytes n v ++ post) →
      slotField pre.length n (headerCopy size epoch generation tail) = v := fun pre n v post hv hn hb => by
    rw [headerCopy_eq, hf _ _ hn, hb, slotField_bytes pre post n v hv _ rfl]
  refine ⟨sealSlot_kind _ _ hl, ?_, ?_, ?_, ?_⟩
  · exact field [kindHeader, 0#8] 2 size _ (by omega) (by simp) (by simp only [headerBody, List.append_assoc]; rfl)
  · have h := field ([kindHeader, 0#8] ++ leBytes 2 size) 4 epoch.toNat _ epoch.isLt (by simp [leBytes_length])
      (by simp only [headerBody, List.append_assoc]; rfl)
    simp only [List.length_append, leBytes_length] at h
    exact (congrArg (BitVec.ofNat 32) h).trans (by simp)
  · have h := field ([kindHeader, 0#8] ++ leBytes 2 size ++ leBytes 4 epoch.toNat) 4 generation.toNat _ generation.isLt
      (by simp [leBytes_length]) (by simp only [headerBody, List.append_assoc]; rfl)
    simp only [List.length_append, leBytes_length] at h
    exact (congrArg (BitVec.ofNat 32) h).trans (by simp)
  · have h := field ([kindHeader, 0#8] ++ leBytes 2 size ++ leBytes 4 epoch.toNat ++ leBytes 4 generation.toNat) 4
      tail.slot _ (by omega) (by simp [leBytes_length]) (by simp only [headerBody, List.append_assoc]; rfl)
    have h' := field ([kindHeader, 0#8] ++ leBytes 2 size ++ leBytes 4 epoch.toNat ++ leBytes 4 generation.toNat ++
      leBytes 4 tail.slot) 4 tail.lap.toNat _ tail.lap.isLt (by simp [leBytes_length])
      (by simp only [headerBody, List.append_assoc]; rfl)
    simp only [List.length_append, leBytes_length] at h h'
    exact congrArg₂ Pos.mk h ((congrArg (BitVec.ofNat 32) h').trans (by simp))

/-- A header copy with values in their ranges is well-formed in the slot of its generation's parity alone (R124). -/
theorem header_wellFormed (size : Nat) (epoch generation : Word) (tail : Pos) (h1 : 1 ≤ size) (h2 : size ≤ 4096)
    (h3 : 2 ≤ tail.slot) (h4 : tail.slot ≤ 64 * size - 1) (k : Nat) :
    headerWellFormed k (headerCopy size epoch generation tail) = decide (k % 2 = generation.toNat % 2) := by
  obtain ⟨hkind, hsize, -, hgen, htail⟩ := header_fields size epoch generation tail (by omega) (by omega)
  unfold headerWellFormed
  rw [hkind, hsize, hgen, htail, headerCopy_eq, sealSlot_check _ _ (headerBody_length size epoch generation tail)]
  simp [h1, h2, h3, h4, eq_comm]

/-- A sealed record's check value is correct over what it was sealed over (R197). -/
theorem record_check (kind : Byte) (pad tag : Nat) (epoch lap : Word) (sequence index undo line : Nat) (more : Bytes) :
    slotCheckOk (sealSlot (recordBody kind pad tag epoch lap sequence index undo line) more) more = true :=
  sealSlot_check _ _ (recordBody_length kind pad tag epoch lap sequence index undo line)

/-- A written UNDO record gives back its fields, and is valid before the last ring slot (R127, R196). -/
theorem undo_reads_back (epoch : Word) (pos : Pos) (last : Nat) (info : RecordInfo) (line : Addr) (old : Bytes)
    (hs : info.sequence ≠ 0) (h1 : 1 ≤ info.index) (h2 : info.index ≤ 1024) (hl : info.line = some line)
    (h64 : line.toNat % 64 = 0) :
    let slot := undoSlotBytes epoch pos.lap info old
    slot.length = 64 ∧ slotTag slot = info.tag.val + 1 ∧ slotSequence slot = info.sequence.toNat ∧
      slotIndex slot = info.index ∧ slotLine slot = line.toNat ∧
      recordValid epoch pos last slot old = decide (pos.slot ≠ last) := by
  have htag := info.tag.isLt
  have hseq : 1 ≤ info.sequence.toNat := Nat.one_le_iff_ne_zero.mpr fun h => hs (BitVec.eq_of_toNat_eq h)
  obtain ⟨fk, -, ft, fe, flap, fs, fi, -, fa⟩ := record_fields kindUndo 0 (tagNumber info.tag) epoch pos.lap
    info.sequence.toNat info.index 0 (info.line.getD 0).toNat (by omega) (by unfold tagNumber; omega)
    info.sequence.isLt (by omega) (by omega) (info.line.getD 0).isLt old
  intro slot
  have hline : slotLine slot = line.toNat := fa.trans (by rw [hl, Option.getD_some])
  have hchk : slotCheckOk slot old = true := record_check _ _ _ _ _ _ _ _ _ _
  refine ⟨sealSlot_length _ _ (recordBody_length _ _ _ _ _ _ _ _ _), ft, fs, fi, hline, ?_⟩
  have hk : slotKindByte slot = kindUndo := fk
  have ht : slotTag slot = tagNumber info.tag := ft
  have hsq : slotSequence slot = info.sequence.toNat := fs
  have hi : slotIndex slot = info.index := fi
  have hlen : recordLength slot = 2 := by rw [recordLength, if_pos hk]
  have hr : recordRangesOk slot = true := by
    rw [recordRangesOk, if_pos hk, hsq, ht, hi, hline]
    simp [hseq, h1, h2, h64, tagNumber]
  rw [recordValid, hr, show slotEpoch slot = epoch from fe, show slotLap slot = pos.lap from flap, hlen, if_pos hk, hchk]
  simp

/-- A written closing record gives back its fields, and is valid where it stands (R127, R196). -/
theorem closing_reads_back (epoch : Word) (pos : Pos) (last : Nat) (info : RecordInfo) (kind : Byte)
    (hkind : kind = kindCommit ∨ kind = kindUnwound) (hs : info.sequence ≠ 0) (h1 : 1 ≤ info.index)
    (h2 : info.index ≤ 1024) :
    let slot := closingSlotBytes kind epoch pos.lap info
    slot.length = 64 ∧ slotKindByte slot = kind ∧ slotTag slot = info.tag.val + 1 ∧
      slotSequence slot = info.sequence.toNat ∧ slotUndoCount slot = info.index ∧
      recordValid epoch pos last slot [] = true := by
  have htag := info.tag.isLt
  have hseq : 1 ≤ info.sequence.toNat := Nat.one_le_iff_ne_zero.mpr fun h => hs (BitVec.eq_of_toNat_eq h)
  obtain ⟨fk, -, ft, fe, flap, fs, -, fu, -⟩ := record_fields kind 0 (tagNumber info.tag) epoch pos.lap
    info.sequence.toNat 0 info.index 0 (by omega) (by unfold tagNumber; omega) info.sequence.isLt (by omega) (by omega)
    (by omega) []
  intro slot
  have hk : slotKindByte slot = kind := fk
  have ht : slotTag slot = tagNumber info.tag := ft
  have hsq : slotSequence slot = info.sequence.toNat := fs
  have hu : slotUndoCount slot = info.index := fu
  have hchk : slotCheckOk slot [] = true := record_check _ _ _ _ _ _ _ _ _ _
  have hundo : ¬ slotKindByte slot = kindUndo := by rw [hk]; obtain rfl | rfl := hkind <;> decide
  have hpad : ¬ slotKindByte slot = kindPad := by rw [hk]; obtain rfl | rfl := hkind <;> decide
  refine ⟨sealSlot_length _ _ (recordBody_length _ _ _ _ _ _ _ _ _), hk, ht, hsq, hu, ?_⟩
  have hlen : recordLength slot = 1 := by rw [recordLength, if_neg hundo, if_neg hpad]
  have hr : recordRangesOk slot = true := by
    rw [recordRangesOk, if_neg hundo, if_pos (by rw [hk]; exact hkind), hsq, ht, hu]
    simp [hseq, h1, h2, tagNumber]
  rw [recordValid, hr, show slotEpoch slot = epoch from fe, show slotLap slot = pos.lap from flap, hlen, hchk]
  simp

/-- A written PAD gives back its length, and is valid but for one of two slots at the last ring slot (R60, R127). -/
theorem pad_reads_back (epoch : Word) (pos : Pos) (last length : Nat) (hlen : length = 1 ∨ length = 2) :
    let slot := padSlotBytes length epoch pos.lap
    slot.length = 64 ∧ slotPadLength slot = length ∧
      recordValid epoch pos last slot [] = decide (length = 1 ∨ pos.slot ≠ last) := by
  obtain ⟨fk, fp, ft, fe, flap, fs, -⟩ := record_fields kindPad length 0 epoch pos.lap 0 0 0 0 (by omega) (by omega)
    (by omega) (by omega) (by omega) (by omega) []
  intro slot
  have hk : slotKindByte slot = kindPad := fk
  have hp : slotPadLength slot = length := fp
  have ht : slotTag slot = 0 := ft
  have hsq : slotSequence slot = 0 := fs
  have hchk : slotCheckOk slot [] = true := record_check _ _ _ _ _ _ _ _ _ _
  refine ⟨sealSlot_length _ _ (recordBody_length _ _ _ _ _ _ _ _ _), hp, ?_⟩
  have hundo : ¬ slotKindByte slot = kindUndo := by rw [hk]; decide
  have hclosing : ¬ (slotKindByte slot = kindCommit ∨ slotKindByte slot = kindUnwound) := by rw [hk]; decide
  have hl : recordLength slot = length := by rw [recordLength, if_neg hundo, if_pos hk, hp]
  have hr : recordRangesOk slot = true := by
    rw [recordRangesOk, if_neg hundo, if_neg hclosing, if_pos hk, hsq, ht, hp]
    obtain rfl | rfl := hlen <;> rfl
  rw [recordValid, hr, show slotEpoch slot = epoch from fe, show slotLap slot = pos.lap from flap, hl, hchk]
  obtain rfl | rfl := hlen <;> simp

/-- Settles O54, by the kind of slot. -/
theorem slotsReadBack : Obligations.SlotsReadBack := by
  refine ⟨fun size epoch generation tail h1 h2 h3 h4 => ?_, undo_reads_back,
    fun epoch pos last info kind => closing_reads_back epoch pos last info kind, pad_reads_back⟩
  obtain ⟨-, hsize, hepoch, hgen, htail⟩ := header_fields size epoch generation tail (by omega) (by omega)
  exact ⟨sealSlot_length _ _ (headerBody_length size epoch generation tail), hsize, hepoch, hgen, htail,
    header_wellFormed size epoch generation tail h1 h2 h3 h4⟩

end Sys2Proof.Machine
end

section
/-! SUPPORT. SOFT_RESET, the power-fail warning and the reset line (O46 to O48). -/

namespace Sys2Proof.Machine

/-! ### SOFT_RESET (O46) -/

/-- A SOFT_RESET is taken in every state, and tests the warning line last (R157, R158). -/
theorem softReset_effect (s : State) (pfw : Bool) (hr : s.resetLine = false) (hf : s.link.frame = .idle) :
    s.begin.commandEvent 9 pfw = State.testPowerFail pfw { State.softCleared s s.held with pfwLine := s.pfwLine } := by
  rw [commandEvent_taken s hr hf 9 (by decide) (.inl rfl), takeCommand_known s .softReset _ rfl pfw (.inr rfl)]
  show State.testPowerFail pfw _ = _
  rw [clearRun_done]

/-- Entry into SHUTDOWN with the run state cleared (R158). -/
theorem enterShutdown_of_cleared (b : State) (hc : b.controller = .config) (hq : b.requests = [])
    (hrun : b.running = false) (hg : b.groups = Vector.replicate 15 Group.cleared) (he : b.engine = Engine.cleared)
    (f : BitVec 9) (hf : b.flags ||| 1#9 = f) :
    b.enterShutdown = { b with
      controller := .shutdown, flags := f, engine := { Engine.cleared with state := .stopped } } := by
  rw [enterShutdown_of_empty b hc hq hrun, hf, he, hg, clearedGroups_hold_no_request,
    if_neg (show ¬ Engine.cleared.completesLine = true by decide)]
  rfl

/-- With the run state cleared and the warning line inactive, the journal, the groups and the engine have nothing to do
(R88, R103). -/
theorem atRest_of_cleared (x : State) (hreq : ∀ e ∈ x.requests, e.phase ≠ .ordered)
    (hc : x.controller = .config) (hg : x.groups = Vector.replicate 15 Group.cleared)
    (hp : x.partitions = Vector.replicate 4 Partition.cleared) (he : x.engine = Engine.cleared) : x.atRest = true := by
  refine atRest_of x hreq (fun t => ?_) (engineAdvance_of_idle x (by rw [he]; rfl) (by rw [he]; rfl)) (fun q hq => ?_)
    fun h => absurd (hc.symm.trans h) (by decide)
  · rw [State.groupState, State.group, hg]
    simp [Group.cleared]
  · have hpart : x.part q = Partition.cleared := by rw [State.part, hp]; simp
    rw [hpart]
    exact fun y hy => absurd hy (by simp [Partition.cleared])

/-- What intake does in CONFIG with an empty table and no claim: it refuses the request, or admits the PLAIN access of a
line that is not protected, whose array request is issued at once (R80, R83, R84, R88). -/
def State.intakeOutcome (r : HostRequest) (s : State) : State :=
  match s.earlyRefusal r with
  | some status => s.refuse r status
  | none =>
    match r.kind with
    | .read =>
      State.issue .hostRead (.entry 0) r.address r.length [] { s with requests := [newEntry 0 r .read .loading] }
    | .write =>
      State.issue .homeWrite (.entry 0) r.address r.length r.data
        { s with requests := [newEntry 0 r .unjournaled .storing] }

/-- A request that passes check 3 in CONFIG is PLAIN, for a line that is not protected (R80). -/
theorem earlyRefusal_none_in_config (s : State) (r : HostRequest) (hc : s.controller = .config)
    (h : s.earlyRefusal r = none) : intentOf r.intent = some .plain ∧ s.regionOf (lineOf r.address) = none := by
  unfold State.earlyRefusal State.stateRefusal at h
  rw [hc] at h
  split at h
  · cases h
  split at h
  · cases h
  simp only [ite_eq_right_iff, reduceCtorEq, imp_false, Bool.or_eq_true, decide_eq_true_eq, not_or, not_not] at h
  obtain ⟨hl, hp⟩ := h
  exact ⟨hp, by simpa [State.protectedLine] using hl⟩

/-- A PLAIN access at check 5 (R82). -/
theorem takeIntent_plain (s : State) (r : HostRequest) (i : EntryId) (hp : intentOf r.intent = some .plain) :
    s.takeIntent i r = s.takeAccess i r false := by
  unfold State.takeIntent
  rw [hp]

theorem freeEntry_of_empty (s : State) (h : s.requests = []) : s.freeEntry = some 0 := by
  unfold State.freeEntry
  rw [h]
  rfl

theorem intake_of_cleared (s : State) (r : HostRequest) (hc : s.controller = .config) (hq : s.requests = [])
    (hcl : s.claims = []) (hg : s.groups = Vector.replicate 15 Group.cleared)
    (hp : s.partitions = Vector.replicate 4 Partition.cleared) (he : s.engine = Engine.cleared) :
    s.intake r = s.intakeOutcome r := by
  unfold State.intakeOutcome
  cases hr : s.earlyRefusal r with
  | some status => exact intake_of_earlyRefusal s r status hr
  | none =>
    obtain ⟨hplain, hline⟩ := earlyRefusal_none_in_config s r hc hr
    have hopen := earlyRefusal_open_line s r hr
    have hrun : s.controller ≠ .shutdown := earlyRefusal_not_shutdown s r hr
    rw [intake_of_free s r 0 hr (freeEntry_of_empty s hq), takeIntent_plain s r 0 hplain, State.takeAccess]
    cases hk : r.kind with
    | read =>
      have hclaim : s.claimOf (lineOf r.address) = none := by rw [State.claimOf, hcl]; rfl
      rw [accessPath_read s r false hk, readPath_of_unclaimed s _ hclaim]
      show (s.admitAccess 0 r .read .ordered false).settle = _
      rw [admitAccess_plain s r 0 .read .ordered rfl, State.addEntry, hq, List.nil_append]
      exact settle_of_leave _ _ (leaveAll_of_only_read _ r 0 rfl hrun hopen)
        (atRest_of_cleared _ (fun e h => by obtain rfl := List.mem_singleton.mp h; exact nofun) hc hg hp he)
    | write =>
      rw [accessPath_write s r false hk, writePath_unprotected s _ _ false hline]
      show (s.admitAccess 0 r .unjournaled .ordered false).settle = _
      rw [admitAccess_plain s r 0 .unjournaled .ordered rfl, State.addEntry, hq, List.nil_append]
      exact settle_of_leave _ _ (leaveAll_of_only_store _ r 0 rfl hrun hopen)
        (atRest_of_cleared _ (fun e h => by obtain rfl := List.mem_singleton.mp h; exact nofun) hc hg hp he)

/-- What intake does to a part with its run state cleared comes behind what has been sent. -/
theorem intakeOutcome_sent (s : State) (r : HostRequest) (sent : List Response) (m : List Bool) :
    State.intakeOutcome r { s with responses := sent, mdo := m } =
      { State.intakeOutcome r { s with responses := [], mdo := [] } with
        responses := sent ++ (State.intakeOutcome r { s with responses := [], mdo := [] }).responses, mdo := m
        joined := s.joined } := by
  unfold State.intakeOutcome
  rw [show State.earlyRefusal { s with responses := sent, mdo := m } r = s.earlyRefusal r from rfl,
    show State.earlyRefusal { s with responses := [], mdo := [] } r = s.earlyRefusal r from rfl]
  cases s.earlyRefusal r with
  | some status => rfl
  | none => cases r.kind <;> simp [State.issue]

/-- Settles O46: the run state is cleared, the warning line tested, and a held request taken again. -/
theorem softResetClearsRunState : Obligations.SoftResetClearsRunState := by
  intro s hr hf cleared warned
  have hrow : ∀ pfw, exec (.softReset pfw) s = .next ((State.testPowerFail pfw
      { State.softCleared s s.held with pfwLine := s.pfwLine }).endEvent s.controller) := fun pfw => by
    rw [← softReset_effect s pfw hr hf]
    rfl
  refine ⟨fun hheld => ⟨?_, ?_⟩, fun r hheld hw => ?_⟩
  · rw [hrow, hheld]
    exact congrArg _ (endEvent_of_none _ _ rfl)
  · have henter : State.testPowerFail true { State.softCleared s none with pfwLine := s.pfwLine } = warned := by
      exact enterShutdown_of_cleared { State.softCleared s none with pfwLine := true } rfl rfl rfl rfl rfl 0x081#9
        (show 0x080#9 ||| 1#9 = 0x081#9 by decide)
    rw [hrow, hheld, henter]
    exact congrArg _ (endEvent_of_none _ _ rfl)
  · have hfree : (State.softCleared s (some r)).freeEntry = some 0 := freeEntry_of_empty _ rfl
    have hretake : (State.softCleared s (some r)).endEvent s.controller = State.intake r cleared := by
      rw [State.endEvent, hfree]
      rfl
    refine ⟨State.intake r cleared, State.intake r cleared.begin, ?_, ?_, ?_⟩
    · rw [hrow, hheld, ← hretake]
      rfl
    · exact hostRequest_of_held_none cleared r hr rfl hw
    · rw [intake_of_cleared cleared r rfl rfl rfl rfl rfl rfl, intake_of_cleared cleared.begin r rfl rfl rfl rfl rfl rfl]
      exact intakeOutcome_sent cleared r cleared.responses (lowBits 56)

/-! ### The power-fail warning (O47) -/

/-- What the assertion of the warning line finds outside SHUTDOWN. -/
def State.warned (s : State) : State :=
  { s with responses := [], mdo := [], joined := 0, pfwLine := true }

theorem pfwAssert_row (s : State) : exec .pfwAssert s = .next ((s.begin.powerFail).endEvent s.controller) := rfl

/-- A command that is RUNNING, not a START, ends FAILED(SHUTDOWN) (R119, R142). -/
theorem endRunning_of_running (s : State) (hc : s.controller ≠ .recovering) (hr : s.cmdStatus.outcome = .running) :
    s.endRunning = { s with
      cmdStatus := { s.cmdStatus with outcome := .failed, reason := some .shutdown, first := none }
      formatJob := none, engine := { s.engine with retryTag := none }, flags := s.flags ||| 0x008#9 } := by
  unfold State.endRunning
  rw [if_neg hc, if_pos (by simp [State.running, hr])]
  rfl

theorem endRunning_of_not_running (s : State) (hc : s.controller ≠ .recovering) (hr : s.cmdStatus.outcome ≠ .running) :
    s.endRunning = s := by
  unfold State.endRunning
  rw [if_neg hc, if_neg (by simp [State.running, hr])]

theorem endRunning_of_recovering (s : State) (hc : s.controller = .recovering) :
    s.endRunning = s.startFailed .shutdown := by
  unfold State.endRunning
  rw [if_pos hc]

/-- The end of a command changes neither the host port nor the groups (R137, R142, R119). -/
theorem endRunning_keeps (s : State) : s.endRunning.requests = s.requests ∧ s.endRunning.responses = s.responses ∧
    s.endRunning.groups = s.groups := by
  by_cases hc : s.controller = .recovering
  · obtain ⟨d, f, h, -⟩ := startFailed_shutdown s
    rw [endRunning_of_recovering s hc, h]
    exact ⟨rfl, rfl, rfl⟩
  by_cases hr : s.cmdStatus.outcome = .running
  · rw [endRunning_of_running s hc hr]
    exact ⟨rfl, rfl, rfl⟩
  · rw [endRunning_of_not_running s hc hr]
    exact ⟨rfl, rfl, rfl⟩

/-- Outside RECOVERING the end of a command leaves the engine its line (R119). -/
theorem endRunning_engine (s : State) (hc : s.controller ≠ .recovering) : s.endRunning.engine = { s.engine with
    retryTag := if s.cmdStatus.outcome = .running then none else s.engine.retryTag } := by
  by_cases hr : s.cmdStatus.outcome = .running
  · rw [endRunning_of_running s hc hr, if_pos hr]
  · rw [endRunning_of_not_running s hc hr, if_neg hr]

/-- Entry into SHUTDOWN, whatever the table. -/
theorem enterShutdown_controller (s : State) : s.enterShutdown.controller = .shutdown := by
  unfold State.enterShutdown
  dsimp only
  obtain ⟨r, q, h⟩ := shutdownFates_only s.isCommitRequest ((s.endRunning.enter .shutdown).raise .powerWarning).requests
    ((s.endRunning.enter .shutdown).raise .powerWarning)
  rw [h, stopUnwinding_eq]
  rfl

/-- Settles O47, by the controller state and the held request. -/
theorem powerFailEntersShutdown : Obligations.PowerFailEntersShutdown := by
  intro s hr commits powered inLine
  refine ⟨fun hc hheld => ?_, fun hc hheld hn => ?_, fun r hheld hc hi hspan => ?_⟩
  · have hpf : s.begin.powerFail = State.raise .powerWarning { s.begin with pfwLine := true } := by
      unfold State.powerFail
      rw [if_neg (by rw [show s.begin.resetLine = _ from hr]; simp), if_pos (by exact hc)]
    rw [pfwAssert_row, hpf]
    exact congrArg _ (endEvent_of_none _ _ hheld)
  · have hrow : exec .pfwAssert s = .next s.warned.enterShutdown := by
      rw [pfwAssert_row, powerFail_enter s hr hc]
      exact congrArg _ (endEvent_of_none _ _ ((held_of_setup (enterShutdown_setup s.warned)).trans hheld))
    obtain ⟨hreq, hresp, hgroups⟩ := endRunning_keeps s.warned
    have heq := enterShutdown_eq s.warned _ rfl hreq hn
    rw [hresp, hgroups] at heq
    refine ⟨_, hrow.trans (congrArg _ heq), ?_, ⟨State.shutdownHits s.warned, shutdownHits_iff s.warned, List.nil_append _,
      rfl⟩, rfl, fun hnr => ⟨fun hline => ?_, fun hline => ?_, fun hrun => ?_, fun hrun => ?_, ?_⟩, fun hrec => ?_⟩
    · simp
    · dsimp only
      rw [endRunning_engine s.warned hnr]
      exact if_pos ((completesLine_iff _).mpr hline)
    · dsimp only
      rw [endRunning_engine s.warned hnr]
      exact if_neg (mt (completesLine_iff _).mp hline)
    · dsimp only
      rw [endRunning_of_not_running s.warned hnr hrun]
      exact ⟨rfl, rfl, rfl⟩
    · dsimp only
      rw [endRunning_of_running s.warned hnr hrun]
      exact ⟨rfl, rfl, (BitVec.or_assoc s.flags _ _)⟩
    · by_cases hrun : s.cmdStatus.outcome = .running
      · rw [endRunning_of_running s.warned hnr hrun]
        rfl
      · rw [endRunning_of_not_running s.warned hnr hrun]
        rfl
    · obtain ⟨d, f, hstart, hflag⟩ := startFailed_shutdown s.warned
      dsimp only
      rw [endRunning_of_recovering s.warned hrec, hstart]
      refine ⟨rfl, rfl, rfl, rfl, rfl, rfl, ?_⟩
      simp [hflag]
  · have hheld' : s.warned.enterShutdown.held = some r := (held_of_setup (enterShutdown_setup s.warned)).trans hheld
    have hctl := enterShutdown_controller s.warned
    let b : State := { s.warned.enterShutdown with held := none }
    have hrefuse : b.earlyRefusal r = some .powerDown := by
      unfold State.earlyRefusal State.stateRefusal
      rw [hi, hspan, show b.controller = .shutdown from hctl]
      rfl
    refine ⟨b.refuse r .powerDown, ?_, hctl, rfl, List.getLast?_concat⟩
    rw [pfwAssert_row, powerFail_enter s hr hc, ← intake_of_earlyRefusal b r _ hrefuse]
    show Host.Outcome.next (s.warned.enterShutdown.endEvent s.controller) = _
    rw [State.endEvent, hctl, if_pos (by simp [hc.symm]), State.retakeHeld, hheld']

end Sys2Proof.Machine
end

section
/-! SUPPORT. The reset line: its assertion, what is taken while it is asserted, and its release (O48). -/

namespace Sys2Proof.Machine

/-- While the reset line is asserted an event of the part takes nothing (R156). -/
theorem lineEvent_in_reset (s : State) (f : State → State) (hr : s.resetLine = true) : s.lineEvent f = .next s.begin :=
  if_pos hr

/-- The edges of a byte in progress change nothing of a link that discards (R184). -/
theorem takeEdges_discarding (l : Link) (k : Nat) (h : l.frame = .discarding) : l.takeEdges k = l := by
  unfold Link.takeEdges
  rw [h]

/-- While the reset line is asserted a frame that goes on is discarded (R184). -/
theorem linkFrame_in_reset_goes_on (s : State) (hr : s.resetLine = true) (bytes : Bytes) (e : Fin 8) (pfw : Bool) :
    s.linkFrame ⟨true, e, false⟩ bytes pfw =
      { s with mdo := lowBits (8 * bytes.length + e.val), link := { s.link with frame := .discarding } } := by
  have hs : s.frameStart true = { s.link with frame := .discarding } := by
    unfold State.frameStart
    rw [hr]
    rfl
  have hb : s.frameBytes true bytes = ({ s.link with frame := .discarding }, zeroBytes bytes.length) := by
    unfold State.frameBytes
    rw [hs, takeBytes_discarding _ _ _ _ rfl, List.nil_append]
  have hbits : pieceBits (Link.inByte { s.link with frame := .discarding })
      ({ s.link with frame := .discarding }, zeroBytes bytes.length) e = lowBits (8 * bytes.length + e.val) := by
    have h0 : bitsOf [Link.drives { s.link with frame := .discarding }] = lowBits 8 := by
      show bitsOf [0#8] = _
      decide
    show pieceBits 0 _ _ = _
    rw [pieceBits_zero, h0, bitsOf_zeroBytes, lowBits_take, lowBits_append, show min e.val 8 = e.val by omega]
  rw [linkFrame_stays _ _ _ _ _ _ _ hb, hs, takeEdges_discarding _ _ rfl, hbits]
  rfl

/-- Settles O48: the assertion, the release and the frames under reset, and every other event. -/
theorem resetLineResets : Obligations.ResetLineResets := by
  refine ⟨fun s low => ⟨_, resetLineAssert_eq s low, rfl, rfl, rfl, rfl, rfl, rfl, rfl, rfl, rfl, rfl, rfl, rfl, rfl⟩,
    fun s low hr hheld => ?_, fun s r n a t p i hr hw => ?_⟩
  · obtain ⟨hs, -, -⟩ := hheld hr
    have hb := congrArg State.begin hs
    have hnone : s.held = none := by rw [hs]; rfl
    have hrelease : ∀ pfw, exec (.resetLineRelease pfw low) s =
        .next ((s.begin.releaseReset pfw low).endEvent s.controller) := fun _ => rfl
    have hframe : ∀ (f : State → State) (x : State), f s.begin = x → x.held = s.held → s.event f = .next x := by
      rintro f _ rfl h
      exact congrArg _ (endEvent_of_none _ _ (h.trans hnone))
    refine ⟨?_, ?_, hframe _ _ (if_pos hr) rfl, fun rest extra pfw => ⟨?_, ?_, ?_, ?_⟩⟩
    · rw [hrelease, hb]
      exact congrArg _ (endEvent_of_none _ _ rfl)
    · rw [hrelease, hb]
      refine congrArg _ ((congrArg (State.endEvent s.controller) ?_).trans (endEvent_of_none _ _ rfl))
      exact enterShutdown_of_cleared { State.reset with
        issueCounter := s.issueCounter, pending := s.pending, pfwLine := true
        link := { Link.cleared with frame := if low then .discarding else .idle } } rfl rfl rfl rfl rfl 1#9
        (show 0#9 ||| 1#9 = 1#9 by decide)
    · exact hframe _ _ (linkFrame_in_reset s.begin hr (readKind :: rest) extra s.pfwLine) rfl
    · exact hframe _ _ (linkFrame_in_reset s.begin hr (writeKind :: rest) extra pfw) rfl
    · exact hframe _ _ (linkFrame_in_reset_goes_on s.begin hr (readKind :: rest) extra s.pfwLine) rfl
    · exact hframe _ _ (linkFrame_in_reset_goes_on s.begin hr (writeKind :: rest) extra pfw) rfl
  · have hline : ∀ f : State → State, s.lineEvent f = .next s.begin := fun f => lineEvent_in_reset s f hr
    simp only [List.forall_mem_cons, List.not_mem_nil, false_imp_iff, implies_true, and_true]
    refine ⟨?_, ?_⟩
    · show execHostRequest r s = _
      rw [execHostRequest, if_pos hw, hline]
      rfl
    · and_intros <;> exact hline _

end Sys2Proof.Machine
end

section
/-! SUPPORT. How a frame ends: the link when MSEL rises, whether the frame comes whole or in two pieces, what MDO has
carried, and what the end changes (O49, O51, O53). -/

namespace Sys2Proof.Machine

/-! ### The end of a frame -/

/-- The link when MSEL rises after these bytes and the edges of one more, on a link that was idle (R172, R173). -/
def State.linkAtEnd (s : State) (bytes : Bytes) (extra : Fin 8) : Link :=
  (Link.takeBytes s.windowBytes bytes (Link.started s.link.lastFrame, [])).1.takeEdges extra

/-- What MDO has carried by then, when the frame comes whole (R172, R176). -/
def State.mdoOfFrame (s : State) (bytes : Bytes) (extra : Fin 8) : List Bool :=
  pieceBits 0 (Link.takeBytes s.windowBytes bytes (Link.started s.link.lastFrame, [])) extra

/-- MSEL rises at a link in this state, with these levels sent in the event (R173, R177, R180). -/
def State.frameCloses (s : State) (l : Link) (out : List Bool) (pfw : Bool) : State :=
  (s.begin.drive out).mselRises l pfw

theorem mselRises_held (s : State) (l : Link) (pfw : Bool) : (s.mselRises l pfw).held = s.held := by
  have hend : ∀ (m : Link) (st : FrameStatus), (s.endFrame m st).held = s.held := fun m st => by
    unfold State.endFrame
    split <;> rfl
  have happly : ∀ (m : Link) (x : State), (x.applyFrame m pfw).held = x.held := fun m x => by
    unfold State.applyFrame
    dsimp only
    split
    · split
      · exact writeRange_held _ _ _
      · exact (takeCommand_held _ _ _).trans (writeRange_held _ _ _)
    · exact writeRange_held _ _ _
  unfold State.mselRises
  split
  · rfl
  · rfl
  all_goals
    split
    · rfl
    · dsimp only
      split
      · exact (happly _ _).trans (hend _ _)
      · exact hend _ _

/-- The link as it stood does not matter to the rise of MSEL. -/
theorem mselRises_link (s : State) (l m : Link) (pfw : Bool) :
    State.mselRises l pfw { s with link := m } = s.mselRises l pfw := by
  unfold State.mselRises
  cases l.frame <;> rfl

/-- The last event of a frame: MSEL rises. -/
theorem event_closes (s : State) (hd : s.direct = true) (opens : Bool) (bytes : Bytes) (e : Fin 8) (pfw : Bool) (l : Link)
    (out : Bytes) (hb : State.frameBytes opens s.begin bytes = (l, out)) (m : Link) (w : List Bool)
    (hl : l.takeEdges e = m) (hw : pieceBits (s.begin.frameStart opens).inByte (l, out) e = w) :
    s.event (State.linkFrame ⟨opens, e, true⟩ bytes pfw) = .next (s.frameCloses m w pfw) := by
  unfold State.event
  rw [linkFrame_rises _ _ _ _ _ _ _ hb, hw, hl]
  exact congrArg _ (endEvent_of_none _ _ ((mselRises_held _ _ _).trans (begin_held s hd)))

/-- A whole frame on an idle link. -/
theorem event_whole (s : State) (hd : s.direct = true) (hf : s.link.frame = .idle) (bytes : Bytes) (e : Fin 8)
    (pfw : Bool) : s.event (State.linkFrame ⟨true, e, true⟩ bytes pfw) =
      .next (s.frameCloses (s.linkAtEnd bytes e) (s.mdoOfFrame bytes e) pfw) := by
  have hr : s.resetLine = false := ((direct_iff s).1 hd).1
  refine event_closes s hd true bytes e pfw _ _ (frameBytes_of_idle s hr hf bytes) _ _ rfl ?_
  rw [frameStart_of_idle s hr hf]
  rfl

/-! ### The bytes of a frame in progress -/

/-- A frame is in progress: its bytes are counted (R173). -/
def Link.inFrame (l : Link) : Prop :=
  l.frame = .header ∨ l.frame = .data ∨ l.frame = .trailing

theorem takeHeaderByte_inFrame (snap : Nat → Nat → Bytes) (b : Byte) (l : Link) (h : l.inFrame) :
    (l.takeHeaderByte snap b).inFrame ∧ (l.takeHeaderByte snap b).bitCount = l.bitCount := by
  unfold Link.takeHeaderByte
  dsimp only
  split
  · split
    · exact ⟨.inr (.inr rfl), rfl⟩
    · exact ⟨.inr (.inl rfl), rfl⟩
  · exact ⟨h, rfl⟩

theorem takeDataByte_inFrame (b : Byte) (l : Link) (h : l.inFrame) :
    (l.takeDataByte b).inFrame ∧ (l.takeDataByte b).bitCount = l.bitCount := by
  unfold Link.takeDataByte
  dsimp only
  split <;> split
  · exact ⟨.inr (.inr rfl), rfl⟩
  · exact ⟨h, rfl⟩
  · exact ⟨.inr (.inr rfl), rfl⟩
  · exact ⟨h, rfl⟩

/-- A byte counts its eight edges (R172). -/
theorem takeByte_inFrame (snap : Nat → Nat → Bytes) (b : Byte) (l : Link) (h : l.inFrame) (hm : l.bitCount % 8 = 0) :
    (Link.takeByte snap l b).inFrame ∧ (Link.takeByte snap l b).bitCount = l.bitCount + 8 := by
  have hb := byteEnd_of_whole l hm
  unfold Link.takeByte
  rcases h with h | h | h <;> rw [h] <;> dsimp only <;> rw [hb]
  · exact takeHeaderByte_inFrame snap b _ (.inl rfl)
  · exact takeDataByte_inFrame b _ (.inr (.inl rfl))
  · exact ⟨.inr (.inr rfl), rfl⟩

theorem takeBytes_inFrame (snap : Nat → Nat → Bytes) : ∀ (bytes : Bytes) (l : Link) (out : Bytes), l.inFrame →
    l.bitCount % 8 = 0 → (Link.takeBytes snap bytes (l, out)).1.inFrame ∧
      (Link.takeBytes snap bytes (l, out)).1.bitCount = l.bitCount + 8 * bytes.length ∧
      (Link.takeBytes snap bytes (l, out)).2.length = out.length + bytes.length
  | [], _, _, h, _ => ⟨h, rfl, rfl⟩
  | b :: rest, l, out, h, hm => by
    obtain ⟨hf, hc⟩ := takeByte_inFrame snap b l h hm
    obtain ⟨h1, h2, h3⟩ := takeBytes_inFrame snap rest (Link.takeByte snap l b) (out ++ [l.drives]) hf (by omega)
    rw [takeBytes_cons]
    exact ⟨h1, by rw [h2, hc, List.length_cons]; omega, by rw [h3, List.length_append, List.length_cons]; simp; omega⟩

/-- The bytes that open a frame on an idle link. -/
theorem takeBytes_started (snap : Nat → Nat → Bytes) (bytes : Bytes) (last : FrameStatus) :
    (Link.takeBytes snap bytes (Link.started last, [])).1.inFrame ∧
      (Link.takeBytes snap bytes (Link.started last, [])).1.bitCount = 8 * bytes.length ∧
      (Link.takeBytes snap bytes (Link.started last, [])).2.length = bytes.length := by
  obtain ⟨h1, h2, h3⟩ := takeBytes_inFrame snap bytes (Link.started last) [] (.inl rfl) rfl
  exact ⟨h1, h2.trans (Nat.zero_add _), h3.trans (Nat.zero_add _)⟩

/-! ### A frame in two pieces -/

theorem takeEdges_inFrame (l : Link) (n : Nat) (h : l.inFrame) (hm : l.bitCount % 8 = 0) :
    l.takeEdges n = { l with bitCount := l.bitCount + n } := takeEdges_of_whole l n h hm

theorem inByte_inFrame (l : Link) (h : l.inFrame) : l.inByte = l.bitCount % 8 := by
  unfold Link.inByte
  rcases h with h | h | h <;> rw [h]

/-- The levels of a byte that ends a piece and begins the next are carried once (R172, R176). -/
theorem pieceBits_split (l m : Link) (out more : Bytes) (k e : Nat) (hk : k ≤ 8)
    (h : (more = [] ∧ m = l ∧ k ≤ e) ∨ more.head? = some l.drives) :
    pieceBits 0 (l, out) k ++ pieceBits k (m, more) e = pieceBits 0 (m, out ++ more) e := by
  have hlen : (bitsOf [l.drives]).length = 8 := bitsOf_length _
  unfold pieceBits
  rw [List.drop_zero, List.drop_zero]
  rcases h with ⟨rfl, rfl, hke⟩ | h
  · rw [List.append_nil, show bitsOf [] = [] from rfl, List.nil_append, List.append_assoc]
    refine congrArg _ ?_
    rw [List.drop_take, ← List.take_add, Nat.add_sub_cancel' hke]
  · obtain ⟨rest, rfl⟩ : ∃ rest, more = l.drives :: rest := by
      cases more with
      | nil => cases h
      | cons b rest => exact ⟨rest, by rw [Option.some.inj h]⟩
    rw [show l.drives :: rest = [l.drives] ++ rest from rfl, bitsOf_append, bitsOf_append, bitsOf_append,
      List.append_assoc (bitsOf [l.drives]), List.drop_append_of_le_length (by omega)]
    simp only [List.append_assoc]
    rw [← List.append_assoc (List.take k _), List.take_append_drop]

/-- Edges of a byte that has not completed change nothing that MDO carries (R172). -/
theorem drives_takeEdges (l : Link) (k : Fin 8) (h : l.inFrame) (hm : l.bitCount % 8 = 0) :
    (l.takeEdges k).drives = l.drives := by
  rw [takeEdges_inFrame l k h hm]
  unfold Link.drives
  dsimp only
  rw [show (l.bitCount + k.val) / 8 = l.bitCount / 8 by omega]

/-- Edges of one byte in two pieces are counted as in one (R172). -/
theorem takeEdges_takeEdges (l : Link) (k e : Fin 8) (h : l.inFrame) (hm : l.bitCount % 8 = 0) (hke : k ≤ e) :
    (l.takeEdges k).takeEdges e = l.takeEdges e := by
  have hin : ({ l with bitCount := l.bitCount + k.val } : Link).inFrame := h
  have hcount : l.bitCount + k.val + (e.val - (l.bitCount + k.val) % 8) = l.bitCount + e.val := by
    have : k.val ≤ e.val := hke
    omega
  rw [takeEdges_inFrame l k h hm, takeEdges_inFrame l e h hm, Link.takeEdges]
  rcases hin with hf | hf | hf <;> rw [hf] <;> dsimp only <;> rw [hcount]

/-- The second piece of a frame: the link, and what MDO carries, as in the whole frame. -/
theorem frameBytes_second (s : State) (front back : Bytes) (k e : Fin 8) (hback : back ≠ [] ∨ k ≤ e) (t : State)
    (ht : t = { s with
      responses := [], mdo := s.mdoOfFrame front k, joined := 0, link := s.linkAtEnd front k }) :
    ∃ l out, State.frameBytes false t.begin back = (l, out) ∧ l.takeEdges e = s.linkAtEnd (front ++ back) e ∧
      t.mdo ++ pieceBits (t.begin.frameStart false).inByte (l, out) e = s.mdoOfFrame (front ++ back) e := by
  let opened := Link.takeBytes s.windowBytes front (Link.started s.link.lastFrame, [])
  obtain ⟨hin, hcount, -⟩ := takeBytes_started s.windowBytes front s.link.lastFrame
  have hm : opened.1.bitCount % 8 = 0 := by rw [hcount]; omega
  have hlast : (s.linkAtEnd front k).lastFrame = s.link.lastFrame :=
    (takeEdges_lastFrame _ _).trans (takeBytes_lastFrame _ _ _)
  have hw : t.begin.windowBytes = s.windowBytes := by
    rw [ht]
    exact windowBytes_of_link { s with responses := [], mdo := [], joined := 0 } _ hlast
  have hstart : t.begin.frameStart false = opened.1.takeEdges k := by rw [ht]; rfl
  have hbyte : (t.begin.frameStart false).inByte = k := by
    rw [hstart, takeEdges_inFrame _ k hin hm, inByte_inFrame { opened.1 with bitCount := opened.1.bitCount + k.val } hin]
    show (opened.1.bitCount + k.val) % 8 = k
    omega
  have hbytes : State.frameBytes false t.begin back = Link.takeBytes s.windowBytes back (opened.1.takeEdges k, []) := by
    unfold State.frameBytes
    rw [hw, hstart]
  have hmdo : t.mdo = pieceBits 0 opened k := by rw [ht]; rfl
  have hwhole : Link.takeBytes s.windowBytes (front ++ back) (Link.started s.link.lastFrame, []) =
      Link.takeBytes s.windowBytes back (opened.1, opened.2) := takeBytes_append _ _ _ _
  rw [hbytes, hbyte, hmdo]
  unfold State.linkAtEnd State.mdoOfFrame
  rw [hwhole]
  cases back with
  | nil =>
    have hke : k ≤ e := hback.resolve_left (not_not.mpr rfl)
    refine ⟨_, _, rfl, takeEdges_takeEdges opened.1 k e hin hm hke, ?_⟩
    have hsplit := pieceBits_split opened.1 opened.1 opened.2 [] k e (by omega) (.inl ⟨rfl, rfl, hke⟩)
    rw [List.append_nil] at hsplit
    refine Eq.trans ?_ hsplit
    unfold pieceBits
    rw [drives_takeEdges opened.1 k hin hm]
  | cons b rest =>
    rw [takeBytes_takeEdges _ _ _ _ _ _ hm, takeBytes_out _ _ _ opened.2]
    refine ⟨_, _, rfl, rfl, pieceBits_split opened.1 _ opened.2 _ k e (by omega) (.inr ?_)⟩
    show (Link.takeBytes s.windowBytes rest (Link.takeByte s.windowBytes opened.1 b, [opened.1.drives])).2.head? = _
    rw [takeBytes_out]
    rfl

/-- The second piece of a frame ends as the whole frame does, MDO having carried the rest of its levels (R172, R173). -/
theorem event_second_piece (s : State) (hd : s.direct = true) (front back : Bytes) (k e : Fin 8) (pfw : Bool)
    (hback : back ≠ [] ∨ k ≤ e) (t : State)
    (ht : t = { s with
      responses := [], mdo := s.mdoOfFrame front k, joined := 0, link := s.linkAtEnd front k }) :
    ∃ out, t.mdo ++ out = s.mdoOfFrame (front ++ back) e ∧
      t.event (State.linkFrame ⟨false, e, true⟩ back pfw) =
        .next (s.frameCloses (s.linkAtEnd (front ++ back) e) out pfw) := by
  obtain ⟨l, out, hb, hl, hout⟩ := frameBytes_second s front back k e hback t ht
  refine ⟨_, hout, (event_closes t (by rw [ht]; exact hd) false back e pfw l out hb _ _ hl rfl).trans (congrArg _ ?_)⟩
  generalize pieceBits (t.begin.frameStart false).inByte (l, out) e = w
  rw [ht]
  exact mselRises_link (s.begin.drive w) _ _ pfw

/-- The first piece of a frame on an idle link. -/
theorem event_first_piece (s : State) (hd : s.direct = true) (hf : s.link.frame = .idle) (front : Bytes) (k : Fin 8)
    (pfw : Bool) : s.event (State.linkFrame ⟨true, k, false⟩ front pfw) =
      .next { s with responses := [], mdo := s.mdoOfFrame front k, joined := 0, link := s.linkAtEnd front k } :=
  event_opens s hd hf front k pfw

end Sys2Proof.Machine
end

section
/-! SUPPORT. Frames that are not applied: bad headers, frames cut short, and unknown kinds (O53). -/

namespace Sys2Proof.Machine

/-- The end of a frame that is not applied: the link, MDO and LINK_ERROR (R177, R180, R183). -/
theorem frameCloses_ends (s : State) (l : Link) (out : List Bool) (pfw : Bool) (st : FrameStatus) (hl : l.inFrame)
    (hn : l.bitCount ≠ 0) (hst : s.frameStatus l = st) (hna : st ≠ .ok ∨ l.reads = true) :
    s.frameCloses l out pfw = { s with
      responses := [], mdo := out, joined := 0, link := ⟨.idle, l.bitCount, l.header, l.decided, none, [], st⟩
      flags := if st = .ok then s.flags else s.flags ||| 0x040#9 } := by
  have hst' : (s.begin.drive out).frameStatus l = st := hst
  have hnot : ¬ (st = .ok ∧ (!l.reads) = true) := by
    rintro ⟨h1, h2⟩
    rcases hna with h | h
    · exact h h1
    · rw [h] at h2; cases h2
  have hend : (s.begin.drive out).endFrame l st = { s with
      responses := [], mdo := out, joined := 0, link := ⟨.idle, l.bitCount, l.header, l.decided, none, [], st⟩
      flags := if st = .ok then s.flags else s.flags ||| 0x040#9 } := by
    unfold State.endFrame
    by_cases h : st = .ok
    · rw [if_pos h, if_pos h]
      rfl
    · rw [if_neg h, if_neg h]
      rfl
  unfold State.frameCloses State.mselRises
  rcases hl with h | h | h <;> rw [h] <;> dsimp only <;> rw [if_neg hn, hst', if_neg hnot, hend]

/-- A write frame decided OK is applied (R181). -/
theorem frameCloses_applied (s : State) (l : Link) (out : List Bool) (pfw : Bool) (hl : l.inFrame)
    (hn : l.bitCount ≠ 0) (hst : s.frameStatus l = .ok) (hw : l.reads = false) :
    s.frameCloses l out pfw = State.applyFrame l pfw { s with
      responses := [], mdo := out, joined := 0, link := ⟨.idle, l.bitCount, l.header, l.decided, none, [], .ok⟩ } := by
  have hst' : (s.begin.drive out).frameStatus l = .ok := hst
  have hend : (s.begin.drive out).endFrame l .ok = { s with
      responses := [], mdo := out, joined := 0, link := ⟨.idle, l.bitCount, l.header, l.decided, none, [], .ok⟩ } := by
    unfold State.endFrame
    rw [if_pos rfl]
    rfl
  unfold State.frameCloses State.mselRises
  rcases hl with h | h | h <;> rw [h] <;> dsimp only <;> rw [if_neg hn, hst', if_pos ⟨rfl, by rw [hw]; rfl⟩, hend]

/-- What a frame that ends with a fault leaves (R175, R177, R180, R183). -/
def State.faulted (s : State) (frame : Bytes) (extra : Fin 8) (decided : Option FrameStatus) (status : FrameStatus) :
    State :=
  { s with
    responses := [], mdo := lowBits (8 * frame.length + extra.val), joined := 0
    link := ⟨.idle, 8 * frame.length + extra.val, frame.take 5, decided, none, [], status⟩
    flags := s.flags ||| 0x040#9 }

/-- Bytes in which MDO is low carry low levels (R172). -/
theorem pieceBits_low (l : Link) (n : Nat) (extra : Fin 8) (h : l.drives = 0) :
    pieceBits 0 (l, zeroBytes n) extra = lowBits (8 * n + extra.val) := by
  have h0 : bitsOf [0#8] = lowBits 8 := by decide
  rw [pieceBits_zero, h, bitsOf_zeroBytes]
  show lowBits (8 * n) ++ (bitsOf [0#8]).take extra = _
  rw [h0, lowBits_take, lowBits_append, show min extra.val 8 = extra.val by omega]

/-! ### The header -/

theorem frameStatus_of_decided (s : State) (l : Link) (st : FrameStatus) (h : l.decided = some st) :
    s.frameStatus l = st := by
  unfold State.frameStatus Link.shapeFault
  rw [h]

theorem frameStatus_of_short (s : State) (l : Link) (hd : l.decided = none) (hw : l.headerWhole = false) :
    s.frameStatus l = .short := by
  unfold State.frameStatus Link.shapeFault
  rw [hd, hw]
  rfl

/-- Before the fifth byte: the header so far, and MDO low (R173). -/
theorem atEnd_of_short (s : State) (bytes : Bytes) (h : bytes.length < 5) (extra : Fin 8) :
    s.linkAtEnd bytes extra = ⟨.header, 8 * bytes.length + extra.val, bytes, none, none, [], s.link.lastFrame⟩ ∧
      s.mdoOfFrame bytes extra = lowBits (8 * bytes.length + extra.val) := by
  unfold State.linkAtEnd State.mdoOfFrame
  rw [takeBytes_short _ _ h]
  exact ⟨takeEdges_inFrame _ _ (.inl rfl) (Nat.mul_mod_right 8 bytes.length), pieceBits_low _ _ _ rfl⟩

/-- With a header that fails a check: the status decided, and MDO low (R175). -/
theorem atEnd_of_bad (s : State) (a b c d e : Byte) (tail : Bytes) (extra : Fin 8) (st : FrameStatus)
    (h : Link.headerFault { Link.started s.link.lastFrame with bitCount := 40, header := [a, b, c, d, e] } = some st) :
    s.linkAtEnd (a :: b :: c :: d :: e :: tail) extra =
        ⟨.trailing, 8 * (a :: b :: c :: d :: e :: tail).length + extra.val, [a, b, c, d, e], some st, none, [],
          s.link.lastFrame⟩ ∧
      s.mdoOfFrame (a :: b :: c :: d :: e :: tail) extra =
        lowBits (8 * (a :: b :: c :: d :: e :: tail).length + extra.val) := by
  have htaken : Link.takeBytes s.windowBytes (a :: b :: c :: d :: e :: tail) (Link.started s.link.lastFrame, []) =
      (⟨.trailing, 8 * (a :: b :: c :: d :: e :: tail).length, [a, b, c, d, e], some st, none, [], s.link.lastFrame⟩,
        zeroBytes (a :: b :: c :: d :: e :: tail).length) := by
    rw [takeBytes_header, Link.afterHeader]
    dsimp only
    rw [h]
    dsimp only
    rw [takeBytes_trailing _ _ _ _ rfl (show 40 % 8 = 0 by decide), zeroBytes_append]
    simp only [List.length_cons, Link.started]
    rw [show 40 + 8 * tail.length = 8 * (tail.length + 1 + 1 + 1 + 1 + 1) by omega,
      show 5 + tail.length = tail.length + 1 + 1 + 1 + 1 + 1 by omega]
  unfold State.linkAtEnd State.mdoOfFrame
  rw [htaken]
  exact ⟨takeEdges_inFrame _ _ (.inr (.inr rfl)) (Nat.mul_mod_right 8 _), pieceBits_low _ _ _ rfl⟩

/-- A frame that ends before its fifth byte is whole (R177). -/
theorem frameCloses_short (s : State) (bytes : Bytes) (h : bytes.length < 5) (extra : Fin 8)
    (hne : bytes ≠ [] ∨ extra ≠ 0) (pfw : Bool) :
    s.frameCloses (s.linkAtEnd bytes extra) (s.mdoOfFrame bytes extra) pfw = s.faulted bytes extra none .short := by
  obtain ⟨hlink, hmdo⟩ := atEnd_of_short s bytes h extra
  have hcount : 8 * bytes.length + extra.val ≠ 0 := by
    rcases hne with h' | h'
    · have := List.length_pos_iff.mpr h'
      omega
    · have : extra.val ≠ 0 := fun h => h' (Fin.ext h)
      omega
  rw [hmdo, hlink, frameCloses_ends s _ _ pfw .short (.inl rfl) hcount
    (frameStatus_of_short s _ rfl (decide_eq_false (show ¬ bytes.length = 5 by omega))) (.inl (by decide)), State.faulted,
    List.take_of_length_le (by omega)]
  rfl

/-- A frame whose header fails a check (R175). -/
theorem frameCloses_bad (s : State) (a b c d e : Byte) (tail : Bytes) (extra : Fin 8) (pfw : Bool) (st : FrameStatus)
    (h : Link.headerFault { Link.started s.link.lastFrame with bitCount := 40, header := [a, b, c, d, e] } = some st)
    (hst : st ≠ .ok) :
    s.frameCloses (s.linkAtEnd (a :: b :: c :: d :: e :: tail) extra)
      (s.mdoOfFrame (a :: b :: c :: d :: e :: tail) extra) pfw =
        s.faulted (a :: b :: c :: d :: e :: tail) extra (some st) st := by
  obtain ⟨hlink, hmdo⟩ := atEnd_of_bad s a b c d e tail extra st h
  rw [hmdo, hlink, frameCloses_ends s _ _ pfw st (.inr (.inr rfl)) (by simp) rfl (.inl hst), if_neg hst]
  rfl

/-- The checks of a header, in their order (R175). -/
theorem headerFault_of_check (l : Link) (a b c d e : Byte) (h : l.header = [a, b, c, d, e])
    (he : e ≠ linkCheck [a, b, c, d]) : l.headerFault = some .headerCheck := by
  rw [headerFault_eq]
  dsimp only
  rw [h]
  exact if_pos he

theorem headerFault_of_kind (l : Link) (a b c d e : Byte) (h : l.header = [a, b, c, d, e])
    (he : e = linkCheck [a, b, c, d]) (ha : a ≠ readKind ∧ a ≠ writeKind) : l.headerFault = some .badKind := by
  rw [headerFault_eq]
  dsimp only
  rw [h]
  exact (if_neg (not_not.mpr he)).trans (if_pos ha)

theorem headerFault_of_length (l : Link) (a b c d e : Byte) (h : l.header = [a, b, c, d, e])
    (he : e = linkCheck [a, b, c, d]) (ha : a = readKind ∨ a = writeKind) (hd : d.toNat = 0 ∨ 16 < d.toNat) :
    l.headerFault = some .badLength := by
  rw [headerFault_eq]
  dsimp only
  rw [h]
  refine (if_neg (not_not.mpr he)).trans ((if_neg ?_).trans (if_pos hd))
  exact fun hk => ha.elim hk.1 hk.2

theorem headerFault_of_address (l : Link) (a b c d e : Byte) (h : l.header = [a, b, c, d, e])
    (he : e = linkCheck [a, b, c, d]) (ha : a = readKind ∨ a = writeKind) (h1 : 1 ≤ d.toNat) (h2 : d.toNat ≤ 16)
    (hm : 4096 ≤ b.toNat * 256 + c.toNat ∨ ∃ k, k < d.toNat ∧ mapped (b.toNat * 256 + c.toNat + k) = false) :
    l.headerFault = some .badAddress := by
  rw [headerFault_eq]
  dsimp only
  rw [h]
  refine (if_neg (not_not.mpr he)).trans ((if_neg ?_).trans ((if_neg ?_).trans (if_pos ?_)))
  · exact fun hk => ha.elim hk.1 hk.2
  · show ¬ (d.toNat = 0 ∨ 16 < d.toNat)
    omega
  · show 4096 ≤ b.toNat * 256 + c.toNat ∨ _
    by_cases hb : 4096 ≤ b.toNat * 256 + c.toNat
    · exact .inl hb
    obtain ⟨k, hk, hkm⟩ := hm.resolve_left hb
    refine .inr (.inr ?_)
    show (!((List.range d.toNat).map fun k => (b.toNat * 256 + c.toNat) % 4096 + k).all mapped) = true
    rw [Nat.mod_eq_of_lt (by omega), Bool.not_eq_true', Bool.eq_false_iff, Ne, range_all_mapped]
    exact fun hall => absurd (hall k hk) (by rw [hkm]; decide)

/-! ### Frames in two pieces that are not applied -/

/-- The levels of MDO do not matter to the end of a frame that is not applied. -/
theorem frameCloses_mdo (s : State) (l : Link) (out more : List Bool) (pfw : Bool) (hl : l.inFrame)
    (hna : s.frameStatus l ≠ .ok ∨ l.reads = true) :
    s.frameCloses l out pfw = { s.frameCloses l more pfw with mdo := out } := by
  by_cases hn : l.bitCount = 0
  · have hzero : ∀ w, s.frameCloses l w pfw = { s.begin.drive w with link := { l with frame := .idle } } := fun w => by
      unfold State.frameCloses State.mselRises
      rcases hl with h | h | h <;> rw [h] <;> dsimp only <;> rw [if_pos hn]
    rw [hzero, hzero]
    rfl
  · rw [frameCloses_ends s l out pfw _ hl hn rfl hna, frameCloses_ends s l more pfw _ hl hn rfl hna]

theorem linkAtEnd_inFrame (s : State) (bytes : Bytes) (extra : Fin 8) :
    (s.linkAtEnd bytes extra).inFrame ∧ (s.linkAtEnd bytes extra).bitCount = 8 * bytes.length + extra.val := by
  obtain ⟨hin, hcount, -⟩ := takeBytes_started s.windowBytes bytes s.link.lastFrame
  unfold State.linkAtEnd
  rw [takeEdges_inFrame _ _ hin (by rw [hcount]; omega)]
  exact ⟨hin, congrArg (· + extra.val) hcount⟩

/-- A frame that is not applied, in two pieces, ends as the whole frame does (R172, R173). -/
theorem frame_in_pieces (s : State) (hd : s.direct = true) (front back : Bytes) (k extra : Fin 8) (pfw : Bool)
    (hback : back ≠ [] ∨ k ≤ extra)
    (hna : s.frameStatus (s.linkAtEnd (front ++ back) extra) ≠ .ok ∨ (s.linkAtEnd (front ++ back) extra).reads = true)
    (t : State) (ht : t = { s with
      responses := [], mdo := s.mdoOfFrame front k, joined := 0, link := s.linkAtEnd front k }) :
    ∃ u : State, t.event (State.linkFrame ⟨false, extra, true⟩ back pfw) = .next u ∧
      s.frameCloses (s.linkAtEnd (front ++ back) extra) (s.mdoOfFrame (front ++ back) extra) pfw =
        { u with mdo := t.mdo ++ u.mdo } := by
  obtain ⟨out, hout, hrow⟩ := event_second_piece s hd front back k extra pfw hback t ht
  refine ⟨_, hrow, ?_⟩
  have hin := (linkAtEnd_inFrame s (front ++ back) extra).1
  have hmdo : (s.frameCloses (s.linkAtEnd (front ++ back) extra) out pfw).mdo = out := by
    rw [frameCloses_mdo s _ out out pfw hin hna]
  rw [hmdo, hout]
  exact frameCloses_mdo s _ _ out pfw hin hna

/-! ### Unknown kinds (O53) -/

/-- A header of an unknown kind fails the first or the second check (R175). -/
theorem badKind_fault (l : Link) (a b c d e : Byte) (h : l.header = [a, b, c, d, e])
    (hk : a ≠ readKind ∧ a ≠ writeKind) : ∃ st, l.headerFault = some st ∧ st ≠ .ok := by
  by_cases he : e = linkCheck [a, b, c, d]
  · exact ⟨.badKind, headerFault_of_kind l a b c d e h he hk, by decide⟩
  · exact ⟨.headerCheck, headerFault_of_check l a b c d e h he, by decide⟩

theorem badKind_cons (k : Byte) (rest : Bytes) (h : badKind (k :: rest) = true) : k ≠ readKind ∧ k ≠ writeKind := by
  simpa [badKind, readKind, writeKind] using h

/-- A frame of an unknown kind is not applied. -/
theorem badKind_not_applied (s : State) (bytes : Bytes) (extra : Fin 8) (h : badKind bytes = true) :
    s.frameStatus (s.linkAtEnd bytes extra) ≠ .ok := by
  by_cases hlen : bytes.length < 5
  · rw [(atEnd_of_short s bytes hlen extra).1, frameStatus_of_short s _ rfl (decide_eq_false (show ¬ bytes.length = 5 by omega))]
    decide
  · obtain ⟨a, b, c, d, e, tail, rfl⟩ := exists_five_bytes bytes (by omega)
    obtain ⟨st, hst, hne⟩ := badKind_fault { Link.started s.link.lastFrame with
      bitCount := 40, header := [a, b, c, d, e] } a b c d e rfl (badKind_cons _ _ h)
    rw [(atEnd_of_bad s a b c d e tail extra st hst).1, frameStatus_of_decided s _ st rfl]
    exact hne

/-- The header of a write frame (R174, R198). -/
def writeHeader (a n : Nat) : Bytes :=
  let four : Bytes := [0xC3#8, BitVec.ofNat 8 (a / 256), BitVec.ofNat 8 a, BitVec.ofNat 8 n]
  four ++ [linkCheck four]

/-- The bytes behind a good write header are taken as data (R173, R178). -/
theorem takeBytes_writeHeader (snap : Nat → Nat → Bytes) (last : FrameStatus) (a n : Nat) (tail : Bytes) (h1 : 1 ≤ n)
    (h2 : n ≤ 16) (ha : a < 4096) (hm : ∀ k, k < n → mapped (a + k) = true) :
    Link.takeBytes snap (writeHeader a n ++ tail) (Link.started last, []) =
      Link.takeBytes snap tail (⟨.data, 40, writeHeader a n, none, none, [], last⟩, zeroBytes 5) := by
  refine (takeBytes_header snap _ _ _ _ _ tail last).trans ?_
  unfold Link.afterHeader
  dsimp only
  rw [headerFault_none last 0xC3#8 (.inr rfl) a n h1 h2 ha hm]
  rfl

theorem writeHeader_length (f : FrameState) (c : Nat) (a n : Nat) (x : Option FrameStatus) (y : Option Bytes) (z : Bytes)
    (last : FrameStatus) (h : n ≤ 16) : Link.length ⟨f, c, writeHeader a n, x, y, z, last⟩ = n := by
  show (BitVec.ofNat 8 n).toNat = n
  rw [BitVec.toNat_ofNat]
  omega

/-- A good write header whose data ends before its last bit is SHORT (R180). -/
theorem frameCloses_cut_short (s : State) (a n : Nat) (data : Bytes) (extra : Fin 8) (pfw : Bool) (h1 : 1 ≤ n)
    (h2 : n ≤ 16) (ha : a < 4096) (hm : ∀ k, k < n → mapped (a + k) = true) (hd : data.length ≤ n) :
    s.frameCloses (s.linkAtEnd (writeHeader a n ++ data) extra) (s.mdoOfFrame (writeHeader a n ++ data) extra) pfw =
      s.faulted (writeHeader a n ++ data) extra none .short := by
  have hlen : (writeHeader a n ++ data).length = 5 + data.length := by
    rw [List.length_append]
    rfl
  have htaken : Link.takeBytes s.windowBytes (writeHeader a n ++ data) (Link.started s.link.lastFrame, []) =
      (⟨.data, 8 * (writeHeader a n ++ data).length, writeHeader a n, none, none, data, s.link.lastFrame⟩,
        zeroBytes (writeHeader a n ++ data).length) := by
    rw [takeBytes_writeHeader _ _ a n data h1 h2 ha hm, takeBytes_write_data s.windowBytes data _ _ rfl rfl
      (not_reads_of_kind _ rfl) (show 40 % 8 = 0 by decide) (by
        rw [writeHeader_length _ _ a n _ _ _ _ h2]
        show 40 + 8 * data.length < _
        omega), zeroBytes_append, hlen]
    rw [show 40 + 8 * data.length = 8 * (5 + data.length) by omega]
    rfl
  have hlink : s.linkAtEnd (writeHeader a n ++ data) extra =
      ⟨.data, 8 * (writeHeader a n ++ data).length + extra.val, writeHeader a n, none, none, data, s.link.lastFrame⟩ := by
    unfold State.linkAtEnd
    rw [htaken]
    exact takeEdges_inFrame _ _ (.inr (.inl rfl)) (Nat.mul_mod_right 8 _)
  have hmdo : s.mdoOfFrame (writeHeader a n ++ data) extra =
      lowBits (8 * (writeHeader a n ++ data).length + extra.val) := by
    unfold State.mdoOfFrame
    rw [htaken]
    exact pieceBits_low _ _ _ rfl
  have hst : s.frameStatus (s.linkAtEnd (writeHeader a n ++ data) extra) = .short := by
    have hx := extra.isLt
    rw [hlink]
    unfold State.frameStatus
    rw [shapeFault_eq _ rfl rfl, writeHeader_length _ _ a n _ _ _ _ h2, hlen]
    dsimp only
    rw [if_pos (by omega)]
  rw [frameCloses_ends s _ _ pfw .short (by rw [hlink]; exact .inr (.inl rfl)) (by rw [hlink, hlen]; simp) hst
    (.inl (by decide)), hmdo, hlink]
  rfl

/-- Settles O53: the frame that is discarded, the frames of an unknown kind, and the write frames cut short. -/
theorem faultyFramesChangeNothing : Obligations.FaultyFramesChangeNothing := by
  intro s hd
  have hheld := begin_held s hd
  have hdiscard : ∀ l, s.link.discardEnds = l → exec .discardedFrameEnds s =
      .next { s with responses := [], mdo := [], joined := 0, link := l } := by
    rintro _ rfl
    exact congrArg _ (endEvent_of_none { s.begin with link := s.link.discardEnds } _ hheld)
  refine ⟨fun hf => hdiscard _ (by rw [Link.discardEnds, hf]), fun hf => hdiscard s.link ?_, ?_⟩
  · unfold Link.discardEnds
    cases h : s.link.frame <;> simp_all
  intro hf ends
  refine ⟨?_, fun bytes extra hk => ⟨fun hlen hne => ?_, fun hlen hc => ?_, fun hlen hc => ?_,
    fun front back k hb hback => ?_⟩, fun rest extra pfw hlen => ?_, fun rest extra pfw hlen => ?_,
    fun a n data extra pfw h1 h2 ha hm hlen => ?_⟩
  · obtain ⟨hlink, hmdo⟩ := atEnd_of_short s [] (by decide) 0
    refine (event_whole s hd hf [] 0 s.pfwLine).trans (congrArg _ ?_)
    rw [hlink, hmdo]
    rfl
  · exact (event_whole s hd hf bytes extra s.pfwLine).trans (congrArg _ (frameCloses_short s bytes hlen extra hne _))
  · obtain ⟨a, b, c, d, e, tail, rfl⟩ := exists_five_bytes bytes hlen
    exact (event_whole s hd hf _ extra s.pfwLine).trans (congrArg _ (frameCloses_bad s a b c d e tail extra _ _
      (headerFault_of_check _ a b c d e rfl hc) (by decide)))
  · obtain ⟨a, b, c, d, e, tail, rfl⟩ := exists_five_bytes bytes hlen
    exact (event_whole s hd hf _ extra s.pfwLine).trans (congrArg _ (frameCloses_bad s a b c d e tail extra _ _
      (headerFault_of_kind _ a b c d e rfl hc (badKind_cons _ _ hk)) (by decide)))
  · subst hb
    obtain ⟨u, hu, hw⟩ := frame_in_pieces s hd front back k extra s.pfwLine hback
      (.inl (badKind_not_applied s _ extra hk)) _ rfl
    exact ⟨_, u, event_first_piece s hd hf front k s.pfwLine, hu,
      (event_whole s hd hf _ extra s.pfwLine).trans (congrArg _ hw)⟩
  · refine (event_whole s hd hf _ extra pfw).trans (congrArg _ (frameCloses_short s (writeKind :: rest) ?_ extra
      (.inl (List.cons_ne_nil _ _)) _))
    rw [List.length_cons]
    omega
  · obtain ⟨b, c, d, e, tail, rfl⟩ : ∃ b c d e tail, rest = b :: c :: d :: e :: tail := by
      match rest, hlen with
      | b :: c :: d :: e :: tail, _ => exact ⟨b, c, d, e, tail, rfl⟩
    intro frame byte address n bad
    have hbad : ∀ st, Link.headerFault { Link.started s.link.lastFrame with
        bitCount := 40, header := [writeKind, b, c, d, e] } = some st → st ≠ .ok → bad st := fun st h hst =>
      (event_whole s hd hf _ extra pfw).trans (congrArg _ (frameCloses_bad s writeKind b c d e tail extra pfw st h hst))
    refine ⟨fun hc => hbad _ (headerFault_of_check _ _ b c d e rfl hc) (by decide), fun hc => ⟨fun hn => ?_,
      fun h1 h2 hm => ?_⟩⟩
    · exact hbad _ (headerFault_of_length _ _ b c d e rfl hc (.inr rfl) hn) (by decide)
    · exact hbad _ (headerFault_of_address _ _ b c d e rfl hc (.inr rfl) h1 h2 hm) (by decide)
  · exact (event_whole s hd hf _ extra pfw).trans (congrArg _ (frameCloses_cut_short s a n data extra pfw h1 h2 ha hm
      hlen))

end Sys2Proof.Machine
end

section
/-! SUPPORT. The read frame: its snapshot on MDO, and its status (O49). -/

namespace Sys2Proof.Machine

theorem bitsOf_cons (b : Byte) (bytes : Bytes) : bitsOf (b :: bytes) = bitsOf [b] ++ bitsOf bytes :=
  bitsOf_append [b] bytes

/-- What MDO carries of a run of bytes that goes on with low levels (R172, R176). -/
theorem bits_then_low (e low : Nat) (he : e ≤ 8) : ∀ (m z : Nat) (bytes : Bytes), m ≤ z → 8 * m + e ≤ low →
    bitsOf ((bytes ++ zeroBytes z).take m) ++ (bitsOf [bytes.getD m 0]).take e =
      (bitsOf bytes ++ lowBits low).take (8 * m + e)
  | m, z, [], hz, hlow => by
    have h0 : bitsOf [0#8] = lowBits 8 := by decide
    have hzero : (([] : Bytes) ++ zeroBytes z).take m = zeroBytes m := by
      simp [zeroBytes, List.take_replicate, hz]
    rw [hzero, bitsOf_zeroBytes]
    show lowBits (8 * m) ++ (bitsOf [0#8]).take e = (lowBits low).take _
    rw [h0, lowBits_take, lowBits_append, lowBits_take, Nat.min_eq_left he, Nat.min_eq_left hlow]
  | 0, z, b :: bytes, _, _ => by
    have hlen : e ≤ (bitsOf [b]).length := (bitsOf_length [b]).symm ▸ he
    rw [bitsOf_cons b bytes, List.append_assoc, Nat.mul_zero, Nat.zero_add, List.take_append_of_le_length hlen]
    rfl
  | m + 1, z, b :: bytes, hz, hlow => by
    have htake := List.take_length_add_append (l₁ := bitsOf [b]) (l₂ := bitsOf bytes ++ lowBits low) (8 * m + e)
    rw [bitsOf_length [b]] at htake
    have hhead : (b :: bytes ++ zeroBytes z).take (m + 1) = b :: (bytes ++ zeroBytes z).take m := rfl
    rw [hhead, bitsOf_cons, bitsOf_cons b bytes, List.append_assoc, List.append_assoc,
      show 8 * (m + 1) + e = 8 * [b].length + (8 * m + e) by rw [List.length_singleton]; omega, htake]
    exact congrArg _ (bits_then_low e low he m z bytes (by omega) (by omega))

/-- A read header whose checks hold, and the bytes that follow it: the snapshot goes out (R175, R176). -/
theorem atEnd_of_read (s : State) (b c d : Byte) (tail : Bytes) (extra : Fin 8) (h1 : 1 ≤ d.toNat) (h2 : d.toNat ≤ 16)
    (ha : b.toNat * 256 + c.toNat < 4096) (hm : ∀ k, k < d.toNat → mapped (b.toNat * 256 + c.toNat + k) = true) :
    let header : Bytes := [0x3C#8, b, c, d, linkCheck [0x3C#8, b, c, d]]
    let window := s.windowBytes (b.toNat * 256 + c.toNat) d.toNat
    let edges := 8 * (header ++ tail).length + extra.val
    ∃ f x, (f = .data ∨ f = .trailing) ∧
      s.linkAtEnd (header ++ tail) extra = ⟨f, edges, header, none, x, [], s.link.lastFrame⟩ ∧
      s.mdoOfFrame (header ++ tail) extra =
        (lowBits 40 ++ bitsOf (window ++ [linkCheck window]) ++ lowBits edges).take edges := by
  intro header window edges
  have hfault : Link.headerFault { Link.started s.link.lastFrame with bitCount := 40, header := header } = none := by
    have h := headerFault_none s.link.lastFrame 0x3C#8 (.inl rfl) (b.toNat * 256 + c.toNat) d.toNat h1 h2 ha hm
    rw [show BitVec.ofNat 8 ((b.toNat * 256 + c.toNat) / 256) = b from BitVec.eq_of_toNat_eq (by simp; omega),
      show BitVec.ofNat 8 (b.toNat * 256 + c.toNat) = c from BitVec.eq_of_toNat_eq (by simp; omega),
      BitVec.ofNat_toNat, BitVec.setWidth_eq] at h
    exact h
  let opened : Link := ⟨.data, 40, header, none, some window, [], s.link.lastFrame⟩
  have hopened : Link.takeBytes s.windowBytes (header ++ tail) (Link.started s.link.lastFrame, []) =
      Link.takeBytes s.windowBytes tail (opened, zeroBytes 5) := by
    refine (takeBytes_header s.windowBytes _ _ _ _ _ tail s.link.lastFrame).trans ?_
    unfold Link.afterHeader
    dsimp only
    rw [hfault]
    refine congrArg (fun w => Link.takeBytes s.windowBytes tail (({ opened with snapshot := some w } : Link), zeroBytes 5))
      ?_
    exact congrArg (fun x => s.windowBytes x d.toNat) (Nat.mod_eq_of_lt ha)
  have hlen : window.length = d.toNat := by simp [window, State.windowBytes]
  obtain ⟨f, hf, hdrives, htaken⟩ := takeBytes_read_data s.windowBytes window tail opened (zeroBytes 5) 0 rfl rfl
    (reads_of_kind _ rfl) rfl (Nat.zero_le _) hlen.symm
  have hcount : 40 + 8 * tail.length = 8 * (header ++ tail).length := by
    rw [List.length_append, show header.length = 5 from rfl]
    omega
  refine ⟨f, some window, hf, ?_, ?_⟩
  · unfold State.linkAtEnd
    rw [hopened, htaken]
    refine (takeEdges_inFrame _ _ (.inr hf) (show (40 + 8 * tail.length) % 8 = 0 by omega)).trans ?_
    show (⟨f, 40 + 8 * tail.length + extra.val, header, none, some window, [], s.link.lastFrame⟩ : Link) = _
    rw [hcount]
  · unfold State.mdoOfFrame
    rw [hopened, htaken, pieceBits_zero, hdrives, Nat.zero_add, List.drop_zero, bitsOf_append, bitsOf_zeroBytes,
      List.append_assoc, bits_then_low extra edges (by omega) tail.length tail.length _ (Nat.le_refl _) (by omega)]
    have hedges : edges = 8 * 5 + (8 * tail.length + extra.val) := by
      show 8 * (tail.length + 5) + extra.val = _
      omega
    have hlow := List.take_length_add_append (l₁ := lowBits 40)
      (l₂ := bitsOf (window ++ [linkCheck window]) ++ lowBits edges) (8 * tail.length + extra.val)
    rw [show (lowBits 40).length = 8 * 5 from List.length_replicate, ← hedges] at hlow
    rw [List.append_assoc (lowBits 40), hlow]

theorem exists_four_bytes (bytes : Bytes) (h : 4 ≤ bytes.length) : ∃ b c d e tail, bytes = b :: c :: d :: e :: tail := by
  match bytes, h with
  | b :: c :: d :: e :: tail, _ => exact ⟨b, c, d, e, tail, rfl⟩

/-- A byte taken adds to the header or leaves it (R173). -/
theorem takeByte_header (snap : Nat → Nat → Bytes) (l : Link) (b : Byte) :
    (Link.takeByte snap l b).header = l.header ∨ (Link.takeByte snap l b).header = l.header ++ [b] := by
  unfold Link.takeByte
  split
  · exact .inl rfl
  · exact .inl rfl
  · right
    unfold Link.takeHeaderByte
    dsimp only
    split
    · split <;> rfl
    · rfl
  · left
    unfold Link.takeDataByte
    dsimp only
    split <;> split <;> rfl
  · exact .inl rfl

/-- The kind byte stays (R174). -/
theorem takeBytes_kind (snap : Nat → Nat → Bytes) (kind : Byte) : ∀ (bytes : Bytes) (l : Link) (out : Bytes),
    l.header.head? = some kind → (Link.takeBytes snap bytes (l, out)).1.header.head? = some kind
  | [], _, _, h => h
  | b :: rest, l, out, h => by
    rw [takeBytes_cons]
    refine takeBytes_kind snap kind rest _ _ ?_
    rcases takeByte_header snap l b with hb | hb <;> rw [hb]
    · exact h
    · rw [List.head?_append, h]
      rfl

/-- A frame of the read kind is never applied (R177). -/
theorem read_reads (s : State) (rest : Bytes) (extra : Fin 8) : (s.linkAtEnd (readKind :: rest) extra).reads = true := by
  have hkind : (s.linkAtEnd (readKind :: rest) extra).header.head? = some readKind := by
    have hbytes := takeBytes_kind s.windowBytes readKind rest
      (Link.takeByte s.windowBytes (Link.started s.link.lastFrame) readKind) [0] rfl
    unfold State.linkAtEnd Link.takeEdges
    split <;> exact hbytes
  refine reads_of_kind _ ?_
  rw [List.getD_eq_getElem?_getD, ← List.head?_eq_getElem?, hkind]
  rfl

/-- The status of a read frame whose header is good (R177). -/
theorem frameStatus_of_read (s : State) (l : Link) (hd : l.decided = none) (hw : l.headerWhole = true)
    (hr : l.reads = true) : s.frameStatus l =
      if l.bitCount < 48 + 8 * l.length then .short else if 48 + 8 * l.length < l.bitCount then .long else .ok := by
  unfold State.frameStatus
  rw [shapeFault_eq l hd hw, hr]
  by_cases h1 : l.bitCount < 48 + 8 * l.length
  · rw [if_pos h1, if_pos h1]
  · rw [if_neg h1, if_neg h1]
    by_cases h2 : 48 + 8 * l.length < l.bitCount
    · rw [if_pos h2, if_pos h2]
    · rw [if_neg h2, if_neg h2]
      rfl

/-- A read frame that ends with its header good (R177). -/
theorem frameCloses_read (s : State) (b c d : Byte) (tail : Bytes) (extra : Fin 8) (pfw : Bool) (h1 : 1 ≤ d.toNat)
    (h2 : d.toNat ≤ 16) (ha : b.toNat * 256 + c.toNat < 4096)
    (hm : ∀ k, k < d.toNat → mapped (b.toNat * 256 + c.toNat + k) = true) (st : FrameStatus)
    (hst : st = if 8 * (tail.length + 5) + extra.val < 48 + 8 * d.toNat then .short
      else if 48 + 8 * d.toNat < 8 * (tail.length + 5) + extra.val then .long else .ok) :
    let header : Bytes := [0x3C#8, b, c, d, linkCheck [0x3C#8, b, c, d]]
    let window := s.windowBytes (b.toNat * 256 + c.toNat) d.toNat
    let edges := 8 * (header ++ tail).length + extra.val
    s.frameCloses (s.linkAtEnd (header ++ tail) extra) (s.mdoOfFrame (header ++ tail) extra) pfw = { s with
      responses := []
      mdo := (lowBits 40 ++ bitsOf (window ++ [linkCheck window]) ++ lowBits edges).take edges
      joined := 0, link := ⟨.idle, edges, header, none, none, [], st⟩
      flags := if st = .ok then s.flags else s.flags ||| 0x040#9 } := by
  intro header window edges
  obtain ⟨f, x, hf, hlink, hmdo⟩ := atEnd_of_read s b c d tail extra h1 h2 ha hm
  have hstatus : s.frameStatus (s.linkAtEnd (header ++ tail) extra) = st := by
    rw [hlink, hst]
    exact frameStatus_of_read s _ rfl rfl rfl
  rw [frameCloses_ends s _ _ pfw st (by rw [hlink]; exact .inr hf) (by rw [hlink]; show 8 * (tail.length + 5) + extra.val ≠ 0; omega) hstatus
    (.inr (by rw [hlink]; rfl)), hmdo, hlink]

/-- The edges of a byte that has not completed change nothing but the bit count and what MDO carries of that byte (R172). -/
theorem edges_of_piece (s : State) (front : Bytes) (k : Fin 8) :
    (s.mdoOfFrame front k).length = 8 * front.length + k.val ∧
      s.mdoOfFrame front 0 = (s.mdoOfFrame front k).take (8 * front.length) ∧
      s.linkAtEnd front 0 = { s.linkAtEnd front k with bitCount := 8 * front.length } := by
  obtain ⟨hin, hcount, hout⟩ := takeBytes_started s.windowBytes front s.link.lastFrame
  have hbits : (bitsOf (Link.takeBytes s.windowBytes front (Link.started s.link.lastFrame, [])).2).length =
      8 * front.length := by rw [bitsOf_length, hout]
  have hm : (Link.takeBytes s.windowBytes front (Link.started s.link.lastFrame, [])).1.bitCount % 8 = 0 := by
    rw [hcount]
    omega
  unfold State.mdoOfFrame State.linkAtEnd
  refine ⟨?_, ?_, ?_⟩
  · rw [pieceBits_zero, List.length_append, List.length_take, hbits, bitsOf_length, List.length_singleton]
    omega
  · rw [pieceBits_zero, pieceBits_zero, ← hbits, List.take_left]
    exact List.append_nil _
  · rw [takeEdges_inFrame _ _ hin hm, takeEdges_inFrame _ _ hin hm, hcount]
    rfl

/-- Settles O49: by the header, the number of edges, and the piece. -/
theorem readFrameReturnsSnapshot : Obligations.ReadFrameReturnsSnapshot := by
  intro s rest extra hd hf frame edges header byte address n ends bad
  have hwhole : ∀ x, s.frameCloses (s.linkAtEnd frame extra) (s.mdoOfFrame frame extra) s.pfwLine = x →
      exec (.readFrame rest ⟨true, extra, true⟩) s = .next x := fun x hx =>
    (event_whole s hd hf frame extra s.pfwLine).trans (congrArg _ hx)
  have hbad : ∀ b c d e tail st, rest = b :: c :: d :: e :: tail → Link.headerFault { Link.started s.link.lastFrame with
      bitCount := 40, header := [readKind, b, c, d, e] } = some st → st ≠ .ok → bad st := by
    rintro b c d e tail st rfl h hst
    refine hwhole _ ((frameCloses_bad s readKind b c d e tail extra _ st h hst).trans ?_)
    rw [State.faulted, if_neg hst]
    rfl
  refine ⟨fun hlen => ?_, fun hlen hc => ?_, fun hlen hc => ?_, fun front back k hrest hback => ?_⟩
  · refine hwhole _ ((frameCloses_short s frame hlen extra (.inl (List.cons_ne_nil _ _)) _).trans ?_)
    rfl
  · obtain ⟨b, c, d, e, tail, rfl⟩ := exists_four_bytes rest (Nat.le_of_succ_le_succ hlen)
    exact hbad b c d e tail _ rfl (headerFault_of_check _ _ b c d e rfl hc) (by decide)
  · obtain ⟨b, c, d, e, tail, rfl⟩ := exists_four_bytes rest (Nat.le_of_succ_le_succ hlen)
    refine ⟨fun hn => ?_, fun h1 h2 hm => ?_, fun h1 h2 ha hm => ?_⟩
    · exact hbad b c d e tail _ rfl (headerFault_of_length _ _ b c d e rfl hc (.inl rfl) hn) (by decide)
    · exact hbad b c d e tail _ rfl (headerFault_of_address _ _ b c d e rfl hc (.inl rfl) h1 h2 hm) (by decide)
    · intro window out
      obtain rfl : e = linkCheck [readKind, b, c, d] := hc
      have hread := fun st hst => hwhole _ (frameCloses_read s b c d tail extra s.pfwLine h1 h2 ha hm st hst)
      refine ⟨fun h => hread .short ?_, fun h => hread .ok ?_, fun h => hread .long ?_⟩
      · exact (if_pos h).symm
      · exact ((if_neg (Nat.not_lt.mpr h.ge)).trans (if_neg (Nat.not_lt.mpr h.le))).symm
      · exact ((if_neg (Nat.not_lt.mpr (Nat.le_of_lt h))).trans (if_pos h)).symm
  · subst hrest
    have hfirst := fun x => event_first_piece s hd hf (readKind :: front) x s.pfwLine
    obtain ⟨u, hu, hw⟩ := frame_in_pieces s hd (readKind :: front) back k extra s.pfwLine hback
      (.inr (read_reads s (front ++ back) extra)) _ rfl
    obtain ⟨hlen, hmdo, hlink⟩ := edges_of_piece s (readKind :: front) k
    refine ⟨_, u, hfirst k, hu, hwhole _ hw, rfl, (linkAtEnd_inFrame s (readKind :: front) k).2, hlen,
      (hfirst 0).trans ?_⟩
    rw [hmdo, hlink]
    rfl

end Sys2Proof.Machine
end

section
/-! SUPPORT. The write frame: how it is decided, and that it is applied where it is OK (O51). -/

namespace Sys2Proof.Machine

/-- The link at the end of a write frame whose header is good and whose data check has been received (R173, R178). -/
def writeTaken (a : Nat) (data : Bytes) (check : Byte) (beyond : Nat) (last : FrameStatus) : Link :=
  ⟨.trailing, 48 + 8 * data.length + beyond, writeHeader a data.length, none, none, data ++ [check], last⟩

theorem atEnd_of_write (s : State) (a : Nat) (data more : Bytes) (check : Byte) (extra : Fin 8) (ha : a < 4096)
    (h1 : 1 ≤ data.length) (h2 : data.length ≤ 16) (hm : ∀ k, k < data.length → mapped (a + k) = true) :
    s.linkAtEnd (writeHeader a data.length ++ (data ++ [check] ++ more)) extra =
        writeTaken a data check (8 * more.length + extra.val) s.link.lastFrame ∧
      s.mdoOfFrame (writeHeader a data.length ++ (data ++ [check] ++ more)) extra =
        lowBits (48 + 8 * data.length + (8 * more.length + extra.val)) := by
  have hwhole : (48 + 8 * data.length) % 8 = 0 := by omega
  have htaken : Link.takeBytes s.windowBytes (writeHeader a data.length ++ (data ++ [check] ++ more))
      (Link.started s.link.lastFrame, []) =
      (⟨.trailing, 48 + 8 * data.length + 8 * more.length, writeHeader a data.length, none, none, data ++ [check],
        s.link.lastFrame⟩, zeroBytes (6 + data.length + more.length)) := by
    rw [takeBytes_writeHeader _ _ a data.length _ h1 h2 ha hm, takeBytes_append,
      takeBytes_write_check s.windowBytes data check _ _ rfl rfl (not_reads_of_kind _ rfl) rfl
        (writeHeader_length _ _ a _ _ _ _ _ h2), takeBytes_trailing _ _ _ _ rfl hwhole, zeroBytes_append,
      zeroBytes_append, show 5 + (data.length + 1) + more.length = 6 + data.length + more.length by omega]
    rfl
  unfold State.linkAtEnd State.mdoOfFrame
  rw [htaken]
  refine ⟨(takeEdges_inFrame _ _ (.inr (.inr rfl)) (show (48 + 8 * data.length + 8 * more.length) % 8 = 0 by omega)).trans
    ?_, (pieceBits_low _ _ _ rfl).trans (congrArg lowBits (by omega))⟩
  show (⟨.trailing, 48 + 8 * data.length + 8 * more.length + extra.val, _, _, _, _, _⟩ : Link) = _
  rw [Nat.add_assoc (48 + 8 * data.length)]
  rfl

/-! ### What a write frame names -/

section
variable (a : Nat) (data : Bytes) (check : Byte) (beyond : Nat) (last : FrameStatus)

theorem writeTaken_length (h2 : data.length ≤ 16) : (writeTaken a data check beyond last).length = data.length :=
  writeHeader_length _ _ a _ _ _ _ _ h2

theorem writeTaken_dataBytes (h2 : data.length ≤ 16) : (writeTaken a data check beyond last).dataBytes = data := by
  rw [Link.dataBytes, writeTaken_length a data check beyond last h2]
  exact List.take_left

theorem writeTaken_check (h2 : data.length ≤ 16) :
    (writeTaken a data check beyond last).dataCheckOk = decide (check = linkCheck data) := by
  rw [Link.dataCheckOk, writeTaken_dataBytes a data check beyond last h2, writeTaken_length a data check beyond last h2]
  have hbyte : (writeTaken a data check beyond last).buffer.getD data.length 0 = check := by
    show (data ++ [check]).getD data.length 0 = check
    simp
  rw [hbyte]

theorem writeTaken_address (ha : a < 4096) : (writeTaken a data check beyond last).windowAddress = a := by
  show ((BitVec.ofNat 8 (a / 256)).toNat * 256 + (BitVec.ofNat 8 a).toNat) % 4096 = a
  rw [BitVec.toNat_ofNat, BitVec.toNat_ofNat]
  omega

/-- The frame's range holds an address of an access class (R179). -/
theorem writeTaken_class (ha : a < 4096) (h2 : data.length ≤ 16) (c : AccessClass) :
    (writeTaken a data check beyond last).range.any (fun x => classAt x == some c) = true ↔
      ∃ k, k < data.length ∧ classAt (a + k) = some c := by
  rw [Link.range, writeTaken_address a data check beyond last ha, writeTaken_length a data check beyond last h2]
  simp

/-- The code that the frame brings to the command register at 0x003, or 0 (R181). -/
def commandCode (a : Nat) (data : Bytes) : Nat :=
  if a ≤ 3 ∧ 3 < a + data.length then (data.getD (3 - a) 0).toNat else 0

theorem writeTaken_command (ha : a < 4096) (h2 : data.length ≤ 16) :
    (∃ b, (writeTaken a data check beyond last).commandByte = some b ∧ commandCode a data = b.toNat) ∨
      (writeTaken a data check beyond last).commandByte = none ∧ commandCode a data = 0 := by
  rw [Link.commandByte, writeTaken_address a data check beyond last ha, writeTaken_dataBytes a data check beyond last h2,
    frameByte, commandCode]
  by_cases h3 : a ≤ 3
  · rw [if_pos h3]
    by_cases hlen : 3 < a + data.length
    · refine .inl ⟨data.getD (3 - a) 0, ?_, if_pos ⟨h3, hlen⟩⟩
      rw [List.getD_eq_getElem _ _ (by omega), List.getElem?_eq_getElem (by omega)]
    · exact .inr ⟨List.getElem?_eq_none (by omega), if_neg fun h => hlen h.2⟩
  · exact .inr ⟨if_neg h3, if_neg fun h => h3 h.1⟩

theorem writeTaken_busy (ha : a < 4096) (h2 : data.length ≤ 16) :
    (writeTaken a data check beyond last).namesBusyCommand = true ↔ commandCode a data ≠ 0 ∧ commandCode a data ≠ 9 := by
  unfold Link.namesBusyCommand
  rcases writeTaken_command a data check beyond last ha h2 with ⟨b, hb, hc⟩ | ⟨hb, hc⟩
  · rw [hb, hc, Bool.and_eq_true, decide_eq_true_eq, decide_eq_true_eq, commandOf_not_softReset]
    exact and_congr_left' ⟨fun h h' => h (BitVec.eq_of_toNat_eq h'), fun h h' => h (by rw [h']; rfl)⟩
  · rw [hb, hc]
    simp

/-- A frame decided OK writes its bytes, and then its command is taken (R181). -/
theorem applyFrame_write (s : State) (ha : a < 4096) (h2 : data.length ≤ 16) (pfw : Bool) :
    s.applyFrame (writeTaken a data check beyond last) pfw =
      if commandCode a data = 0 then s.writeRange a data
      else (s.writeRange a data).takeCommand (commandCode a data) pfw := by
  unfold State.applyFrame
  rw [writeTaken_address a data check beyond last ha, writeTaken_dataBytes a data check beyond last h2]
  rcases writeTaken_command a data check beyond last ha h2 with ⟨b, hb, hc⟩ | ⟨hb, hc⟩
  · rw [hb, hc]
    dsimp only
    by_cases h : b = 0
    · rw [if_pos h, if_pos (by rw [h]; rfl)]
    · rw [if_neg h, if_neg (show ¬ b.toNat = 0 from fun h' => h (BitVec.eq_of_toNat_eq h'))]
  · rw [hb, hc]
    rfl

/-- Bytes beyond the data check make the frame LONG (R180). -/
theorem frameStatus_of_long (s : State) (h2 : data.length ≤ 16) (hb : beyond ≠ 0) :
    s.frameStatus (writeTaken a data check beyond last) = .long := by
  have hshape : (writeTaken a data check beyond last).shapeFault = some .long := by
    rw [shapeFault_eq _ rfl rfl, writeTaken_length a data check beyond last h2]
    exact (if_neg (show ¬ 48 + 8 * data.length + beyond < 48 + 8 * data.length by omega)).trans
      (if_pos (show 48 + 8 * data.length < 48 + 8 * data.length + beyond by omega))
  unfold State.frameStatus
  rw [hshape]

/-- A frame of the right length is decided by the conditions 4 to 8 of R180. -/
theorem frameStatus_of_whole (s : State) (h2 : data.length ≤ 16) (hb : beyond = 0) :
    s.frameStatus (writeTaken a data check beyond last) = s.writeStatus (writeTaken a data check beyond last) := by
  have hshape : (writeTaken a data check beyond last).shapeFault = none := by
    rw [shapeFault_eq _ rfl rfl, writeTaken_length a data check beyond last h2]
    exact (if_neg (show ¬ 48 + 8 * data.length + beyond < 48 + 8 * data.length by omega)).trans
      (if_neg (show ¬ 48 + 8 * data.length < 48 + 8 * data.length + beyond by omega))
  unfold State.frameStatus
  rw [hshape]
  exact if_neg (by rw [not_reads_of_kind _ rfl]; decide)

end

/-- The levels that the second piece carries of a frame in which MDO is low. -/
theorem lowBits_of_append (xs ys : List Bool) (n : Nat) (h : xs ++ ys = lowBits n) :
    xs = lowBits xs.length ∧ ys = lowBits (n - xs.length) := by
  obtain ⟨hlen, hx, hy⟩ := List.append_eq_replicate_iff.mp h
  exact ⟨hx, hy.trans (congrArg lowBits (by omega))⟩

/-- Settles O51: the end of the frame, whole or in two pieces, is decided in the order of R180. -/
theorem writeFrameIsDecided : Obligations.WriteFrameIsDecided := by
  intro s a data more check extra pfw hd hf ha h1 h2 hm n four header command busy class_ beyond rest decided
  let taken := writeTaken a data check beyond s.link.lastFrame
  have hclass : ∀ c, taken.range.any (fun x => classAt x == some c) = true ↔ class_ c :=
    writeTaken_class a data check beyond s.link.lastFrame ha h2
  have hcheck : taken.dataCheckOk = decide (check = linkCheck data) :=
    writeTaken_check a data check beyond s.link.lastFrame h2
  have hbusy : (taken.namesBusyCommand && s.running) = true ↔ busy := by
    rw [Bool.and_eq_true, writeTaken_busy a data check beyond s.link.lastFrame ha h2, State.running, decide_eq_true_eq]
    exact and_comm
  have hdecided : ∀ outcome edges, outcome = .next (s.frameCloses taken (lowBits edges) pfw) →
      decided outcome edges := by
    rintro _ edges rfl
    have hends : ∀ st, st ≠ .ok → s.frameStatus taken = st → s.frameCloses taken (lowBits edges) pfw = { s with
        responses := [], mdo := lowBits edges, joined := 0
        link := ⟨.idle, 48 + 8 * n + beyond, header, none, none, [], st⟩
        flags := if st = .ok then s.flags else s.flags ||| 0x040#9 } := fun st hne hst =>
      frameCloses_ends s taken _ pfw st (.inr (.inr rfl)) (show 48 + 8 * n + beyond ≠ 0 by omega) hst (.inl hne)
    refine ⟨fun hb => congrArg _ (hends .long (by decide) (frameStatus_of_long a data check beyond _ s h2 hb)),
      fun hb hc => ?_, fun hb hc => ?_⟩
    all_goals have hst := frameStatus_of_whole a data check beyond s.link.lastFrame s h2 hb
    all_goals unfold State.writeStatus at hst
    · rw [hcheck, decide_eq_false hc] at hst
      exact congrArg _ (hends .dataCheck (by decide) hst)
    rw [hcheck, decide_eq_true hc] at hst
    refine ⟨fun hro => ?_, fun hro hcfg hctl => ?_, fun hro hcfg => ?_⟩
    · rw [(hclass .readOnly).mpr hro] at hst
      exact congrArg _ (hends .readOnly (by decide) hst)
    · rw [Bool.eq_false_iff.mpr (mt (hclass .readOnly).mp hro), (hclass .configuration).mpr hcfg,
        decide_eq_true hctl] at hst
      exact congrArg _ (hends .locked (by decide) hst)
    have hlocked : (taken.range.any (fun x => classAt x == some .configuration) &&
        decide (s.controller ≠ .config)) = false := by
      rcases hcfg with h | h
      · rw [Bool.eq_false_iff.mpr (mt (hclass .configuration).mp h), Bool.false_and]
      · rw [h, decide_eq_false (by simp), Bool.and_false]
    rw [Bool.eq_false_iff.mpr (mt (hclass .readOnly).mp hro), hlocked] at hst
    refine ⟨fun hb' => ?_, fun hb' => ?_⟩
    · rw [hbusy.mpr hb'] at hst
      exact congrArg _ (hends .commandBusy (by decide) hst)
    · rw [Bool.eq_false_iff.mpr (mt hbusy.mp hb')] at hst
      have happlied := (frameCloses_applied s taken (lowBits edges) pfw (.inr (.inr rfl))
        (show 48 + 8 * n + beyond ≠ 0 by omega) hst rfl).trans (applyFrame_write a data check beyond _ _ ha h2 pfw)
      exact ⟨fun h => congrArg _ (happlied.trans (if_pos h)), fun h => congrArg _ (happlied.trans (if_neg h))⟩
  obtain ⟨hlink, hmdo⟩ := atEnd_of_write s a data more check extra ha h1 h2 hm
  have hframe : writeKind :: rest = writeHeader a n ++ (data ++ [check] ++ more) := by
    simp only [rest, List.append_assoc]
    rfl
  refine ⟨hdecided _ _ ?_, fun front back k hrest hback => ?_⟩
  · refine (event_whole s hd hf (writeKind :: rest) extra pfw).trans (congrArg _ ?_)
    rw [hframe, hlink, hmdo]
  · obtain ⟨out, hout, hrow⟩ := event_second_piece s hd (writeKind :: front) back k extra pfw hback _ rfl
    have hwhole : writeKind :: front ++ back = writeKind :: rest := by rw [hrest]; rfl
    rw [hwhole, hframe, hmdo] at hout
    rw [hwhole, hframe, hlink] at hrow
    obtain ⟨hlen, -, -⟩ := edges_of_piece s (writeKind :: front) k
    obtain ⟨hfirst, hsecond⟩ := lowBits_of_append _ _ _ hout
    have hcount : rest.length = front.length + back.length := by rw [hrest, List.length_append]
    have htotal : rest.length = 5 + n + more.length := by
      simp [rest, header, four, n]
      omega
    refine ⟨_, event_first_piece s hd hf (writeKind :: front) k pfw, ?_, ?_, ?_⟩
    · exact congrArg (fun w => ({ s with
        responses := [], mdo := w, joined := 0, link := s.linkAtEnd (writeKind :: front) k } : State))
        (hfirst.trans (congrArg lowBits hlen))
    · exact (linkAtEnd_inFrame s (writeKind :: front) k).2
    · have hedges : 48 + 8 * n + (8 * more.length + extra.val) - (s.mdoOfFrame (writeKind :: front) k).length =
          8 * back.length + extra.val - k.val := by
        rw [hlen, List.length_cons]
        omega
      refine hdecided _ _ (hrow.trans (congrArg (fun w => Host.Outcome.next (s.frameCloses taken w pfw)) ?_))
      exact hsecond.trans (congrArg lowBits hedges)

end Sys2Proof.Machine
end

section
/-! The register window's map (R199, R201): where each field stands, and that the map holds nothing else. -/

namespace Sys2Proof.Machine

/-- The place of a region's field in its entry (R199). -/
def RegionField.offset : RegionField → Nat
  | .base => 0
  | .size => 4
  | .mode => 8
  | .enable => 9

/-- The place of a partition's field in its entry (R199). -/
def PartField.offset : PartField → Nat
  | .base => 0
  | .size => 4
  | .state => 6
  | .spans => 7
  | .headSlot => 8
  | .headLap => 12
  | .workingSlot => 16
  | .workingLap => 20
  | .durableSlot => 24
  | .durableLap => 28
  | .frontSlot => 32
  | .frontLap => 36
  | .occupancy => 40
  | .reserved => 44
  | .generation => 48
  | .epoch => 52

/-- The place of a group's field in its entry (R199). -/
def GroupField.offset : GroupField → Nat
  | .state => 0
  | .partition => 1
  | .cause => 2
  | .origin => 3
  | .sequence => 4
  | .claims => 8
  | .undo => 10
  | .age => 12

/-- The place of an incident's field in its entry (R201). -/
def IncidentField.offset : IncidentField → Nat
  | .kind => 0
  | .presence => 1
  | .tag => 2
  | .partition => 3
  | .stamp => 4
  | .sequence => 8
  | .line => 12
  | .detail => 20

/-- The address of a field's first byte (R199, R201). -/
def Field.start : Field → Nat
  | .controllerState => 0x000
  | .lastFrame => 0x001
  | .operand => 0x002
  | .command => 0x003
  | .outcome => 0x004
  | .reason => 0x005
  | .check => 0x006
  | .firstIndex => 0x007
  | .secondIndex => 0x008
  | .echo => 0x009
  | .operandEcho => 0x00A
  | .attentionCode => 0x00B
  | .flags => 0x00C
  | .mask => 0x00E
  | .tickCounter => 0x010
  | .tickDivider => 0x014
  | .occupancy => 0x016
  | .formatEpoch => 0x018
  | .claimLimit => 0x01C
  | .ageLimit => 0x01E
  | .arrayTimeout => 0x020
  | .tagMap t => 0x030 + t.val
  | .region r f => 0x040 + 16 * r.val + f.offset
  | .partition p f => 0x100 + 64 * p.val + f.offset
  | .group t f => 0x200 + 16 * t.val + f.offset
  | .incident i f => 0x300 + 32 * i + f.offset
  | .dropped => 0x400

/-- The window shows 8 incidents (R201). -/
def Field.inWindow : Field → Prop
  | .incident i _ => i < 8
  | _ => True

/-! ### The tables of the map -/

/-- The field found in a table is one of the table's. -/
theorem rowAt_mem (rows : List MapRow) (o : Nat) (f : Field) (k : Nat) (h : rowAt rows o = some (f, k)) :
    ∃ x ∈ rows, x.2 = f ∧ o = x.1 + k ∧ k < f.width := by
  obtain ⟨x, hx, same⟩ := Option.map_eq_some_iff.mp h
  have inside := List.find?_some hx
  simp only [Bool.and_eq_true, decide_eq_true_eq] at inside
  obtain ⟨rfl, rfl⟩ := Prod.mk.inj same
  exact ⟨x, List.mem_of_find?_eq_some hx, rfl, by omega, by omega⟩

/-- A place that some row of a list of places and widths covers. -/
def covered (l : List (Nat × Nat)) (o : Nat) : Bool :=
  l.any (fun y => decide (y.1 ≤ o) && decide (o < y.1 + y.2))

theorem rowAt_isSome (rows : List MapRow) (l : List (Nat × Nat)) (h : rows.map (fun x => (x.1, x.2.width)) = l) (o : Nat)
    (ho : covered l o = true) : (rowAt rows o).isSome = true := by
  subst h
  unfold rowAt
  rw [Option.isSome_map, List.find?_isSome]
  unfold covered at ho
  rw [List.any_map] at ho
  exact List.any_eq_true.mp ho

/-- A table in ascending order finds each byte of its fields. -/
theorem rowAt_row (rows : List MapRow) (h : rows.Pairwise (fun x y => x.1 + x.2.width ≤ y.1)) :
    ∀ x ∈ rows, ∀ k, k < x.2.width → rowAt rows (x.1 + k) = some (x.2, k) := by
  induction rows with
  | nil => exact fun x hx => absurd hx List.not_mem_nil
  | cons y rows ih =>
    intro x hx k hk
    obtain ⟨first, rest⟩ := List.pairwise_cons.mp h
    unfold rowAt at ih ⊢
    rw [List.find?_cons]
    obtain rfl | hx := List.mem_cons.mp hx
    · rw [show (decide (x.1 ≤ x.1 + k) && decide (x.1 + k < x.1 + x.2.width)) = true by simp [hk]]
      simp
    · rw [show (decide (y.1 ≤ x.1 + k) && decide (x.1 + k < y.1 + y.2.width)) = false by
        have := first x hx
        simp
        omega]
      exact ih rest x hx k hk

theorem fieldAt_single (a : Nat) (h : a < 0x030 ∨ 0x400 ≤ a) : fieldAt a = rowAt singleRows a := by
  unfold fieldAt
  obtain low | high := h
  · rw [if_pos low]
  · rw [if_neg (by omega), dif_neg (by omega), if_neg (by omega), dif_neg (by omega), if_neg (by omega),
      dif_neg (by omega), dif_neg (by omega), if_neg (by omega), if_neg (by omega)]

theorem fieldAt_tagMap (t : Tag) : fieldAt (0x030 + t.val) = some (.tagMap t, 0) := by
  have ht := t.isLt
  unfold fieldAt
  rw [if_neg (by omega), dif_pos (by omega)]
  simp only [Nat.add_sub_cancel_left]

/-- The bytes of a region's entry. -/
theorem fieldAt_region (r : RegionId) (o : Nat) (ho : o < 16) :
    fieldAt (0x040 + 16 * r.val + o) = rowAt (regionRows r) o := by
  have hr := r.isLt
  have entry : (0x040 + 16 * r.val + o - 0x040) / 16 = r.val := by omega
  have place : (0x040 + 16 * r.val + o - 0x040) % 16 = o := by omega
  unfold fieldAt
  rw [if_neg (by omega), dif_neg (by omega), if_neg (by omega), dif_pos (by omega), place]
  simp only [entry]

/-- The bytes of a partition's entry. -/
theorem fieldAt_partition (p : PartId) (o : Nat) (ho : o < 64) :
    fieldAt (0x100 + 64 * p.val + o) = rowAt (partitionRows p) o := by
  have hp := p.isLt
  have entry : (0x100 + 64 * p.val + o - 0x100) / 64 = p.val := by omega
  have place : (0x100 + 64 * p.val + o - 0x100) % 64 = o := by omega
  unfold fieldAt
  rw [if_neg (by omega), dif_neg (by omega), if_neg (by omega), dif_neg (by omega), if_neg (by omega),
    dif_pos (by omega), place]
  simp only [entry]

/-- The bytes of a group's entry. -/
theorem fieldAt_group (t : Tag) (o : Nat) (ho : o < 16) :
    fieldAt (0x200 + 16 * t.val + o) = rowAt (groupRows t) o := by
  have ht := t.isLt
  have entry : (0x200 + 16 * t.val + o - 0x200) / 16 = t.val := by omega
  have place : (0x200 + 16 * t.val + o - 0x200) % 16 = o := by omega
  unfold fieldAt
  rw [if_neg (by omega), dif_neg (by omega), if_neg (by omega), dif_neg (by omega), if_neg (by omega),
    dif_neg (by omega), dif_pos (by omega), place]
  simp only [entry]

/-- The bytes of an incident's entry. -/
theorem fieldAt_incident (i o : Nat) (hi : i < 8) (ho : o < 32) :
    fieldAt (0x300 + 32 * i + o) = rowAt (incidentRows i) o := by
  have entry : (0x300 + 32 * i + o - 0x300) / 32 = i := by omega
  have place : (0x300 + 32 * i + o - 0x300) % 32 = o := by omega
  unfold fieldAt
  rw [if_neg (by omega), dif_neg (by omega), if_neg (by omega), dif_neg (by omega), if_neg (by omega),
    dif_neg (by omega), dif_neg (by omega), if_neg (by omega), if_pos (by omega), entry, place]

/-- Between the tables nothing is mapped. -/
theorem fieldAt_between (a : Nat) (h : a = 0x03F ∨ 0x0C0 ≤ a ∧ a < 0x100 ∨ 0x2F0 ≤ a ∧ a < 0x300) :
    fieldAt a = none := by
  unfold fieldAt
  rw [if_neg (by omega), dif_neg (by omega)]
  obtain rfl | mid | high := h
  · rfl
  · rw [if_neg (by omega), dif_neg (by omega), if_pos (by omega)]
  · rw [if_neg (by omega), dif_neg (by omega), if_neg (by omega), dif_neg (by omega), dif_neg (by omega),
      if_pos (by omega)]

/-- Where an address lies: among the single fields, in the tag map, in a table's entry, or between the tables. -/
theorem address_cases (a : Nat) : (a < 0x030 ∨ 0x400 ≤ a) ∨ (∃ t : Tag, a = 0x030 + t.val) ∨
    (∃ (r : RegionId) (o : Nat), o < 16 ∧ a = 0x040 + 16 * r.val + o) ∨
    (∃ (p : PartId) (o : Nat), o < 64 ∧ a = 0x100 + 64 * p.val + o) ∨
    (∃ (t : Tag) (o : Nat), o < 16 ∧ a = 0x200 + 16 * t.val + o) ∨
    (∃ i o, i < 8 ∧ o < 32 ∧ a = 0x300 + 32 * i + o) ∨
    (a = 0x03F ∨ 0x0C0 ≤ a ∧ a < 0x100 ∨ 0x2F0 ≤ a ∧ a < 0x300) := by
  by_cases h1 : a < 0x030 ∨ 0x400 ≤ a
  · exact .inl h1
  by_cases h2 : a < 0x03F
  · exact .inr (.inl ⟨⟨a - 0x030, by omega⟩, by dsimp only; omega⟩)
  by_cases h3 : 0x040 ≤ a ∧ a < 0x0C0
  · exact .inr (.inr (.inl ⟨⟨(a - 0x040) / 16, by omega⟩, (a - 0x040) % 16, by omega, by dsimp only; omega⟩))
  by_cases h4 : 0x100 ≤ a ∧ a < 0x200
  · exact .inr (.inr (.inr (.inl ⟨⟨(a - 0x100) / 64, by omega⟩, (a - 0x100) % 64, by omega, by dsimp only; omega⟩)))
  by_cases h5 : 0x200 ≤ a ∧ a < 0x2F0
  · exact .inr (.inr (.inr (.inr (.inl
      ⟨⟨(a - 0x200) / 16, by omega⟩, (a - 0x200) % 16, by omega, by dsimp only; omega⟩))))
  by_cases h6 : 0x300 ≤ a ∧ a < 0x400
  · exact .inr (.inr (.inr (.inr (.inr (.inl
      ⟨(a - 0x300) / 32, (a - 0x300) % 32, by omega, by omega, by omega⟩)))))
  · omega

/-! ### The map and the places of the fields -/

/-- The places and widths of each table's rows (R199, R201). -/
def singlePlaces : List (Nat × Nat) :=
  [(0x000, 1), (0x001, 1), (0x002, 1), (0x003, 1), (0x004, 1), (0x005, 1), (0x006, 1), (0x007, 1), (0x008, 1),
    (0x009, 1), (0x00A, 1), (0x00B, 1), (0x00C, 2), (0x00E, 2), (0x010, 4), (0x014, 2), (0x016, 2), (0x018, 4),
    (0x01C, 2), (0x01E, 2), (0x020, 1), (0x400, 1)]

def regionPlaces : List (Nat × Nat) :=
  [(0, 4), (4, 4), (8, 1), (9, 1)]

def partitionPlaces : List (Nat × Nat) :=
  [(0, 4), (4, 2), (6, 1), (7, 1), (8, 4), (12, 4), (16, 4), (20, 4), (24, 4), (28, 4), (32, 4), (36, 4), (40, 4),
    (44, 1), (48, 4), (52, 4)]

def groupPlaces : List (Nat × Nat) :=
  [(0, 1), (1, 1), (2, 1), (3, 1), (4, 4), (8, 2), (10, 2), (12, 2)]

def incidentPlaces : List (Nat × Nat) :=
  [(0, 1), (1, 1), (2, 1), (3, 1), (4, 4), (8, 4), (12, 8), (20, 4)]

/-- The rows of each table stand in ascending order, at the places of their fields. -/
theorem singleRows_start : singleRows.Pairwise (fun x y => x.1 + x.2.width ≤ y.1) ∧
    ∀ x ∈ singleRows, x.2.start = x.1 := by
  decide

theorem ascending_of_places (rows : List MapRow) (l : List (Nat × Nat))
    (h : rows.map (fun x => (x.1, x.2.width)) = l) (hl : l.Pairwise (fun x y => x.1 + x.2 ≤ y.1)) :
    rows.Pairwise (fun x y => x.1 + x.2.width ≤ y.1) := by
  rw [← h] at hl
  exact List.pairwise_map.mp hl

theorem regionRows_start (r : RegionId) : (regionRows r).Pairwise (fun x y => x.1 + x.2.width ≤ y.1) ∧
    ∀ x ∈ regionRows r, x.2.start = 0x040 + 16 * r.val + x.1 ∧ x.1 + x.2.width ≤ 16 := by
  refine ⟨ascending_of_places _ regionPlaces rfl (by decide), fun x hx => ?_⟩
  simp only [regionRows, List.mem_cons, List.not_mem_nil, or_false] at hx
  rcases hx with rfl | rfl | rfl | rfl <;>
    exact ⟨rfl, Nat.le_of_ble_eq_true rfl⟩

theorem partitionRows_start (p : PartId) : (partitionRows p).Pairwise (fun x y => x.1 + x.2.width ≤ y.1) ∧
    ∀ x ∈ partitionRows p, x.2.start = 0x100 + 64 * p.val + x.1 ∧ x.1 + x.2.width ≤ 64 := by
  refine ⟨ascending_of_places _ partitionPlaces rfl (by decide), fun x hx => ?_⟩
  simp only [partitionRows, List.mem_cons, List.not_mem_nil, or_false] at hx
  rcases hx with rfl | rfl | rfl | rfl | rfl | rfl | rfl | rfl |
    rfl | rfl | rfl | rfl | rfl | rfl | rfl | rfl <;>
    exact ⟨rfl, Nat.le_of_ble_eq_true rfl⟩

theorem groupRows_start (t : Tag) : (groupRows t).Pairwise (fun x y => x.1 + x.2.width ≤ y.1) ∧
    ∀ x ∈ groupRows t, x.2.start = 0x200 + 16 * t.val + x.1 ∧ x.1 + x.2.width ≤ 16 := by
  refine ⟨ascending_of_places _ groupPlaces rfl (by decide), fun x hx => ?_⟩
  simp only [groupRows, List.mem_cons, List.not_mem_nil, or_false] at hx
  rcases hx with rfl | rfl | rfl | rfl | rfl | rfl | rfl | rfl <;>
    exact ⟨rfl, Nat.le_of_ble_eq_true rfl⟩

theorem incidentRows_start (i : Nat) : (incidentRows i).Pairwise (fun x y => x.1 + x.2.width ≤ y.1) ∧
    ∀ x ∈ incidentRows i, x.2.start = 0x300 + 32 * i + x.1 ∧ x.1 + x.2.width ≤ 32 := by
  refine ⟨ascending_of_places _ incidentPlaces rfl (by decide), fun x hx => ?_⟩
  simp only [incidentRows, List.mem_cons, List.not_mem_nil, or_false] at hx
  rcases hx with rfl | rfl | rfl | rfl | rfl | rfl | rfl | rfl <;>
    exact ⟨rfl, Nat.le_of_ble_eq_true rfl⟩

/-- A single field's bytes. -/
theorem fieldAt_row_single (f : Field) (hf : (f.start, f) ∈ singleRows) (k : Nat) (hk : k < f.width) :
    fieldAt (f.start + k) = some (f, k) := by
  have ends : ∀ x ∈ singleRows, x.1 + x.2.width ≤ 0x030 ∨ 0x400 ≤ x.1 := by decide
  have := ends _ hf
  rw [fieldAt_single _ (by dsimp only at this; omega)]
  exact rowAt_row _ singleRows_start.1 _ hf k hk

/-- The map finds each byte of a field (R199, R201). -/
theorem fieldAt_start (f : Field) (hf : f.inWindow) : ∀ k, k < f.width → fieldAt (f.start + k) = some (f, k) := by
  intro k hk
  cases f with
  | tagMap t =>
    obtain rfl : k = 0 := Nat.lt_one_iff.mp hk
    exact fieldAt_tagMap t
  | region r x =>
    have hx : (x.offset, Field.region r x) ∈ regionRows r := by cases x <;> simp [regionRows, RegionField.offset]
    have := ((regionRows_start r).2 _ hx).2
    exact (congrArg fieldAt (Nat.add_assoc _ _ k)).trans
      ((fieldAt_region r _ (by dsimp only at this; omega)).trans (rowAt_row _ (regionRows_start r).1 _ hx k hk))
  | partition p x =>
    have hx : (x.offset, Field.partition p x) ∈ partitionRows p := by
      cases x <;> simp [partitionRows, PartField.offset]
    have := ((partitionRows_start p).2 _ hx).2
    exact (congrArg fieldAt (Nat.add_assoc _ _ k)).trans
      ((fieldAt_partition p _ (by dsimp only at this; omega)).trans (rowAt_row _ (partitionRows_start p).1 _ hx k hk))
  | group t x =>
    have hx : (x.offset, Field.group t x) ∈ groupRows t := by cases x <;> simp [groupRows, GroupField.offset]
    have := ((groupRows_start t).2 _ hx).2
    exact (congrArg fieldAt (Nat.add_assoc _ _ k)).trans
      ((fieldAt_group t _ (by dsimp only at this; omega)).trans (rowAt_row _ (groupRows_start t).1 _ hx k hk))
  | incident i x =>
    have hx : (x.offset, Field.incident i x) ∈ incidentRows i := by
      cases x <;> simp [incidentRows, IncidentField.offset]
    have := ((incidentRows_start i).2 _ hx).2
    exact (congrArg fieldAt (Nat.add_assoc _ _ k)).trans
      ((fieldAt_incident i _ hf (by dsimp only at this; omega)).trans (rowAt_row _ (incidentRows_start i).1 _ hx k hk))
  | _ => exact fieldAt_row_single _ (by decide) k hk

/-! ### The access classes, byte by byte -/

/-- The bytes of each access class (R179). -/
def AccessClass.holds (a : Nat) : AccessClass → Bool
  | .control => decide (a = 0x002 ∨ a = 0x003 ∨ a = 0x00E ∨ a = 0x00F)
  | .clear => decide (a = 0x00C ∨ a = 0x00D)
  | .configuration => decide (a = 0x014 ∨ a = 0x015 ∨ 0x018 ≤ a ∧ a ≤ 0x020 ∨ 0x030 ≤ a ∧ a ≤ 0x03E ∨
      0x040 ≤ a ∧ a ≤ 0x0BF ∧ a % 16 < 10 ∨ 0x100 ≤ a ∧ a ≤ 0x1FF ∧ a % 64 < 6)
  | .readOnly => decide (a ≤ 0x001 ∨ 0x004 ≤ a ∧ a ≤ 0x00B ∨ 0x010 ≤ a ∧ a ≤ 0x013 ∨ a = 0x016 ∨ a = 0x017 ∨
      0x100 ≤ a ∧ a ≤ 0x1FF ∧ (6 ≤ a % 64 ∧ a % 64 < 45 ∨ 48 ≤ a % 64 ∧ a % 64 < 56) ∨
      0x200 ≤ a ∧ a ≤ 0x2EF ∧ a % 16 < 14 ∨ 0x300 ≤ a ∧ a ≤ 0x3FF ∧ a % 32 < 24 ∨ a = 0x400)

/-- The mapped bytes: those of some class. -/
def mapShown (a : Nat) : Bool :=
  AccessClass.holds a .control || AccessClass.holds a .clear || AccessClass.holds a .configuration ||
    AccessClass.holds a .readOnly

/-- A byte that the map finds in a field lies in that field, at the place the map names. -/
theorem fieldAt_place (a : Nat) (f : Field) (k : Nat) (h : fieldAt a = some (f, k)) :
    f.inWindow ∧ a = f.start + k ∧ k < f.width := by
  obtain single | ⟨t, rfl⟩ | ⟨r, o, ho, rfl⟩ | ⟨p, o, ho, rfl⟩ | ⟨t, o, ho, rfl⟩ | ⟨i, o, hi, ho, rfl⟩ | between :=
    address_cases a
  · rw [fieldAt_single a single] at h
    obtain ⟨x, hx, rfl, rfl, hk⟩ := rowAt_mem _ a f k h
    have shown_ : ∀ x ∈ singleRows, x.2.inWindow := by
      intro x hx
      simp only [singleRows, List.mem_cons, List.not_mem_nil, or_false] at hx
      rcases hx with rfl | rfl | rfl | rfl | rfl | rfl | rfl | rfl | rfl | rfl | rfl | rfl | rfl | rfl | rfl | rfl |
        rfl | rfl | rfl | rfl | rfl | rfl <;> trivial
    exact ⟨shown_ x hx, by rw [singleRows_start.2 x hx], hk⟩
  · rw [fieldAt_tagMap] at h
    obtain ⟨rfl, rfl⟩ := Prod.mk.inj (Option.some.inj h)
    exact ⟨trivial, rfl, Nat.one_pos⟩
  · rw [fieldAt_region r o ho] at h
    obtain ⟨x, hx, rfl, rfl, hk⟩ := rowAt_mem _ o f k h
    refine ⟨?_, by rw [((regionRows_start r).2 x hx).1]; omega, hk⟩
    simp only [regionRows, List.mem_cons, List.not_mem_nil, or_false] at hx
    rcases hx with rfl | rfl | rfl | rfl <;> trivial
  · rw [fieldAt_partition p o ho] at h
    obtain ⟨x, hx, rfl, rfl, hk⟩ := rowAt_mem _ o f k h
    refine ⟨?_, by rw [((partitionRows_start p).2 x hx).1]; omega, hk⟩
    simp only [partitionRows, List.mem_cons, List.not_mem_nil, or_false] at hx
    rcases hx with rfl | rfl | rfl | rfl | rfl | rfl | rfl | rfl | rfl | rfl | rfl | rfl | rfl | rfl | rfl | rfl <;>
      trivial
  · rw [fieldAt_group t o ho] at h
    obtain ⟨x, hx, rfl, rfl, hk⟩ := rowAt_mem _ o f k h
    refine ⟨?_, by rw [((groupRows_start t).2 x hx).1]; omega, hk⟩
    simp only [groupRows, List.mem_cons, List.not_mem_nil, or_false] at hx
    rcases hx with rfl | rfl | rfl | rfl | rfl | rfl | rfl | rfl <;> trivial
  · rw [fieldAt_incident i o hi ho] at h
    obtain ⟨x, hx, rfl, rfl, hk⟩ := rowAt_mem _ o f k h
    refine ⟨?_, by rw [((incidentRows_start i).2 x hx).1]; omega, hk⟩
    simp only [incidentRows, List.mem_cons, List.not_mem_nil, or_false] at hx
    rcases hx with rfl | rfl | rfl | rfl | rfl | rfl | rfl | rfl <;> exact hi
  · rw [fieldAt_between a between] at h
    cases h

theorem holds_of_region (a : Nat) (h : 0x040 ≤ a ∧ a ≤ 0x0BF ∧ a % 16 < 10) :
    AccessClass.holds a .configuration = true :=
  decide_eq_true (.inr (.inr (.inr (.inr (.inl h)))))

theorem holds_of_geometry (a : Nat) (h : 0x100 ≤ a ∧ a ≤ 0x1FF ∧ a % 64 < 6) :
    AccessClass.holds a .configuration = true :=
  decide_eq_true (.inr (.inr (.inr (.inr (.inr h)))))

theorem holds_of_partition (a : Nat)
    (h : 0x100 ≤ a ∧ a ≤ 0x1FF ∧ (6 ≤ a % 64 ∧ a % 64 < 45 ∨ 48 ≤ a % 64 ∧ a % 64 < 56)) :
    AccessClass.holds a .readOnly = true :=
  decide_eq_true (.inr (.inr (.inr (.inr (.inr (.inl h))))))

theorem holds_of_group (a : Nat) (h : 0x200 ≤ a ∧ a ≤ 0x2EF ∧ a % 16 < 14) : AccessClass.holds a .readOnly = true :=
  decide_eq_true (.inr (.inr (.inr (.inr (.inr (.inr (.inl h)))))))

theorem holds_of_incident (a : Nat) (h : 0x300 ≤ a ∧ a ≤ 0x3FF ∧ a % 32 < 24) : AccessClass.holds a .readOnly = true :=
  decide_eq_true (.inr (.inr (.inr (.inr (.inr (.inr (.inr (.inl h))))))))

/-- A partition's fields stand behind its geometry, outside its three unmapped bytes (R199). -/
theorem PartField.place (x : PartField) (p : PartId) (hb : x ≠ .base) (hs : x ≠ .size) :
    (Field.partition p x).accessClass = .readOnly ∧
      (6 ≤ x.offset ∧ x.offset + (Field.partition p x).width ≤ 45 ∨
        48 ≤ x.offset ∧ x.offset + (Field.partition p x).width ≤ 56) := by
  cases x
  case base => exact absurd rfl hb
  case size => exact absurd rfl hs
  case generation | epoch => exact ⟨rfl, .inr ⟨Nat.le_of_ble_eq_true rfl, Nat.le_of_ble_eq_true rfl⟩⟩
  all_goals exact ⟨rfl, .inl ⟨Nat.le_of_ble_eq_true rfl, Nat.le_of_ble_eq_true rfl⟩⟩

/-- The bytes of a field are of its class (R179). -/
theorem Field.class_holds (f : Field) (hf : f.inWindow) (k : Nat) (hk : k < f.width) :
    f.accessClass.holds (f.start + k) = true := by
  cases f with
  | tagMap t =>
    have ht := t.isLt
    obtain rfl : k = 0 := Nat.lt_one_iff.mp hk
    exact decide_eq_true (.inr (.inr (.inr (.inl
      ⟨Nat.le_add_right 0x030 _, by simp only [Field.start]; omega⟩))))
  | region r x =>
    have hr := r.isLt
    have inside : x.offset + (Field.region r x).width ≤ 10 := by cases x <;> exact Nat.le_of_ble_eq_true rfl
    exact holds_of_region _ (by simp only [Field.start]; omega)
  | partition p x =>
    have hp := p.isLt
    by_cases hb : x = .base
    · subst hb
      have hk : k < 4 := hk
      exact holds_of_geometry _ (by simp only [Field.start, PartField.offset]; omega)
    by_cases hs : x = .size
    · subst hs
      have hk : k < 2 := hk
      exact holds_of_geometry _ (by simp only [Field.start, PartField.offset]; omega)
    obtain ⟨class_, place⟩ := x.place p hb hs
    rw [class_]
    exact holds_of_partition _ (by simp only [Field.start]; omega)
  | group t x =>
    have ht := t.isLt
    have inside : x.offset + (Field.group t x).width ≤ 14 := by cases x <;> exact Nat.le_of_ble_eq_true rfl
    exact holds_of_group _ (by simp only [Field.start]; omega)
  | incident i x =>
    have hi : i < 8 := hf
    have inside : x.offset + (Field.incident i x).width ≤ 24 := by cases x <;> exact Nat.le_of_ble_eq_true rfl
    exact holds_of_incident _ (by simp only [Field.start]; omega)
  | _ =>
    clear hf
    revert k
    decide

/-- The bytes that the rows cover. -/
theorem singlePlaces_cover : (∀ a < 0x021, covered singlePlaces a = true) ∧ covered singlePlaces 0x400 = true := by
  decide

theorem regionPlaces_cover : ∀ o < 10, covered regionPlaces o = true := by
  decide

theorem partitionPlaces_cover : (∀ o < 45, covered partitionPlaces o = true) ∧
    ∀ o < 8, covered partitionPlaces (48 + o) = true := by
  decide

theorem groupPlaces_cover : ∀ o < 14, covered groupPlaces o = true := by
  decide

theorem incidentPlaces_cover : ∀ o < 24, covered incidentPlaces o = true := by
  decide

/-- A byte of a class lies in a field. -/
theorem fieldAt_of_shown (a : Nat) (h : mapShown a = true) : (fieldAt a).isSome = true := by
  simp only [mapShown, AccessClass.holds, Bool.or_eq_true, decide_eq_true_eq] at h
  obtain single | ⟨t, rfl⟩ | ⟨r, o, ho, rfl⟩ | ⟨p, o, ho, rfl⟩ | ⟨t, o, ho, rfl⟩ | ⟨i, o, hi, ho, rfl⟩ | between :=
    address_cases a
  · rw [fieldAt_single a single]
    refine rowAt_isSome _ singlePlaces rfl a ?_
    obtain low | rfl : a < 0x021 ∨ a = 0x400 := by omega
    · exact singlePlaces_cover.1 a low
    · exact singlePlaces_cover.2
  · rw [fieldAt_tagMap]
    rfl
  · rw [fieldAt_region r o ho]
    have hr := r.isLt
    exact rowAt_isSome _ regionPlaces rfl o (regionPlaces_cover o (by omega))
  · rw [fieldAt_partition p o ho]
    have hp := p.isLt
    refine rowAt_isSome _ partitionPlaces rfl o ?_
    obtain low | ⟨x, hx, rfl⟩ : o < 45 ∨ ∃ x < 8, o = 48 + x := by
      by_cases low : o < 45
      · exact .inl low
      · exact .inr ⟨o - 48, by omega, by omega⟩
    · exact partitionPlaces_cover.1 o low
    · exact partitionPlaces_cover.2 x hx
  · rw [fieldAt_group t o ho]
    have ht := t.isLt
    exact rowAt_isSome _ groupPlaces rfl o (groupPlaces_cover o (by omega))
  · rw [fieldAt_incident i o hi ho]
    exact rowAt_isSome _ incidentPlaces rfl o (incidentPlaces_cover o (by omega))
  · omega

/-- A byte lies in a field where it is of some class, and nowhere else. -/
theorem fieldAt_isSome (a : Nat) : (fieldAt a).isSome = mapShown a := by
  rw [Bool.eq_iff_iff]
  refine ⟨fun h => ?_, fieldAt_of_shown a⟩
  obtain ⟨x, hx⟩ := Option.isSome_iff_exists.mp h
  obtain ⟨hf, rfl, hk⟩ := fieldAt_place a x.1 x.2 hx
  have class_ := x.1.class_holds hf x.2 hk
  unfold mapShown
  cases hc : x.1.accessClass <;> rw [hc] at class_ <;> simp [class_]

/-- The four classes have no byte in common. -/
theorem AccessClass.holds_one (a : Nat) (c d : AccessClass) (hc : c.holds a = true) (hd : d.holds a = true) : c = d := by
  cases c <;> cases d <;> simp only [AccessClass.holds, decide_eq_true_eq, reduceCtorEq] at hc hd ⊢ <;> omega

/-- The class of a byte. -/
theorem classAt_iff (a : Nat) (c : AccessClass) : classAt a = some c ↔ c.holds a = true := by
  constructor
  · intro h
    obtain ⟨x, hx, rfl⟩ := Option.map_eq_some_iff.mp h
    obtain ⟨hf, rfl, hk⟩ := fieldAt_place a x.1 x.2 hx
    exact x.1.class_holds hf x.2 hk
  · intro h
    have shown_ : (fieldAt a).isSome = true := by
      rw [fieldAt_isSome a]
      unfold mapShown
      cases c <;> simp [h]
    obtain ⟨x, hx⟩ := Option.isSome_iff_exists.mp shown_
    unfold classAt
    rw [hx]
    obtain ⟨hf, rfl, hk⟩ := fieldAt_place a x.1 x.2 hx
    exact congrArg some (AccessClass.holds_one _ _ _ (x.1.class_holds hf x.2 hk) h)

/-- The bytes of each field of the window, by what it reads. -/
theorem reads_field (s : State) (f : Field) (hf : f.inWindow) (v : Nat) (hv : s.readField f = v) :
    ∀ k, k < f.width → s.windowByte (f.start + k) = BitVec.ofNat 8 (v / 256 ^ k) := by
  intro k hk
  rw [windowByte_of_field s _ f k (fieldAt_start f hf k hk), hv]
  rfl

/-- A byte that reads nothing reads 0 as any byte of the value 0. -/
theorem windowByte_unmapped (s : State) (a : Nat) (h : fieldAt a = none) : s.windowByte a = 0 := by
  unfold State.windowByte
  rw [h]

end Sys2Proof.Machine
end

section
/-! O50: what every byte of the register window reads. -/

namespace Sys2Proof.Machine

/-- The attention code is 0 where no cause is both pending and enabled (R189). -/
theorem attnCode_of_none (s : State) (h : s.flags &&& s.mask = 0) : s.attnCode = 0 := by
  unfold State.attnCode State.attention
  rw [h]
  rfl

/-- The attention code is the lowest priority number both pending and enabled (R189). -/
theorem attnCode_of_lowest (s : State) (i : Nat) (hi : i < 9) (hset : (s.flags &&& s.mask).getLsbD i = true)
    (hlow : ∀ j, j < i → (s.flags &&& s.mask).getLsbD j = false) : s.attnCode = i + 1 := by
  have found : (List.range 9).find? (fun i => s.attention.getLsbD i) = some i :=
    List.find?_range_eq_some.mpr ⟨hset, List.mem_range.mpr hi, fun j hj => by simp [State.attention, hlow j hj]⟩
  unfold State.attnCode
  rw [found]

/-- A presence bit, by whether the field is absent. -/
theorem presenceBit_eq {α : Type} (bit : Nat) (x : Option α) [Decidable (x = none)] :
    presenceBit bit x = if x = none then 0 else 2 ^ bit := by
  unfold presenceBit
  cases x <;> simp

/-- A byte none of whose fields reads anything reads 0 (R47, R190). -/
theorem windowByte_of_zero (s : State) (a : Nat) (h : ∀ f k, fieldAt a = some (f, k) → s.readField f = 0) :
    s.windowByte a = 0 := by
  cases hf : fieldAt a with
  | none => exact windowByte_unmapped s a hf
  | some x => rw [windowByte_of_field s a x.1 x.2 hf, h x.1 x.2 hf, byteOf_zero]

/-- A partition in OFF reads 0 in every byte past its geometry (R47). -/
theorem reads_off (s : State) (p : PartId) (hoff : (s.part p).state = .off) (k : Nat) (hk : k < 58) :
    s.windowByte (0x100 + 64 * p.val + 6 + k) = 0 := by
  refine windowByte_of_zero s _ fun f j h => ?_
  obtain ⟨_, place, inside⟩ := fieldAt_place _ f j h
  rw [show 0x100 + 64 * p.val + 6 + k = 0x100 + 64 * p.val + (6 + k) by omega,
    fieldAt_partition p (6 + k) (by omega)] at h
  obtain ⟨x, hx, rfl, _⟩ := rowAt_mem _ _ f j h
  simp only [partitionRows, List.mem_cons, List.not_mem_nil, or_false] at hx
  rcases hx with rfl | rfl | rfl | rfl | rfl | rfl | rfl | rfl | rfl | rfl | rfl | rfl | rfl | rfl | rfl | rfl
  case inl | inr.inl =>
    simp only [Field.start, PartField.offset, Field.width] at place inside
    omega
  all_goals exact if_pos hoff

/-- An incident index past the list's end reads 0 in every byte (R190). -/
theorem reads_past_incidents (s : State) (i : Nat) (hpast : s.incidents.length ≤ i) (hi : i < 8) (k : Nat)
    (hk : k < 32) : s.windowByte (0x300 + 32 * i + k) = 0 := by
  refine windowByte_of_zero s _ fun f j h => ?_
  rw [fieldAt_incident i k hi hk] at h
  obtain ⟨x, hx, rfl, _⟩ := rowAt_mem _ _ f j h
  have absent : ∀ y, s.readField (.incident i y) = 0 := fun y => by
    show (match s.incidents[i]? with | some x => x.read y | none => 0) = 0
    rw [List.getElem?_eq_none hpast]
  simp only [incidentRows, List.mem_cons, List.not_mem_nil, or_false] at hx
  rcases hx with rfl | rfl | rfl | rfl | rfl | rfl | rfl | rfl <;> exact absent _

/-- A run-state field of a partition that is not in OFF (R47, R199). -/
theorem readPartition_of_on (s : State) (p : PartId) (f : PartField) (hb : f ≠ .base) (hs : f ≠ .size)
    (hon : (s.part p).state ≠ .off) : s.readField (.partition p f) = (s.part p).read (s.capacity p) f := by
  cases f
  case base => exact absurd rfl hb
  case size => exact absurd rfl hs
  all_goals exact if_neg hon

/-- A field of an incident of the list (R190, R201). -/
theorem readIncident (s : State) (i : Nat) (x : Incident) (f : IncidentField) (h : s.incidents[i]? = some x) :
    s.readField (.incident i f) = x.read f := by
  show (match s.incidents[i]? with | some x => x.read f | none => 0) = _
  rw [h]

/-- The bytes of a width read a value, least significant byte first (R194). -/
def State.reads (s : State) (first width value : Nat) : Prop :=
  ∀ k, k < width → s.windowByte (first + k) = BitVec.ofNat 8 (value / 256 ^ k)

/-- The command's reason reads as its code (R200). -/
theorem reads_reason (s : State) : s.reads 0x005 1 (match s.cmdStatus.reason with
    | none => 0 | some .unknown => 1 | some .shutdown => 2 | some .state => 3 | some .operand => 4
    | some .configInvalid => 5 | some .noPartition => 6 | some .partitionOverlap => 7 | some .regionOverlap => 8
    | some .partitionFault => 9 | some .headerInvalid => 10 | some .geometry => 11
    | some .journalInconsistent => 12 | some .arrayError => 13 | some .restore => 14) := by
  refine reads_field s .reason trivial _ ?_
  show (s.cmdStatus.reason.map Reason.code).getD 0 = _
  cases s.cmdStatus.reason with
  | none => rfl
  | some r => cases r <;> rfl

/-- The command's echo reads as its code (R200). -/
theorem reads_echo (s : State) : s.reads 0x009 1 (match s.cmdStatus.echo with
    | none => 0 | some .start => 1 | some .format => 2 | some .quiesce => 3 | some .resume => 4 | some .stop => 5
    | some .forceUnwind => 6 | some .retryUnwind => 7 | some .clearIncidents => 8 | some .softReset => 9) := by
  refine reads_field s .echo trivial _ ?_
  show (s.cmdStatus.echo.map Command.code).getD 0 = _
  cases s.cmdStatus.echo with
  | none => rfl
  | some c => cases c <;> rfl

/-- The configuration check reads as its code (R200). -/
theorem reads_check (s : State) : s.reads 0x006 1 (match s.cmdStatus.check with
    | none => 0 | some .partitionOverlap => 1 | some .regionOverlap => 2) := by
  refine reads_field s .check trivial _ ?_
  show (s.cmdStatus.check.map OverlapCheck.code).getD 0 = _
  cases s.cmdStatus.check with
  | none => rfl
  | some c => cases c <;> rfl

/-- A region's entry (R199). -/
theorem reads_region (s : State) (r : RegionId) :
    let x := s.regions[r]
    let entry := 0x040 + 16 * r.val
    s.reads entry 4 x.base.toNat ∧ s.reads (entry + 4) 4 x.size.toNat ∧
      s.reads (entry + 8) 1 (if x.mode = .shared then 1 else 0) ∧
      s.reads (entry + 9) 1 (if x.enabled then 1 else 0) := by
  refine ⟨reads_field s (.region r .base) trivial _ rfl, reads_field s (.region r .size) trivial _ rfl,
    reads_field s (.region r .mode) trivial _ ?_, reads_field s (.region r .enable) trivial _ ?_⟩
  · show (s.regions[r]).mode.code = _
    cases (s.regions[r]).mode <;> rfl
  · show (s.regions[r]).enabled.toNat = _
    cases (s.regions[r]).enabled <;> rfl

/-- A partition's entry: its geometry, and its run state, which reads 0 in OFF (R47, R199). -/
theorem reads_partition (s : State) (p : PartId) :
    let x := s.part p
    let entry := 0x100 + 64 * p.val
    s.reads entry 4 (s.geometry[p]).base.toNat ∧ s.reads (entry + 4) 2 (s.geometry[p]).size.toNat ∧
    (x.state = .off → s.reads (entry + 6) 58 0) ∧
    (x.state ≠ .off →
      s.reads (entry + 6) 1 (match x.state with
        | .off => 0 | .scanning => 1 | .restoring => 2 | .ready => 3 | .faulted => 4) ∧
      s.reads (entry + 7) 1 x.spans.length ∧
      s.reads (entry + 8) 4 x.head.slot ∧ s.reads (entry + 12) 4 x.head.lap.toNat ∧
      s.reads (entry + 16) 4 x.workingTail.slot ∧ s.reads (entry + 20) 4 x.workingTail.lap.toNat ∧
      s.reads (entry + 24) 4 x.durableTail.slot ∧ s.reads (entry + 28) 4 x.durableTail.lap.toNat ∧
      s.reads (entry + 32) 4 (x.front (s.capacity p)).slot ∧
      s.reads (entry + 36) 4 (x.front (s.capacity p)).lap.toNat ∧
      s.reads (entry + 40) 4 (x.durableTail.dist (s.capacity p) x.head) ∧ s.reads (entry + 44) 1 x.reserved ∧
      s.reads (entry + 48) 4 x.generation.toNat ∧ s.reads (entry + 52) 4 x.epoch.toNat) := by
  refine ⟨reads_field s (.partition p .base) trivial _ rfl, reads_field s (.partition p .size) trivial _ rfl,
    fun hoff k hk => ?_, fun hon => ?_⟩
  · rw [reads_off s p hoff k hk, Nat.zero_div]
    rfl
  · have field : ∀ f : PartField, f ≠ .base → f ≠ .size →
        s.reads (Field.partition p f).start (Field.partition p f).width ((s.part p).read (s.capacity p) f) :=
      fun f hb hs => reads_field s (.partition p f) trivial _ (readPartition_of_on s p f hb hs hon)
    have state_ : (s.part p).read (s.capacity p) .state = (match (s.part p).state with
        | .off => 0 | .scanning => 1 | .restoring => 2 | .ready => 3 | .faulted => 4) := by
      show (s.part p).state.code = _
      cases (s.part p).state <;> rfl
    exact ⟨state_ ▸ field .state nofun nofun, field .spans nofun nofun, field .headSlot nofun nofun,
      field .headLap nofun nofun, field .workingSlot nofun nofun, field .workingLap nofun nofun,
      field .durableSlot nofun nofun, field .durableLap nofun nofun, field .frontSlot nofun nofun,
      field .frontLap nofun nofun, field .occupancy nofun nofun, field .reserved nofun nofun,
      field .generation nofun nofun, field .epoch nofun nofun⟩

/-- A group's entry; an absent field reads 0 (R1, R199). -/
theorem reads_group (s : State) (t : Tag) :
    let x := s.group t
    let entry := 0x200 + 16 * t.val
    s.reads entry 1 (match x.state with
      | .free => 0 | .opened => 1 | .draining => 2 | .sealing => 3 | .unwinding => 4 | .halted => 5
      | .broken => 6) ∧
    s.reads (entry + 1) 1 ((x.partition.map (·.val)).getD 0) ∧
    s.reads (entry + 2) 1 (match x.revokeCause with
      | none => 0 | some .age => 1 | some .array => 2 | some .partitionFault => 3 | some .forced => 4) ∧
    s.reads (entry + 3) 1 (match x.unwindOrigin with | none => 0 | some .host => 1 | some .revoke => 2) ∧
    s.reads (entry + 4) 4 ((x.sequence.map (·.toNat)).getD 0) ∧ s.reads (entry + 8) 2 x.claimsHeld ∧
    s.reads (entry + 10) 2 (x.undoCount.getD 0) ∧ s.reads (entry + 12) 2 x.age := by
  refine ⟨reads_field s (.group t .state) trivial _ ?_, reads_field s (.group t .partition) trivial _ rfl,
    reads_field s (.group t .cause) trivial _ ?_, reads_field s (.group t .origin) trivial _ ?_,
    reads_field s (.group t .sequence) trivial _ rfl, reads_field s (.group t .claims) trivial _ rfl,
    reads_field s (.group t .undo) trivial _ rfl, reads_field s (.group t .age) trivial _ rfl⟩
  · show (s.group t).state.code = _
    cases (s.group t).state <;> rfl
  · show ((s.group t).revokeCause.map RevokeCause.code).getD 0 = _
    cases (s.group t).revokeCause with
    | none => rfl
    | some c => cases c <;> rfl
  · show ((s.group t).unwindOrigin.map UnwindOrigin.code).getD 0 = _
    cases (s.group t).unwindOrigin with
    | none => rfl
    | some o => cases o <;> rfl

/-- An incident's entry (R190, R201). -/
theorem reads_incident (s : State) (i : Nat) (x : Incident) (hi : i < 8) (hx : s.incidents[i]? = some x) :
    let entry := 0x300 + 32 * i
    s.reads entry 1 (match x.kind with
      | .slotRetried => 1 | .partitionFaulted => 2 | .homeWriteFailed => 3 | .captureFailed => 4
      | .restoreFailed => 5 | .groupRevoked => 6 | .headerWriteFailed => 7 | .arrayTimeout => 8
      | .recoveryUnwound => 9 | .startFailed => 10) ∧
    s.reads (entry + 1) 1 ((if x.tag = none then 0 else 1) + (if x.sequence = none then 0 else 2) +
      (if x.partition = none then 0 else 4) + (if x.line = none then 0 else 8) +
      (if x.detail = none then 0 else 16)) ∧
    s.reads (entry + 2) 1 ((x.tag.map (·.val + 1)).getD 0) ∧
    s.reads (entry + 3) 1 ((x.partition.map (·.val)).getD 0) ∧ s.reads (entry + 4) 4 x.stamp.toNat ∧
    s.reads (entry + 8) 4 ((x.sequence.map (·.toNat)).getD 0) ∧
    s.reads (entry + 12) 8 ((x.line.map (·.toNat)).getD 0) ∧ s.reads (entry + 20) 4 (x.detail.getD 0) := by
  have field : ∀ f : IncidentField,
      s.reads (Field.incident i f).start (Field.incident i f).width (x.read f) :=
    fun f => reads_field s (.incident i f) hi _ (readIncident s i x f hx)
  have kind_ : x.read .kind = (match x.kind with
      | .slotRetried => 1 | .partitionFaulted => 2 | .homeWriteFailed => 3 | .captureFailed => 4
      | .restoreFailed => 5 | .groupRevoked => 6 | .headerWriteFailed => 7 | .arrayTimeout => 8
      | .recoveryUnwound => 9 | .startFailed => 10) := by
    show x.kind.code = _
    cases x.kind <;> rfl
  have presence_ : x.read .presence = (if x.tag = none then 0 else 1) + (if x.sequence = none then 0 else 2) +
      (if x.partition = none then 0 else 4) + (if x.line = none then 0 else 8) +
      (if x.detail = none then 0 else 16) := by
    show presenceBit 0 x.tag + presenceBit 1 x.sequence + presenceBit 2 x.partition + presenceBit 3 x.line +
      presenceBit 4 x.detail = _
    simp only [presenceBit_eq, Nat.reducePow]
  exact ⟨kind_ ▸ field .kind, presence_ ▸ field .presence, field .tag, field .partition, field .stamp,
    field .sequence, field .line, field .detail⟩

/-- Settles O50, field by field by the map, and the map byte by byte. -/
theorem windowReads : Obligations.WindowReads := by
  unfold Obligations.WindowReads
  intro s
  refine ⟨reads_field s .controllerState trivial _ ?_, reads_field s .lastFrame trivial _ ?_,
    reads_field s .operand trivial _ rfl, reads_field s .command trivial _ rfl,
    reads_field s .outcome trivial _ ?_, reads_reason s, reads_check s, reads_field s .firstIndex trivial _ rfl,
    reads_field s .secondIndex trivial _ rfl, reads_echo s, reads_field s .operandEcho trivial _ rfl,
    fun h => reads_field s .attentionCode trivial _ (attnCode_of_none s h),
    fun i hi hset hlow => reads_field s .attentionCode trivial _ (attnCode_of_lowest s i hi hset hlow),
    reads_field s .flags trivial _ rfl, reads_field s .mask trivial _ rfl,
    reads_field s .tickCounter trivial _ rfl, reads_field s .tickDivider trivial _ rfl,
    reads_field s .occupancy trivial _ rfl, reads_field s .formatEpoch trivial _ rfl,
    reads_field s .claimLimit trivial _ rfl, reads_field s .ageLimit trivial _ rfl,
    reads_field s .arrayTimeout trivial _ rfl, fun t => reads_field s (.tagMap t) trivial _ rfl,
    reads_region s, reads_partition s, reads_group s, fun i x hi hx => reads_incident s i x hi hx,
    fun i hpast hi k hk => ?_, reads_field s .dropped trivial _ rfl, fun a => ?_, fun a => ?_, fun a => ?_,
    fun a => ?_, fun a => ?_⟩
  · show s.controller.code = _
    cases s.controller <;> rfl
  · show s.link.lastFrame.code = _
    cases s.link.lastFrame <;> rfl
  · show s.cmdStatus.outcome.code = _
    cases s.cmdStatus.outcome <;> rfl
  · rw [reads_past_incidents s i hpast hi k hk, Nat.zero_div]
    rfl
  · unfold mapped
    rw [fieldAt_isSome a]
    simp only [mapShown, AccessClass.holds, Bool.or_eq_true, decide_eq_true_eq]
    omega
  all_goals
    rw [classAt_iff]
    exact decide_eq_true_iff

end Sys2Proof.Machine
end

section
/-! O52: what a written field stores (R181, R200). -/

namespace Sys2Proof.Machine

theorem Field.width_pos (f : Field) : 1 ≤ f.width := by
  cases f with
  | region _ x => cases x <;> exact Nat.le_of_ble_eq_true rfl
  | partition _ x => cases x <;> exact Nat.le_of_ble_eq_true rfl
  | group _ x => cases x <;> exact Nat.le_of_ble_eq_true rfl
  | incident _ x => cases x <;> exact Nat.le_of_ble_eq_true rfl
  | _ => exact Nat.le_of_ble_eq_true rfl

/-- A range that is exactly one field writes it with the value of its bytes (R181). -/
theorem writeRange_field (s : State) (f : Field) (hf : f.inWindow) (data : Bytes) (hw : f.width = data.length) (v : Nat)
    (hv : leNat data = v) : s.writeRange f.start data = s.writeField f v := by
  rw [writeRange_one_field s f.start data f hw (hw ▸ f.width_pos) (fieldAt_start f hf), hv]

theorem leNat_one (x : Byte) : leNat [x] = x.toNat := rfl

theorem leNat_two (x y : Byte) : leNat [x, y] = x.toNat + 256 * y.toNat := rfl

theorem leNat_four (x y z w : Byte) :
    leNat [x, y, z, w] = x.toNat + 256 * y.toNat + 65536 * (z.toNat + 256 * w.toNat) := by
  simp only [leNat]
  omega

/-- The lowest bit of a byte is its value's parity. -/
theorem odd_iff_lowest (x : Byte) : x.toNat % 2 = 1 ↔ x.getLsbD 0 = true := by
  rw [BitVec.getLsbD, Nat.testBit_zero, decide_eq_true_iff]

/-- The written fields of two or more bytes whose uncovered bytes keep their value: first address and width (R199). -/
def wideFields : List (Nat × Nat) :=
  [(0x00E, 2), (0x014, 2), (0x018, 4), (0x01C, 2), (0x01E, 2)] ++
    (List.range 8).flatMap (fun r => [(0x040 + 16 * r, 4), (0x044 + 16 * r, 4)]) ++
    (List.range 4).flatMap (fun p => [(0x100 + 64 * p, 4), (0x104 + 64 * p, 2)])

theorem wideFields_of_region (r : RegionId) :
    ((Field.region r .base).start, 4) ∈ wideFields ∧ ((Field.region r .size).start, 4) ∈ wideFields := by
  have hr : r.val ∈ List.range 8 := List.mem_range.mpr r.isLt
  have row : ∀ x ∈ [(0x040 + 16 * r.val, 4), (0x044 + 16 * r.val, 4)], x ∈ wideFields := fun x hx =>
    List.mem_append_left _ (List.mem_append_right _ (List.mem_flatMap.mpr ⟨r.val, hr, hx⟩))
  refine ⟨row _ (List.mem_cons_self ..), ?_⟩
  rw [show (Field.region r .size).start = 0x044 + 16 * r.val from Nat.add_right_comm 0x040 (16 * r.val) 4]
  exact row _ (List.mem_cons_of_mem _ (List.mem_cons_self ..))

theorem wideFields_of_partition (p : PartId) :
    ((Field.partition p .base).start, 4) ∈ wideFields ∧ ((Field.partition p .size).start, 2) ∈ wideFields := by
  have hp : p.val ∈ List.range 4 := List.mem_range.mpr p.isLt
  have row : ∀ x ∈ [(0x100 + 64 * p.val, 4), (0x104 + 64 * p.val, 2)], x ∈ wideFields := fun x hx =>
    List.mem_append_right _ (List.mem_flatMap.mpr ⟨p.val, hp, hx⟩)
  refine ⟨row _ (List.mem_cons_self ..), ?_⟩
  rw [show (Field.partition p .size).start = 0x104 + 64 * p.val from Nat.add_right_comm 0x100 (64 * p.val) 4]
  exact row _ (List.mem_cons_of_mem _ (List.mem_cons_self ..))

/-- A field that takes a write has one byte, or is one of the pending flags and the wide fields. -/
theorem written_or_wide (f : Field) :
    (∀ (z : State) (v : Nat), z.writeField f v = z) ∨ f.width = 1 ∨ (f.start, f.width) ∈ (0x00C, 2) :: wideFields := by
  cases f with
  | region r x =>
    cases x with
    | base => exact .inr (.inr (List.mem_cons_of_mem _ (wideFields_of_region r).1))
    | size => exact .inr (.inr (List.mem_cons_of_mem _ (wideFields_of_region r).2))
    | _ => exact .inr (.inl rfl)
  | partition p x =>
    cases x with
    | base => exact .inr (.inr (List.mem_cons_of_mem _ (wideFields_of_partition p).1))
    | size => exact .inr (.inr (List.mem_cons_of_mem _ (wideFields_of_partition p).2))
    | _ => exact .inl fun _ _ => rfl
  | flags | mask | tickDivider | formatEpoch | claimLimit | ageLimit => exact .inr (.inr (by decide))
  | operand | arrayTimeout | tagMap => exact .inr (.inl rfl)
  | _ => exact .inl fun _ _ => rfl

/-- Each of the wide fields is a field of the window, and not a clear field. -/
theorem wideFields_are (x : Nat × Nat) (h : x ∈ wideFields) :
    ∃ f : Field, f.inWindow ∧ f.accessClass ≠ .clear ∧ f.start = x.1 ∧ f.width = x.2 := by
  simp only [wideFields, List.mem_append, List.mem_cons, List.not_mem_nil, or_false, List.mem_flatMap,
    List.mem_range] at h
  rcases h with ((rfl | rfl | rfl | rfl | rfl) | ⟨r, hr, rfl | rfl⟩) | ⟨p, hp, rfl | rfl⟩
  · exact ⟨.mask, trivial, nofun, rfl, rfl⟩
  · exact ⟨.tickDivider, trivial, nofun, rfl, rfl⟩
  · exact ⟨.formatEpoch, trivial, nofun, rfl, rfl⟩
  · exact ⟨.claimLimit, trivial, nofun, rfl, rfl⟩
  · exact ⟨.ageLimit, trivial, nofun, rfl, rfl⟩
  · exact ⟨.region ⟨r, hr⟩ .base, trivial, nofun, rfl, rfl⟩
  · exact ⟨.region ⟨r, hr⟩ .size, trivial, nofun, Nat.add_right_comm 0x040 (16 * r) 4, rfl⟩
  · exact ⟨.partition ⟨p, hp⟩ .base, trivial, nofun, rfl, rfl⟩
  · exact ⟨.partition ⟨p, hp⟩ .size, trivial, nofun, Nat.add_right_comm 0x100 (64 * p) 4, rfl⟩

/-- A range inside a field writes the field's bytes, those it does not cover as they read (R181). -/
theorem writeRange_part (s : State) (f : Field) (hf : f.inWindow) (hclear : f.accessClass ≠ .clear) (i : Nat)
    (data : Bytes) (hn : 0 < data.length) (hw : i + data.length ≤ f.width) :
    s.writeRange (f.start + i) data = s.writeRange f.start ((List.range f.width).map (fun k =>
      if i ≤ k ∧ k < i + data.length then data.getD (k - i) 0 else s.windowByte (f.start + k))) := by
  rw [writeRange_in_field s f.start i data f hn hw (fieldAt_start f hf),
    writeRange_field s f hf _ (by rw [List.length_map, List.length_range]) _ rfl]
  refine congrArg (s.writeField f) (congrArg leNat (List.map_congr_left fun k hk => ?_))
  have kept : s.keptByte f k = s.windowByte (f.start + k) := by
    rw [windowByte_of_field s _ f k (fieldAt_start f hf k (List.mem_range.mp hk))]
    exact if_neg hclear
  rw [kept]
  unfold frameByte
  by_cases low : i ≤ k
  · rw [if_pos (by omega), show f.start + k - (f.start + i) = k - i by omega]
    by_cases high : k < i + data.length
    · rw [if_pos ⟨low, high⟩, List.getElem?_eq_getElem (by omega), List.getD_eq_getElem _ _ (by omega)]
      rfl
    · rw [if_neg (fun h => high h.2), List.getElem?_eq_none (by omega)]
      rfl
  · rw [if_neg (by omega), if_neg (fun h => low h.1)]
    rfl

/-- A range cut where it cuts no written field is written in its two parts (R181). -/
theorem writeRange_parts (s : State) (first : Nat) (data1 data2 : Bytes)
    (hcut : ∀ f ∈ (0x00C, 2) :: wideFields, first + data1.length ≤ f.1 ∨ f.1 + f.2 ≤ first + data1.length) :
    s.writeRange first (data1 ++ data2) = (s.writeRange first data1).writeRange (first + data1.length) data2 := by
  refine writeRange_append s first data1 data2 (fun a f k hf low high => ?_) fun a f k hf => ?_
  · obtain ⟨_, place, _⟩ := fieldAt_place a f k hf
    rw [show a - k = f.start by omega] at low high
    rcases written_or_wide f with keeps | one | wide_
    · exact keeps
    · omega
    · have := hcut _ wide_
      dsimp only at this
      omega
  · obtain ⟨_, place, inside⟩ := fieldAt_place a f k hf
    exact ⟨by omega, inside⟩

/-- Settles O52, field by field by the map. -/
theorem writtenFieldsAreLimited : Obligations.WrittenFieldsAreLimited := by
  unfold Obligations.WrittenFieldsAreLimited
  intro s x y z w two four wide
  have two_ : leNat [x, y] = two := leNat_two x y
  have four_ : leNat [x, y, z, w] = four := leNat_four x y z w
  refine ⟨?_, ?_, ?_, ?_, ?_, ?_, ?_, ?_, fun t => ⟨limitPart x.toNat, rfl, ?_⟩, fun r => ⟨?_, ?_, ?_, ?_⟩,
    fun p => ⟨?_, ?_⟩, ?_, ?_, ?_, fun f hf i data hn hw => ?_, fun first data1 data2 hcut => ?_⟩
  · refine (writeRange_field s .operand trivial [x] rfl _ (leNat_one x)).trans ?_
    simp only [State.writeField, BitVec.ofNat_toNat, BitVec.setWidth_eq]
  · exact writeRange_field s .flags trivial [x, y] rfl _ two_
  · exact writeRange_field s .mask trivial [x, y] rfl _ two_
  · exact writeRange_field s .tickDivider trivial [x, y] rfl _ two_
  · exact writeRange_field s .formatEpoch trivial [x, y, z, w] rfl _ four_
  · exact writeRange_field s .claimLimit trivial [x, y] rfl _ two_
  · exact writeRange_field s .ageLimit trivial [x, y] rfl _ two_
  · refine (writeRange_field s .arrayTimeout trivial [x] rfl _ (leNat_one x)).trans ?_
    simp only [State.writeField, BitVec.ofNat_toNat, BitVec.setWidth_eq]
  · exact writeRange_field s (.tagMap t) trivial [x] rfl _ (leNat_one x)
  · exact writeRange_field s (.region r .base) trivial [x, y, z, w] rfl _ four_
  · rw [show 0x044 + 16 * r.val = (Field.region r .size).start from Nat.add_right_comm 0x040 4 (16 * r.val)]
    exact writeRange_field s (.region r .size) trivial [x, y, z, w] rfl _ four_
  · rw [show 0x048 + 16 * r.val = (Field.region r .mode).start from Nat.add_right_comm 0x040 8 (16 * r.val),
      writeRange_field s (.region r .mode) trivial [x] rfl _ (leNat_one x)]
    simp only [State.writeField, State.modRegion, Region.write, odd_iff_lowest]
  · rw [show 0x049 + 16 * r.val = (Field.region r .enable).start from Nat.add_right_comm 0x040 9 (16 * r.val),
      writeRange_field s (.region r .enable) trivial [x] rfl _ (leNat_one x)]
    simp only [State.writeField, State.modRegion, Region.write, odd_iff_lowest, Bool.decide_eq_true]
  · exact writeRange_field s (.partition p .base) trivial [x, y, z, w] rfl _ four_
  · rw [show 0x104 + 64 * p.val = (Field.partition p .size).start from Nat.add_right_comm 0x100 4 (64 * p.val)]
    exact writeRange_field s (.partition p .size) trivial [x, y] rfl _ two_
  · exact writeRange_field s .command trivial [x] rfl _ (leNat_one x)
  · exact (writeRange_in_field s 0x00C 0 [x] .flags Nat.one_pos (Nat.le_of_ble_eq_true rfl)
        (fieldAt_start .flags trivial)).trans
      (writeRange_field s .flags trivial [x, 0] rfl _ rfl).symm
  · exact (writeRange_in_field s 0x00C 1 [x] .flags Nat.one_pos (Nat.le_of_ble_eq_true rfl)
        (fieldAt_start .flags trivial)).trans
      (writeRange_field s .flags trivial [0, x] rfl _ rfl).symm
  · obtain ⟨field, inWindow, notClear, start_, width_⟩ := wideFields_are f hf
    rw [← start_, ← width_]
    exact writeRange_part s field inWindow notClear i data hn (width_ ▸ hw)
  · exact writeRange_parts s first data1 data2 hcut

end Sys2Proof.Machine
end

section
/-! SUPPORT. The ages at a tick: every OPEN group ages, and then those at the limit are revoked (O31). -/

namespace Sys2Proof.Machine

/-- The same state with other groups. -/
def State.withGroups (g : Vector Group 15) (s : State) : State :=
  { s with groups := g }

theorem padUndo_withGroups (s : State) (g : Vector Group 15) (u : UndoRef) :
    (s.withGroups g).padUndo u = (s.padUndo u).withGroups g := by
  unfold State.padUndo
  by_cases h : s.journalRuns u.partition = true
  · rw [if_pos h, if_pos (show (s.withGroups g).journalRuns u.partition = true from h)]
    rfl
  · rw [if_neg h, if_neg (show ¬ (s.withGroups g).journalRuns u.partition = true from h)]

/-- What revocation does to an entry has nothing to do with the group table (R95). -/
theorem revokeFate_withGroups (s : State) (g : Vector Group 15) (e : Entry) :
    (s.withGroups g).revokeFate e = (s.revokeFate e).withGroups g := by
  unfold State.revokeFate
  cases e.phase with
  | ordered =>
    cases e.path with
    | newClaim =>
      cases e.undo with
      | some u => exact padUndo_withGroups (s.finishEntry e .revoked []) g u
      | none => rfl
    | _ => rfl
  | _ => rfl

theorem revokeFates_withGroups (l : List Entry) : ∀ (s : State) (g : Vector Group 15),
    l.foldl State.revokeFate (s.withGroups g) = (l.foldl State.revokeFate s).withGroups g := by
  induction l with
  | nil => exact fun _ _ => rfl
  | cons e l ih =>
    intro s g
    rw [List.foldl_cons, List.foldl_cons, revokeFate_withGroups, ih]

theorem revokeFates_groups (l : List Entry) (s : State) : (l.foldl State.revokeFate s).groups = s.groups := by
  obtain ⟨_, _, _, h, _⟩ := revokeFates_only l s
  rw [h]

theorem log_setGroup (s : State) (u : Tag) (x : Group) (i : Incident) :
    (s.setGroup u x).log i = (s.log i).setGroup u x := by
  rw [log_eq, log_eq]
  rfl

/-- A group that begins to unwind, and another group changed: the order does not matter. -/
theorem startUnwind_setGroup (s : State) (t u : Tag) (h : t ≠ u) (x : Group) (o : UnwindOrigin) (c : Option RevokeCause) :
    (s.setGroup u x).startUnwind t o c = (s.startUnwind t o c).setGroup u x := by
  have same : (s.setGroup u x).group t = s.group t := by rw [group_setGroup, if_neg h]
  have entered : (s.setGroup u x).modGroup t (Group.unwindingBy o c) =
      (s.modGroup t (Group.unwindingBy o c)).withGroups
        ((s.modGroup t (Group.unwindingBy o c)).groups.set u x) := by
    rw [State.modGroup, same]
    show State.withGroups _ s = State.withGroups _ s
    exact congrArg (State.withGroups · s) (Vector.set_comm _ _ (fun h' => h (Fin.ext h'.symm)))
  have fates := revokeFates_withGroups (s.members t) (s.modGroup t (Group.unwindingBy o c))
    ((s.modGroup t (Group.unwindingBy o c)).groups.set u x)
  have groups := revokeFates_groups (s.members t) (s.modGroup t (Group.unwindingBy o c))
  show State.joinWaiting t ((s.members t).foldl State.revokeFate ((s.setGroup u x).modGroup t (Group.unwindingBy o c))) =
    (State.joinWaiting t ((s.members t).foldl State.revokeFate (s.modGroup t (Group.unwindingBy o c)))).setGroup u x
  rw [entered, fates, ← groups]
  rfl

/-- A revocation, and another group changed: the order does not matter. -/
theorem revoke_setGroup (s : State) (t u : Tag) (h : t ≠ u) (x : Group) (c : RevokeCause) :
    (s.setGroup u x).revoke t c = (s.revoke t c).setGroup u x := by
  have same : (s.setGroup u x).group t = s.group t := by rw [group_setGroup, if_neg h]
  unfold State.revoke State.memberOf State.groupState
  rw [same]
  by_cases ha : (decide (s.controller ≠ .shutdown) && c.appliesTo (s.group t).state) = true
  · rw [if_pos ha, if_pos (show (decide ((s.setGroup u x).controller ≠ .shutdown) &&
      c.appliesTo (s.group t).state) = true from ha), startUnwind_setGroup s t u h]
    exact congrArg (State.raise .groupRevoked) (log_setGroup (s.startUnwind t .revoke (some c)) u x _)
  · rw [if_neg ha, if_neg (show ¬ (decide ((s.setGroup u x).controller ≠ .shutdown) &&
      c.appliesTo (s.group t).state) = true from ha)]

/-! ### All ages, and then the revocations -/

/-- The groups of a list that this tick takes to the age limit (R7, R8). -/
def State.agesOut (s : State) (t : Tag) : Bool :=
  s.groupState t == .opened && s.ageLimit != 0 && min 65535 ((s.group t).age + 1) == s.ageLimit.toNat

/-- The groups of a list take one tick each. -/
def State.ticked (l : List Tag) (s : State) : State :=
  l.foldl (fun y t => y.modGroup t Group.tick) s

theorem modGroup_comm (s : State) (t u : Tag) (h : t ≠ u) (f g : Group → Group) :
    (s.modGroup t f).modGroup u g = (s.modGroup u g).modGroup t f := by
  have htu : (s.setGroup t (f (s.group t))).group u = s.group u := by rw [group_setGroup, if_neg h.symm]
  have hut : (s.setGroup u (g (s.group u))).group t = s.group t := by rw [group_setGroup, if_neg h]
  simp only [State.modGroup, htu, hut]
  exact congrArg (State.withGroups · s) (Vector.set_comm _ _ (fun h' => h (Fin.ext h')))

theorem revoke_group_ne (s : State) (t u : Tag) (h : u ≠ t) (c : RevokeCause) : (s.revoke t c).group u = s.group u := by
  by_cases ha : s.controller ≠ .shutdown ∧ c.appliesTo (s.groupState t) = true
  · obtain ⟨r, q, o, d, heq, -⟩ := revoke_only s t c ha.1 ha.2
    have hset := group_setGroup s t u { s.group t with
      state := .unwinding, unwindOrigin := some .revoke, revokeCause := some c, commitRequest := none }
    rw [if_neg h] at hset
    rw [heq]
    exact hset
  · unfold State.revoke
    rw [if_neg (by simpa using ha)]

theorem revoke_ageLimit (s : State) (t : Tag) (c : RevokeCause) : (s.revoke t c).ageLimit = s.ageLimit :=
  congrArg (fun x : Setup => x.configuration.ageLimit) (revoke_setup (s := s) t c)

/-- The ticks of other groups, and a revocation: the order does not matter. -/
theorem ticked_revoke (t : Tag) (c : RevokeCause) (l : List Tag) : ∀ s : State, t ∉ l →
    (s.revoke t c).ticked l = (s.ticked l).revoke t c := by
  induction l with
  | nil => exact fun _ _ => rfl
  | cons u l ih =>
    intro s h
    obtain ⟨hu, hl⟩ := not_or.mp (fun h' => h (List.mem_cons.mpr h'))
    have step : (s.revoke t c).modGroup u Group.tick = (s.modGroup u Group.tick).revoke t c := by
      rw [State.modGroup, State.modGroup, revoke_setGroup s t u hu, revoke_group_ne s t u (Ne.symm hu)]
    show ((s.revoke t c).modGroup u Group.tick).ticked l = ((s.modGroup u Group.tick).ticked l).revoke t c
    rw [step, ih _ hl]

theorem agesOut_congr (s x : State) (l : List Tag) (hg : ∀ u ∈ l, x.group u = s.group u) (ha : x.ageLimit = s.ageLimit) :
    l.filter x.agesOut = l.filter s.agesOut := by
  refine List.filter_congr fun u hu => ?_
  unfold State.agesOut State.groupState
  rw [hg u hu, ha]

/-- The tick of one group: it ages, and is revoked where that takes it to the limit (R7, R8). -/
theorem tickGroup_eq (s : State) (t : Tag) : s.tickGroup t =
    if s.agesOut t then (s.modGroup t Group.tick).revoke t .age else s.modGroup t Group.tick := by
  have self : (s.modGroup t Group.tick).group t = (s.group t).tick := setGroup_group_self s t _
  unfold State.tickGroup State.expire State.agesOut State.groupState
  rw [self]
  unfold Group.tick
  by_cases ho : (s.group t).state = .opened
  · simp [ho]
    rfl
  · simp [ho]

/-- The ticks of a list of groups: all ages first, then the revocations in order. -/
theorem tickGroups_ages (l : List Tag) : ∀ s : State, l.Nodup →
    l.foldl State.tickGroup s = (l.filter s.agesOut).foldl (fun y t => y.revoke t .age) (s.ticked l) := by
  induction l with
  | nil => exact fun _ _ => rfl
  | cons t l ih =>
    intro s hn
    obtain ⟨ht, hn⟩ := List.nodup_cons.mp hn
    have other : ∀ u ∈ l, u ≠ t := fun u hu h => ht (h ▸ hu)
    have aged : ∀ u ∈ l, (s.modGroup t Group.tick).group u = s.group u := fun u hu =>
      (group_setGroup s t u _).trans (if_neg (other u hu))
    rw [List.foldl_cons, tickGroup_eq, List.filter_cons]
    by_cases out : s.agesOut t = true
    · rw [if_pos out, if_pos out, ih _ hn, ticked_revoke t .age l _ ht,
        agesOut_congr s ((s.modGroup t Group.tick).revoke t .age) l
          (fun u hu => (revoke_group_ne _ t u (other u hu) .age).trans (aged u hu)) (revoke_ageLimit _ t .age)]
      rfl
    · rw [if_neg out, if_neg out, ih _ hn, agesOut_congr s (s.modGroup t Group.tick) l aged rfl]
      rfl

/-- The groups of a list have ticked, and no other. -/
theorem ticked_groups (l : List Tag) : ∀ s : State, l.Nodup → ∃ g, s.ticked l = s.withGroups g ∧
    ∀ u : Tag, g[u] = if u ∈ l then (s.group u).tick else s.group u := by
  induction l with
  | nil => exact fun s _ => ⟨s.groups, rfl, fun u => by simp; rfl⟩
  | cons t l ih =>
    intro s hn
    obtain ⟨ht, hn⟩ := List.nodup_cons.mp hn
    obtain ⟨g, heq, hg⟩ := ih (s.modGroup t Group.tick) hn
    refine ⟨g, heq.trans rfl, fun u => ?_⟩
    have hu : (s.modGroup t Group.tick).group u = if u = t then (s.group t).tick else s.group u :=
      group_setGroup s t u _
    rw [hg, hu]
    by_cases h : u = t
    · subst h
      simp [ht]
    · simp [h]

theorem ticked_all (s : State) : s.ticked allTags = s.withGroups (s.groups.map Group.tick) := by
  obtain ⟨g, heq, hg⟩ := ticked_groups allTags s (List.nodup_finRange 15)
  rw [heq]
  refine congrArg (State.withGroups · s) (Vector.ext fun i hi => ?_)
  rw [Vector.getElem_map]
  exact (hg ⟨i, hi⟩).trans (if_pos (List.mem_finRange (n := 15) ⟨i, hi⟩))

/-- Those of the groups that this tick takes to the age limit, in ascending order of tag (R8). -/
def State.dueByAge (s : State) : List Tag :=
  allTags.filter s.agesOut

/-- Every OPEN group ages, and then those at the limit are revoked (R7, R8). -/
def State.agesTaken (s : State) : State :=
  s.dueByAge.foldl (fun y t => y.revoke t .age) (s.withGroups (s.groups.map Group.tick))

/-- The group table's part of a tick (R26, R186). -/
theorem tickGroups_eq (s : State) : s.tickGroups = if s.controller = .shutdown then s else s.agesTaken := by
  unfold State.tickGroups State.agesTaken State.dueByAge
  rw [tickGroups_ages allTags s (List.nodup_finRange 15), ticked_all]

/-- Where no group is OPEN no group ages (R7). -/
theorem agesTaken_of_none (s : State) (h : ∀ t, s.groupState t ≠ .opened) : s.agesTaken = s := by
  have none_ : s.dueByAge = [] := List.filter_eq_nil_iff.mpr fun t _ => by simp [State.agesOut, h t]
  have same : s.groups.map Group.tick = s.groups := Vector.ext fun i hi => by
    rw [Vector.getElem_map]
    exact if_neg (h ⟨i, hi⟩)
  unfold State.agesTaken
  rw [none_, same]
  rfl

end Sys2Proof.Machine
end

section
/-! SUPPORT. What the delivery of a failure leaves as it was, for the timeouts of a tick (O31). -/

namespace Sys2Proof.Machine

/-- What every failure delivered while the engine rests keeps: no old record enters the port's set, no group opens, the
controller neither enters nor leaves SHUTDOWN, and the engine gets no further than a longer waiting order. -/
structure State.Goes (s x : State) : Prop where
  outstanding : ∀ r ∈ x.outstanding, r ∈ s.outstanding ∨ r.ticks = 0
  opened : ∀ t, x.groupState t = .opened → s.groupState t = .opened
  controller : x.controller = .shutdown ↔ s.controller = .shutdown
  scanner : s.controller = .shutdown → s.scanner.current = none → x.scanner.current = none
  engine : s.controller ≠ .shutdown → x.engine.state = s.engine.state ∧
    x.engine.currentLine = s.engine.currentLine ∧
    x.engine.waiting.length + s.joined = s.engine.waiting.length + x.joined

theorem State.Goes.of_same {s x : State} (ho : x.outstanding = s.outstanding) (hg : x.groups = s.groups)
    (hc : x.controller = s.controller) (hs : x.scanner = s.scanner) (he : x.engine = s.engine)
    (hj : x.joined = s.joined) : s.Goes x where
  outstanding := fun r h => .inl (ho ▸ h)
  opened := fun t h => by rwa [State.groupState, State.group, hg] at h
  controller := by rw [hc]
  scanner := fun _ h => hs ▸ h
  engine := fun _ => ⟨by rw [he], by rw [he], by rw [he, hj]⟩

theorem State.Goes.refl (s : State) : s.Goes s :=
  .of_same rfl rfl rfl rfl rfl rfl

theorem State.Goes.trans {s x y : State} (h : s.Goes x) (k : x.Goes y) : s.Goes y where
  outstanding := fun r hr => (k.outstanding r hr).elim (h.outstanding r) .inr
  opened := fun t ht => h.opened t (k.opened t ht)
  controller := k.controller.trans h.controller
  scanner := fun hc hs => k.scanner (h.controller.mpr hc) (h.scanner hc hs)
  engine := fun hc => by
    obtain ⟨state1, line1, waiting1⟩ := h.engine hc
    obtain ⟨state2, line2, waiting2⟩ := k.engine (fun h' => hc (h.controller.mp h'))
    exact ⟨state2.trans state1, line2.trans line1, by omega⟩

theorem foldl_goes {α : Type} (f : State → α → State) (h : ∀ s x, State.Goes s (f s x)) (l : List α) :
    ∀ s : State, s.Goes (l.foldl f s) := by
  induction l with
  | nil => exact fun s => .refl s
  | cons a l ih => exact fun s => (h s a).trans (ih (f s a))

/-! ### The state's operations -/

theorem finishEntry_goes (s : State) (e : Entry) (st : Status) (d : Bytes) : s.Goes (s.finishEntry e st d) :=
  .of_same rfl rfl rfl rfl rfl rfl

theorem dropEntry_goes (s : State) (i : EntryId) : s.Goes (s.dropEntry i) :=
  .of_same rfl rfl rfl rfl rfl rfl

theorem raise_goes (s : State) (c : Cause) : s.Goes (s.raise c) :=
  .of_same rfl rfl rfl rfl rfl rfl

theorem log_goes (s : State) (i : Incident) : s.Goes (s.log i) := by
  rw [log_eq]
  exact .of_same rfl rfl rfl rfl rfl rfl

theorem modPart_goes (s : State) (p : PartId) (f : Partition → Partition) : s.Goes (s.modPart p f) :=
  .of_same rfl rfl rfl rfl rfl rfl

theorem padUndo_goes (s : State) (u : UndoRef) : s.Goes (s.padUndo u) := by
  unfold State.padUndo
  split
  · exact modPart_goes s _ _
  · exact .refl s

theorem issue_goes (s : State) (u : Purpose) (r : Ref) (a : Addr) (n : Nat) (d : Bytes) : s.Goes (s.issue u r a n d) where
  outstanding := fun x hx => (List.mem_append.mp hx).imp_right fun h => by rw [List.mem_singleton.mp h]
  opened := fun _ h => h
  controller := Iff.rfl
  scanner := fun _ h => h
  engine := fun _ => ⟨rfl, rfl, rfl⟩

/-- A group entry changes, and does not open. -/
theorem setGroup_goes (s : State) (t : Tag) (g : Group) (h : g.state = .opened → s.groupState t = .opened) :
    s.Goes (s.setGroup t g) where
  outstanding := fun _ h => .inl h
  opened := fun u hu => by
    rw [State.groupState, group_setGroup] at hu
    by_cases hut : u = t
    · subst hut
      rw [if_pos rfl] at hu
      exact h hu
    · rwa [if_neg hut] at hu
  controller := Iff.rfl
  scanner := fun _ h => h
  engine := fun _ => ⟨rfl, rfl, rfl⟩

theorem freeGroup_goes (s : State) (t : Tag) : s.Goes (s.freeGroup t) :=
  setGroup_goes s t .cleared nofun

theorem dropCommit_goes (s : State) (t : Tag) : s.Goes (s.dropCommit t) :=
  setGroup_goes s t _ fun h => h

/-- The scanner changes, and not its partition. -/
theorem modScanner_goes (s : State) (f : Scanner → Scanner) (h : (f s.scanner).current = s.scanner.current) :
    s.Goes (s.modScanner f) where
  outstanding := fun _ h => .inl h
  opened := fun _ h => h
  controller := Iff.rfl
  scanner := fun _ hs => h.trans hs
  engine := fun _ => ⟨rfl, rfl, rfl⟩

/-- The engine changes in SHUTDOWN. -/
theorem modEngine_goes (s : State) (f : Engine → Engine) (h : s.controller = .shutdown) : s.Goes (s.modEngine f) where
  outstanding := fun _ h => .inl h
  opened := fun _ h => h
  controller := Iff.rfl
  scanner := fun _ h => h
  engine := fun hc => absurd h hc

/-- A revocation: the group is UNWINDING, and waits (R16, R102). -/
theorem revoke_goes (s : State) (t : Tag) (c : RevokeCause) : s.Goes (s.revoke t c) := by
  by_cases ha : s.controller ≠ .shutdown ∧ c.appliesTo (s.groupState t) = true
  · obtain ⟨r, q, o, d, heq, -⟩ := revoke_only s t c ha.1 ha.2
    have longer := (joinWaiting_perm s t).length_eq
    rw [List.length_cons] at longer
    rw [heq]
    have entered := setGroup_goes s t { s.group t with
      state := .unwinding, unwindOrigin := some .revoke, revokeCause := some c, commitRequest := none } nofun
    exact
      { outstanding := entered.outstanding
        opened := entered.opened
        controller := Iff.rfl
        scanner := entered.scanner
        engine := fun _ => ⟨rfl, rfl, by dsimp only; omega⟩ }
  · unfold State.revoke
    rw [if_neg (by simpa using ha)]
    exact .refl s

/-! ### The failures of the request table's accesses -/

theorem readFailed_goes (s : State) (e : Entry) : s.Goes (s.readFailed e) := by
  unfold State.readFailed
  split
  · exact dropEntry_goes s e.index
  · have answered := finishEntry_goes s e .arrayError []
    cases e.group with
    | none => exact answered
    | some t =>
      dsimp only
      split
      · exact (answered.trans (dropCommit_goes _ t)).trans (revoke_goes _ t .array)
      · exact answered

theorem hostReadOutcome_goes (s : State) (i : EntryId) : s.Goes (s.hostReadOutcome i .failed) := by
  unfold State.hostReadOutcome
  split
  · exact .refl s
  · exact readFailed_goes s _

theorem logHomeWrite_goes (s : State) (e : Entry) : s.Goes (s.logHomeWrite e) := by
  unfold State.logHomeWrite
  split
  · exact log_goes s _
  · exact .refl s

theorem homeWriteFailed_goes (s : State) (e : Entry) : s.Goes (s.homeWriteFailed e) := by
  unfold State.homeWriteFailed
  split
  · exact (dropEntry_goes s e.index).trans (logHomeWrite_goes _ e)
  · have answered := (finishEntry_goes s e .arrayError []).trans (logHomeWrite_goes _ e)
    cases e.group with
    | none => exact answered
    | some t =>
      refine State.Goes.trans ?_ (revoke_goes _ t .array)
      split
      · exact answered.trans (dropCommit_goes _ t)
      · exact answered

theorem homeWriteOutcome_goes (s : State) (i : EntryId) : s.Goes (s.homeWriteOutcome i .failed) := by
  unfold State.homeWriteOutcome
  split
  · exact .refl s
  · exact homeWriteFailed_goes s _

theorem removeClaim_goes (s : State) (t : Tag) (line : Addr) : s.Goes (s.removeClaim t line) := by
  unfold State.removeClaim
  split
  · split
    · exact State.Goes.trans (x := s.dropClaim line) (.of_same rfl rfl rfl rfl rfl rfl)
        (setGroup_goes (s.dropClaim line) t _ (by exact fun h => h))
    · exact .refl s
  · exact .refl s

theorem afterRemoval_goes (s : State) (t : Tag) (lost : Bool) : s.Goes (s.afterRemoval t lost) := by
  unfold State.afterRemoval
  dsimp only
  split
  · split
    · exact (freeGroup_goes s t).trans (modPart_goes _ _ _)
    · exact freeGroup_goes s t
  · split
    · exact (dropCommit_goes s t).trans (revoke_goes _ t .array)
    · exact .refl s

theorem captureRemoval_goes (s : State) (e : Entry) (t : Tag) : s.Goes (s.captureRemoval e t) := by
  have logged : ∀ x : State, x.Goes (match e.member with
      | some m => x.log { Incident.ofMember .captureFailed m with line := some e.line }
      | none => x) := fun x => by
    cases e.member
    · exact .refl x
    · exact log_goes x _
  have padded : ∀ x : State, x.Goes (match e.undo with
      | some u => x.padUndo u
      | none => x) := fun x => by
    cases e.undo
    · exact .refl x
    · exact padUndo_goes x _
  exact ((((finishEntry_goes s e .arrayError []).trans (logged _)).trans (padded _)).trans
    (removeClaim_goes _ t e.line)).trans
      ((foldl_goes _ (fun x y => finishEntry_goes x y .arrayError []) _ _).trans (afterRemoval_goes _ t _))

theorem captureFailed_goes (s : State) (e : Entry) : s.Goes (s.captureFailed e) := by
  unfold State.captureFailed
  split
  · exact captureRemoval_goes s e _
  · refine State.Goes.trans ?_ (dropEntry_goes _ e.index)
    cases e.undo
    · exact .refl s
    · exact padUndo_goes s _

theorem captureOutcome_goes (s : State) (i : EntryId) : s.Goes (s.captureOutcome i .failed) := by
  unfold State.captureOutcome
  split
  · exact .refl s
  · exact captureFailed_goes s _

/-! ### The failures of the journal's writes -/

theorem faultPartition_goes (s : State) (p : PartId) (k : Nat) : s.Goes (s.faultPartition p k) :=
  (((modPart_goes s p _).trans (log_goes _ _)).trans (raise_goes _ .partitionFault)).trans
    (foldl_goes _ (fun x t => revoke_goes x t .partitionFault) _ _)

theorem slotOutcome_goes (s : State) (p : PartId) (k : Nat) : s.Goes (s.slotOutcome p k .failed) := by
  unfold State.slotOutcome
  split
  · exact .refl s
  · dsimp only
    split
    · split
      · exact (modPart_goes s p _).trans (issue_goes _ _ _ _ _ _)
      · exact faultPartition_goes s p k
    · exact .refl s

theorem headerFailed_goes (s : State) (p : PartId) (w : HeaderWrite) : s.Goes (s.headerFailed p w) := by
  unfold State.headerFailed
  dsimp only
  split
  · split
    · exact modPart_goes s p _
    · exact (modPart_goes s p _).trans (issue_goes _ _ _ _ _ _)
  · exact (modPart_goes s p _).trans (log_goes _ _)

theorem headerOutcome_goes (s : State) (p : PartId) : s.Goes (s.headerOutcome p .failed) := by
  unfold State.headerOutcome
  split
  · exact .refl s
  · exact headerFailed_goes s p _

/-! ### The failures of the unwind engine's accesses, in SHUTDOWN or while it has no line -/

theorem issueUnwindRead_goes (s : State) (c : Claim) (n : Nat) (h : s.controller = .shutdown) :
    s.Goes (s.issueUnwindRead c n) := by
  unfold State.issueUnwindRead
  split
  · exact .refl s
  · exact (modEngine_goes s _ h).trans (issue_goes _ _ _ _ _ _)

theorem lineFailed_goes (s : State) (c : Claim) (h : s.controller = .shutdown) : s.Goes (s.lineFailed c) := by
  unfold State.lineFailed State.lineEnded
  rw [if_pos (show (State.modEngine _ s).controller = .shutdown from h)]
  exact (modEngine_goes s _ h).trans (modEngine_goes _ _ h)

theorem unwindReadOutcome_goes (s : State) (h : s.controller = .shutdown ∨ s.engine.currentLine = none) :
    s.Goes (s.unwindReadOutcome .failed) := by
  unfold State.unwindReadOutcome
  split
  · rename_i c n hline hstep
    obtain h | h := h
    swap
    · rw [h] at hline
      cases hline
    dsimp only
    split
    · exact issueUnwindRead_goes s c 2 h
    · exact lineFailed_goes s c h
  · exact .refl s

theorem restoreWriteOutcome_goes (s : State) (h : s.controller = .shutdown ∨ s.engine.currentLine = none) :
    s.Goes (s.restoreWriteOutcome .failed) := by
  unfold State.restoreWriteOutcome
  split
  · rename_i c n hline hstep
    obtain h | h := h
    swap
    · rw [h] at hline
      cases hline
    dsimp only
    split
    · exact (modEngine_goes s _ h).trans (issue_goes _ _ _ _ _ _)
    · exact lineFailed_goes s c h
  · exact .refl s

/-! ### The failures of the scanner's and of FORMAT's accesses -/

theorem startFailed_goes (s : State) (h : s.controller ≠ .shutdown) : s.Goes (s.startFailed .arrayError) := by
  obtain ⟨d, f, heq, -⟩ := startFailed_eq s .arrayError nofun
  rw [heq]
  exact
    { outstanding := fun r hr => .inl (List.mem_filter.mp hr).1
      opened := fun _ h => h
      controller := ⟨nofun, fun h' => absurd h' h⟩
      scanner := fun h' => absurd h' h
      engine := fun _ => ⟨rfl, rfl, rfl⟩ }

/-- In SHUTDOWN the scanner has no partition. -/
def State.scannerOff (s : State) : Prop :=
  s.controller = .shutdown → s.scanner.current = none

theorem State.scannerOff.not_shutdown {s : State} (h : s.scannerOff) {p : PartId} (hp : s.scanner.current = some p) :
    s.controller ≠ .shutdown := fun hc => by
  rw [h hc] at hp
  cases hp

theorem headerReadOutcome_goes (s : State) (p : PartId) (k : Nat) (h : s.scannerOff) :
    s.Goes (s.headerReadOutcome p k .failed) := by
  unfold State.headerReadOutcome
  split
  · rename_i hcur
    have failed := startFailed_goes s (h.not_shutdown hcur.1)
    by_cases hk : k = 0
    · simp only [hk, if_true]
      split
      · exact (modScanner_goes s _ rfl).trans (issue_goes _ _ _ _ _ _)
      · exact failed
    · simp only [hk, if_false]
      split
      · exact (modScanner_goes s _ rfl).trans (issue_goes _ _ _ _ _ _)
      · exact failed
  · exact .refl s

/-- A second attempt of the scanner's access, or the end of START. -/
theorem secondAttempt_goes (s : State) (p : PartId) (hp : s.scanner.current = some p) (h : s.scannerOff) (u : Purpose)
    (r : Ref) (a : Addr) (n : Nat) (d : Bytes) :
    s.Goes (if s.scanner.attempt = 1 then
      (s.modScanner fun sc => { sc with attempt := 2 }).issue u r a n d else s.startFailed .arrayError) := by
  split
  · exact (modScanner_goes s _ rfl).trans (issue_goes _ _ _ _ _ _)
  · exact startFailed_goes s (h.not_shutdown hp)

theorem scanReadOutcome_goes (s : State) (h : s.scannerOff) : s.Goes (s.scanReadOutcome .failed) := by
  unfold State.scanReadOutcome
  split
  · rename_i p c x hp hs hc hx
    exact secondAttempt_goes s p hp h _ _ _ _ _
  · exact .refl s

theorem voidReadOutcome_goes (s : State) (h : s.scannerOff) : s.Goes (s.voidReadOutcome .failed) := by
  unfold State.voidReadOutcome
  split
  · rename_i p c x hp hs hc hx
    exact secondAttempt_goes s p hp h _ _ _ _ _
  · exact .refl s

theorem voidWriteOutcome_goes (s : State) (h : s.scannerOff) : s.Goes (s.voidWriteOutcome .failed) := by
  unfold State.voidWriteOutcome
  split
  · rename_i p c x hp hs hc hx
    exact secondAttempt_goes s p hp h _ _ _ _ _
  · exact .refl s

theorem recoveryReadOutcome_goes (s : State) (h : s.scannerOff) : s.Goes (s.recoveryReadOutcome .failed) := by
  unfold State.recoveryReadOutcome
  split
  · rename_i p e hp he hs
    exact secondAttempt_goes s p hp h _ _ _ _ _
  · exact .refl s

theorem recoveryWriteOutcome_goes (s : State) (h : s.scannerOff) : s.Goes (s.recoveryWriteOutcome .failed) := by
  unfold State.recoveryWriteOutcome
  split
  · rename_i p e hp he hs
    exact secondAttempt_goes s p hp h _ _ _ _ _
  · exact .refl s

theorem headerRewriteOutcome_goes (s : State) (h : s.scannerOff) : s.Goes (s.headerRewriteOutcome .failed) := by
  unfold State.headerRewriteOutcome
  split
  · rename_i p c x hp hs hc hx
    exact secondAttempt_goes s p hp h _ _ _ _ _
  · exact .refl s

theorem formatOutcome_goes (s : State) : s.Goes (s.formatOutcome .failed) := by
  unfold State.formatOutcome
  split
  · exact .refl s
  · rename_i j hj
    dsimp only
    split
    · exact State.Goes.trans (x := { s with formatJob := some { j with attempt := 2 } })
        (.of_same rfl rfl rfl rfl rfl rfl) (issue_goes _ _ _ _ _ _)
    · exact .of_same rfl rfl rfl rfl rfl rfl

/-! ### Every failure -/

/-- The engine and the scanner have nothing that a failure could bring to go on: in SHUTDOWN no partition is recovered,
and outside it the engine is IDLE, with no group that waited before the event and no line. -/
def State.rests (s : State) : Prop :=
  s.controller = .shutdown ∧ s.scanner.current = none ∨
    s.controller ≠ .shutdown ∧ s.engine.state = .idle ∧ s.engine.waiting.length ≤ s.joined ∧ s.engine.currentLine = none

theorem State.Goes.rests {s x : State} (h : s.Goes x) (hs : s.rests) : x.rests := by
  obtain ⟨hc, hsc⟩ | ⟨hc, hidle, hwait, hline⟩ := hs
  · exact .inl ⟨h.controller.mpr hc, h.scanner hc hsc⟩
  · obtain ⟨state_, line_, waiting_⟩ := h.engine hc
    exact .inr ⟨fun h' => hc (h.controller.mp h'), state_.trans hidle, by omega, line_.trans hline⟩

theorem timeOut_goes (s : State) (r : PortRecord) : s.Goes (s.timeOut r) := by
  have forgot : s.Goes (s.forget r.number) :=
    { outstanding := fun x hx => .inl (List.mem_filter.mp hx).1
      opened := fun _ h => h
      controller := Iff.rfl
      scanner := fun _ h => h
      engine := fun _ => ⟨rfl, rfl, rfl⟩ }
  unfold State.timeOut
  dsimp only
  split
  · exact forgot
  · exact forgot.trans (log_goes _ _)

theorem deliver_goes (s : State) (r : PortRecord) (h : s.rests) : s.Goes (s.deliver r .failed) := by
  have hoff : s.scannerOff := fun hc => h.elim (·.2) fun h' => absurd hc h'.1
  have hline : s.controller = .shutdown ∨ s.engine.currentLine = none := h.imp (·.1) fun h' => h'.2.2.2
  unfold State.deliver
  split
  · exact hostReadOutcome_goes s _
  · exact captureOutcome_goes s _
  · exact homeWriteOutcome_goes s _
  · exact slotOutcome_goes s _ _
  · exact headerOutcome_goes s _
  · exact unwindReadOutcome_goes s hline
  · exact restoreWriteOutcome_goes s hline
  · exact headerReadOutcome_goes s _ _ hoff
  · exact scanReadOutcome_goes s hoff
  · exact voidReadOutcome_goes s hoff
  · exact voidWriteOutcome_goes s hoff
  · exact recoveryReadOutcome_goes s hoff
  · exact recoveryWriteOutcome_goes s hoff
  · exact headerRewriteOutcome_goes s hoff
  · exact formatOutcome_goes s
  · exact .refl s

end Sys2Proof.Machine
end

section
/-! SUPPORT. The rows of a tick: what times out, and what the ages then do (O31). -/

namespace Sys2Proof.Machine

/-! ### The row -/

theorem tickCounter_of_setup {x : State} {c : Setup} (h : x.setup = c) : x.tickCounter = c.tickCounter := h ▸ rfl

theorem divisionCount_of_setup {x : State} {c : Setup} (h : x.setup = c) : x.divisionCount = c.divisionCount := h ▸ rfl

theorem held_of_setup_eq {x : State} {c : Setup} (h : x.setup = c) : x.held = c.held := h ▸ rfl

/-- A tick completes, whatever waits in the queue: the counter has gone on and the division count starts again. -/
theorem tick_completes (s : State) (hr : s.resetLine = false) :
    ∃ t, exec .tick s = .next t ∧ t.tickCounter = s.tickCounter + 1 ∧ t.divisionCount = 0 := by
  refine ⟨s.begin.tick.endEvent s.begin.controller, ?_, ?_, ?_⟩
  · show s.lineEvent State.tick = _
    rw [lineEvent_of_line s _ hr]
    rfl
  · rw [tickCounter_of_setup (endEvent_setup s.begin.tick s.begin.controller), tick_setup]
    rfl
  · rw [divisionCount_of_setup (endEvent_setup s.begin.tick s.begin.controller), tick_setup]

/-- The state once every count has gone on, before a timeout (R165, R185). -/
def State.counted (s : State) : State :=
  { s with
    responses := [], mdo := [], joined := 0, tickCounter := s.tickCounter + 1, divisionCount := 0
    outstanding := s.outstanding.map PortRecord.tick }

@[simp] theorem tick_number (r : PortRecord) : r.tick.number = r.number := by
  unfold PortRecord.tick
  split <;> rfl

@[simp] theorem tick_purpose (r : PortRecord) : r.tick.purpose = r.purpose := by
  unfold PortRecord.tick
  split <;> rfl

@[simp] theorem tick_ref (r : PortRecord) : r.tick.ref = r.ref := by
  unfold PortRecord.tick
  split <;> rfl

@[simp] theorem tick_address (r : PortRecord) : r.tick.address = r.address := by
  unfold PortRecord.tick
  split <;> rfl

theorem counted_numbers (s : State) : s.counted.outstanding.map (·.number) = s.outstanding.map (·.number) := by
  show (s.outstanding.map PortRecord.tick).map (·.number) = _
  rw [List.map_map]
  exact List.map_congr_left fun r _ => tick_number r

/-- A record whose count reaches its limit at this tick (R165). -/
def PortRecord.isLate (r : PortRecord) : Bool :=
  r.limit != 0 && decide (r.limit ≤ r.ticks + 1)

theorem expired_tick (r : PortRecord) : r.tick.expired = r.isLate := by
  unfold PortRecord.expired PortRecord.tick PortRecord.isLate
  by_cases h : r.limit = 0 <;> simp [h]

/-- The records that time out at this tick, with their counts (R165). -/
def State.lateRecords (s : State) : List PortRecord :=
  (s.outstanding.filter PortRecord.isLate).map PortRecord.tick

theorem expired_counted (s : State) : s.counted.outstanding.filter PortRecord.expired = s.lateRecords := by
  show (s.outstanding.map PortRecord.tick).filter PortRecord.expired = _
  rw [List.filter_map]
  exact congrArg (List.map PortRecord.tick) (List.filter_congr fun r _ => expired_tick r)

/-- The port's part of a tick: the late records time out, in the order of their issue (R165, R186). -/
def State.timedOut (s : State) : State :=
  (s.lateRecords.map (·.number)).foldl State.timeOutInTick s.counted

/-- A tick, of a part with no request held. -/
theorem tick_row (s : State) (hd : s.direct = true) : exec .tick s = .next s.timedOut.tickGroups.settle := by
  have row : exec .tick s = .next s.begin.tick :=
    lineEvent_direct s State.tick hd ((held_of_setup_eq (tick_setup s.begin)).trans (begin_held s hd))
  rw [row]
  unfold State.timedOut
  rw [← expired_counted s]
  rfl

/-- In SHUTDOWN the tick ends with the timeouts (R26). -/
theorem tick_in_shutdown (s : State) (hd : s.direct = true) (h : s.timedOut.controller = .shutdown) :
    exec .tick s = .next s.timedOut := by
  rw [tick_row s hd, tickGroups_eq, if_pos h, settle_shutdown _ h]

/-- Outside SHUTDOWN the ages follow the timeouts, and then all that these bring about (R186). -/
theorem tick_outside_shutdown (s : State) (hd : s.direct = true) (h : s.timedOut.controller ≠ .shutdown) :
    exec .tick s = .next s.timedOut.agesTaken.settle := by
  rw [tick_row s hd, tickGroups_eq, if_neg h]

/-- Where no record is late nothing times out (R165). -/
theorem timedOut_of_none (s : State) (h : s.outstanding.filter PortRecord.isLate = []) : s.timedOut = s.counted := by
  unfold State.timedOut State.lateRecords
  rw [h]
  rfl

/-! ### The timeouts while the engine rests -/

/-- The engine that rests does not go on between two timeouts (R103, R119, log 36). -/
theorem engineInTick_of_rests (s : State) (h : s.rests) : s.engineInTick = none := by
  unfold State.engineInTick
  obtain ⟨hc, -⟩ | ⟨-, hidle, hwait, -⟩ := h
  · rw [State.engineAdvance, if_pos hc, ite_self]
  · rw [if_pos ⟨hidle, hwait⟩]

theorem engineGoesOn_of_rests (s : State) (h : s.rests) : ∀ n, s.engineGoesOn n = s
  | 0 => rfl
  | n + 1 => by
    unfold State.engineGoesOn
    rw [engineInTick_of_rests s h]

/-- One timeout, as its record's failure, if no timeout before it has taken the record from the set (R165). -/
def State.timeOutRecord (s : State) (r : PortRecord) : State :=
  if s.recordOf r.number = some r then (s.timeOut r).deliver r .failed else s

theorem timeOutRecord_goes (s : State) (r : PortRecord) (h : s.rests) : s.Goes (s.timeOutRecord r) := by
  unfold State.timeOutRecord
  split
  · have gone := timeOut_goes s r
    exact gone.trans (deliver_goes _ r (gone.rests h))
  · exact .refl s

/-- A record is in the set of a port that began the timeouts with distinct numbers, or it is a new one. -/
theorem timeOutInTick_eq (s x : State) (r : PortRecord) (hx : s.Goes x) (hrests : x.rests)
    (hn : (s.outstanding.map (·.number)).Nodup) (hr : r ∈ s.outstanding) (hexp : r.expired = true) :
    x.timeOutInTick r.number = x.timeOutRecord r := by
  unfold State.timeOutInTick State.timeOutRecord
  cases found : x.expiredOf r.number with
  | none =>
    rw [if_neg]
    intro same
    rw [expiredOf_of_expired x r.number r same hexp] at found
    cases found
  | some y =>
    obtain ⟨hy, hyexp⟩ := Option.filter_eq_some_iff.mp found
    have hold : y ∈ s.outstanding := by
      refine (hx.outstanding y (List.mem_of_find?_eq_some hy)).resolve_right fun h0 => ?_
      obtain ⟨hl, hle⟩ := (expired_iff y).mp hyexp
      omega
    obtain rfl : y = r := List.inj_on_of_nodup_map hn hold hr (recordOf_number x r.number y hy)
    have gone := timeOut_goes x y
    have rests_ := (gone.trans (deliver_goes _ y (gone.rests hrests))).rests hrests
    rw [if_pos hy]
    exact engineGoesOn_of_rests _ rests_ settleFuel

theorem timeOuts_eq (s : State) (hn : (s.outstanding.map (·.number)).Nodup) (l : List PortRecord) :
    ∀ x : State, s.Goes x → x.rests → (∀ r ∈ l, r ∈ s.outstanding ∧ r.expired = true) →
      (l.map (·.number)).foldl State.timeOutInTick x = l.foldl State.timeOutRecord x ∧
        s.Goes (l.foldl State.timeOutRecord x) ∧ (l.foldl State.timeOutRecord x).rests := by
  induction l with
  | nil => exact fun x hx hr _ => ⟨rfl, hx, hr⟩
  | cons r l ih =>
    intro x hx hrests h
    obtain ⟨hr, hexp⟩ := h r (List.mem_cons_self ..)
    have gone := timeOutRecord_goes x r hrests
    rw [List.map_cons, List.foldl_cons, List.foldl_cons, timeOutInTick_eq s x r hx hrests hn hr hexp]
    exact ih _ (hx.trans gone) (gone.rests hrests) fun y hy => h y (List.mem_cons_of_mem _ hy)

/-- The timeouts of a tick while the engine rests: each late record's failure, in the order of issue (R165, R186). -/
theorem timedOut_of_rests (s : State) (hn : (s.outstanding.map (·.number)).Nodup) (h : s.counted.rests) :
    s.timedOut = s.lateRecords.foldl State.timeOutRecord s.counted ∧ s.counted.Goes s.timedOut := by
  obtain ⟨heq, hgoes, -⟩ := timeOuts_eq s.counted ((counted_numbers s).symm ▸ hn) s.lateRecords s.counted (.refl _) h fun r hr =>
    List.mem_filter.mp ((expired_counted s).symm ▸ hr)
  unfold State.timedOut
  exact ⟨heq, heq.symm ▸ hgoes⟩

end Sys2Proof.Machine
end

section
/-! SUPPORT. A tick at which one record alone is late (O31). -/

namespace Sys2Proof.Machine

/-- What a key names in a list is the element that has it, where the keys are distinct. -/
theorem find?_of_nodup {α β : Type} [DecidableEq β] (f : α → β) (l : List α) (h : (l.map f).Nodup) (a : α) (ha : a ∈ l) :
    l.find? (fun y => f y == f a) = some a := by
  cases found : l.find? (fun y => f y == f a) with
  | none =>
    have := List.find?_eq_none.mp found a ha
    simp at this
  | some y =>
    exact congrArg some (List.inj_on_of_nodup_map h (List.mem_of_find?_eq_some found) ha
      (by simpa using List.find?_some found))

/-- A record of the set is the one that its number names, where the numbers are distinct (R161). -/
theorem recordOf_counted (s : State) (hn : (s.outstanding.map (·.number)).Nodup) (r : PortRecord)
    (hr : r ∈ s.outstanding) : s.counted.recordOf r.number = some r.tick := by
  rw [← tick_number r]
  exact find?_of_nodup PortRecord.number s.counted.outstanding ((counted_numbers s).symm ▸ hn) r.tick (List.mem_map_of_mem hr)

theorem mem_of_late {s : State} {l : List PortRecord} (hl : s.outstanding.filter PortRecord.isLate = l) {r : PortRecord}
    (hr : r ∈ l) : r ∈ s.outstanding ∧ r.isLate = true :=
  List.mem_filter.mp (hl ▸ hr)

/-- One late record: its failure, while the engine rests (R165). -/
theorem timedOut_of_single (s : State) (r : PortRecord) (hn : (s.outstanding.map (·.number)).Nodup)
    (h : s.counted.rests) (hl : s.outstanding.filter PortRecord.isLate = [r]) :
    s.timedOut = (s.counted.timeOut r.tick).deliver r.tick .failed := by
  have hr := mem_of_late hl (List.mem_singleton_self r)
  rw [(timedOut_of_rests s hn h).1]
  unfold State.lateRecords
  rw [hl]
  have found := recordOf_counted s hn r hr.1
  rw [← tick_number r] at found
  exact if_pos found

/-- The row of the one record's timeout, at the state in which the counts have gone on (R165). -/
theorem arrayTimeout_counted (s : State) (r : PortRecord) (hd : s.direct = true)
    (hn : (s.outstanding.map (·.number)).Nodup) (hl : s.outstanding.filter PortRecord.isLate = [r]) :
    exec (.arrayTimeout r.number) s.counted = .next ((s.counted.timeOut r.tick).report r.tick .failed) := by
  have hr := mem_of_late hl (List.mem_singleton_self r)
  rw [arrayTimeout_row s.counted r.number hd]
  exact congrArg Host.Outcome.next (timeOutNumber_of_expired s.counted r.number r.tick
    (expiredOf_of_expired s.counted r.number r.tick (recordOf_counted s hn r hr.1) ((expired_tick r).trans hr.2)))

/-- Where no group is OPEN a tick is its timeouts, and what they bring about (R7). -/
theorem tick_of_none_open (s : State) (hd : s.direct = true) (h : ∀ t, s.timedOut.groupState t ≠ .opened) :
    exec .tick s = .next s.timedOut.settle := by
  rw [tick_row s hd, tickGroups_eq, agesTaken_of_none _ h, ite_self]

/-- One late record of the memory path, and no group OPEN: the tick is its ARRAY_TIMEOUT (R165). -/
theorem tick_is_arrayTimeout (s : State) (r : PortRecord) (hd : s.direct = true)
    (hn : (s.outstanding.map (·.number)).Nodup) (h : s.counted.rests)
    (hl : s.outstanding.filter PortRecord.isLate = [r]) (ho : ∀ t, s.groupState t ≠ .opened)
    (hm : r.purpose.ofMemoryPath = true) : exec .tick s = exec (.arrayTimeout r.number) s.counted := by
  have goes := (timedOut_of_rests s hn h).2
  rw [tick_of_none_open s hd fun t ht => ho t (goes.opened t ht), timedOut_of_single s r hn h hl,
    arrayTimeout_counted s r hd hn hl, State.report, if_pos (by rw [tick_purpose]; exact hm)]

/-! ### A record of the scanner or of FORMAT -/

/-- A part in CONFIG or RECOVERING with nothing of its own to do. -/
structure State.still (s : State) : Prop where
  controller : s.controller = .config ∨ s.controller = .recovering
  groups : ∀ t, s.groupState t = .free
  entries : ∀ e ∈ s.requests, e.phase ≠ .ordered
  marks : ∀ p, (s.part p).marks = []
  idle : s.engine.state = .idle
  waiting : s.engine.waiting = []

theorem State.still.settle {s : State} (h : s.still) : s.settle = s := by
  refine settle_of_atRest s (atRest_of s h.entries (fun t => ?_) (engineAdvance_of_idle s h.idle h.waiting)
    (fun p _ m hm => ?_) fun hq => ?_)
  · rw [h.groups t]
    nofun
  · rw [h.marks p] at hm
    cases hm
  · exact h.controller.elim (fun hc => by rw [hc] at hq; cases hq) fun hc => by rw [hc] at hq; cases hq

theorem State.still.of_same {s x : State} (h : s.still) (hc : x.controller = s.controller) (hg : x.groups = s.groups)
    (hr : x.requests = s.requests) (hp : x.partitions = s.partitions) (he : x.engine = s.engine) : x.still where
  controller := hc ▸ h.controller
  groups := fun t => by
    rw [State.groupState, State.group, hg]
    exact h.groups t
  entries := hr ▸ h.entries
  marks := fun p => by
    rw [State.part, hp]
    exact h.marks p
  idle := he ▸ h.idle
  waiting := he ▸ h.waiting

theorem State.still.log {s : State} (h : s.still) (i : Incident) : (s.log i).still := by
  rw [log_eq]
  exact h.of_same rfl rfl rfl rfl rfl

theorem State.still.startFailed {s : State} (h : s.still) : (s.startFailed .arrayError).still := by
  obtain ⟨d, f, heq, -⟩ := startFailed_eq s .arrayError nofun
  rw [heq]
  exact
    { controller := .inl rfl
      groups := h.groups
      entries := h.entries
      marks := fun p => by
        show ((Vector.replicate 4 Partition.cleared)[p]).marks = []
        simp [Partition.cleared]
      idle := h.idle
      waiting := h.waiting }

/-- A second attempt of the scanner's access, or the end of START. -/
theorem State.still.secondAttempt {s : State} (h : s.still) (u : Purpose) (r : Ref) (a : Addr) (n : Nat) (d : Bytes) :
    (if s.scanner.attempt = 1 then (s.modScanner fun sc => { sc with attempt := 2 }).issue u r a n d
      else s.startFailed .arrayError).still := by
  split
  · exact h.of_same rfl rfl rfl rfl rfl
  · exact h.startFailed

theorem State.still.headerReadOutcome {s : State} (h : s.still) (p : PartId) (k : Nat) :
    (s.headerReadOutcome p k .failed).still := by
  unfold State.headerReadOutcome
  split
  · by_cases hk : k = 0
    · simp only [hk, if_true]
      split
      · exact h.of_same rfl rfl rfl rfl rfl
      · exact h.startFailed
    · simp only [hk, if_false]
      split
      · exact h.of_same rfl rfl rfl rfl rfl
      · exact h.startFailed
  · exact h

theorem State.still.formatOutcome {s : State} (h : s.still) : (s.formatOutcome .failed).still := by
  unfold State.formatOutcome
  split
  · exact h
  · dsimp only
    split
    · exact h.of_same rfl rfl rfl rfl rfl
    · exact h.of_same rfl rfl rfl rfl rfl

/-- A failure of the scanner's or of FORMAT's access leaves nothing else to do. -/
theorem State.still.deliver {s : State} (h : s.still) (r : PortRecord) (hm : r.purpose.ofMemoryPath = false) :
    (s.deliver r .failed).still := by
  unfold State.deliver
  split
  case h_8 => exact h.headerReadOutcome _ _
  case h_9 =>
    unfold State.scanReadOutcome
    split
    · exact h.secondAttempt _ _ _ _ _
    · exact h
  case h_10 =>
    unfold State.voidReadOutcome
    split
    · exact h.secondAttempt _ _ _ _ _
    · exact h
  case h_11 =>
    unfold State.voidWriteOutcome
    split
    · exact h.secondAttempt _ _ _ _ _
    · exact h
  case h_12 =>
    unfold State.recoveryReadOutcome
    split
    · exact h.secondAttempt _ _ _ _ _
    · exact h
  case h_13 =>
    unfold State.recoveryWriteOutcome
    split
    · exact h.secondAttempt _ _ _ _ _
    · exact h
  case h_14 =>
    unfold State.headerRewriteOutcome
    split
    · exact h.secondAttempt _ _ _ _ _
    · exact h
  case h_15 => exact h.formatOutcome
  case h_16 => exact h
  all_goals
    rename_i purpose_ _
    rw [purpose_] at hm
    cases hm

/-- One late record of the scanner or of FORMAT, with nothing else to do: the tick is its ARRAY_TIMEOUT (R165). -/
theorem tick_is_arrayTimeout_of_still (s : State) (r : PortRecord) (hd : s.direct = true)
    (hn : (s.outstanding.map (·.number)).Nodup) (h : s.counted.rests)
    (hl : s.outstanding.filter PortRecord.isLate = [r]) (hs : s.counted.still)
    (hm : r.purpose.ofMemoryPath = false) : exec .tick s = exec (.arrayTimeout r.number) s.counted := by
  have goes := (timedOut_of_rests s hn h).2
  have timeOut_ : (s.counted.timeOut r.tick).still := by
    unfold State.timeOut
    dsimp only
    split
    · exact hs.of_same rfl rfl rfl rfl rfl
    · exact State.still.log (hs.of_same (x := s.counted.forget r.tick.number) rfl rfl rfl rfl rfl) _
  have delivered := timeOut_.deliver r.tick (by rw [tick_purpose]; exact hm)
  have free_ : ∀ t, s.timedOut.groupState t ≠ .opened := fun t ht => by
    have := goes.opened t ht
    rw [hs.groups t] at this
    cases this
  rw [tick_of_none_open s hd free_, timedOut_of_single s r hn h hl, arrayTimeout_counted s r hd hn hl, State.report,
    if_neg (by rw [tick_purpose, hm]; nofun), delivered.settle]

end Sys2Proof.Machine
end

section
/-! SUPPORT. Accesses of the request table that time out at a tick (O31). -/

namespace Sys2Proof.Machine

/-- The records that stay, with their counts (R165). -/
def State.recordsLeft (s : State) : List PortRecord :=
  (s.outstanding.filter (fun r => !r.isLate)).map PortRecord.tick

/-- Without the late records' numbers the set is the records that stay. -/
theorem recordsLeft_eq (s : State) (hn : (s.outstanding.map (·.number)).Nodup) (late : List PortRecord)
    (hl : s.outstanding.filter PortRecord.isLate = late) :
    s.counted.outstanding.filter (fun y => late.all (fun r => y.number != r.number)) = s.recordsLeft := by
  show (s.outstanding.map PortRecord.tick).filter (fun y => late.all (fun r => y.number != r.number)) = _
  rw [List.filter_map]
  refine congrArg (List.map PortRecord.tick) (List.filter_congr fun y hy => ?_)
  show late.all (fun r => y.tick.number != r.number) = !y.isLate
  rw [tick_number, Bool.eq_iff_iff, List.all_eq_true]
  constructor
  · intro h
    rw [Bool.not_eq_true', Bool.eq_false_iff]
    intro hlate
    have := h y (hl ▸ List.mem_filter.mpr ⟨hy, hlate⟩)
    simp at this
  · intro h r hr
    obtain ⟨hrs, hrl⟩ := mem_of_late hl hr
    rw [bne_iff_ne]
    intro same
    rw [List.inj_on_of_nodup_map hn hy hrs same, hrl] at h
    cases h

theorem forget_single (s : State) (hn : (s.outstanding.map (·.number)).Nodup) (r : PortRecord)
    (hl : s.outstanding.filter PortRecord.isLate = [r]) :
    s.counted.forget r.number = { s.counted with outstanding := s.recordsLeft } := by
  have left := recordsLeft_eq s hn [r] hl
  simp only [List.all_cons, List.all_nil, Bool.and_true] at left
  rw [← left]
  rfl

/-! ### Host reads and home writes of no group (R77, R93, R94) -/

/-- ARRAY_TIMEOUT of a host read or of a home write (R166). -/
def State.logsTimeout (s : State) (r : PortRecord) : State :=
  s.log ⟨.arrayTimeout, 0, none, none, none, some (lineOf r.address), some (if r.purpose = .hostRead then 1 else 3)⟩

/-- The same state with other tables. -/
def State.withTables (o : List PortRecord) (q : List Entry) (p : List Response) (s : State) : State :=
  { s with outstanding := o, requests := q, responses := p }

theorem logsTimeout_withTables (o : List PortRecord) (q : List Entry) (p : List Response) (s : State) (r : PortRecord) :
    (s.withTables o q p).logsTimeout r = (s.logsTimeout r).withTables o q p := by
  unfold State.logsTimeout
  rw [log_eq, log_eq]
  rfl

theorem logsTimeouts_withTables (o : List PortRecord) (q : List Entry) (p : List Response) (l : List PortRecord) :
    ∀ s : State, l.foldl State.logsTimeout (s.withTables o q p) = (l.foldl State.logsTimeout s).withTables o q p := by
  induction l with
  | nil => exact fun _ => rfl
  | cons r l ih =>
    intro s
    rw [List.foldl_cons, List.foldl_cons, logsTimeout_withTables, ih]

/-- The access of an entry of no group, outstanding at the port (R89, R90). -/
structure Entry.awaits (e : Entry) (r : PortRecord) : Prop where
  ref : r.ref = .entry e.index
  group : e.group = none
  member : e.member = none
  phase : r.purpose = .hostRead ∧ e.phase = .loading ∨ r.purpose = .homeWrite ∧ e.phase = .storing

/-- The response of an entry whose access has failed, if it is unanswered (R93, R94). -/
def Entry.failure (e : Entry) : Option Response :=
  if e.answered then none else some ⟨e.request.hostId, .arrayError, []⟩

/-- An entry's access fails: it is answered, unless it has been, and leaves (R93, R94). -/
theorem deliver_of_awaits (s : State) (r : PortRecord) (e : Entry) (h : e.awaits r) (he : s.entry e.index = some e) :
    s.deliver r .failed = s.withTables s.outstanding (s.requests.filter (fun x => x.index != e.index))
      (s.responses ++ e.failure.toList) := by
  obtain ⟨href, hgroup, hmember, ⟨hpurpose, hphase⟩ | ⟨hpurpose, hphase⟩⟩ := h
  · have found : s.waiting e.index .loading = some e := by simp [State.waiting, he, hphase]
    unfold State.deliver
    rw [hpurpose, href]
    simp only [State.hostReadOutcome, found, State.readFailed, hgroup, Entry.failure]
    cases e.answered
    · rfl
    · simp [State.dropEntry, State.withTables]
  · have found : s.waiting e.index .storing = some e := by simp [State.waiting, he, hphase]
    unfold State.deliver
    rw [hpurpose, href]
    simp only [State.homeWriteOutcome, found, State.homeWriteFailed, State.logHomeWrite, hgroup, hmember, Entry.failure]
    cases e.answered
    · rfl
    · simp [State.dropEntry, State.withTables]

/-- The timeout of such a record (R165, R166). -/
theorem timeOut_of_awaits (s : State) (r : PortRecord) (e : Entry) (h : e.awaits r) (hc : s.controller ≠ .shutdown) :
    s.timeOut r.tick = (s.logsTimeout r).withTables (s.outstanding.filter (fun y => y.number != r.number)) s.requests
      s.responses := by
  have code_ : r.purpose.code = if r.purpose = .hostRead then 1 else 3 := by
    obtain ⟨hp, -⟩ | ⟨hp, -⟩ := h.phase <;> rw [hp] <;> rfl
  have nowhere : s.timeoutPartition r.tick = none := by
    refine (timeoutPartition_by_purpose s r.tick).2.2.2.2.2.2 ?_
    rw [tick_purpose]
    exact h.phase.elim (fun hp => .inr (.inr (.inl hp.1))) fun hp => .inl hp.1
  have incident : s.timeoutIncident r.tick = ⟨.arrayTimeout, 0, none, none, none, some (lineOf r.address),
      some (if r.purpose = .hostRead then 1 else 3)⟩ := by
    unfold State.timeoutIncident
    rw [nowhere, tick_address, tick_purpose, code_]
    rfl
  unfold State.timeOut
  rw [incident, tick_number]
  exact (if_neg hc).trans (logsTimeout_withTables (s.outstanding.filter (fun y => y.number != r.number)) s.requests
    s.responses s r)

theorem logsTimeout_tables (s : State) (r : PortRecord) : (s.logsTimeout r).outstanding = s.outstanding ∧
    (s.logsTimeout r).requests = s.requests ∧ (s.logsTimeout r).responses = s.responses ∧
    (s.logsTimeout r).controller = s.controller := by
  unfold State.logsTimeout
  rw [log_eq]
  exact ⟨rfl, rfl, rfl, rfl⟩

/-- One such timeout: everything it changes. -/
theorem timeOutRecord_of_awaits (s : State) (r : PortRecord) (e : Entry) (h : e.awaits r) (hc : s.controller ≠ .shutdown)
    (hn : (s.outstanding.map (·.number)).Nodup) (hr : r.tick ∈ s.outstanding) (hi : s.entriesNumbered)
    (he : e ∈ s.requests) :
    s.timeOutRecord r.tick = (s.logsTimeout r).withTables (s.outstanding.filter (fun y => y.number != r.number))
      (s.requests.filter (fun x => x.index != e.index)) (s.responses ++ e.failure.toList) := by
  have found : s.recordOf r.tick.number = some r.tick := find?_of_nodup PortRecord.number s.outstanding hn r.tick hr
  have entry_ : s.entry e.index = some e := find?_of_nodup Entry.index s.requests hi e he
  have awaits_ : e.awaits r.tick :=
    ⟨(tick_ref r).trans h.ref, h.group, h.member, by rw [tick_purpose]; exact h.phase⟩
  unfold State.timeOutRecord
  rw [if_pos found, timeOut_of_awaits s r e h hc]
  exact deliver_of_awaits ((s.logsTimeout r).withTables (s.outstanding.filter (fun y => y.number != r.number)) s.requests
    s.responses) r.tick e awaits_ entry_

/-- The entry of a late record (R86). -/
def entryOfRecord (table : List Entry) (r : PortRecord) : Option Entry :=
  table.find? (fun e => decide (r.ref = .entry e.index))

/-- Such timeouts, in the order of issue: everything they change (R77, R165). -/
theorem timeOutRecords_of_awaits (table : List Entry) (l : List PortRecord) : ∀ s : State, s.controller ≠ .shutdown →
    (s.outstanding.map (·.number)).Nodup → s.entriesNumbered → (l.map (·.number)).Nodup → (l.map (·.ref)).Nodup →
    (∀ r ∈ l, r.tick ∈ s.outstanding ∧ ∃ e ∈ s.requests, entryOfRecord table r = some e ∧ e.awaits r) →
    (l.map PortRecord.tick).foldl State.timeOutRecord s = (l.foldl State.logsTimeout s).withTables
      (s.outstanding.filter (fun y => l.all (fun r => y.number != r.number)))
      (s.requests.filter (fun e => l.all (fun r => decide (r.ref ≠ .entry e.index))))
      (s.responses ++ (l.filterMap (entryOfRecord table)).filterMap Entry.failure) := by
  induction l with
  | nil =>
    intro s _ _ _ _ _ _
    simp [State.withTables]
  | cons r l ih =>
    intro s hc hn hi hnum href h
    obtain ⟨hr, e, he, htable, hawaits⟩ := h r (List.mem_cons_self ..)
    obtain ⟨hnum1, hnum⟩ := List.nodup_cons.mp hnum
    obtain ⟨href1, href⟩ := List.nodup_cons.mp href
    obtain ⟨logOut, logReq, logResp, logCtrl⟩ := logsTimeout_tables s r
    have rest := ih ((s.logsTimeout r).withTables (s.outstanding.filter (fun y => y.number != r.number))
      (s.requests.filter (fun x => x.index != e.index)) (s.responses ++ e.failure.toList))
      (show (s.logsTimeout r).controller ≠ .shutdown from logCtrl ▸ hc) (hn.sublist (List.filter_sublist.map _))
      (List.Nodup.sublist (List.filter_sublist.map _) hi) hnum href fun y hy => by
        obtain ⟨hys, f, hf, hftable, hfawaits⟩ := h y (List.mem_cons_of_mem _ hy)
        refine ⟨List.mem_filter.mpr ⟨hys, ?_⟩, f, List.mem_filter.mpr ⟨hf, ?_⟩, hftable, hfawaits⟩
        · rw [tick_number, bne_iff_ne]
          exact fun same => hnum1 (List.mem_map.mpr ⟨y, hy, same⟩)
        · rw [bne_iff_ne]
          exact fun same => href1 (List.mem_map.mpr ⟨y, hy, hfawaits.ref.trans (by rw [same, ← hawaits.ref])⟩)
    rw [List.map_cons, List.foldl_cons, List.foldl_cons, timeOutRecord_of_awaits s r e hawaits hc hn hr hi he, rest,
      logsTimeouts_withTables]
    have out : ((s.outstanding.filter (fun y => y.number != r.number)).filter
        (fun y => l.all (fun r => y.number != r.number))) =
        s.outstanding.filter (fun y => (r :: l).all (fun r => y.number != r.number)) := by
      rw [List.filter_filter]
      exact List.filter_congr fun y _ => by rw [List.all_cons, Bool.and_comm]
    have req : ((s.requests.filter (fun x => x.index != e.index)).filter
        (fun x => l.all (fun r => decide (r.ref ≠ .entry x.index)))) =
        s.requests.filter (fun x => (r :: l).all (fun r => decide (r.ref ≠ .entry x.index))) := by
      rw [List.filter_filter]
      refine List.filter_congr fun x _ => ?_
      have same : (x.index != e.index) = decide (r.ref ≠ .entry x.index) := by
        rw [hawaits.ref, Bool.eq_iff_iff, bne_iff_ne, decide_eq_true_iff]
        simp [eq_comm]
      rw [List.all_cons, Bool.and_comm, same]
    have resp : (s.responses ++ e.failure.toList) ++ (l.filterMap (entryOfRecord table)).filterMap Entry.failure =
        s.responses ++ ((r :: l).filterMap (entryOfRecord table)).filterMap Entry.failure := by
      rw [List.filterMap_cons, htable, List.append_assoc]
      dsimp only
      rw [List.filterMap_cons]
      cases e.failure <;> rfl
    show State.withTables _ _ _ _ = _
    rw [← out, ← req, ← resp]
    rfl

theorem entryOfRecord_of_ref (table : List Entry) (h : (table.map (·.index)).Nodup) (r : PortRecord) (e : Entry)
    (he : e ∈ table) (hr : r.ref = .entry e.index) : entryOfRecord table r = some e := by
  have key : (fun x : Entry => decide (r.ref = .entry x.index)) = fun x => x.index == e.index := by
    funext x
    rw [hr, Bool.eq_iff_iff, decide_eq_true_iff, beq_iff_eq]
    simp [eq_comm]
  unfold entryOfRecord
  rw [key]
  exact find?_of_nodup Entry.index table h e he

/-- Host reads and home writes of no group that time out together (R77, R165). -/
theorem tick_of_awaits (s : State) (hd : s.direct = true) (hn : (s.outstanding.map (·.number)).Nodup)
    (h : s.counted.rests) (hc : s.controller ≠ .shutdown) (hi : s.entriesNumbered) (late : List PortRecord)
    (hl : s.outstanding.filter PortRecord.isLate = late) (href : (late.map (·.ref)).Nodup)
    (hlate : ∀ r ∈ late, ∃ e ∈ s.requests, e.awaits r) :
    exec .tick s = .next (State.settle (State.agesTaken (late.foldl State.logsTimeout (s.counted.withTables s.recordsLeft
      (s.requests.filter (fun e => late.all (fun r => decide (r.ref ≠ .entry e.index))))
      ((late.filterMap (entryOfRecord s.requests)).filterMap Entry.failure))))) := by
  obtain ⟨timed, goes⟩ := timedOut_of_rests s hn h
  have numbers : (late.map (·.number)).Nodup := hl ▸ hn.sublist (List.filter_sublist.map _)
  have all_ := timeOutRecords_of_awaits s.requests late s.counted hc ((counted_numbers s).symm ▸ hn) hi numbers href
    fun r hr => by
      obtain ⟨e, he, hawaits⟩ := hlate r hr
      exact ⟨List.mem_map_of_mem (mem_of_late hl hr).1, e, he, entryOfRecord_of_ref s.requests hi r e he hawaits.ref,
        hawaits⟩
  rw [recordsLeft_eq s hn late hl, ← logsTimeouts_withTables] at all_
  rw [tick_outside_shutdown s hd (fun h' => hc (goes.controller.mp h')), timed]
  unfold State.lateRecords
  rw [hl, all_]
  rfl

/-! ### A home write of a member of a group (R17, R94) -/

theorem timeoutIncident_of_homeWrite (s : State) (r : PortRecord) (hp : r.purpose = .homeWrite) :
    s.timeoutIncident r.tick = ⟨.arrayTimeout, 0, none, none, none, some (lineOf r.address), some 3⟩ := by
  have nowhere : s.timeoutPartition r.tick = none :=
    (timeoutPartition_by_purpose s r.tick).2.2.2.2.2.2 (.inl ((tick_purpose r).trans hp))
  unfold State.timeoutIncident
  rw [nowhere, tick_address, tick_purpose, hp]
  rfl

/-- The failure of a member's home write that is not its group's commit request (R17, R92, R94). -/
theorem deliver_of_member (s : State) (r : PortRecord) (e : Entry) (t : Tag) (m : Member) (hp : r.purpose = .homeWrite)
    (href : r.ref = .entry e.index) (he : s.entry e.index = some e) (hphase : e.phase = .storing)
    (ha : e.answered = false) (hg : e.group = some t) (hm : e.member = some m)
    (hcr : (s.group t).commitRequest ≠ some e.index) :
    s.deliver r .failed = (((s.respond e.request.hostId .arrayError []).dropEntry e.index).log
      ⟨.homeWriteFailed, 0, some m.tag, some m.sequence, some m.partition, some e.line, none⟩).revoke t .array := by
  have found := waiting_of_entry s e.index e .storing he hphase
  have other : s.isCommitRequest e = false := by
    unfold State.isCommitRequest
    rw [hg]
    simpa using hcr
  unfold State.deliver
  rw [hp, href]
  simp only [State.homeWriteOutcome, found, State.homeWriteFailed, ha, hg, other, State.logHomeWrite, hm]
  rfl

/-- The ages leave a group that is not OPEN as it was (R7, R8). -/
theorem agesTaken_group (s : State) (t : Tag) (h : s.groupState t ≠ .opened) : s.agesTaken.group t = s.group t := by
  have ticked_ : (s.withGroups (s.groups.map Group.tick)).group t = s.group t := by
    show (s.groups.map Group.tick)[t.val] = _
    rw [Vector.getElem_map]
    exact if_neg h
  have due : t ∉ s.dueByAge := fun hm => by
    have := (List.mem_filter.mp hm).2
    simp [State.agesOut, h] at this
  unfold State.agesTaken
  refine (List.foldlRecOn (motive := fun x : State => x.group t = s.group t) _ _ ticked_ fun x hx u hu => ?_)
  rw [revoke_group_ne x u t (fun same => due (same ▸ hu)) .age, hx]

/-- A group that a revocation takes to UNWINDING (R16). -/
theorem revoke_group_self (s : State) (t : Tag) (c : RevokeCause) (hs : s.controller ≠ .shutdown)
    (ha : c.appliesTo (s.groupState t) = true) : (s.revoke t c).group t = { s.group t with
      state := .unwinding, unwindOrigin := some .revoke, revokeCause := some c, commitRequest := none } := by
  obtain ⟨r, q, o, d, heq, -⟩ := revoke_only s t c hs ha
  rw [heq]
  exact setGroup_group_self s t _

end Sys2Proof.Machine
end

section
/-! SUPPORT. The incidents of the ages, and of an unwind that fails at a tick, with the next (O31). -/

namespace Sys2Proof.Machine

/-! ### The incidents of the ages (R8, R192) -/

/-- GROUP_REVOKED of a group that has reached the age limit (R8, R191). -/
def State.agedOut (s : State) (v : Tag) : Incident :=
  ⟨.groupRevoked, s.tickCounter, some v, some ((s.group v).sequence.getD 0), some ((s.group v).partition.getD 0), none,
    some 1⟩

theorem revokesByAge_incidents (l : List Tag) : ∀ s : State, s.controller ≠ .shutdown → l.Nodup →
    (∀ v ∈ l, s.groupState v = .opened) → s.incidents.length ≤ 8 →
    (l.foldl (fun y t => y.revoke t .age) s).incidents = ((l.map s.agedOut).reverse ++ s.incidents).take 8 := by
  induction l with
  | nil => exact fun s _ _ _ h => (List.take_of_length_le h).symm
  | cons t l ih =>
    intro s hs hn ho h8
    obtain ⟨ht, hn⟩ := List.nodup_cons.mp hn
    have other : ∀ v ∈ l, (s.revoke t .age).group v = s.group v := fun v hv =>
      revoke_group_ne s t v (fun same => ht (same ▸ hv)) .age
    obtain ⟨r, q, o, d, heq, -⟩ := revoke_only s t .age hs (by rw [ho t (List.mem_cons_self ..)]; rfl)
    have incidents_ : (s.revoke t .age).incidents = (s.agedOut t :: s.incidents).take 8 := by rw [heq]; rfl
    have tick_ : (s.revoke t .age).tickCounter = s.tickCounter := by rw [heq]
    have ctrl_ : (s.revoke t .age).controller = s.controller := by rw [heq]
    have aged_ : l.map (s.revoke t .age).agedOut = l.map s.agedOut := List.map_congr_left fun v hv => by
      unfold State.agedOut
      rw [other v hv, tick_]
    have opened_ : ∀ v ∈ l, (s.revoke t .age).groupState v = .opened := fun v hv => by
      rw [State.groupState, other v hv]
      exact ho v (List.mem_cons_of_mem _ hv)
    rw [List.foldl_cons, ih _ (ctrl_ ▸ hs) hn opened_ (by rw [incidents_]; simp), aged_, incidents_, List.map_cons,
      List.reverse_cons, List.append_assoc]
    exact take_append_take 8 _ _

theorem agesTaken_incidents (s : State) (hs : s.controller ≠ .shutdown) (h8 : s.incidents.length ≤ 8) :
    s.agesTaken.incidents = ((s.dueByAge.map s.agedOut).reverse ++ s.incidents).take 8 := by
  have ticked_ : ∀ v, (s.withGroups (s.groups.map Group.tick)).group v = (s.group v).tick := fun v => by
    show (s.groups.map Group.tick)[v.val] = _
    rw [Vector.getElem_map]
    rfl
  have kept : ∀ g : Group, g.tick.state = g.state ∧ g.tick.sequence = g.sequence ∧ g.tick.partition = g.partition :=
    fun g => by
      unfold Group.tick
      split <;> exact ⟨rfl, rfl, rfl⟩
  have aged_ : (s.withGroups (s.groups.map Group.tick)).agedOut = s.agedOut := by
    funext v
    unfold State.agedOut
    rw [ticked_, (kept _).2.1, (kept _).2.2]
    rfl
  unfold State.agesTaken
  rw [revokesByAge_incidents s.dueByAge (s.withGroups (s.groups.map Group.tick)) hs
    ((List.nodup_finRange 15).filter _) (fun v hv => ?_) h8, aged_]
  · rfl
  · rw [State.groupState, ticked_, (kept _).1]
    have := (List.mem_filter.mp hv).2
    simp only [State.agesOut, Bool.and_eq_true, beq_iff_eq] at this
    exact this.1.1

/-! ### An unwind that fails, and no read that waits -/

/-- RESTORE_FAILED of the engine's group (R115). -/
def State.restoreFailed (s : State) (t : Tag) : Incident :=
  ⟨.restoreFailed, s.tickCounter, some t, some ((s.group t).sequence.getD 0), some ((s.group t).partition.getD 0),
    s.engine.firstFailed, some s.engine.failedLines⟩

/-- What the report FAILED of an unwind leaves, where no read waits on a line (R21, R115). -/
structure State.FailsTo (s : State) (t : Tag) (x : State) : Prop where
  controller : x.controller = s.controller
  joined : x.joined = s.joined
  claims : x.claims = s.claims
  partitions : x.partitions = s.partitions
  tickCounter : x.tickCounter = s.tickCounter
  ageLimit : x.ageLimit = s.ageLimit
  entries : ∀ e ∈ x.requests, e.phase ≠ .waitUnwind
  idle : x.engine.state = .idle
  waiting : x.engine.waiting = s.engine.waiting
  group : ∀ v, x.group v = if v = t then { s.group t with state := .broken, parkedAbort := none } else s.group v
  incidents : x.incidents = (s.restoreFailed t :: s.incidents).take 8

theorem reportFailed_failsTo (s : State) (t : Tag) (h : ∀ e ∈ s.requests, e.phase ≠ .waitUnwind) :
    s.FailsTo t (s.reportFailed t) := by
  obtain ⟨a, d, f, heq, ha, -⟩ := reportFailed_only s t fun e he hw => absurd hw (h e he)
  rw [heq]
  exact
    { controller := rfl
      joined := rfl
      claims := rfl
      partitions := rfl
      tickCounter := rfl
      ageLimit := rfl
      entries := fun e he => h e (List.mem_filter.mp (List.mem_filter.mp he).1).1
      idle := rfl
      waiting := rfl
      group := fun v => group_setGroup s t v _
      incidents := ha }

/-- The engine takes a group of a FAULTED partition with no logged claim: the group's unwind fails at once (R104,
R111, R113). -/
theorem takenGroup_fails (s : State) (u : Tag) (q : PartId) (hs : s.controller ≠ .shutdown) (hidle : s.engine.state = .idle)
    (hwait : s.engine.waiting = [u]) (hjoined : s.joined = 0) (hq : (s.group u).partition = some q)
    (hf : (s.part q).state = .faulted) (hclaims : ∀ x ∈ s.claims, x.tag = u → x.logged = false)
    (h : ∀ e ∈ s.requests, e.phase ≠ .waitUnwind) (n : Nat) :
    ∃ x y : State, s.engineGoesOn (n + 3) = y ∧ x.FailsTo u y ∧ x.engine.waiting = [] ∧ x.group = s.group ∧
      x.ageLimit = s.ageLimit ∧ x.controller = s.controller ∧ x.tickCounter = s.tickCounter ∧
      x.incidents = s.incidents ∧ x.engine.firstFailed = none ∧ x.engine.failedLines = 0 := by
  have taken : s.engineInTick = some (s.takeGroup u []) := by
    unfold State.engineInTick
    rw [if_neg (by rw [hwait, hjoined]; simp), State.engineAdvance, if_neg hs,
      engineTakes_of_idle s u [] hidle hwait]
    have none_ : s.engineFails = none := by
      unfold State.engineFails
      simp only [hidle]
    rw [none_]
    rfl
  let settling := s.takeGroup u []
  let restoring := settling.modEngine fun e => { e with state := .restoring, restoreSet := [] }
  have settled : settling.engineInTick = some (restoring.reportFailed u) := by
    have empty : settling.restoreSetOf u = [] := by
      refine restoreSetOf_eq_nil settling u (.inl (List.filter_eq_nil_iff.mpr fun c hc => ?_))
      by_cases ht : c.tag = u
      · simp [hclaims c hc ht]
      · simp [ht]
    have enters : settling.enterRestoring u = restoring.reportFailed u := by
      unfold State.enterRestoring
      rw [empty]
      refine (takeNextLine_nil restoring u rfl rfl).trans (restoresOver_fails restoring u (.inr fun p hp => ?_))
      obtain rfl : q = p := Option.some.inj (hq.symm.trans hp)
      rw [show restoring.part q = s.part q from rfl, hf]
      nofun
    have settles : settling.engineSettles = some (settling.enterRestoring u) :=
      engineSettles_of_settled settling u rfl rfl
        ((groupSettled_iff settling u q hq).mpr fun _ _ _ => .inr (.inr hf))
    unfold State.engineInTick
    rw [if_neg (fun h' => nomatch h'.1), State.engineAdvance, if_neg (show ¬ settling.controller = .shutdown from hs),
      settles, enters]
    rfl
  have fails := reportFailed_failsTo restoring u h
  have ends : (restoring.reportFailed u).engineInTick = none := by
    unfold State.engineInTick
    rw [if_pos ⟨fails.idle, by rw [fails.waiting]; exact Nat.zero_le _⟩]
  refine ⟨restoring, restoring.reportFailed u, ?_, fails, rfl, rfl, rfl, rfl, rfl, rfl, rfl, rfl⟩
  have last : ∀ m, (restoring.reportFailed u).engineGoesOn (m + 1) = restoring.reportFailed u := fun m => by
    unfold State.engineGoesOn
    rw [ends]
  have middle : settling.engineGoesOn (n + 2) = restoring.reportFailed u := by
    unfold State.engineGoesOn
    rw [settled]
    exact last n
  unfold State.engineGoesOn
  rw [taken]
  exact middle

/-- The last line's read fails for the second time: the unwind fails (R109, R111). -/
theorem secondReadFailure (s : State) (t : Tag) (c : Claim) (hs : s.controller ≠ .shutdown)
    (hc : s.engine.current = some t) (hline : s.engine.currentLine = some c) (hstep : s.engine.lineStep = .reading 2)
    (hset : s.engine.restoreSet = []) :
    s.unwindReadOutcome .failed = (s.setEngine (s.engine.lineLost c)).reportFailed t := by
  rw [(unwindReadOutcome_of_reading s c 2 hline hstep).2, if_neg (by decide)]
  exact lineEnded_of_last (s.setEngine (s.engine.lineLost c)) t hs hc hset (.inl (Nat.succ_ne_zero _))

theorem unwindRead_delivers (s : State) (r : PortRecord) (hp : r.purpose = .unwindRead) (href : r.ref = .unwindLine) :
    s.deliver r .failed = s.unwindReadOutcome .failed := by
  unfold State.deliver
  rw [hp, href]

theorem timeoutIncident_of_unwindRead (s : State) (r : PortRecord) (t : Tag) (hp : r.purpose = .unwindRead)
    (ht : s.engine.current = some t) : s.timeoutIncident r.tick =
      ⟨.arrayTimeout, 0, none, none, (s.group t).partition, some (lineOf r.address), some 6⟩ := by
  have place := (timeoutPartition_by_purpose s r.tick).2.2.2.2.1 t ((tick_purpose r).trans hp) ht
  unfold State.timeoutIncident
  rw [place, tick_address, tick_purpose, hp]
  rfl

/-- A list cut after each of two elements in front is cut once. -/
theorem take_nested_takes {α : Type} (n : Nat) (front : List α) (x y z : α) (l : List α) :
    (front ++ x :: (y :: (z :: l).take n).take n).take n = (front ++ ([x, y, z] ++ l)).take n := by
  have outer := take_append_take n (front ++ [x]) (y :: (z :: l).take n)
  have inner := take_append_take n (front ++ [x, y]) (z :: l)
  simp only [List.append_assoc, List.cons_append, List.nil_append] at outer inner ⊢
  exact outer.trans inner

/-- One late record, whether the engine rests or not: its failure, and the engine that goes on (R165, log 36). -/
theorem timedOut_of_one (s : State) (r : PortRecord) (hn : (s.outstanding.map (·.number)).Nodup)
    (hl : s.outstanding.filter PortRecord.isLate = [r]) :
    s.timedOut = ((s.counted.timeOut r.tick).deliver r.tick .failed).engineGoesOn settleFuel := by
  have hr := mem_of_late hl (List.mem_singleton_self r)
  have found := expiredOf_of_expired s.counted r.number r.tick (recordOf_counted s hn r hr.1)
    ((expired_tick r).trans hr.2)
  unfold State.timedOut State.lateRecords
  rw [hl]
  show s.counted.timeOutInTick r.tick.number = _
  rw [tick_number]
  unfold State.timeOutInTick
  rw [found]

/-- The row of O31's last clause: the unwind whose read times out fails, and the next at once, before the ages. -/
theorem tick_fails_two (s : State) (r : PortRecord) (c : Claim) (t u : Tag) (q : PartId) (hd : s.direct = true)
    (hn : (s.outstanding.map (·.number)).Nodup) (hl : s.outstanding.filter PortRecord.isLate = [r])
    (hs : s.controller ≠ .shutdown) (hp : r.purpose = .unwindRead) (href : r.ref = .unwindLine)
    (hc : s.engine.current = some t) (hline : s.engine.currentLine = some c) (hstep : s.engine.lineStep = .reading 2)
    (hset : s.engine.restoreSet = []) (hwait : s.engine.waiting = [u]) (ht : s.groupState t = .unwinding)
    (hu : s.groupState u = .unwinding) (htu : t ≠ u) (hq : (s.group u).partition = some q)
    (hf : (s.part q).state = .faulted) (hclaims : ∀ x ∈ s.claims, x.tag = u → x.logged = false)
    (hreads : ∀ e ∈ s.requests, e.phase ≠ .waitUnwind) :
    ∃ x : State, exec .tick s = .next x.settle ∧ (x.group t).state = .broken ∧ (x.group u).state = .broken ∧
      x.incidents = ((s.dueByAge.map (fun v => (⟨.groupRevoked, s.tickCounter + 1, some v,
          some ((s.group v).sequence.getD 0), some ((s.group v).partition.getD 0), none, some 1⟩ : Incident))).reverse ++
        ([⟨.restoreFailed, s.tickCounter + 1, some u, some ((s.group u).sequence.getD 0), some q, none, some 0⟩,
          ⟨.restoreFailed, s.tickCounter + 1, some t, some ((s.group t).sequence.getD 0),
            some ((s.group t).partition.getD 0), some (s.engine.firstFailed.getD c.line),
            some (s.engine.failedLines + 1)⟩,
          ⟨.arrayTimeout, s.tickCounter + 1, none, none, (s.group t).partition, some (lineOf r.address),
            some 6⟩] : List Incident) ++ s.incidents).take 8 := by
  obtain ⟨late, hlate⟩ : ∃ late, late = s.counted.timeOut r.tick := ⟨_, rfl⟩
  have hlog : late = (s.counted.forget r.tick.number).log
      ⟨.arrayTimeout, 0, none, none, (s.group t).partition, some (lineOf r.address), some 6⟩ := by
    rw [hlate]
    unfold State.timeOut
    rw [timeoutIncident_of_unwindRead s.counted r t hp hc]
    exact if_neg hs
  have lateIncidents := log_take ⟨.arrayTimeout, 0, none, none, (s.group t).partition, some (lineOf r.address), some 6⟩
    (s.counted.forget r.tick.number)
  rw [← hlog] at lateIncidents
  obtain ⟨a, d, f, hlateEq⟩ := log_only ⟨.arrayTimeout, 0, none, none, (s.group t).partition, some (lineOf r.address),
    some 6⟩ (s.counted.forget r.tick.number)
  rw [← hlog] at hlateEq
  have engine_ : late.engine = s.engine := by rw [hlateEq]; rfl
  have group_ : late.group = s.group := by rw [hlateEq]; rfl
  obtain ⟨lost, hlost⟩ : ∃ lost, lost = late.setEngine (late.engine.lineLost c) := ⟨_, rfl⟩
  have first := reportFailed_failsTo lost t (by rw [hlost, hlateEq]; exact hreads)
  obtain ⟨broken, hbroken⟩ : ∃ broken, broken = lost.reportFailed t := ⟨_, rfl⟩
  rw [← hbroken] at first
  have timed : s.timedOut = broken.engineGoesOn settleFuel := by
    rw [timedOut_of_one s r hn hl, ← hlate, unwindRead_delivers late r.tick ((tick_purpose r).trans hp)
      ((tick_ref r).trans href), secondReadFailure late t c (by rw [hlateEq]; exact hs) (by rw [engine_]; exact hc)
      (by rw [engine_]; exact hline) (by rw [engine_]; exact hstep) (by rw [engine_]; exact hset), hbroken, hlost]
  have lostGroup : lost.group = s.group := by rw [hlost]; exact group_
  have brokenOther : ∀ v, v ≠ t → broken.group v = s.group v := fun v hv => by
    rw [first.group v, if_neg hv, lostGroup]
  have lostSame : lost.controller = s.controller ∧ lost.joined = 0 ∧ lost.claims = s.claims ∧
      lost.partitions = s.partitions ∧ lost.tickCounter = s.tickCounter + 1 ∧ lost.ageLimit = s.ageLimit := by
    rw [hlost, hlateEq]
    exact ⟨rfl, rfl, rfl, rfl, rfl, rfl⟩
  obtain ⟨lostCtrl, lostJoined, lostClaims, lostParts, lostTick, lostLimit⟩ := lostSame
  obtain ⟨x, y, goesOn, second, xWaiting, xGroup, xLimit, xCtrl, xTick, xIncidents, xFirst, xFailed⟩ :=
    takenGroup_fails broken u q (by rw [first.controller, lostCtrl]; exact hs) first.idle
      (by rw [first.waiting, hlost]; exact engine_ ▸ hwait) (by rw [first.joined, lostJoined])
      (by rw [brokenOther u htu.symm]; exact hq)
      (by rw [State.part, first.partitions, lostParts]; exact hf)
      (by rw [first.claims, lostClaims]; exact hclaims) first.entries 61
  have timedEq : s.timedOut = y := timed.trans goesOn
  have yCtrl : y.controller ≠ .shutdown := by
    rw [second.controller, xCtrl, first.controller, lostCtrl]
    exact hs
  have yTick : y.tickCounter = s.tickCounter + 1 := by
    rw [second.tickCounter, xTick, first.tickCounter, lostTick]
  have yGroup : ∀ v, v ≠ t → v ≠ u → y.group v = s.group v := fun v hvt hvu => by
    rw [second.group v, if_neg hvu, xGroup, brokenOther v hvt]
  have yBroken : y.groupState t = .broken ∧ y.groupState u = .broken := by
    refine ⟨?_, ?_⟩
    · rw [State.groupState, second.group t, if_neg htu, xGroup, first.group t, if_pos rfl]
    · rw [State.groupState, second.group u, if_pos rfl]
  have due : y.dueByAge = s.dueByAge := by
    have limit : y.ageLimit = s.ageLimit := by rw [second.ageLimit, xLimit, first.ageLimit, lostLimit]
    refine List.filter_congr fun v _ => ?_
    unfold State.agesOut
    by_cases hvt : v = t
    · subst hvt
      rw [yBroken.1, ht]
      rfl
    by_cases hvu : v = u
    · subst hvu
      rw [yBroken.2, hu]
      rfl
    · rw [State.groupState, State.groupState, yGroup v hvt hvu, limit]
  have aged : s.dueByAge.map y.agedOut = s.dueByAge.map (fun v => (⟨.groupRevoked, s.tickCounter + 1, some v,
      some ((s.group v).sequence.getD 0), some ((s.group v).partition.getD 0), none, some 1⟩ : Incident)) :=
    List.map_congr_left fun v hv => by
      have opened_ : s.groupState v = .opened := by
        have := (List.mem_filter.mp hv).2
        simp only [State.agesOut, Bool.and_eq_true, beq_iff_eq] at this
        exact this.1.1
      unfold State.agedOut
      rw [yGroup v (fun h => by subst h; rw [opened_] at ht; cases ht)
        (fun h => by subst h; rw [opened_] at hu; cases hu), yTick]
  have xRestore : x.restoreFailed u =
      ⟨.restoreFailed, s.tickCounter + 1, some u, some ((s.group u).sequence.getD 0), some q, none, some 0⟩ := by
    unfold State.restoreFailed
    rw [xTick, first.tickCounter, lostTick, xGroup, brokenOther u htu.symm, hq, xFirst, xFailed]
    rfl
  have lostRestore : lost.restoreFailed t = ⟨.restoreFailed, s.tickCounter + 1, some t,
      some ((s.group t).sequence.getD 0), some ((s.group t).partition.getD 0),
      some (s.engine.firstFailed.getD c.line), some (s.engine.failedLines + 1)⟩ := by
    unfold State.restoreFailed
    rw [lostTick, lostGroup, hlost]
    show Incident.mk _ _ _ _ _ (late.engine.lineLost c).firstFailed (some (late.engine.lineLost c).failedLines) = _
    rw [engine_]
    rfl
  have lostIncidents : lost.incidents = (⟨.arrayTimeout, s.tickCounter + 1, none, none, (s.group t).partition,
      some (lineOf r.address), some 6⟩ :: s.incidents).take 8 := by
    rw [hlost]
    exact lateIncidents
  refine ⟨y.agesTaken, ?_, ?_, ?_, ?_⟩
  · rw [tick_outside_shutdown s hd (timedEq ▸ yCtrl), timedEq]
  · rw [agesTaken_group y t (by rw [yBroken.1]; nofun)]
    exact yBroken.1
  · rw [agesTaken_group y u (by rw [yBroken.2]; nofun)]
    exact yBroken.2
  · rw [agesTaken_incidents y yCtrl (by rw [second.incidents]; simp), due, aged, second.incidents, xIncidents,
      first.incidents, xRestore, lostRestore, lostIncidents, take_append_take, List.append_assoc]
    exact take_nested_takes 8 _ _ _ _ _

end Sys2Proof.Machine
end

section
/-! O31: a tick. -/

namespace Sys2Proof.Machine

/-- The engine rests at the state in which the counts have gone on. -/
theorem counted_rests (s : State) (h : s.controller = .shutdown ∧ s.scanner.current = none ∨
    s.controller ≠ .shutdown ∧ s.engine.state = .idle ∧ s.engine.waiting = [] ∧ s.engine.currentLine = none) :
    s.counted.rests :=
  h.imp id fun ⟨hc, hidle, hwait, hline⟩ => ⟨hc, hidle, by
    show s.engine.waiting.length ≤ 0
    rw [hwait]
    exact Nat.le_refl 0, hline⟩

/-- A member's home write times out at a tick: its group is revoked with cause ARRAY, and does not age (R17, R94). -/
theorem tick_of_member (s : State) (r : PortRecord) (e : Entry) (t : Tag) (m : Member) (hd : s.direct = true)
    (hn : (s.outstanding.map (·.number)).Nodup) (hl : s.outstanding.filter PortRecord.isLate = [r])
    (hrests : s.counted.rests) (hs : s.controller ≠ .shutdown) (hp : r.purpose = .homeWrite)
    (href : r.ref = .entry e.index) (he : s.entry e.index = some e) (hphase : e.phase = .storing)
    (ha : e.answered = false) (hg : e.group = some t) (hm : e.member = some m) (ho : s.groupState t = .opened)
    (hcr : (s.group t).commitRequest ≠ some e.index) :
    let failed := (((State.log ⟨.arrayTimeout, 0, none, none, none, some (lineOf r.address), some 3⟩
      { s.counted with outstanding := s.recordsLeft }).respond e.request.hostId .arrayError []).dropEntry e.index).log
      ⟨.homeWriteFailed, 0, some m.tag, some m.sequence, some m.partition, some e.line, none⟩
    exec .tick s = .next (State.agesTaken (failed.revoke t .array)).settle ∧
      (State.agesTaken (failed.revoke t .array)).group t = { s.group t with
        state := .unwinding, unwindOrigin := some .revoke, revokeCause := some .array, commitRequest := none } := by
  intro failed
  have late : s.counted.timeOut r.tick = State.log
      ⟨.arrayTimeout, 0, none, none, none, some (lineOf r.address), some 3⟩
      { s.counted with outstanding := s.recordsLeft } := by
    unfold State.timeOut
    rw [timeoutIncident_of_homeWrite s.counted r hp, tick_number, forget_single s hn r hl]
    exact if_neg hs
  obtain ⟨a, d, f, hlog⟩ := log_only ⟨.arrayTimeout, 0, none, none, none, some (lineOf r.address), some 3⟩
    { s.counted with outstanding := s.recordsLeft }
  have timed : s.timedOut = failed.revoke t .array := by
    rw [timedOut_of_single s r hn hrests hl, deliver_of_member (s.counted.timeOut r.tick) r.tick e t m
      ((tick_purpose r).trans hp) ((tick_ref r).trans href) (by rw [late, hlog]; exact he) hphase ha hg hm
      (by rw [late, hlog]; exact hcr), late]
  have goes := (timedOut_of_rests s hn hrests).2
  have failedGroup : failed.group = s.group := by
    simp only [failed]
    rw [log_eq, log_eq]
    rfl
  have failedCtrl : failed.controller = s.controller := by
    simp only [failed]
    rw [log_eq, log_eq]
    rfl
  have revoked := revoke_group_self failed t .array (by rw [failedCtrl]; exact hs)
    (by rw [State.groupState, failedGroup]; rw [State.groupState] at ho; rw [ho]; rfl)
  rw [failedGroup] at revoked
  refine ⟨?_, ?_⟩
  · rw [tick_outside_shutdown s hd (fun h => hs (goes.controller.mp h)), timed]
  · rw [agesTaken_group (failed.revoke t .array) t (by rw [State.groupState, revoked]; nofun), revoked]

/-- Settles O31, from the timeouts and the ages apart. -/
theorem tickIsTaken : Obligations.TickIsTaken := by
  unfold Obligations.TickIsTaken
  intro s
  refine ⟨fun hr => lineEvent_in_reset s State.tick hr, fun hr => tick_completes s hr, fun hd => ?_⟩
  intro counts counted due ages isLate late left engineRests
  refine ⟨fun hl => ⟨fun hs => ?_, fun hs => ?_⟩, fun hn => ⟨fun hrests => ?_, fun hrests hs hi href hlate => ?_,
    fun r e t m hl hrests hs hp href he hphase ha hg hm ho hcr => ?_, fun r hl hopen => ⟨fun hp hrests => ?_,
    fun hp hc hfree hentries hmarks hidle hwait hline => ?_⟩,
    fun r c t u q hl hs hp href hstate hc hline hstep hset hwait ht hu htu hq hf hclaims hreads => ?_⟩⟩
  · have timed := timedOut_of_none s hl
    rw [tick_in_shutdown s hd (by rw [timed]; exact hs), timed]
    rfl
  · have timed := timedOut_of_none s hl
    rw [tick_outside_shutdown s hd (by rw [timed]; exact hs), timed]
    rfl
  · obtain ⟨timed, goes⟩ := timedOut_of_rests s hn (counted_rests s hrests)
    refine ⟨fun hs => ?_, fun hs => ?_⟩
    · rw [tick_in_shutdown s hd (goes.controller.mpr hs), timed]
      rfl
    · rw [tick_outside_shutdown s hd (fun h => hs (goes.controller.mp h)), timed]
      rfl
  · exact tick_of_awaits s hd hn (counted_rests s hrests) hs hi late rfl href fun r hr => by
      obtain ⟨e, he, href, hgroup, hmember, hphase⟩ := hlate r hr
      exact ⟨e, he, href, hgroup, hmember, hphase⟩
  · exact tick_of_member s r e t m hd hn hl (counted_rests s hrests) hs hp href he hphase ha hg hm ho hcr
  · refine tick_is_arrayTimeout s r hd hn (counted_rests s hrests) hl hopen ?_
    simp only [List.mem_cons, List.not_mem_nil, or_false] at hp
    rcases hp with hp | hp | hp | hp | hp | hp | hp <;> rw [hp] <;> rfl
  · have outside : s.controller ≠ .shutdown := by
      rcases hc with hc | hc <;> rw [hc] <;> nofun
    refine tick_is_arrayTimeout_of_still s r hd hn (counted_rests s (.inr ⟨outside, hidle, hwait, hline⟩)) hl
      ⟨hc, hfree, hentries, hmarks, hidle, hwait⟩ ?_
    simp only [List.mem_cons, List.not_mem_nil, or_false] at hp
    rcases hp with hp | hp | hp | hp | hp | hp | hp | hp <;> rw [hp] <;> rfl
  · exact tick_fails_two s r c t u q hd hn hl hs hp href hc hline hstep hset hwait ht hu htu hq hf hclaims hreads

end Sys2Proof.Machine
end
